-- ==== Sys2Proof/Word.lean ====
section
/-! DEFINITION. The word types of the block: a physical address, a descriptor field and a command
operand are one 32-bit word, a slot count or slot index is 16 bits, a byte is 8 bits
(00_scope.md R5; 92_eei_decisions.md D1). -/

namespace Sys2Proof

/-- An address, a descriptor word, a command header or operand word (`ADDR_W = 32`, R5, R80). -/
abbrev Word := BitVec 32

/-- A slot count or a slot index (16 bits, R12, R13). -/
abbrev Half := BitVec 16

/-- One addressable unit of main memory (R5). -/
abbrev Byte := BitVec 8

end Sys2Proof
end

