-- ==== Sys2Proof/Syntax.lean ====
section
/-! DEFINITION. The commands and dispatch events of the block: one constructor for every row of
spec/opcode_table.json (30_encoding.md R83, R95). -/

namespace Sys2Proof

/-- The two descriptor rings (R6): receive (select bit 0) and transmit (select bit 1). -/
inductive Ring where
  | rx
  | tx
  deriving DecidableEq, Repr

/-- The twenty-four commands of R83 with their operands in the order of the table, and the two
dispatch events of R95. `x` is the header's ring select, `n` its 16-bit count, `m` its 3-bit mask;
a `Word` operand is one operand word. -/
inductive Instr where
  /-- 0x01 `CREATE` (R111). -/
  | create (x : Ring) (n : Half) (regionBase regionSize alignment maxLen : Word)
  /-- 0x02 `INIT_SLOTS` (R112). -/
  | initSlots (x : Ring) (bufAddr length ctrl sts : Word)
  /-- 0x03 `RESERVE` (R113). -/
  | reserve (x : Ring) (n : Half)
  /-- 0x04 `UNRESERVE` (R114). -/
  | unreserve (x : Ring) (n : Half) (first : Word)
  /-- 0x05 `COMMIT` (R115). -/
  | commit (x : Ring) (n : Half) (first : Word)
  /-- 0x06 `DRAIN` (R116). -/
  | drain (x : Ring) (n : Half)
  /-- 0x07 `FREE` (R117). -/
  | free (x : Ring) (n : Half) (first : Word)
  /-- 0x08 `START` (R118). -/
  | start (x : Ring)
  /-- 0x09 `STOP` (R119). -/
  | stop (x : Ring)
  /-- 0x0A `IRQ_ENABLE` (R120). -/
  | irqEnable (x : Ring) (m : BitVec 3)
  /-- 0x0B `IRQ_DISABLE` (R121). -/
  | irqDisable (x : Ring) (m : BitVec 3)
  /-- 0x0C `IRQ_GET` (R122). -/
  | irqGet (x : Ring)
  /-- 0x0D `IRQ_ACK` (R123). -/
  | irqAck (x : Ring) (m : BitVec 3)
  /-- 0x0E `RESET` (R124). -/
  | reset
  /-- 0x0F `RESET_DONE` (R125). -/
  | resetDone
  /-- 0x10 `BD_SET_ADDR` (R126). -/
  | bdSetAddr (x : Ring) (desc addr : Word)
  /-- 0x11 `BD_SET_LEN` (R127). -/
  | bdSetLen (x : Ring) (desc len : Word)
  /-- 0x12 `BD_SET_CTRL` (R128): `m` is the header's whole 3-bit field, of which only `m[1:0]` may be
  non-zero (see `Instr.wellFormed`). -/
  | bdSetCtrl (x : Ring) (m : BitVec 3) (desc : Word)
  /-- 0x13 `BD_GET_ADDR` (R129). -/
  | bdGetAddr (x : Ring) (desc : Word)
  /-- 0x14 `BD_GET_LEN` (R130). -/
  | bdGetLen (x : Ring) (desc : Word)
  /-- 0x15 `BD_GET_STS` (R131). -/
  | bdGetSts (x : Ring) (desc : Word)
  /-- 0x16 `BD_NEXT` (R132). -/
  | bdNext (x : Ring) (desc : Word)
  /-- 0x20 `INITIALIZE` (R97, R151 to R154): `n` is `descriptor_count`. -/
  | initEngine (n : Half) (deviceId rxVec rxPrio txVec txPrio rxBdBase txBdBase bufSize rxBufBase
      txBufBase callback userCtx : Word)
  /-- 0x21 `TRANSMIT` (R155). -/
  | transmit (buffer size : Word)
  /-- Dispatch event `IRQ_RX`, event code `0b10` (R95, R170). -/
  | irqRx
  /-- Dispatch event `IRQ_TX`, event code `0b11` (R95, R200). -/
  | irqTx
  deriving DecidableEq, Repr

end Sys2Proof
end

