-- ==== Sys2Proof/WellFormed.lean ====
section
/-! DEFINITION. Which terms of `Instr` are instructions of the block. The widths of the operand
types already hold every field to its size; what is left is the one field that a command uses only
in part (30_encoding.md R83, R85, R91). -/

namespace Sys2Proof

/-- R83, R128: `BD_SET_CTRL` uses only `m[1:0]`; `m[2]` must be 0. Every other term is well formed. -/
def Instr.wellFormed : Instr → Bool
  | .bdSetCtrl _ m _ => !m.getLsbD 2
  | .create _ _ _ _ _ _ | .initSlots _ _ _ _ _ | .reserve _ _ | .unreserve _ _ _
  | .commit _ _ _ | .drain _ _ | .free _ _ _ | .start _ | .stop _ | .irqEnable _ _
  | .irqDisable _ _ | .irqGet _ | .irqAck _ _ | .reset | .resetDone | .bdSetAddr _ _ _
  | .bdSetLen _ _ _ | .bdGetAddr _ _ | .bdGetLen _ _ | .bdGetSts _ _ | .bdNext _ _
  | .initEngine _ _ _ _ _ _ _ _ _ _ _ _ _ | .transmit _ _ | .irqRx | .irqTx => true

end Sys2Proof
end

