-- ==== Sys2Proof/Decode.lean ====
section
/-! DEFINITION. Decoding of the command port's words and of the dispatch port's event codes, and the
encoder written from the same tables (30_encoding.md R80 to R83, R91, R95, R97, R98). A command is a
header word `op[31:24] ring[23] rsv[22:19] m[18:16] n[15:0]` followed by the operand words that its
opcode alone fixes. -/

namespace Sys2Proof

/-! ### Header fields (R80) -/

/-- Header bits [31:24]. -/
def opField (w : Word) : BitVec 8 := w.extractLsb' 24 8

/-- Header bit [23]: 0 selects RX, 1 selects TX. -/
def ringField (w : Word) : Ring := if w.getLsbD 23 then .tx else .rx

/-- Header bits [22:19], reserved, must be 0. -/
def rsvField (w : Word) : BitVec 4 := w.extractLsb' 19 4

/-- Header bits [18:16]. -/
def mField (w : Word) : BitVec 3 := w.extractLsb' 16 3

/-- Header bits [15:0]. -/
def nField (w : Word) : Half := w.extractLsb' 0 16

/-- The header's ring-select bit of a ring. -/
def Ring.bit : Ring → BitVec 1
  | .rx => 0#1
  | .tx => 1#1

/-- A header word from its fields, `rsv = 0` (R80). -/
def header (op : BitVec 8) (x : Ring) (m : BitVec 3) (n : Half) : Word :=
  op ++ x.bit ++ 0#4 ++ m ++ n

/-! ### The opcode map (R83) -/

/-- One row of the opcode map: the header fields the command uses and how many operand words follow. -/
structure OpRow where
  /-- Opcode, header bits [31:24]. -/
  op : BitVec 8
  /-- Whether the row uses the ring select. -/
  usesRing : Bool
  /-- The bits of `m` the row uses. -/
  mBits : BitVec 3
  /-- Whether the row uses `n`. -/
  usesN : Bool
  /-- Number of operand words (R98). -/
  operands : Nat
  deriving DecidableEq, Repr

/-- R83, row by row. -/
def opcodeMap : List OpRow :=
  [⟨0x01, true, 0, true, 4⟩, ⟨0x02, true, 0, false, 4⟩, ⟨0x03, true, 0, true, 0⟩,
   ⟨0x04, true, 0, true, 1⟩, ⟨0x05, true, 0, true, 1⟩, ⟨0x06, true, 0, true, 0⟩,
   ⟨0x07, true, 0, true, 1⟩, ⟨0x08, true, 0, false, 0⟩, ⟨0x09, true, 0, false, 0⟩,
   ⟨0x0A, true, 7, false, 0⟩, ⟨0x0B, true, 7, false, 0⟩, ⟨0x0C, true, 0, false, 0⟩,
   ⟨0x0D, true, 7, false, 0⟩, ⟨0x0E, false, 0, false, 0⟩, ⟨0x0F, false, 0, false, 0⟩,
   ⟨0x10, true, 0, false, 2⟩, ⟨0x11, true, 0, false, 2⟩, ⟨0x12, true, 3, false, 1⟩,
   ⟨0x13, true, 0, false, 1⟩, ⟨0x14, true, 0, false, 1⟩, ⟨0x15, true, 0, false, 1⟩,
   ⟨0x16, true, 0, false, 1⟩, ⟨0x20, false, 0, true, 12⟩, ⟨0x21, false, 0, false, 2⟩]

/-- The row of an opcode, if it is one of R83's. -/
def opRow (op : BitVec 8) : Option OpRow := opcodeMap.find? fun r => r.op == op

/-- R91: `rsv` and every field the row does not use are zero. -/
def OpRow.legal (r : OpRow) (w : Word) : Bool :=
  rsvField w == 0 && (r.usesRing || ringField w == .rx) && (mField w &&& ~~~r.mBits) == 0 &&
    (r.usesN || nField w == 0)

/-- The command that header fields and exactly its operand words stand for (R81, R83, R97). -/
def buildFrom (op : BitVec 8) (x : Ring) (m : BitVec 3) (n : Half) (ws : List Word) : Option Instr :=
  match op.toNat, ws with
  | 0x01, [a, b, c, d] => some (.create x n a b c d)
  | 0x02, [a, b, c, d] => some (.initSlots x a b c d)
  | 0x03, [] => some (.reserve x n)
  | 0x04, [a] => some (.unreserve x n a)
  | 0x05, [a] => some (.commit x n a)
  | 0x06, [] => some (.drain x n)
  | 0x07, [a] => some (.free x n a)
  | 0x08, [] => some (.start x)
  | 0x09, [] => some (.stop x)
  | 0x0A, [] => some (.irqEnable x m)
  | 0x0B, [] => some (.irqDisable x m)
  | 0x0C, [] => some (.irqGet x)
  | 0x0D, [] => some (.irqAck x m)
  | 0x0E, [] => some .reset
  | 0x0F, [] => some .resetDone
  | 0x10, [a, b] => some (.bdSetAddr x a b)
  | 0x11, [a, b] => some (.bdSetLen x a b)
  | 0x12, [a] => some (.bdSetCtrl x m a)
  | 0x13, [a] => some (.bdGetAddr x a)
  | 0x14, [a] => some (.bdGetLen x a)
  | 0x15, [a] => some (.bdGetSts x a)
  | 0x16, [a] => some (.bdNext x a)
  | 0x20, [a, b, c, d, e, f, g, h, i, j, k, l] =>
    some (.initEngine n a b c d e f g h i j k l)
  | 0x21, [a, b] => some (.transmit a b)
  | _, _ => none

/-- The command that a header and exactly its operand words stand for. -/
def build (w : Word) (ws : List Word) : Option Instr :=
  buildFrom (opField w) (ringField w) (mField w) (nField w) ws

/-- What a decoder reads from a port. -/
inductive Decoded where
  /-- A legal command; `rest` is what follows it on the port. -/
  | instr (i : Instr) (rest : List Word)
  /-- R91: an illegal header with opcode field `op`; only the header is consumed. -/
  | invalidCommand (op : BitVec 8) (rest : List Word)
  /-- No header yet, or a legal header whose operand words have not all arrived. -/
  | incomplete
  deriving DecidableEq, Repr

/-- The command port's decoder (R83, R91, R98): total on any words. -/
def decodeCommand : List Word → Decoded
  | [] => .incomplete
  | w :: ws =>
    match opRow (opField w) with
    | none => .invalidCommand (opField w) ws
    | some r =>
      if r.legal w then
        if ws.length < r.operands then .incomplete
        else
          match build w (ws.take r.operands) with
          | some i => .instr i (ws.drop r.operands)
          | none => .invalidCommand (opField w) ws
      else .invalidCommand (opField w) ws

/-- The dispatch port's decoder (R95): `0b10` is `IRQ_RX`, `0b11` is `IRQ_TX`; `0b00` and `0b01` are
reserved and ignored. -/
def decodeEvent (e : BitVec 2) : Option Instr :=
  if e = 2#2 then some .irqRx else if e = 3#2 then some .irqTx else none

/-- The event code of a word of the opcode table's two `EVT` rows, whose pseudo-opcodes are 0x30 and
0x31 (R95); no other word stands for an event. -/
def eventCode (w : Word) : Option (BitVec 2) :=
  if opField w = 0x30 then some 2#2 else if opField w = 0x31 then some 3#2 else none

/-- The opcode table's decoder: an `EVT` row's word stands for the event code on the dispatch port, any
other word is the header of a command on the command port (R83, R95). -/
def decode : List Word → Decoded
  | [] => .incomplete
  | w :: ws =>
    match eventCode w with
    | some e =>
      match decodeEvent e with
      | some i => .instr i ws
      | none => .incomplete
    | none => decodeCommand (w :: ws)

/-! ### The encoder (R80 to R83, R95, R97) -/

/-- The opcode of each command (R83) and the pseudo-opcode of each event (R95). -/
def Instr.opcode : Instr → BitVec 8
  | .create _ _ _ _ _ _ => 0x01
  | .initSlots _ _ _ _ _ => 0x02
  | .reserve _ _ => 0x03
  | .unreserve _ _ _ => 0x04
  | .commit _ _ _ => 0x05
  | .drain _ _ => 0x06
  | .free _ _ _ => 0x07
  | .start _ => 0x08
  | .stop _ => 0x09
  | .irqEnable _ _ => 0x0A
  | .irqDisable _ _ => 0x0B
  | .irqGet _ => 0x0C
  | .irqAck _ _ => 0x0D
  | .reset => 0x0E
  | .resetDone => 0x0F
  | .bdSetAddr _ _ _ => 0x10
  | .bdSetLen _ _ _ => 0x11
  | .bdSetCtrl _ _ _ => 0x12
  | .bdGetAddr _ _ => 0x13
  | .bdGetLen _ _ => 0x14
  | .bdGetSts _ _ => 0x15
  | .bdNext _ _ => 0x16
  | .initEngine _ _ _ _ _ _ _ _ _ _ _ _ _ => 0x20
  | .transmit _ _ => 0x21
  | .irqRx => 0x30
  | .irqTx => 0x31

/-- An instruction that is a ring primitive (opcodes 0x01 to 0x16, R83). -/
def isPrimitive (i : Instr) : Bool := decide (i.opcode.toNat ≤ 0x16)

/-- The operand words of each command, in R83's order. -/
def Instr.operandWords : Instr → List Word
  | .create _ _ a b c d => [a, b, c, d]
  | .initSlots _ a b c d => [a, b, c, d]
  | .unreserve _ _ a => [a]
  | .commit _ _ a => [a]
  | .free _ _ a => [a]
  | .bdSetAddr _ a b => [a, b]
  | .bdSetLen _ a b => [a, b]
  | .bdSetCtrl _ _ a => [a]
  | .bdGetAddr _ a => [a]
  | .bdGetLen _ a => [a]
  | .bdGetSts _ a => [a]
  | .bdNext _ a => [a]
  | .initEngine _ a b c d e f g h i j k l => [a, b, c, d, e, f, g, h, i, j, k, l]
  | .transmit a b => [a, b]
  | .reserve _ _ | .drain _ _ | .start _ | .stop _ | .irqEnable _ _ | .irqDisable _ _ | .irqGet _
  | .irqAck _ _ | .reset | .resetDone | .irqRx | .irqTx => []

/-- The header's ring select: RX (bit 0) where the command does not use it. -/
def Instr.ringSelect : Instr → Ring
  | .create x _ _ _ _ _ | .initSlots x _ _ _ _ | .reserve x _ | .unreserve x _ _ | .commit x _ _
  | .drain x _ | .free x _ _ | .start x | .stop x | .irqEnable x _ | .irqDisable x _ | .irqGet x
  | .irqAck x _ | .bdSetAddr x _ _ | .bdSetLen x _ _ | .bdSetCtrl x _ _ | .bdGetAddr x _
  | .bdGetLen x _ | .bdGetSts x _ | .bdNext x _ => x
  | .reset | .resetDone | .initEngine _ _ _ _ _ _ _ _ _ _ _ _ _ | .transmit _ _ | .irqRx
  | .irqTx => .rx

/-- The header's `m`: 0 where the command does not use it. -/
def Instr.maskField : Instr → BitVec 3
  | .irqEnable _ m | .irqDisable _ m | .irqAck _ m | .bdSetCtrl _ m _ => m
  | .create _ _ _ _ _ _ | .initSlots _ _ _ _ _ | .reserve _ _ | .unreserve _ _ _ | .commit _ _ _
  | .drain _ _ | .free _ _ _ | .start _ | .stop _ | .irqGet _ | .reset | .resetDone
  | .bdSetAddr _ _ _ | .bdSetLen _ _ _ | .bdGetAddr _ _ | .bdGetLen _ _ | .bdGetSts _ _
  | .bdNext _ _ | .initEngine _ _ _ _ _ _ _ _ _ _ _ _ _ | .transmit _ _ | .irqRx | .irqTx => 0

/-- The header's `n`: 0 where the command does not use it. -/
def Instr.countField : Instr → Half
  | .create _ n _ _ _ _ | .reserve _ n | .unreserve _ n _ | .commit _ n _ | .drain _ n
  | .free _ n _ | .initEngine n _ _ _ _ _ _ _ _ _ _ _ _ => n
  | .initSlots _ _ _ _ _ | .start _ | .stop _ | .irqEnable _ _ | .irqDisable _ _ | .irqGet _
  | .irqAck _ _ | .reset | .resetDone | .bdSetAddr _ _ _ | .bdSetLen _ _ _ | .bdSetCtrl _ _ _
  | .bdGetAddr _ _ | .bdGetLen _ _ | .bdGetSts _ _ | .bdNext _ _ | .transmit _ _ | .irqRx
  | .irqTx => 0

/-- The words of an instruction: its header and its operand words. -/
def encode (i : Instr) : List Word :=
  header i.opcode i.ringSelect i.maskField i.countField :: i.operandWords

/-! ### Words of the opcode table -/

/-- The number of operand words of the longest command (`INITIALIZE`, R97). -/
def maxOperandWords : Nat := 12

/-- A table word laid out as the words of a port: bit 0 is the least significant bit of the header, the
operand words count on from it; every bit from `nbits` up is 0, as far as the longest command. -/
def tableWords (nbits w : Nat) : List Word :=
  (List.range (maxOperandWords + 1)).map fun k => BitVec.ofNat 32 ((w % 2 ^ nbits) >>> (32 * k))

/-- The instruction the decoder reads from a word of the opcode table. -/
def decodeTableWord (nbits w : Nat) : Option Instr :=
  match decode (tableWords nbits w) with
  | .instr i _ => some i
  | .invalidCommand _ _ => none
  | .incomplete => none

end Sys2Proof
end

