-- ==== Sys2Proof/Config.lean ====
section
/-! DEFINITION. What an implementation of the block fixes (the open parameters of 00_scope.md R5) and the
free values: opaque constants without a body, of which nothing can be proved, for what the spec calls
`any value` (00_scope.md R8). -/

namespace Sys2Proof

/-- The two views of main memory (R58): `sw` is what processor-side agents see, `hw` what the data mover
sees. -/
inductive View where
  | sw
  | hw
  deriving DecidableEq, Repr

/-- `P_REASM_INIT` (R5, R189): what `rs.origin` and `rs.acc` hold at handler entry. -/
inductive ReasmInit where
  | any
  | zero
  deriving DecidableEq, Repr

/-- `P_LEN_OVER_MAX` (R5, R127). -/
inductive LenOverMax where
  | reject
  | clamp
  deriving DecidableEq, Repr

/-- `P_SYNC_IRQ_OVERLAP` (R5, R280). -/
inductive SyncIrqOverlap where
  | fault
  | atomicInterleave
  deriving DecidableEq, Repr

/-- `P_NESTING` (R5, R219). -/
inductive Nesting where
  | any
  | none
  | byPriority
  deriving DecidableEq, Repr

/-- `P_RX_FRAMING` (R5, R216). -/
inductive RxFraming where
  | free
  | wellformed
  deriving DecidableEq, Repr

/-- The parameters of R5 that are neither operands of `INITIALIZE` nor answers of the configuration
lookup. They are no state of the block (R36): State carries them as plain data so that a claim about every
state is a claim about every parameter value, and no step writes them. -/
structure Params where
  /-- `BD_ALIGN`. -/
  bdAlign : Word
  /-- `RX_BD_REGION_SIZE`. -/
  rxBdRegionSize : Word
  /-- `TX_BD_REGION_SIZE`. -/
  txBdRegionSize : Word
  /-- `RX_SLOT_COUNT` where it is overridden; `none`: it is `descriptor_count` (D30). -/
  rxSlotCount : Option Half
  /-- `TX_SLOT_COUNT` where it is overridden; `none`: it is `descriptor_count` (D30). -/
  txSlotCount : Option Half
  /-- `RESET_POLL_BUDGET` (R174). -/
  resetPollBudget : Word
  /-- `P_REARM_ON_EMPTY` (R176). -/
  rearmOnEmpty : Bool
  /-- `P_REASM_PERSIST` (R186, R189). -/
  reasmPersist : Bool
  /-- `P_REASM_INIT` (R189). -/
  reasmInit : ReasmInit
  /-- `P_BD_ERROR_SKIP` (R178). -/
  bdErrorSkip : Bool
  /-- `P_LEN_OVER_MAX` (R127). -/
  lenOverMax : LenOverMax
  /-- `P_SYNC_IRQ_OVERLAP` (R280). -/
  syncIrqOverlap : SyncIrqOverlap
  /-- `P_NESTING` (R219). -/
  nesting : Nesting
  /-- `P_RESET_TIMEOUT_FLAG` (R174). -/
  resetTimeoutFlag : Bool
  /-- `P_RX_FRAMING` (R216). -/
  rxFraming : RxFraming
  deriving DecidableEq, Repr

/-- The three answers of the external configuration lookup and the two capabilities it reports
(R151, R223). -/
structure Lookup where
  cfgFound : Bool
  cfgBindOk : Bool
  hasSg : Bool
  /-- `MAX_LEN[RX]`. -/
  maxLenRx : Word
  /-- `MAX_LEN[TX]`. -/
  maxLenTx : Word
  deriving DecidableEq, Repr

/-- Every `P_*` switch at the default R5 gives it; the open sizes and counts at the values of the spec's
common configuration `CFG-A` (95_test_vectors.md), which R5 leaves OPEN.
DESIGN CHOICE (log entry 2): unsafe; no statement rests on these values. -/
def Config.params : Params :=
  { bdAlign := 64, rxBdRegionSize := 0x100, txBdRegionSize := 0x40, rxSlotCount := some 4,
    txSlotCount := some 1, resetPollBudget := 3, rearmOnEmpty := false, reasmPersist := false,
    reasmInit := .any, bdErrorSkip := false, lenOverMax := .reject, syncIrqOverlap := .fault,
    nesting := .any, resetTimeoutFlag := false, rxFraming := .free }

/-- The lookup's answers that stand at the block's input at reset: those of `CFG-A`.
DESIGN CHOICE (log entry 2): unsafe; an external move may change them before any `INITIALIZE`. -/
def Config.lookup : Lookup :=
  { cfgFound := true, cfgBindOk := true, hasSg := true, maxLenRx := 0xFFFF, maxLenTx := 0xFFFF }

/-- FREE VALUE: the power-on content of each byte of each view, which the spec leaves unspecified
(R32, R58). Log entry 3. -/
opaque Config.powerOnByte : View → Nat → Byte

/-- FREE VALUE: bits [31:3] of an `IRQ_GET` status word (R87, R122), drawn anew at each read.
Log entry 4. -/
opaque Config.freeStatusBits : Nat → BitVec 29

/-- FREE VALUE: `rs.origin` at the entry of an RX handler invocation with `P_REASM_INIT = any` (R189).
Log entry 5. -/
opaque Config.freeOrigin : Nat → Word

/-- FREE VALUE: `rs.acc` at the entry of an RX handler invocation with `P_REASM_INIT = any` (R189).
Log entry 5. -/
opaque Config.freeAcc : Nat → Word

end Sys2Proof
end

