-- ==== Sys2Proof/Machine/State.lean ====
section
/-! DEFINITION. The architectural state of the block, as plain data (10_state.md), the reasons a step can
stop, and the state after power-on reset (10_state.md R32, 70_reset_and_hazards.md R270). -/

namespace Sys2Proof.Machine

/-! ### Reasons to stop -/

/-- The sticky faults of R34, R88, R250. Each is recorded in `State.fault` by the step that meets it; a
step from a state that carries one stops with it ("after a fault no agent steps"). -/
inductive Fault where
  /-- 0x80: a handler enters `Draining` while the synchronous path is inside its ring and
  `P_SYNC_IRQ_OVERLAP = fault` (R175, R204, R280). Raised by RXH and TXH. Safe: the spec's own stop. -/
  | concurrentRingAccess
  /-- 0x81: a primitive issued by a sequencer returned an error code (R187, R209). Raised by RXH and TXH.
  Safe: the spec's own stop. -/
  | sequencerPrimitiveError
  /-- 0x82: delivery of a packet with a null callback (R221). Raised by RXH. Safe: the spec's own stop. -/
  | noCallback
  deriving DecidableEq, Repr

/-- The reasons a step is refused. -/
inductive Refusal where
  /-- The instruction has no meaning in the model yet. Raised by `exec` only. Safe. -/
  | notModelled (mnemonic : String)
  /-- The state carries the sticky `refused` mark of R34: an earlier step met a situation to which the spec
  gives no meaning. Raised by `step`. Safe: nothing is claimed of the rest of the run (R8, R240). -/
  | outsideSpec
  deriving DecidableEq, Repr

/-! ### Enumerated values -/

/-- `eng.state` (R11). -/
inductive EngState where
  | uninit
  | initializing
  | ready
  | halted
  deriving DecidableEq, Repr

/-- `rxh.state` and `txh.state` (R23, R24, R89). -/
inductive SeqState where
  | idle
  | acknowledged
  | errorRecovery
  | draining
  | rearmed
  deriving DecidableEq, Repr

/-- `rxh.phase` (R23, R89). -/
inductive RxPhase where
  | drain
  | walk
  | free
  | reserve
  | populate
  | commit
  | enable
  deriving DecidableEq, Repr

/-- `txh.phase` (R24, R89). -/
inductive TxPhase where
  | drain
  | free
  | enable
  deriving DecidableEq, Repr

/-- `sync.op` (R26, R90). -/
inductive SyncOp where
  | none
  | initEngine
  | transmit
  | primitive
  deriving DecidableEq, Repr

/-- The agents that share the processor (R10, R27). -/
inductive Agent where
  | sync
  | rxh
  | txh
  deriving DecidableEq, Repr

/-- The five groups a slot of a ring falls in (R14). -/
inductive SlotState where
  | drained
  | completed
  | posted
  | reserved
  | free
  deriving DecidableEq, Repr

/-- The four fields of a descriptor record (R18, R84). -/
inductive BdField where
  | bufAddr
  | length
  | ctrl
  | sts
  deriving DecidableEq, Repr

/-- The interrupt sources of a ring (R21, R87). -/
inductive IrqSource where
  | completion
  | delayTimeout
  | error
  deriving DecidableEq, Repr

/-- The response codes 0 to 15 of R88. -/
inductive Code where
  | success
  | configurationMissing
  | configMismatch
  | unsupportedMode
  | noSlotsAvailable
  | payloadTooLarge
  | hardwareError
  | resetTimeout
  | ringRegionTooSmall
  | ringRegionMisaligned
  | invalidParameter
  | ringOrderViolation
  | invalidDescriptor
  | ringBusy
  | ringNotCreated
  | invalidCommand
  deriving DecidableEq, Repr

/-! ### Records of registers -/

/-- `eng.cfg`: the parameter block latched by the last `INITIALIZE` (R11, R97). -/
structure EngCfg where
  deviceId : Word
  rxVec : Word
  rxPrio : Word
  txVec : Word
  txPrio : Word
  rxBdBase : Word
  txBdBase : Word
  descCount : Half
  bufSize : Word
  rxBufBase : Word
  txBufBase : Word
  callback : Word
  userCtx : Word
  deriving DecidableEq, Repr

/-- One ring's registers: static (R12), bookkeeping (R13), channel control and interrupts (R20, R21). -/
structure RingRegs where
  created : Bool
  base : Word
  slotCount : Half
  slotStride : Word
  maxLen : Word
  /-- The model's own: the operand `region_size` of the `CREATE` that made the ring, so that the ring's
  descriptor region (R51, R62) is known. Log entry 10. -/
  regionSize : Word
  /-- Index of the oldest slot that is not free. -/
  postHead : Half
  /-- Drained slots. -/
  postCnt : Half
  /-- Slots handed to hardware and not yet drained. -/
  hwCnt : Half
  /-- Hidden: how many of those the data mover has completed. -/
  doneCnt : Half
  /-- Reserved slots. -/
  preCnt : Half
  /-- Free slots. -/
  freeCnt : Half
  run : Bool
  irqEn : BitVec 3
  irqPend : BitVec 3
  deriving DecidableEq, Repr

/-- Controller reset state, shared by both rings (R22). -/
structure Ctl where
  resetting : Bool
  resetDone : Bool
  resetTimeout : Bool
  deriving DecidableEq, Repr

/-- RX sequencer registers (R23). -/
structure Rxh where
  state : SeqState
  phase : RxPhase
  irq : BitVec 3
  count : Half
  first : Half
  first2 : Half
  i : Half
  poll : Word
  deriving DecidableEq, Repr

/-- TX sequencer registers (R24). -/
structure Txh where
  state : SeqState
  phase : TxPhase
  irq : BitVec 3
  count : Half
  first : Half
  poll : Word
  deriving DecidableEq, Repr

/-- Packet reassembly state (R25). -/
structure Reasm where
  origin : Word
  acc : Word
  complete : Bool
  deriving DecidableEq, Repr

/-- Synchronous-path state (R26): the operation in progress, its next micro-step, the ring it is inside,
its latched operands and its temporaries. -/
structure Sync where
  op : SyncOp
  step : BitVec 8
  busyRing : Option Ring
  /-- `sync.d`: the reserved slot index. -/
  d : Half
  /-- `sync.i`: loop index. -/
  i : Half
  /-- The latched command of a `PRIMITIVE`: its opcode and operands (R26, R136, R150). -/
  prim : Option Instr
  /-- The latched operands of `INITIALIZE` (R97). -/
  cfg : EngCfg
  /-- The latched answers of the configuration lookup (R151). -/
  lookup : Lookup
  /-- Latched operand `buffer` of `TRANSMIT`. -/
  buffer : Word
  /-- Latched operand `size` of `TRANSMIT`. -/
  size : Word
  /-- The code `e` that `TRANSMIT` carries from T5 or T7 to T8 (R155). -/
  err : Code
  deriving DecidableEq, Repr

/-- One view of main memory: the bytes that are known, by address (R35, R58). A byte that is not listed has
no known value (see `Memory.wf`). -/
structure Memory where
  cells : List Host.Cell
  deriving DecidableEq, Repr

/-- The canonical form of a view: addresses strictly rising and inside the address space of R50. An
unlisted address holds no known byte, and an entry is always a known byte, so no entry equals what an
unlisted address holds. -/
abbrev Memory.wf (m : Memory) : Prop :=
  m.cells.Pairwise (fun p q => p.1 < q.1) ∧ ∀ c ∈ m.cells, c.1 < 2 ^ 32

/-- The output trace's events (R29). -/
inductive Event where
  /-- One invocation of the application callback. -/
  | callback (buf len ctx : Word)
  /-- A cache-maintenance request. -/
  | invalidate (addr len : Word)
  /-- A cache-maintenance request. -/
  | flush (addr len : Word)
  /-- The response of a synchronous command: its opcode, its code and its result words (R82). -/
  | ret (op : BitVec 8) (code : Code) (results : List Word)
  /-- What the data mover sent for one TX descriptor. -/
  | txWire (bytes : List Byte)
  /-- What the data mover wrote for one RX descriptor. -/
  | rxData (slot : Half) (bytes : List Byte)
  deriving DecidableEq, Repr

/-- The moves an external schedule can ask for: which agent steps next (R10, R36) and with which draws
(R216 to R218), and the moves of the environment (R58, R220, R221, R223, R225). -/
inductive Move where
  /-- The top of `cpu.stack` takes its next micro-step (R27). -/
  | cpu
  /-- The command at the head of the command port is accepted, if it can be (R150). -/
  | command
  /-- The dispatcher takes the event at the head of the dispatch port (R95, R219). -/
  | dispatch
  /-- `@dma rx_complete` with its draws; `len` is the number of data bytes (R216). -/
  | rxComplete (sof eof err : Bool) (data : List Byte)
  /-- `@dma tx_complete` with its draws (R217). -/
  | txComplete (err : Bool) (bytes : List Byte)
  /-- `@dma raise` (R218). -/
  | raise (x : Ring) (b : IrqSource)
  /-- `@dma reset_complete` (R220). -/
  | resetComplete
  /-- The cache writes one byte back (R58). -/
  | writeBack (a : Word)
  /-- The cache refills one byte (R58). -/
  | refill (a : Word)
  /-- The application writes a byte of its own memory (R225). -/
  | appWrite (a : Word) (b : Byte)
  /-- The configuration lookup's answers change (R223). -/
  | setLookup (l : Lookup)
  /-- The callback issues a command or blocks (R221, R259). -/
  | callbackCommand
  /-- No agent steps (R262). -/
  | idle
  deriving DecidableEq, Repr

/-! ### The state -/

/-- The whole machine. The fields from `params` on are the model's own (INVENTORY.md, "State"). -/
structure State where
  /-- `eng.state` (R11). -/
  engState : EngState
  /-- `eng.cfg` (R11). -/
  cfg : EngCfg
  /-- `eng.cfg_valid` (R11). -/
  cfgValid : Bool
  /-- `ring[RX]` (R12, R13, R20, R21). -/
  rx : RingRegs
  /-- `ring[TX]` (R12, R13, R20, R21). -/
  tx : RingRegs
  /-- `ctl` (R22). -/
  ctl : Ctl
  /-- `rxh` (R23). -/
  rxh : Rxh
  /-- `txh` (R24). -/
  txh : Txh
  /-- `rs` (R25). -/
  rs : Reasm
  /-- `sync` (R26). -/
  sync : Sync
  /-- `cpu.stack`, bottom first (R27). -/
  stack : List Agent
  /-- `out` (R29). -/
  out : List Event
  /-- The sticky fault mark (R34). -/
  fault : Option Fault
  /-- The sticky refused mark (R34). -/
  refused : Bool
  /-- `mem_sw` (R35, R58). -/
  memSw : Memory
  /-- `mem_hw` (R35, R58). -/
  memHw : Memory
  /-- The words waiting on the command port, in order of arrival (R50, R80). -/
  cmdPort : List Word
  /-- The event codes waiting on the dispatch port, in order of arrival (R50, R95). -/
  evtPort : List (BitVec 2)
  /-- The implementation's parameters (R5, R36); written by no step. -/
  params : Params
  /-- The answers of the configuration lookup that stand at the input (R223). -/
  lookup : Lookup
  /-- The schedule: which moves come next (R36). -/
  agenda : List Move
  /-- How many free values have been drawn. -/
  draws : Nat
  /-- The values that `hw` bytes held before they were overwritten, latest first (for R217's "at some
  instant between"). -/
  hwLog : List Host.Cell
  /-- For each posted TX slot, oldest first, the length `hwLog` had when `COMMIT` posted it (R217). -/
  txMarks : List Nat
  /-- With `P_RX_FRAMING = wellformed`: the next RX completion begins a frame (R216). -/
  rxFrameStart : Bool
  deriving DecidableEq, Repr

/-- What a step of the machine answers. -/
abbrev Outcome := Host.Outcome State Fault Refusal

/-! ### Power-on reset (R32, R270) -/

/-- All-zero parameter block: `eng.cfg` is unspecified at reset. DESIGN CHOICE (log entry 6). -/
def EngCfg.zero : EngCfg :=
  { deviceId := 0, rxVec := 0, rxPrio := 0, txVec := 0, txPrio := 0, rxBdBase := 0, txBdBase := 0,
    descCount := 0, bufSize := 0, rxBufBase := 0, txBufBase := 0, callback := 0, userCtx := 0 }

/-- A ring at power-on: not created, stopped, masked, nothing pending, every count 0 (R32). -/
def RingRegs.reset : RingRegs :=
  { created := false, base := 0, slotCount := 0, slotStride := 0, maxLen := 0, regionSize := 0, postHead := 0,
    postCnt := 0, hwCnt := 0, doneCnt := 0, preCnt := 0, freeCnt := 0, run := false, irqEn := 0,
    irqPend := 0 }

/-- The machine right after power-on reset (R32, R270): engine `Uninit`, both rings not created, both
sequencers `Idle` and off the stack, nothing on a port, no memory byte known. -/
def State.reset : State :=
  { engState := .uninit
    cfg := EngCfg.zero
    cfgValid := false
    rx := RingRegs.reset
    tx := RingRegs.reset
    ctl := { resetting := false, resetDone := false, resetTimeout := false }
    rxh := { state := .idle, phase := .drain, irq := 0, count := 0, first := 0, first2 := 0, i := 0,
             poll := 0 }
    txh := { state := .idle, phase := .drain, irq := 0, count := 0, first := 0, poll := 0 }
    rs := { origin := 0, acc := 0, complete := false }
    sync := { op := .none, step := 0, busyRing := none, d := 0, i := 0, prim := none,
              cfg := EngCfg.zero, lookup := Config.lookup, buffer := 0, size := 0, err := .success }
    stack := []
    out := []
    fault := none
    refused := false
    memSw := ⟨[]⟩
    memHw := ⟨[]⟩
    cmdPort := []
    evtPort := []
    params := Config.params
    lookup := Config.lookup
    agenda := []
    draws := 0
    hwLog := []
    txMarks := []
    rxFrameStart := true }

end Sys2Proof.Machine
end

