-- ==== Sys2Proof/Machine/Flags.lean ====
section
/-! DEFINITION. Flags and masks: the interrupt mask and status bits (30_encoding.md R87), the descriptor
control and status flags (R84 to R86), and the numeric encodings of codes and states (R88 to R90). -/

namespace Sys2Proof.Machine

/-! ### Interrupt bits (R21, R87) -/

/-- `ALL = 0b111` (R87). -/
def irqAll : BitVec 3 := 7#3

/-- The bit of an interrupt source: `COMPLETION` 0, `DELAY_TIMEOUT` 1, `ERROR` 2 (R87). -/
def IrqSource.mask : IrqSource → BitVec 3
  | .completion => 1#3
  | .delayTimeout => 2#3
  | .error => 4#3

/-- Whether a mask has the `ERROR` bit (R172, R202). -/
def hasError (m : BitVec 3) : Bool := m.getLsbD 2

/-- `irq_line[X] = ((irq_pend & irq_en) != 0)` (R21). -/
def RingRegs.irqLine (r : RingRegs) : Bool := (r.irqPend &&& r.irqEn) != 0

/-- The status word of `IRQ_GET`: the latch in bits [2:0], unrecognised bits `u` above (R87, R122). -/
def irqStatusWord (u : BitVec 29) (pend : BitVec 3) : Word := u ++ pend

/-- The recognised bits of a status word (R87, R171). -/
def recognised (w : Word) : BitVec 3 := w.extractLsb' 0 3

/-! ### Descriptor flags (R84 to R86) -/

/-- `ctrl` as a `CTRL` word, reserved bits 0 (R84, R85). -/
def ctrlWord (flags : BitVec 2) : Word := flags.zeroExtend 32

/-- `START_OF_FRAME | END_OF_FRAME` (R85). -/
def ctrlSofEof : BitVec 2 := 3#2

/-- `sts.complete` of a `STS` word (R86). -/
def stsComplete (w : Word) : Bool := w.getLsbD 0

/-- `sts.sof` of a `STS` word (R86). -/
def stsSof (w : Word) : Bool := w.getLsbD 1

/-- `sts.eof` of a `STS` word (R86). -/
def stsEof (w : Word) : Bool := w.getLsbD 2

/-- `sts.error` of a `STS` word (R86). -/
def stsError (w : Word) : Bool := w.getLsbD 3

/-- `zext_32` of the four status flags of a `STS` word (R86, R131). -/
def stsFlags (w : Word) : Word := (w.extractLsb' 0 4).zeroExtend 32

/-- The `STS` word the data mover writes at completion: `complete = 1`, reserved bits 0 (R84, R86). -/
def stsWord (sof eof err : Bool) : Word :=
  1#32 ||| (if sof then 2#32 else 0) ||| (if eof then 4#32 else 0) ||| (if err then 8#32 else 0)

/-! ### Codes (R88) -/

/-- The 32-bit code word of a response (R82, R88). -/
def Code.toWord : Code → Word
  | .success => 0
  | .configurationMissing => 1
  | .configMismatch => 2
  | .unsupportedMode => 3
  | .noSlotsAvailable => 4
  | .payloadTooLarge => 5
  | .hardwareError => 6
  | .resetTimeout => 7
  | .ringRegionTooSmall => 8
  | .ringRegionMisaligned => 9
  | .invalidParameter => 10
  | .ringOrderViolation => 11
  | .invalidDescriptor => 12
  | .ringBusy => 13
  | .ringNotCreated => 14
  | .invalidCommand => 15

/-- The fault code of CSR `G8` (R34, R88); 0 is no fault. -/
def faultCode : Option Fault → BitVec 8
  | none => 0
  | some .concurrentRingAccess => 0x80
  | some .sequencerPrimitiveError => 0x81
  | some .noCallback => 0x82

/-- The words of a response (R82): the code, then the results, which are present only on `Success`. -/
def responseWords (code : Code) (results : List Word) : List Word :=
  code.toWord :: (if code = .success then results else [])

/-! ### State encodings (R89, R90) -/

/-- `eng.state` (R90). -/
def EngState.toBits : EngState → BitVec 2
  | .uninit => 0
  | .initializing => 1
  | .ready => 2
  | .halted => 3

/-- A sequencer's `state` (R89). -/
def SeqState.toBits : SeqState → BitVec 3
  | .idle => 0
  | .acknowledged => 1
  | .errorRecovery => 2
  | .draining => 3
  | .rearmed => 4

/-- `rxh.phase` (R89). -/
def RxPhase.toBits : RxPhase → BitVec 3
  | .drain => 0
  | .walk => 1
  | .free => 2
  | .reserve => 3
  | .populate => 4
  | .commit => 5
  | .enable => 6

/-- `txh.phase`, with the RX sequencer's numbers (R24, R89). -/
def TxPhase.toBits : TxPhase → BitVec 3
  | .drain => 0
  | .free => 2
  | .enable => 6

/-- `sync.op` (R90). -/
def SyncOp.toBits : SyncOp → BitVec 2
  | .none => 0
  | .initEngine => 1
  | .transmit => 2
  | .primitive => 3

/-- `sync.busy_ring` (R90). -/
def busyRingBits : Option Ring → BitVec 2
  | none => 0
  | some .rx => 2
  | some .tx => 3

end Sys2Proof.Machine
end

