-- ==== Sys2Proof/Machine/Operands.lean ====
section
/-! DEFINITION. Operand forms: the slot arithmetic of a ring, slot addresses and descriptor references
(20_memory.md R54; 10_state.md R13, R14; 40_ring_primitives.md R135), and the byte ranges that the
engine operations name (20_memory.md R51, R52). Counts and indices are compared and added as naturals:
`n` and the 16-bit registers are zero-extended (R81). -/

namespace Sys2Proof.Machine

/-! ### Ring positions (R13) -/

/-- `N`, the ring's slot count. -/
def RingRegs.size (r : RingRegs) : Nat := r.slotCount.toNat

/-- `hw_head = (post_head + post_cnt) mod N`. -/
def RingRegs.hwHead (r : RingRegs) : Nat := (r.postHead.toNat + r.postCnt.toNat) % r.size

/-- `pre_head = (hw_head + hw_cnt) mod N`. -/
def RingRegs.preHead (r : RingRegs) : Nat := (r.hwHead + r.hwCnt.toNat) % r.size

/-- `free_head = (pre_head + pre_cnt) mod N`. -/
def RingRegs.freeHead (r : RingRegs) : Nat := (r.preHead + r.preCnt.toNat) % r.size

/-- Slots handed to hardware and not completed: `hw_cnt - done_cnt` (R14). -/
def RingRegs.postedCnt (r : RingRegs) : Nat := r.hwCnt.toNat - r.doneCnt.toNat

/-- The oldest posted slot, `(hw_head + done_cnt) mod N` (R14, R216). -/
def RingRegs.oldestPosted (r : RingRegs) : Nat := (r.hwHead + r.doneCnt.toNat) % r.size

/-- `state(X, i)`: the group slot `i` falls in, going forward from `post_head` (R14). -/
def RingRegs.slotState (r : RingRegs) (i : Nat) : SlotState :=
  let off := (i + r.size - r.postHead.toNat) % r.size
  if off < r.postCnt.toNat then .drained
  else if off < r.postCnt.toNat + r.doneCnt.toNat then .completed
  else if off < r.postCnt.toNat + r.hwCnt.toNat then .posted
  else if off < r.postCnt.toNat + r.hwCnt.toNat + r.preCnt.toNat then .reserved
  else .free

/-! ### Slot addresses and descriptor references (R54, R92) -/

/-- `slot_addr(X, i) = base + i * slot_stride`, modulo 2^32 (R54, R73). -/
def RingRegs.slotAddr (r : RingRegs) (i : Nat) : Word := r.base + BitVec.ofNat 32 i * r.slotStride

/-- `off(f)`: the offset of a field in the descriptor record (R84). -/
def BdField.offset : BdField → Word
  | .bufAddr => 0x0
  | .length => 0x4
  | .ctrl => 0x8
  | .sts => 0xC

/-- `idx(X, d)`: the slot a descriptor reference names; `none` where the spec calls it undefined (R54). -/
def RingRegs.idx (r : RingRegs) (d : Word) : Option Nat :=
  let off := d.toNat - r.base.toNat
  if r.base.toNat ≤ d.toNat ∧ off % r.slotStride.toNat = 0 ∧ off / r.slotStride.toNat < r.size then
    some (off / r.slotStride.toNat)
  else none

/-- Whether an address is one of the `len` bytes from `base` on (addresses modulo 2^32, R73). -/
def inBytes (base len a : Word) : Bool := (a - base).ult len

/-- Whether an address lies in the descriptor region the ring was created in,
`[base, base + region_size)`: its slots, their padding, and what is left of the region (R51, R62). -/
def RingRegs.covers (r : RingRegs) (a : Word) : Bool := r.created && inBytes r.base r.regionSize a

/-- Whether an address lies in one of the two descriptor regions of a parameter block (R51). -/
def EngCfg.covers (c : EngCfg) (p : Params) (a : Word) : Bool :=
  inBytes c.rxBdBase p.rxBdRegionSize a || inBytes c.txBdBase p.txBdRegionSize a

/-- `slot_stride` of R135: the least multiple of `alignment` that is at least 16. -/
def strideOf (alignment : Word) : Nat := (16 + alignment.toNat - 1) / alignment.toNat * alignment.toNat

/-! ### Byte ranges (R51, R52) -/

/-- A byte range `[base, base + len)`. -/
structure Region where
  base : Nat
  len : Nat
  deriving DecidableEq, Repr

/-- The range does not wrap past 2^32 (R52, R73). -/
def Region.fits (a : Region) : Bool := decide (a.base + a.len ≤ 2 ^ 32)

/-- The two ranges have a byte in common. -/
def Region.overlaps (a b : Region) : Bool :=
  decide (0 < a.len) && decide (0 < b.len) && decide (a.base < b.base + b.len) &&
    decide (b.base < a.base + a.len)

/-- `RX_SLOT_COUNT` for a parameter block (R5, D30). -/
def rxSlots (p : Params) (c : EngCfg) : Half := p.rxSlotCount.getD c.descCount

/-- `TX_SLOT_COUNT` for a parameter block (R5, D30). -/
def txSlots (p : Params) (c : EngCfg) : Half := p.txSlotCount.getD c.descCount

/-- The RX descriptor region (R51). -/
def rxBdRegion (p : Params) (c : EngCfg) : Region := ⟨c.rxBdBase.toNat, p.rxBdRegionSize.toNat⟩

/-- The TX descriptor region (R51). -/
def txBdRegion (p : Params) (c : EngCfg) : Region := ⟨c.txBdBase.toNat, p.txBdRegionSize.toNat⟩

/-- The RX data-buffer region (R51). -/
def rxBufRegion (p : Params) (c : EngCfg) : Region :=
  ⟨c.rxBufBase.toNat, (rxSlots p c).toNat * c.bufSize.toNat⟩

/-- The TX staging region (R51, R156). -/
def txBufRegion (c : EngCfg) : Region := ⟨c.txBufBase.toNat, c.bufSize.toNat⟩

/-- R52: the four fixed regions are pairwise disjoint and none wraps. -/
def regionsOk (p : Params) (c : EngCfg) : Bool :=
  (rxBdRegion p c).fits && (txBdRegion p c).fits && (rxBufRegion p c).fits && (txBufRegion c).fits &&
    !(rxBdRegion p c).overlaps (txBdRegion p c) && !(rxBdRegion p c).overlaps (rxBufRegion p c) &&
    !(rxBdRegion p c).overlaps (txBufRegion c) && !(txBdRegion p c).overlaps (rxBufRegion p c) &&
    !(txBdRegion p c).overlaps (txBufRegion c) && !(rxBufRegion p c).overlaps (txBufRegion c)

/-- R52, R73: a caller's source buffer does not wrap and overlaps neither a descriptor region nor the RX
data-buffer region. -/
def sourceOk (p : Params) (c : EngCfg) (buffer size : Word) : Bool :=
  let src : Region := ⟨buffer.toNat, size.toNat⟩
  src.fits && !src.overlaps (rxBdRegion p c) && !src.overlaps (txBdRegion p c) &&
    !src.overlaps (rxBufRegion p c)

end Sys2Proof.Machine
end

