-- ==== Sys2Proof/Machine/Ops.lean ====
section
/-! DEFINITION. The named operations that the meanings share: the two views of memory and descriptor
records (20_memory.md), marks and the output trace (10_state.md R29, R34), the context stack with
interrupt entry and return (R27; 44_external_agents.md R219; 60_exceptions.md R254, R255), and the
issue of a primitive by the command port or by an agent in flight (40_ring_primitives.md R110, R134,
R136). -/

namespace Sys2Proof.Machine

/-! ### One view of memory -/

/-- The known byte at an address, from a list of cells. -/
def getCell : List Host.Cell → Nat → Option Byte
  | [], _ => none
  | (b, v) :: m, a => if a = b then some v else getCell m a

/-- Lists a byte at an address, keeping the addresses rising. -/
def setCell : List Host.Cell → Nat → Byte → List Host.Cell
  | [], a, v => [(a, v)]
  | (b, w) :: m, a, v =>
    if a < b then (a, v) :: (b, w) :: m
    else if a = b then (a, v) :: m
    else (b, w) :: setCell m a v

/-- The byte a view holds at an address; an address that nothing has written holds the unspecified
power-on byte (R32, R58). Log entry 3. -/
def Memory.read (m : Memory) (v : View) (a : Word) : Byte :=
  (getCell m.cells a.toNat).getD (Config.powerOnByte v a.toNat)

/-- Writes one byte of a view. -/
def Memory.write (m : Memory) (a : Word) (b : Byte) : Memory := ⟨setCell m.cells a.toNat b⟩

/-! ### Rings -/

/-- `ring[X]`. -/
def State.ring (s : State) : Ring → RingRegs
  | .rx => s.rx
  | .tx => s.tx

/-- `ring[X] <- r`. -/
def State.setRing (s : State) : Ring → RingRegs → State
  | .rx, r => { s with rx := r }
  | .tx, r => { s with tx := r }

/-! ### The two views (R53, R58 to R62) -/

/-- Descriptor memory, where both views agree (R62): the two descriptor regions of the configuration from the
moment `eng.cfg` holds one (R11, R51), and the region each ring was created in. Before that the block has been
told of no region (log entry 10). -/
def State.isDescriptorByte (s : State) (a : Word) : Bool :=
  s.rx.covers a || s.tx.covers a || (s.cfgValid && s.cfg.covers s.params a)

/-- Writes a byte of `mem_hw`, remembering the value it replaces (R217). -/
def State.writeHw (s : State) (a : Word) (b : Byte) : State :=
  { s with memHw := s.memHw.write a b, hwLog := (a.toNat, s.memHw.read .hw a) :: s.hwLog }

/-- Writes a byte of `mem_sw`. -/
def State.writeSw (s : State) (a : Word) (b : Byte) : State := { s with memSw := s.memSw.write a b }

/-- `MemRead(view, a, 1)` (R7, R58, R62). DESIGN CHOICE (log entry 10): both views of a byte of descriptor
memory are its `hw` byte, also at the moment it becomes descriptor memory; a byte that leaves descriptor memory
reads in the `sw` view as `mem_sw` has it, which is the last byte written there. -/
def State.peek (s : State) : View → Word → Byte
  | .hw, a => s.memHw.read .hw a
  | .sw, a => if s.isDescriptorByte a then s.memHw.read .hw a else s.memSw.read .sw a

/-- `MemWrite(view, a, 1, b)` (R7, R58); a byte of descriptor memory is written in both views (R62). -/
def State.poke (s : State) (v : View) (a : Word) (b : Byte) : State :=
  if s.isDescriptorByte a then (s.writeHw a b).writeSw a b
  else
    match v with
    | .hw => s.writeHw a b
    | .sw => s.writeSw a b

/-- The write-back of one byte: `mem_hw[a] <- mem_sw[a]` (R58). -/
def State.writeBack (s : State) (a : Word) : State := s.poke .hw a (s.peek .sw a)

/-- The refill of one byte: `mem_sw[a] <- mem_hw[a]` (R58). -/
def State.refill (s : State) (a : Word) : State := s.poke .sw a (s.peek .hw a)

/-- `f` applied at `a`, `a + 1`, ..., `a + len - 1`, ascending. -/
def overRange (f : State → Word → State) (a : Word) (len : Nat) (s : State) : State :=
  (List.range len).foldl (fun s k => f s (a + BitVec.ofNat 32 k)) s

/-- `out <- out ++ [e]` (R7, R29). -/
def State.emit (s : State) (e : Event) : State := { s with out := s.out ++ [e] }

/-- `Flush(addr, len)`: the request and the environment's answer to it (R59, R222). -/
def State.flush (s : State) (addr len : Word) : State :=
  (overRange State.writeBack addr len.toNat s).emit (.flush addr len)

/-- `Invalidate(addr, len)`: the request and the environment's answer to it (R60, R222). -/
def State.invalidate (s : State) (addr len : Word) : State :=
  (overRange State.refill addr len.toNat s).emit (.invalidate addr len)

/-- Copies `len` bytes from `src` to `dst` in the `sw` view, one by one, ascending (R53, R156). -/
def State.copyUp (s : State) (dst src : Word) (len : Nat) : State :=
  (List.range len).foldl
    (fun s k => s.poke .sw (dst + BitVec.ofNat 32 k) (s.peek .sw (src + BitVec.ofNat 32 k))) s

/-- Writes the bytes of a list at `a`, `a + 1`, ..., in a view (R216). -/
def State.pokeList (s : State) (v : View) : Word → List Byte → State
  | _, [] => s
  | a, b :: bs => (s.poke v a b).pokeList v (a + 1) bs

/-- The bytes of a view at `a`, `a + 1`, ..., `a + len - 1`. -/
def State.peekList (s : State) (v : View) (a : Word) (len : Nat) : List Byte :=
  (List.range len).map fun k => s.peek v (a + BitVec.ofNat 32 k)

/-- Every value that `mem_hw[a]` has held since `hwLog` had length `mark` (R217). -/
def State.heldSince (s : State) (mark : Nat) (a : Word) : List Byte :=
  s.peek .hw a ::
    ((s.hwLog.take (s.hwLog.length - mark)).filter (fun c => c.1 == a.toNat)).map Prod.snd

/-! ### Descriptor records (R18, R53, R56, R62, R84) -/

/-- A 32-bit word of descriptor memory, little-endian (R53). Both views agree there, so one is read. -/
def State.readDesc (s : State) (a : Word) : Word :=
  s.memHw.read .hw (a + 3) ++ s.memHw.read .hw (a + 2) ++ s.memHw.read .hw (a + 1) ++
    s.memHw.read .hw a

/-- The four bytes of a word, least significant first, each with its address (R53). -/
def wordCells (a w : Word) : List (Word × Byte) :=
  [(a, w.extractLsb' 0 8), (a + 1, w.extractLsb' 8 8), (a + 2, w.extractLsb' 16 8),
    (a + 3, w.extractLsb' 24 8)]

/-- Writes a 32-bit word to one view, little-endian (R53). -/
def Memory.writeWord (m : Memory) (a w : Word) : Memory :=
  (wordCells a w).foldl (fun m c => m.write c.1 c.2) m

/-- The bytes of `mem_hw` that a word write at `a` replaces (R217). -/
def State.replacedHw (s : State) (a : Word) : List Host.Cell :=
  [(a.toNat, s.memHw.read .hw a), ((a + 1).toNat, s.memHw.read .hw (a + 1)),
    ((a + 2).toNat, s.memHw.read .hw (a + 2)), ((a + 3).toNat, s.memHw.read .hw (a + 3))]

/-- Writes a 32-bit word of descriptor memory, little-endian, in both views (R53, R62). -/
def State.writeDesc (s : State) (a w : Word) : State :=
  { s with
    memHw := s.memHw.writeWord a w
    memSw := s.memSw.writeWord a w
    hwLog := s.replacedHw a ++ s.hwLog }

/-- `bd[X][i].f` (R7, R18). -/
def State.getField (s : State) (x : Ring) (i : Nat) (f : BdField) : Word :=
  s.readDesc ((s.ring x).slotAddr i + f.offset)

/-- `bd[X][i].f <- w` (R7, R18). -/
def State.setField (s : State) (x : Ring) (i : Nat) (f : BdField) (w : Word) : State :=
  s.writeDesc ((s.ring x).slotAddr i + f.offset) w

/-! ### Marks (R34) -/

/-- `fault f`: sets the sticky code if there is none. -/
def State.markFault (s : State) (f : Fault) : State :=
  { s with fault := match s.fault with | none => some f | some g => some g }

/-- `refuse`: sets the sticky mark. -/
def State.markRefused (s : State) : State := { s with refused := true }

/-! ### The context stack, interrupt entry and return (R27, R219, R254, R255) -/

/-- The handler agent of a ring. -/
def handlerOf : Ring → Agent
  | .rx => .rxh
  | .tx => .txh

/-- Whether a handler is on `cpu.stack`. -/
def State.handlerOnStack (s : State) : Bool := s.stack.contains .rxh || s.stack.contains .txh

/-- The top of `cpu.stack`. -/
def State.top (s : State) : Option Agent := s.stack.getLast?

/-- Pushes an agent. -/
def State.push (s : State) (a : Agent) : State := { s with stack := s.stack ++ [a] }

/-- Pops the top. -/
def State.pop (s : State) : State := { s with stack := s.stack.dropLast }

/-- `prio(X)` (R219). -/
def EngCfg.prio (c : EngCfg) : Ring → Word
  | .rx => c.rxPrio
  | .tx => c.txPrio

/-- `P_NESTING` permits pushing the handler of ring `x` over the current top (R219). -/
def State.nestingPermits (s : State) (x : Ring) : Bool :=
  match s.params.nesting with
  | .any => true
  | .none => !s.handlerOnStack
  | .byPriority =>
    !s.handlerOnStack ||
      match s.top with
      | some .rxh => (s.cfg.prio .rx).ult (s.cfg.prio x)
      | some .txh => (s.cfg.prio .tx).ult (s.cfg.prio x)
      | some .sync | none => true

/-- The guard of the dispatch step (R219): the line is high, the handler is not on the stack, the handlers
are bound, and nesting permits. -/
def State.canDispatch (s : State) (x : Ring) : Bool :=
  (s.ring x).irqLine && !s.stack.contains (handlerOf x) && s.cfgValid && s.nestingPermits x

/-- The reassembly state at the entry of an RX handler invocation (R189): untouched with
`P_REASM_PERSIST`; otherwise `complete <- 0` and `origin`, `acc` free values or 0. -/
def State.initReassembly (s : State) : State :=
  if s.params.reasmPersist then s
  else
    match s.params.reasmInit with
    | .any =>
      { s with
        rs := { origin := Config.freeOrigin s.draws, acc := Config.freeAcc s.draws, complete := false }
        draws := s.draws + 1 }
    | .zero => { s with rs := { origin := 0, acc := 0, complete := false } }

/-- INTERRUPT ENTRY (R170, R200, R219, R254): the handler of ring `x` is pushed with its sequencer `Idle`;
the RX handler's reassembly state is initialised (R189). Nothing is saved and nothing is masked. -/
def State.enterHandler (s : State) : Ring → State
  | .rx => { (s.push .rxh).initReassembly with rxh := { s.rxh with state := .idle } }
  | .tx => { s.push .txh with txh := { s.txh with state := .idle } }

/-- RETURN FROM A HANDLER (R255): it pops itself and its sequencer goes to `Idle`; nothing is restored. -/
def State.leaveHandler (s : State) : Ring → State
  | .rx => { s.pop with rxh := { s.rxh with state := .idle } }
  | .tx => { s.pop with txh := { s.txh with state := .idle } }

/-- The dispatch step of an event (R219): taken when its guard holds; otherwise the dispatcher takes no
step. -/
def State.dispatch (s : State) (x : Ring) : State := if s.canDispatch x then s.enterHandler x else s

/-! ### The synchronous path at base level (R27, R150) -/

/-- A command may be accepted: no synchronous operation is in progress and no handler is on the stack
(R150). -/
def State.baseLevel (s : State) : Bool := s.sync.op == .none && !s.handlerOnStack

/-- `sync.op <- none`, and SYNC leaves the stack (R27, R150). -/
def State.endSync (s : State) : State := { s.pop with sync := { s.sync with op := .none } }

/-! ### Primitives and who issues them (R110, R134, R136) -/

/-- The response of a primitive: a code and, on `Success`, result words (R82). -/
structure Reply where
  code : Code
  results : List Word
  deriving DecidableEq, Repr

/-- A ring primitive: one atomic step (R133). -/
abbrev Prim := State → Reply × State

/-- `return Success, v...`. -/
def Reply.ok (results : List Word) : Reply := ⟨.success, results⟩

/-- `error c`: the code is returned and no state changes (R110). -/
def refuseWith (c : Code) : Prim := fun s => (⟨c, []⟩, s)

/-- R110 check (3): the ring is created, else `RingNotCreated`. -/
def needRing (x : Ring) (p : Prim) : Prim := fun s =>
  if (s.ring x).created then p s else refuseWith .ringNotCreated s

/-- R110: the descriptor reference is valid, else `InvalidParameter`. -/
def needDesc (x : Ring) (d : Word) (p : Nat → Prim) : Prim := fun s =>
  match (s.ring x).idx d with
  | some i => p i s
  | none => refuseWith .invalidParameter s

/-- Acceptance of a direct primitive (R136, R150): `sync.op` and `sync.step` are set, the command is latched,
SYNC goes on the stack. -/
def State.acceptPrimitive (s : State) (i : Instr) : State :=
  { s.push .sync with sync := { s.sync with op := .primitive, step := 0, prim := some i } }

/-- SYNC is at the top of the stack with a direct primitive in progress, whose one micro-step comes next
(R136, R150). -/
def State.primitiveTurn (s : State) : Bool := s.sync.op == .primitive && s.top == some .sync

/-- The one micro-step of a direct primitive, which ends the operation with its response (R136, R150). -/
def State.performDirect (s : State) (op : BitVec 8) (p : Prim) : State :=
  ((p s).2.emit (.ret op (p s).1.code (p s).1.results)).endSync

/-- A direct primitive: accepted from the command port at base level, performed as SYNC's micro-step once it
is in progress; refused outside `Uninit` (also when a handler has reset the controller since its acceptance)
and out of place (R136, R150, R259; log entries 8 and 13). -/
def State.issueDirect (s : State) (i : Instr) (p : Prim) : State :=
  if s.engState != .uninit then s.markRefused
  else if s.primitiveTurn then s.performDirect i.opcode p
  else if s.baseLevel then s.acceptPrimitive i
  else s.markRefused

/-- A primitive issued in flight by a sequencer or a macro-operation: refused by the halted rule unless it
is one of the seven exempt ones (R134), else performed; `ok` goes on with its results, `bad` with the
error code it returned. -/
def State.inFlight (s : State) (exempt : Bool) (p : Prim) (ok : List Word → State → State)
    (bad : Code → State → State) : State :=
  if s.engState == .halted && !exempt then s.markRefused
  else if (p s).1.code = .success then ok (p s).1.results (p s).2
  else bad (p s).1.code (p s).2

/-- A primitive issued by a sequencer: an error code is the fault of R187 and R209. -/
def State.seqPrim (s : State) (exempt : Bool) (p : Prim) (ok : List Word → State → State) : State :=
  s.inFlight exempt p ok fun _ s => s.markFault .sequencerPrimitiveError

/-- `idx(X, d)` of a reference that a primitive has just returned, held as a 16-bit slot index (R92). -/
def State.slotOf (s : State) (x : Ring) (d : Word) : Half :=
  BitVec.ofNat 16 (((s.ring x).idx d).getD 0)

end Sys2Proof.Machine
end

