-- ==== Sys2Proof/Machine/Accessors.lean ====
section
/-! DEFINITION. The descriptor field accessors (40_ring_primitives.md R126 to R132). -/

namespace Sys2Proof.Machine

/-- The two checks of the setters (R126 to R128): the reference is valid and its slot is `RESERVED`. -/
def needReserved (x : Ring) (desc : Word) (p : Nat → Prim) : Prim := needRing x <|
  needDesc x desc fun i s =>
    if (s.ring x).slotState i ≠ .reserved then refuseWith .ringOrderViolation s else p i s

/-- `BD_SET_ADDR` (R126). -/
def primBdSetAddr (x : Ring) (desc addr : Word) : Prim := needReserved x desc fun i s =>
  (Reply.ok [], s.setField x i .bufAddr addr)

/-- `BD_SET_ADDR` issued directly (R126, R136). -/
def execBdSetAddr (x : Ring) (desc addr : Word) (s : State) : Outcome :=
  .next (s.issueDirect (.bdSetAddr x desc addr) (primBdSetAddr x desc addr))

/-- `BD_SET_LEN` (R127): a length above `max_len` is rejected or clamped (`P_LEN_OVER_MAX`). -/
def primBdSetLen (x : Ring) (desc len : Word) : Prim := needReserved x desc fun i s =>
  if (s.ring x).maxLen < len then
    match s.params.lenOverMax with
    | .reject => refuseWith .invalidParameter s
    | .clamp => (Reply.ok [], s.setField x i .length (s.ring x).maxLen)
  else (Reply.ok [], s.setField x i .length len)

/-- `BD_SET_LEN` issued directly (R127, R136). -/
def execBdSetLen (x : Ring) (desc len : Word) (s : State) : Outcome :=
  .next (s.issueDirect (.bdSetLen x desc len) (primBdSetLen x desc len))

/-- `BD_SET_CTRL` (R128) with the flags `m[1:0]`. -/
def primBdSetCtrl (x : Ring) (flags : BitVec 2) (desc : Word) : Prim := needReserved x desc fun i s =>
  (Reply.ok [], s.setField x i .ctrl (ctrlWord flags))

/-- `BD_SET_CTRL` issued directly (R128, R136). `m[2] = 1` is an illegal header, which the decoder answers
itself (R91, R110); a term that holds it all the same is answered with its code, `InvalidCommand` (R128; log
entry 16). -/
def execBdSetCtrl (x : Ring) (m : BitVec 3) (desc : Word) (s : State) : Outcome :=
  .next (s.issueDirect (.bdSetCtrl x m desc)
    (if m.getLsbD 2 then refuseWith .invalidCommand else primBdSetCtrl x (m.extractLsb' 0 2) desc))

/-- The getters' shared form: the reference is valid, and `read` of a field's word is returned
(R129 to R131). -/
def primBdGet (x : Ring) (desc : Word) (f : BdField) (read : Word → Word) : Prim := needRing x <|
  needDesc x desc fun i s => (Reply.ok [read (s.getField x i f)], s)

/-- `BD_GET_ADDR` (R129). -/
def primBdGetAddr (x : Ring) (desc : Word) : Prim := primBdGet x desc .bufAddr id

/-- `BD_GET_ADDR` issued directly (R129, R136). -/
def execBdGetAddr (x : Ring) (desc : Word) (s : State) : Outcome :=
  .next (s.issueDirect (.bdGetAddr x desc) (primBdGetAddr x desc))

/-- `BD_GET_LEN` (R130). -/
def primBdGetLen (x : Ring) (desc : Word) : Prim := primBdGet x desc .length id

/-- `BD_GET_LEN` issued directly (R130, R136). -/
def execBdGetLen (x : Ring) (desc : Word) (s : State) : Outcome :=
  .next (s.issueDirect (.bdGetLen x desc) (primBdGetLen x desc))

/-- `BD_GET_STS` (R131): the zero-extended status flags. Reserved bits read 0 (log entry 15). -/
def primBdGetSts (x : Ring) (desc : Word) : Prim := primBdGet x desc .sts stsFlags

/-- `BD_GET_STS` issued directly (R131, R136). -/
def execBdGetSts (x : Ring) (desc : Word) (s : State) : Outcome :=
  .next (s.issueDirect (.bdGetSts x desc) (primBdGetSts x desc))

/-- `BD_NEXT` (R132): the successor in ring order. -/
def primBdNext (x : Ring) (desc : Word) : Prim := needRing x <|
  needDesc x desc fun i s => (Reply.ok [(s.ring x).slotAddr ((i + 1) % (s.ring x).size)], s)

/-- `BD_NEXT` issued directly (R132, R136). -/
def execBdNext (x : Ring) (desc : Word) (s : State) : Outcome :=
  .next (s.issueDirect (.bdNext x desc) (primBdNext x desc))

end Sys2Proof.Machine
end

