-- ==== Sys2Proof/Machine/ChannelControl.lean ====
section
/-! DEFINITION. Channel control, interrupt masks and latches, and the controller reset
(40_ring_primitives.md R118 to R125; 70_reset_and_hazards.md R271). -/

namespace Sys2Proof.Machine

/-- A stopped RX channel that starts begins a new sequence of completions (R216, `P_RX_FRAMING`). -/
def State.beginFraming (s : State) : Ring → State
  | .rx => if s.rx.run then s else { s with rxFrameStart := true }
  | .tx => s

/-- `START` (R118). -/
def primStart (x : Ring) : Prim := needRing x fun s =>
  (Reply.ok [], (s.beginFraming x).setRing x { s.ring x with run := true })

/-- `START` issued directly (R118, R136). -/
def execStart (x : Ring) (s : State) : Outcome := .next (s.issueDirect (.start x) (primStart x))

/-- `STOP` (R119). -/
def primStop (x : Ring) : Prim := needRing x fun s =>
  (Reply.ok [], s.setRing x { s.ring x with run := false })

/-- `STOP` issued directly (R119, R136). -/
def execStop (x : Ring) (s : State) : Outcome := .next (s.issueDirect (.stop x) (primStop x))

/-- `IRQ_ENABLE` (R120); no `created` check (R110). -/
def primIrqEnable (x : Ring) (m : BitVec 3) : Prim := fun s =>
  (Reply.ok [], s.setRing x { s.ring x with irqEn := (s.ring x).irqEn ||| m })

/-- `IRQ_ENABLE` issued directly (R120, R136). -/
def execIrqEnable (x : Ring) (m : BitVec 3) (s : State) : Outcome :=
  .next (s.issueDirect (.irqEnable x m) (primIrqEnable x m))

/-- `IRQ_DISABLE` (R121). -/
def primIrqDisable (x : Ring) (m : BitVec 3) : Prim := fun s =>
  (Reply.ok [], s.setRing x { s.ring x with irqEn := (s.ring x).irqEn &&& ~~~m })

/-- `IRQ_DISABLE` issued directly (R121, R136). -/
def execIrqDisable (x : Ring) (m : BitVec 3) (s : State) : Outcome :=
  .next (s.issueDirect (.irqDisable x m) (primIrqDisable x m))

/-- `IRQ_GET` (R122): the latch, not gated by the enables, under free unrecognised bits. Log entry 4. -/
def primIrqGet (x : Ring) : Prim := fun s =>
  (Reply.ok [irqStatusWord (Config.freeStatusBits s.draws) (s.ring x).irqPend],
    { s with draws := s.draws + 1 })

/-- `IRQ_GET` issued directly (R122, R136). -/
def execIrqGet (x : Ring) (s : State) : Outcome := .next (s.issueDirect (.irqGet x) (primIrqGet x))

/-- `IRQ_ACK` (R123): write-one-to-clear. -/
def primIrqAck (x : Ring) (m : BitVec 3) : Prim := fun s =>
  (Reply.ok [], s.setRing x { s.ring x with irqPend := (s.ring x).irqPend &&& ~~~m })

/-- `IRQ_ACK` issued directly (R123, R136). -/
def execIrqAck (x : Ring) (m : BitVec 3) (s : State) : Outcome :=
  .next (s.issueDirect (.irqAck x m) (primIrqAck x m))

/-- A ring after the controller reset: stopped, masked, nothing pending; all else unchanged (R124, R271). -/
def RingRegs.afterReset (r : RingRegs) : RingRegs := { r with run := false, irqEn := 0, irqPend := 0 }

/-- `RESET` (R124): the whole controller. -/
def primReset : Prim := fun s =>
  (Reply.ok [],
    { s with
      ctl := { s.ctl with resetting := true, resetDone := false }
      rx := s.rx.afterReset
      tx := s.tx.afterReset
      engState := .halted })

/-- `RESET` issued directly (R124, R136). -/
def execReset (s : State) : Outcome := .next (s.issueDirect .reset primReset)

/-- `RESET_DONE` (R125). -/
def primResetDone : Prim := fun s => (Reply.ok [if s.ctl.resetDone then 1 else 0], s)

/-- `RESET_DONE` issued directly (R125, R136). -/
def execResetDone (s : State) : Outcome := .next (s.issueDirect .resetDone primResetDone)

end Sys2Proof.Machine
end

