-- ==== Sys2Proof/Machine/OwnershipCycle.lean ====
section
/-! DEFINITION. The ownership cycle of the slots: `RESERVE`, `UNRESERVE`, `COMMIT`, `DRAIN`, `FREE`
(40_ring_primitives.md R113 to R117). -/

namespace Sys2Proof.Machine

/-- `RESERVE` (R113). -/
def primReserve (x : Ring) (n : Half) : Prim := needRing x fun s =>
  if n = 0 then refuseWith .invalidParameter s
  else if (s.ring x).freeCnt < n then refuseWith .noSlotsAvailable s
  else
    (Reply.ok [(s.ring x).slotAddr (s.ring x).freeHead],
      s.setRing x
        { s.ring x with preCnt := (s.ring x).preCnt + n, freeCnt := (s.ring x).freeCnt - n })

/-- `RESERVE` issued directly (R113, R136). -/
def execReserve (x : Ring) (n : Half) (s : State) : Outcome :=
  .next (s.issueDirect (.reserve x n) (primReserve x n))

/-- `UNRESERVE` (R114): only the most recently reserved `n` slots. -/
def primUnreserve (x : Ring) (n : Half) (first : Word) : Prim := needRing x fun s =>
  if n = 0 then refuseWith .invalidParameter s
  else
    needDesc x first (fun i s =>
      if (s.ring x).preCnt < n then refuseWith .ringOrderViolation s
      else if i ≠ ((s.ring x).freeHead + (s.ring x).size - n.toNat) % (s.ring x).size then
        refuseWith .ringOrderViolation s
      else
        (Reply.ok [],
          s.setRing x
            { s.ring x with
              preCnt := (s.ring x).preCnt - n, freeCnt := (s.ring x).freeCnt + n })) s

/-- `UNRESERVE` issued directly (R114, R136). -/
def execUnreserve (x : Ring) (n : Half) (first : Word) (s : State) : Outcome :=
  .next (s.issueDirect (.unreserve x n first) (primUnreserve x n first))

/-- The `j`-th slot of a batch that begins at slot `h` of a ring of `N` slots. -/
def batchSlot (N h j : Nat) : Nat := (h + j) % N

/-- R115: the slot's `length` is neither 0 nor above `max_len`. -/
def State.lengthOk (s : State) (x : Ring) (i : Nat) : Bool :=
  s.getField x i .length != 0 && !(s.ring x).maxLen.ult (s.getField x i .length)

/-- Clears the `sts` of `n` slots from slot `h` (R115). -/
def State.clearStatus (s : State) (x : Ring) (h n : Nat) : State :=
  (List.range n).foldl (fun s j => s.setField x (batchSlot (s.ring x).size h j) .sts 0) s

/-- Remembers when `n` TX slots were posted (R217). -/
def State.addMarks (s : State) (n : Nat) : Ring → State
  | .rx => s
  | .tx => { s with txMarks := s.txMarks ++ List.replicate n s.hwLog.length }

/-- `COMMIT` (R115): all or nothing; the release point of R63. -/
def primCommit (x : Ring) (n : Half) (first : Word) : Prim := needRing x fun s =>
  if n = 0 then refuseWith .invalidParameter s
  else
    needDesc x first (fun i s =>
      if (s.ring x).preCnt < n then refuseWith .ringOrderViolation s
      else if i ≠ (s.ring x).preHead then refuseWith .ringOrderViolation s
      else if !(List.range n.toNat).all
          (fun j => s.lengthOk x (batchSlot (s.ring x).size (s.ring x).preHead j)) then
        refuseWith .invalidDescriptor s
      else
        (Reply.ok [],
          ((s.clearStatus x (s.ring x).preHead n.toNat).setRing x
            { s.ring x with
              preCnt := (s.ring x).preCnt - n, hwCnt := (s.ring x).hwCnt + n }).addMarks n.toNat x)) s

/-- `COMMIT` issued directly (R115, R136). -/
def execCommit (x : Ring) (n : Half) (first : Word) (s : State) : Outcome :=
  .next (s.issueDirect (.commit x n first) (primCommit x n first))

/-- `min(a, b)`, unsigned (R135). -/
def minHalf (a b : Half) : Half := if a ≤ b then a else b

/-- `DRAIN` (R116): the acquire point of R64. -/
def primDrain (x : Ring) (n : Half) : Prim := needRing x fun s =>
  let k := minHalf n (s.ring x).doneCnt
  (Reply.ok [k.zeroExtend 32, if k = 0 then 0 else (s.ring x).slotAddr (s.ring x).hwHead],
    s.setRing x
      { s.ring x with
        postCnt := (s.ring x).postCnt + k
        hwCnt := (s.ring x).hwCnt - k
        doneCnt := (s.ring x).doneCnt - k })

/-- `DRAIN` issued directly (R116, R136). -/
def execDrain (x : Ring) (n : Half) (s : State) : Outcome :=
  .next (s.issueDirect (.drain x n) (primDrain x n))

/-- `FREE` (R117): only the oldest drained `n` slots. -/
def primFree (x : Ring) (n : Half) (first : Word) : Prim := needRing x fun s =>
  if n = 0 then refuseWith .invalidParameter s
  else
    needDesc x first (fun i s =>
      if (s.ring x).postCnt < n then refuseWith .ringOrderViolation s
      else if i ≠ (s.ring x).postHead.toNat then refuseWith .ringOrderViolation s
      else
        (Reply.ok [],
          s.setRing x
            { s.ring x with
              postHead := BitVec.ofNat 16 (((s.ring x).postHead.toNat + n.toNat) % (s.ring x).size)
              postCnt := (s.ring x).postCnt - n
              freeCnt := (s.ring x).freeCnt + n })) s

/-- `FREE` issued directly (R117, R136). -/
def execFree (x : Ring) (n : Half) (first : Word) (s : State) : Outcome :=
  .next (s.issueDirect (.free x n first) (primFree x n first))

end Sys2Proof.Machine
end

