-- ==== Sys2Proof/Machine/RingConstruct.lean ====
section
/-! DEFINITION. Ring construction: `CREATE` (40_ring_primitives.md R111) and `INIT_SLOTS` (R112). -/

namespace Sys2Proof.Machine

/-- The registers a successful `CREATE` leaves (R111): static registers written, every slot `FREE`; `run`,
`irq_en` and `irq_pend` unchanged. -/
def RingRegs.recreate (r : RingRegs) (n : Half) (regionBase regionSize alignment maxLen : Word) :
    RingRegs :=
  { r with
    created := true
    base := regionBase
    slotCount := n
    slotStride := BitVec.ofNat 32 (strideOf alignment)
    maxLen := maxLen
    regionSize := regionSize
    postHead := 0
    postCnt := 0
    hwCnt := 0
    doneCnt := 0
    preCnt := 0
    freeCnt := n }

/-- No TX slot is posted any more once the TX ring's bookkeeping is discarded (R111, R217). -/
def State.dropMarks (s : State) : Ring → State
  | .rx => s
  | .tx => { s with txMarks := [] }

/-- `CREATE` (R111); the products are computed without wrapping (R135). -/
def primCreate (x : Ring) (n : Half) (regionBase regionSize alignment maxLen : Word) : Prim := fun s =>
  if (s.ring x).run then refuseWith .ringBusy s
  else if n = 0 ∨ maxLen = 0 then refuseWith .invalidParameter s
  else if alignment.toNat < 4 ∨ alignment &&& (alignment - 1) ≠ 0 then refuseWith .invalidParameter s
  else if regionBase.toNat % alignment.toNat ≠ 0 then refuseWith .ringRegionMisaligned s
  else if regionSize.toNat < n.toNat * strideOf alignment then refuseWith .ringRegionTooSmall s
  else if 2 ^ 32 < regionBase.toNat + n.toNat * strideOf alignment then
    refuseWith .ringRegionTooSmall s
  else
    (Reply.ok [], (s.setRing x ((s.ring x).recreate n regionBase regionSize alignment maxLen)).dropMarks x)

/-- `CREATE` issued directly (R111, R136). -/
def execCreate (x : Ring) (n : Half) (regionBase regionSize alignment maxLen : Word) (s : State) :
    Outcome :=
  .next (s.issueDirect (.create x n regionBase regionSize alignment maxLen) (primCreate x n regionBase regionSize alignment maxLen))

/-- Writes the four fields of slot `i` (R112). -/
def State.setRecord (s : State) (x : Ring) (bufAddr length ctrl sts : Word) (i : Nat) : State :=
  (((s.setField x i .bufAddr bufAddr).setField x i .length length).setField x i .ctrl ctrl).setField x i
    .sts sts

/-- `INIT_SLOTS` (R112). The two checked words hold nothing above the fields they set. -/
def primInitSlots (x : Ring) (bufAddr length ctrl sts : Word) : Prim := needRing x fun s =>
  if (s.ring x).freeCnt ≠ (s.ring x).slotCount then refuseWith .ringOrderViolation s
  else if (s.ring x).maxLen < length ∨ ctrl.extractLsb' 2 30 ≠ 0 ∨ sts.extractLsb' 4 28 ≠ 0 then
    refuseWith .invalidParameter s
  else
    (Reply.ok [],
      (List.range (s.ring x).size).foldl (fun s i => s.setRecord x bufAddr length ctrl sts i) s)

/-- `INIT_SLOTS` issued directly (R112, R136). -/
def execInitSlots (x : Ring) (bufAddr length ctrl sts : Word) (s : State) : Outcome :=
  .next (s.issueDirect (.initSlots x bufAddr length ctrl sts) (primInitSlots x bufAddr length ctrl sts))

end Sys2Proof.Machine
end

