-- ==== Sys2Proof/Machine/Engine.lean ====
section
/-! DEFINITION. The engine operations `INITIALIZE` and `TRANSMIT` (41_engine_ops.md): their acceptance from
the command port, and the micro-steps I0 to I17 and T0 to T8 that agent SYNC then takes one at a time. -/

namespace Sys2Proof.Machine

/-! ### The synchronous path (R150, R160) -/

/-- The next micro-step. -/
def State.goStep (s : State) (k : BitVec 8) : State := { s with sync := { s.sync with step := k } }

/-- `sync.busy_ring <- b` (R160). -/
def State.setBusy (s : State) (b : Option Ring) : State :=
  { s with sync := { s.sync with busyRing := b } }

/-! ### INITIALIZE (R151 to R154) -/

/-- Acceptance of `INITIALIZE` (R150): operands and lookup answers are latched, SYNC goes on the stack. -/
def State.acceptInit (s : State) (c : EngCfg) : State :=
  { s.push .sync with
    sync := { s.sync with op := .initEngine, step := 0, cfg := c, lookup := s.lookup } }

/-- `INITIALIZE` on the command port: accepted in `Uninit` and `Halted`, refused otherwise (R159, R259). -/
def execInitEngine (n : Half) (deviceId rxVec rxPrio txVec txPrio rxBdBase txBdBase bufSize rxBufBase
    txBufBase callback userCtx : Word) (s : State) : Outcome :=
  if (s.engState == .uninit || s.engState == .halted) && s.baseLevel then
    .next (s.acceptInit
      { deviceId, rxVec, rxPrio, txVec, txPrio, rxBdBase, txBdBase, descCount := n, bufSize, rxBufBase,
        txBufBase, callback, userCtx })
  else .next s.markRefused

/-- `fail c` (R154): answered, `eng.state <- Uninit`, nothing undone. -/
def failInit (c : Code) (s : State) : State :=
  ({ (s.emit (.ret 0x20 c [])) with engState := .uninit }.setBusy none).endSync

/-- A primitive of `INITIALIZE`: on success to micro-step `k`, else `fail` with its code (R152, R248). -/
def initPrim (p : Prim) (k : BitVec 8) (s : State) : State :=
  s.inFlight false p (fun _ s => s.goStep k) failInit

/-- I0: the parameter block is latched in `eng.cfg` (R151). -/
def initI0 (s : State) : State :=
  { s with cfg := s.sync.cfg, cfgValid := true, engState := .initializing }.goStep 1

/-- I1 (R151, R242). -/
def initI1 (s : State) : State :=
  if s.sync.lookup.cfgFound then s.goStep 2 else failInit .configurationMissing s

/-- I2 (R151, R243). -/
def initI2 (s : State) : State :=
  if s.sync.lookup.cfgBindOk then s.goStep 3 else failInit .configMismatch s

/-- I3 (R151, R243). -/
def initI3 (s : State) : State :=
  if s.sync.lookup.hasSg then s.goStep 4 else failInit .unsupportedMode s

/-- I4 (R152). The first micro-step that touches a region is where a configuration that breaks R52 is
refused (log entry 7). -/
def initI4 (s : State) : State :=
  if regionsOk s.params s.cfg then
    initPrim (primIrqDisable .rx irqAll) 5 (s.setBusy (some .rx))
  else s.markRefused

/-- I5 (R152). -/
def initI5 (s : State) : State :=
  initPrim
    (primCreate .rx (rxSlots s.params s.cfg) s.cfg.rxBdBase s.params.rxBdRegionSize s.params.bdAlign
      s.sync.lookup.maxLenRx) 6 s

/-- I6: `TEMPLATE0` (R96, R152). -/
def initI6 (s : State) : State := initPrim (primInitSlots .rx 0 0 0 0) 7 s

/-- I7 (R152). -/
def initI7 (s : State) : State :=
  s.inFlight false (primReserve .rx (rxSlots s.params s.cfg))
    (fun rs s =>
      { s with sync := { s.sync with d := s.slotOf .rx (rs.headD 0), i := 0, step := 8 } })
    failInit

/-- I8's slot of this iteration (R152). -/
def initSlotIndex (s : State) : Nat :=
  (s.sync.d.toNat + s.sync.i.toNat) % (rxSlots s.params s.cfg).toNat

/-- I8's buffer address of this iteration: `rx_buf_base + i * buf_size` (R71, R152). -/
def initBufAddr (s : State) : Word :=
  s.cfg.rxBufBase + s.sync.i.zeroExtend 32 * s.cfg.bufSize

/-- I8's end of iteration: `sync.i <- sync.i + 1`, and on to I9 when every slot is populated (R152). -/
def initNextSlot (s : State) : State :=
  { s with sync := { s.sync with
      i := s.sync.i + 1
      step := if s.sync.i + 1 < rxSlots s.params s.cfg then 8 else 9 } }

/-- I8: one slot per micro-step (R152). -/
def initI8 (s : State) : State :=
  if s.sync.i < rxSlots s.params s.cfg then
    s.inFlight false (primBdSetAddr .rx (s.rx.slotAddr (initSlotIndex s)) (initBufAddr s))
      (fun _ s =>
        s.inFlight false (primBdSetLen .rx (s.rx.slotAddr (initSlotIndex s)) s.cfg.bufSize)
          (fun _ s => initNextSlot s) failInit)
      failInit
  else s.goStep 9

/-- I9 (R152). -/
def initI9 (s : State) : State :=
  initPrim (primCommit .rx (rxSlots s.params s.cfg) (s.rx.slotAddr s.sync.d.toNat)) 10 s

/-- I10 (R152). -/
def initI10 (s : State) : State := initPrim (primIrqEnable .rx irqAll) 11 s

/-- I11: the RX span ends (R152, R160). -/
def initI11 (s : State) : State :=
  s.inFlight false (primStart .rx) (fun _ s => (s.setBusy none).goStep 12) failInit

/-- I12 (R153). -/
def initI12 (s : State) : State := initPrim (primIrqDisable .tx irqAll) 13 (s.setBusy (some .tx))

/-- I13 (R153). -/
def initI13 (s : State) : State :=
  initPrim
    (primCreate .tx (txSlots s.params s.cfg) s.cfg.txBdBase s.params.txBdRegionSize s.params.bdAlign
      s.sync.lookup.maxLenTx) 14 s

/-- I14: `TEMPLATE0` (R96, R153). -/
def initI14 (s : State) : State := initPrim (primInitSlots .tx 0 0 0 0) 15 s

/-- I15 (R153). -/
def initI15 (s : State) : State := initPrim (primIrqEnable .tx irqAll) 16 s

/-- I16: the TX span ends (R153, R160). -/
def initI16 (s : State) : State :=
  s.inFlight false (primStart .tx) (fun _ s => (s.setBusy none).goStep 17) failInit

/-- I17: success, refused when a handler has reset the controller meanwhile (R154). -/
def initI17 (s : State) : State :=
  if s.engState = .halted then s.markRefused
  else ({ s with engState := .ready }.emit (.ret 0x20 .success [])).endSync

/-- The micro-step of `INITIALIZE` that `sync.step` names; no other number is reached. -/
def initStep (s : State) : State :=
  match s.sync.step.toNat with
  | 0 => initI0 s
  | 1 => initI1 s
  | 2 => initI2 s
  | 3 => initI3 s
  | 4 => initI4 s
  | 5 => initI5 s
  | 6 => initI6 s
  | 7 => initI7 s
  | 8 => initI8 s
  | 9 => initI9 s
  | 10 => initI10 s
  | 11 => initI11 s
  | 12 => initI12 s
  | 13 => initI13 s
  | 14 => initI14 s
  | 15 => initI15 s
  | 16 => initI16 s
  | 17 => initI17 s
  | _ => s

/-! ### TRANSMIT (R155 to R158) -/

/-- Acceptance of `TRANSMIT` (R150): operands are latched, SYNC goes on the stack. -/
def State.acceptTransmit (s : State) (buffer size : Word) : State :=
  { s.push .sync with
    sync := { s.sync with op := .transmit, step := 0, buffer := buffer, size := size } }

/-- `TRANSMIT` on the command port: accepted in `Ready`, refused otherwise (R159, R259). -/
def execTransmit (buffer size : Word) (s : State) : Outcome :=
  if s.engState == .ready && s.baseLevel then .next (s.acceptTransmit buffer size)
  else .next s.markRefused

/-- The end of `TRANSMIT` with a code (R155): the TX span ends and the response is emitted. -/
def endTransmit (c : Code) (s : State) : State := ((s.setBusy none).emit (.ret 0x21 c [])).endSync

/-- The reserved descriptor `d` of `TRANSMIT`, from the slot index that `sync.d` holds (R26, R155). -/
def txDesc (s : State) : Word := s.tx.slotAddr s.sync.d.toNat

/-- T0 (R155, R245). -/
def txT0 (s : State) : State :=
  if s.cfg.bufSize < s.sync.size then endTransmit .payloadTooLarge s else s.goStep 1

/-- T1 (R155, R244). -/
def txT1 (s : State) : State :=
  (s.setBusy (some .tx)).inFlight false (primReserve .tx 1)
    (fun rs s => { s with sync := { s.sync with d := s.slotOf .tx (rs.headD 0), step := 2 } })
    endTransmit

/-- T2: the staging copy (R155, R156); a source buffer that breaks R52 is refused (log entry 7). -/
def txT2 (s : State) : State :=
  if sourceOk s.params s.cfg s.sync.buffer s.sync.size then
    (s.copyUp s.cfg.txBufBase s.sync.buffer s.sync.size.toNat).goStep 3
  else s.markRefused

/-- T3 (R155, R156). -/
def txT3 (s : State) : State := (s.flush s.cfg.txBufBase s.sync.size).goStep 4

/-- T4 (R155): its code is not examined. -/
def txT4 (s : State) : State :=
  s.inFlight false (primBdSetAddr .tx (txDesc s) s.cfg.txBufBase) (fun _ s => s.goStep 5)
    (fun _ s => s.goStep 5)

/-- The code of a failing T5 or T7, carried to T8 (R155). -/
def txFail (c : Code) (s : State) : State := { s with sync := { s.sync with err := c, step := 8 } }

/-- T5 (R155). -/
def txT5 (s : State) : State :=
  s.inFlight false (primBdSetLen .tx (txDesc s) s.sync.size) (fun _ s => s.goStep 6) txFail

/-- T6 (R155): its code is not examined. -/
def txT6 (s : State) : State :=
  s.inFlight false (primBdSetCtrl .tx ctrlSofEof (txDesc s)) (fun _ s => s.goStep 7)
    (fun _ s => s.goStep 7)

/-- T7 (R155). -/
def txT7 (s : State) : State :=
  s.inFlight false (primCommit .tx 1 (txDesc s)) (fun _ s => endTransmit .success s) txFail

/-- T8: the reserved slot is released and the carried code returned (R155, R157). -/
def txT8 (s : State) : State :=
  s.inFlight false (primUnreserve .tx 1 (txDesc s)) (fun _ s => endTransmit s.sync.err s)
    (fun _ s => endTransmit s.sync.err s)

/-- The micro-step of `TRANSMIT` that `sync.step` names; no other number is reached. -/
def transmitStep (s : State) : State :=
  match s.sync.step.toNat with
  | 0 => txT0 s
  | 1 => txT1 s
  | 2 => txT2 s
  | 3 => txT3 s
  | 4 => txT4 s
  | 5 => txT5 s
  | 6 => txT6 s
  | 7 => txT7 s
  | 8 => txT8 s
  | _ => s

/-- One micro-step of agent SYNC inside an engine operation (R150). The micro-step of a direct primitive is
the primitive's own meaning, which `step` runs. -/
def syncStep (s : State) : State :=
  match s.sync.op with
  | .initEngine => initStep s
  | .transmit => transmitStep s
  | .none | .primitive => s

end Sys2Proof.Machine
end

