-- ==== Sys2Proof/Machine/RxSequencer.lean ====
section
/-! DEFINITION. The RX interrupt sequencer with the packet reassembly (42_rx_sequencer.md), one definition
per micro-step, and the dispatch event that enters it. -/

namespace Sys2Proof.Machine

/-- Dispatch event `IRQ_RX` (R95, R170, R219). -/
def execIrqRx (s : State) : Outcome := .next (s.dispatch .rx)

/-- `rxh.phase <- p`. -/
def State.rxPhase (s : State) (p : RxPhase) : State := { s with rxh := { s.rxh with phase := p } }

/-- The overlap of R280: the synchronous path is inside ring `x` and `P_SYNC_IRQ_OVERLAP = fault`. -/
def State.overlapFault (s : State) (x : Ring) : Bool :=
  s.sync.busyRing == some x && s.params.syncIrqOverlap == .fault

/-- State `Idle`, on the stack: read and acknowledge, or the spurious return (R171). The recognised bits of
the status word are the latch. -/
def rxAcknowledge (s : State) : State :=
  s.seqPrim true (primIrqGet .rx) fun _ s =>
    if s.rx.irqPend = 0 then s.leaveHandler .rx
    else
      s.seqPrim false (primIrqAck .rx s.rx.irqPend) fun _ t =>
        { t with rxh := { t.rxh with irq := s.rx.irqPend, state := .acknowledged } }

/-- State `Acknowledged` with `ERROR`: trigger the controller reset (R173). -/
def rxTriggerReset (s : State) : State :=
  s.seqPrim true primReset fun _ s =>
    { s with rxh := { s.rxh with poll := 0, state := .errorRecovery } }

/-- An exhausted poll budget sets the sticky bit with `P_RESET_TIMEOUT_FLAG` (R174, R247). -/
def State.noteTimeout (s : State) : State :=
  if s.params.resetTimeoutFlag then { s with ctl := { s.ctl with resetTimeout := true } } else s

/-- State `ErrorRecovery`: one poll of the reset-complete flag (R174). -/
def rxPoll (s : State) : State :=
  s.seqPrim true primResetDone fun rs s =>
    if rs.headD 0 = 1 then s.leaveHandler .rx
    else
      let t := { s with rxh := { s.rxh with poll := s.rxh.poll + 1 } }
      if s.rxh.poll + 1 = s.params.resetPollBudget then t.noteTimeout.leaveHandler .rx else t

/-- State `Acknowledged` without `ERROR`: the overlap check, then mask and enter the drain pass
(R175, R280). -/
def rxMask (s : State) : State :=
  if s.overlapFault .rx then s.markFault .concurrentRingAccess
  else
    s.seqPrim false (primIrqDisable .rx irqAll) fun _ s =>
      { s with rxh := { s.rxh with state := .draining, phase := .drain } }

/-- Phase `DRAIN` (R176). -/
def rxDrain (s : State) : State :=
  s.seqPrim false (primDrain .rx s.rx.slotCount) fun rs s =>
    let k : Half := (rs.headD 0).truncate 16
    let t := { s with rxh := { s.rxh with count := k, i := 0 } }
    if k ≠ 0 then
      { t with rxh := { t.rxh with first := s.slotOf .rx (rs.getD 1 0), phase := .walk } }
    else if s.params.rearmOnEmpty then t.rxPhase .enable
    else t.leaveHandler .rx

/-- Delivery of a complete packet (R179), or `NoCallback` when none is registered (R221). -/
def State.deliver (s : State) : State :=
  if s.cfg.callback = 0 then s.markFault .noCallback
  else
    let t := (s.invalidate s.rs.origin s.rs.acc).emit (.callback s.rs.origin s.rs.acc s.cfg.userCtx)
    { t with rs := { t.rs with complete := false } }

/-- What a descriptor's fragment does to the reassembly registers (R178). -/
def Reasm.addFragment (r : Reasm) (bufAddr length sts : Word) : Reasm :=
  { origin := if stsSof sts then bufAddr else r.origin
    acc := if stsSof sts then length else r.acc + length
    complete := if stsEof sts then true else r.complete }

/-- The reassembly step for slot `i` (R178). -/
def State.reassemble (s : State) (i : Nat) : State :=
  let sts := s.getField .rx i .sts
  if !stsComplete sts then s
  else if s.params.bdErrorSkip && stsError sts then s
  else
    let t := { s with
      rs := s.rs.addFragment (s.getField .rx i .bufAddr) (s.getField .rx i .length) sts }
    if t.rs.complete then t.deliver else t

/-- Phase `WALK`: one drained descriptor (R177). DESIGN CHOICE (log entry 26): a micro-step whose delivery is
the fault `NoCallback` still advances `rxh.i` and `rxh.phase`, where the spec is silent. -/
def rxWalk (s : State) : State :=
  let t := s.reassemble ((s.rxh.first.toNat + s.rxh.i.toNat) % s.rx.size)
  { t with rxh := { t.rxh with
      i := s.rxh.i + 1
      phase := if s.rxh.i + 1 = s.rxh.count then .free else .walk } }

/-- Phase `FREE` (R180). -/
def rxFree (s : State) : State :=
  s.seqPrim false (primFree .rx s.rxh.count (s.rx.slotAddr s.rxh.first.toNat)) fun _ s =>
    s.rxPhase .reserve

/-- Phase `RESERVE` (R181). -/
def rxReserve (s : State) : State :=
  s.seqPrim false (primReserve .rx s.rxh.count) fun rs s =>
    { s with rxh := { s.rxh with
        first2 := s.slotOf .rx (rs.headD 0), i := 0, phase := .populate } }

/-- The slot of this `POPULATE` iteration (R181). -/
def rxPopulateSlot (s : State) : Nat := (s.rxh.first2.toNat + s.rxh.i.toNat) % s.rx.size

/-- Phase `POPULATE`: one slot; `buf_addr` is not rewritten (R181). -/
def rxPopulate (s : State) : State :=
  s.seqPrim false (primBdSetLen .rx (s.rx.slotAddr (rxPopulateSlot s)) s.cfg.bufSize) fun _ s =>
    s.seqPrim false (primBdSetCtrl .rx 0 (s.rx.slotAddr (rxPopulateSlot s))) fun _ s =>
      { s with rxh := { s.rxh with
          i := s.rxh.i + 1
          phase := if s.rxh.i + 1 = s.rxh.count then .commit else .populate } }

/-- Phase `COMMIT` (R182). -/
def rxCommit (s : State) : State :=
  s.seqPrim false (primCommit .rx s.rxh.count (s.rx.slotAddr s.rxh.first2.toNat)) fun _ s =>
    s.rxPhase .enable

/-- Phase `ENABLE` (R183). -/
def rxEnable (s : State) : State :=
  s.seqPrim false (primIrqEnable .rx irqAll) fun _ s =>
    { s with rxh := { s.rxh with state := .rearmed } }

/-- One micro-step of the RX sequencer (R184). -/
def rxhStep (s : State) : State :=
  match s.rxh.state with
  | .idle => rxAcknowledge s
  | .acknowledged => if hasError s.rxh.irq then rxTriggerReset s else rxMask s
  | .errorRecovery => rxPoll s
  | .draining =>
    match s.rxh.phase with
    | .drain => rxDrain s
    | .walk => rxWalk s
    | .free => rxFree s
    | .reserve => rxReserve s
    | .populate => rxPopulate s
    | .commit => rxCommit s
    | .enable => rxEnable s
  | .rearmed => s.leaveHandler .rx

end Sys2Proof.Machine
end

