-- ==== Sys2Proof/Machine/TxSequencer.lean ====
section
/-! DEFINITION. The TX interrupt sequencer (43_tx_sequencer.md), one definition per micro-step, and the
dispatch event that enters it. -/

namespace Sys2Proof.Machine

/-- Dispatch event `IRQ_TX` (R95, R200, R219). -/
def execIrqTx (s : State) : Outcome := .next (s.dispatch .tx)

/-- State `Idle`, on the stack: read and acknowledge, or the spurious return (R201). -/
def txAcknowledge (s : State) : State :=
  s.seqPrim true (primIrqGet .tx) fun _ s =>
    if s.tx.irqPend = 0 then s.leaveHandler .tx
    else
      s.seqPrim false (primIrqAck .tx s.tx.irqPend) fun _ t =>
        { t with txh := { t.txh with irq := s.tx.irqPend, state := .acknowledged } }

/-- State `Acknowledged` with `ERROR`: trigger the controller reset (R203). -/
def txTriggerReset (s : State) : State :=
  s.seqPrim true primReset fun _ s =>
    { s with txh := { s.txh with poll := 0, state := .errorRecovery } }

/-- State `ErrorRecovery`: one poll of the reset-complete flag (R203). -/
def txPoll (s : State) : State :=
  s.seqPrim true primResetDone fun rs s =>
    if rs.headD 0 = 1 then s.leaveHandler .tx
    else
      let t := { s with txh := { s.txh with poll := s.txh.poll + 1 } }
      if s.txh.poll + 1 = s.params.resetPollBudget then t.noteTimeout.leaveHandler .tx else t

/-- State `Acknowledged` without `ERROR`: the overlap check, then mask and enter the drain pass
(R204, R280). -/
def txMask (s : State) : State :=
  if s.overlapFault .tx then s.markFault .concurrentRingAccess
  else
    s.seqPrim false (primIrqDisable .tx irqAll) fun _ s =>
      { s with txh := { s.txh with state := .draining, phase := .drain } }

/-- Phase `DRAIN` (R204); an empty drain goes on to `ENABLE` (R207). -/
def txDrain (s : State) : State :=
  s.seqPrim false (primDrain .tx s.tx.slotCount) fun rs s =>
    let k : Half := (rs.headD 0).truncate 16
    if k ≠ 0 then
      { s with txh := { s.txh with
          count := k, first := s.slotOf .tx (rs.getD 1 0), phase := .free } }
    else { s with txh := { s.txh with count := k, phase := .enable } }

/-- Phase `FREE` (R205). -/
def txFree (s : State) : State :=
  s.seqPrim false (primFree .tx s.txh.count (s.tx.slotAddr s.txh.first.toNat)) fun _ s =>
    { s with txh := { s.txh with phase := .enable } }

/-- Phase `ENABLE` (R206). -/
def txEnable (s : State) : State :=
  s.seqPrim false (primIrqEnable .tx irqAll) fun _ s =>
    { s with txh := { s.txh with state := .rearmed } }

/-- One micro-step of the TX sequencer (R200). -/
def txhStep (s : State) : State :=
  match s.txh.state with
  | .idle => txAcknowledge s
  | .acknowledged => if hasError s.txh.irq then txTriggerReset s else txMask s
  | .errorRecovery => txPoll s
  | .draining =>
    match s.txh.phase with
    | .drain => txDrain s
    | .free => txFree s
    | .enable => txEnable s
  | .rearmed => s.leaveHandler .tx

end Sys2Proof.Machine
end

