-- ==== Sys2Proof/Machine/Dispatch.lean ====
section
/-! DEFINITION. One arm per instruction: what a command accepted from the command port, or an event taken
from the dispatch port, does. -/

namespace Sys2Proof.Machine

def exec (i : Instr) (s : State) : Host.Outcome State Fault Refusal :=
  match i with
  | .create x n regionBase regionSize alignment maxLen => Sys2Proof.Machine.execCreate x n regionBase regionSize alignment maxLen s
  | .initSlots x bufAddr length ctrl sts => Sys2Proof.Machine.execInitSlots x bufAddr length ctrl sts s
  | .reserve x n => Sys2Proof.Machine.execReserve x n s
  | .unreserve x n first => Sys2Proof.Machine.execUnreserve x n first s
  | .commit x n first => Sys2Proof.Machine.execCommit x n first s
  | .drain x n => Sys2Proof.Machine.execDrain x n s
  | .free x n first => Sys2Proof.Machine.execFree x n first s
  | .start x => Sys2Proof.Machine.execStart x s
  | .stop x => Sys2Proof.Machine.execStop x s
  | .irqEnable x m => Sys2Proof.Machine.execIrqEnable x m s
  | .irqDisable x m => Sys2Proof.Machine.execIrqDisable x m s
  | .irqGet x => Sys2Proof.Machine.execIrqGet x s
  | .irqAck x m => Sys2Proof.Machine.execIrqAck x m s
  | .reset => Sys2Proof.Machine.execReset s
  | .resetDone => Sys2Proof.Machine.execResetDone s
  | .bdSetAddr x desc addr => Sys2Proof.Machine.execBdSetAddr x desc addr s
  | .bdSetLen x desc len => Sys2Proof.Machine.execBdSetLen x desc len s
  | .bdSetCtrl x m desc => Sys2Proof.Machine.execBdSetCtrl x m desc s
  | .bdGetAddr x desc => Sys2Proof.Machine.execBdGetAddr x desc s
  | .bdGetLen x desc => Sys2Proof.Machine.execBdGetLen x desc s
  | .bdGetSts x desc => Sys2Proof.Machine.execBdGetSts x desc s
  | .bdNext x desc => Sys2Proof.Machine.execBdNext x desc s
  | .initEngine n deviceId rxVec rxPrio txVec txPrio rxBdBase txBdBase bufSize rxBufBase txBufBase callback userCtx => Sys2Proof.Machine.execInitEngine n deviceId rxVec rxPrio txVec txPrio rxBdBase txBdBase bufSize rxBufBase txBufBase callback userCtx s
  | .transmit buffer size => Sys2Proof.Machine.execTransmit buffer size s
  | .irqRx => Sys2Proof.Machine.execIrqRx s
  | .irqTx => Sys2Proof.Machine.execIrqTx s

end Sys2Proof.Machine
end

