-- ==== Sys2Proof/Machine/Environment.lean ====
section
/-! DEFINITION. The agents that the schedule may pick (10_state.md R10, R27) and the collaborators outside
the block (44_external_agents.md): the processor's top context, the data mover, the cache, the application,
the configuration lookup. A move whose guard does not hold is no step of its agent: nothing changes. -/

namespace Sys2Proof.Machine

/-- The top of `cpu.stack` takes its next micro-step; an empty stack is the idle processor (R27, R262). -/
def cpuStep (s : State) : State :=
  match s.top with
  | some .sync => syncStep s
  | some .rxh => rxhStep s
  | some .txh => txhStep s
  | none => s

/-! ### The data mover (R215 to R218, R220, R226) -/

/-- R215: the channel may step. -/
def State.channelEnabled (s : State) (x : Ring) : Bool :=
  (s.ring x).created && (s.ring x).run && !s.ctl.resetting

/-- `done_cnt <- done_cnt + 1`. -/
def State.countDone (s : State) (x : Ring) : State :=
  s.setRing x { s.ring x with doneCnt := (s.ring x).doneCnt + 1 }

/-- R216's guard and the legality of its draws: the channel may step, a slot is posted, `len` is at most the
requested count, and the framing is as `P_RX_FRAMING` says. -/
def State.canRxComplete (s : State) (sof : Bool) (data : List Byte) : Bool :=
  s.channelEnabled .rx && decide (0 < s.rx.postedCnt) &&
    decide (data.length ≤ (s.getField .rx s.rx.oldestPosted .length).toNat) &&
    (s.params.rxFraming == .free || sof == s.rxFrameStart)

/-- `@dma rx_complete` (R216). DESIGN CHOICE (log entry 27): a buffer that lies in descriptor memory gets the
data all the same, in both views, and the record's `length` and `sts` are written after it. -/
def rxComplete (sof eof err : Bool) (data : List Byte) (s : State) : State :=
  if s.canRxComplete sof data then
    let i := s.rx.oldestPosted
    let t := s.pokeList .hw (s.getField .rx i .bufAddr) data
    let t := t.setField .rx i .length (BitVec.ofNat 32 data.length)
    let t := t.setField .rx i .sts (stsWord sof eof err)
    { (t.countDone .rx).emit (.rxData (BitVec.ofNat 16 i) data) with rxFrameStart := eof }
  else s

/-- The length `hwLog` had when the oldest posted TX slot was posted (R217). -/
def State.txMark (s : State) : Nat := s.txMarks.headD 0

/-- R217's guard and the legality of its draws: the channel may step, a slot is posted, and each byte sent is
a value its `hw` byte has held since the slot was posted. -/
def State.canTxComplete (s : State) (bytes : List Byte) : Bool :=
  let i := s.tx.oldestPosted
  s.channelEnabled .tx && decide (0 < s.tx.postedCnt) &&
    decide (bytes.length = (s.getField .tx i .length).toNat) &&
    bytes.zipIdx.all fun p =>
      (s.heldSince s.txMark (s.getField .tx i .bufAddr + BitVec.ofNat 32 p.2)).contains p.1

/-- `@dma tx_complete` (R217); `length` is left as requested. -/
def txComplete (err : Bool) (bytes : List Byte) (s : State) : State :=
  if s.canTxComplete bytes then
    let t := s.setField .tx s.tx.oldestPosted .sts (stsWord false false err)
    { (t.countDone .tx).emit (.txWire bytes) with txMarks := s.txMarks.tail }
  else s

/-- `@dma raise` (R218): the bit latches whether or not it is enabled. -/
def raiseIrq (x : Ring) (b : IrqSource) (s : State) : State :=
  if s.channelEnabled x then
    s.setRing x { s.ring x with irqPend := (s.ring x).irqPend ||| b.mask }
  else s

/-- `@dma reset_complete` (R220). -/
def resetComplete (s : State) : State :=
  if s.ctl.resetting then { s with ctl := { s.ctl with resetting := false, resetDone := true } } else s

/-! ### The application and the other collaborators -/

/-- The application writes a byte through the processor's cache; never a byte of descriptor memory
(R58, R225). -/
def appWrite (a : Word) (b : Byte) (s : State) : State :=
  if s.isDescriptorByte a then s else s.poke .sw a b

/-- The callback issues a command or blocks: outside its contract, refused (R221, R259). Only the RX handler
calls it (R179). -/
def callbackCommand (s : State) : State :=
  if s.stack.contains .rxh then s.markRefused else s

/-- Every move but the two that take something from a port (see `step`). -/
def agentMove (m : Move) (s : State) : State :=
  match m with
  | .cpu => cpuStep s
  | .rxComplete sof eof err data => rxComplete sof eof err data s
  | .txComplete err bytes => txComplete err bytes s
  | .raise x b => raiseIrq x b s
  | .resetComplete => resetComplete s
  | .writeBack a => s.writeBack a
  | .refill a => s.refill a
  | .appWrite a b => appWrite a b s
  | .setLookup l => { s with lookup := l }
  | .callbackCommand => callbackCommand s
  | .command | .dispatch | .idle => s

end Sys2Proof.Machine
end

