-- ==== Sys2Proof/Machine/Fetch.lean ====
section
/-! DEFINITION. What the step takes from the two ports (20_memory.md R50; 30_encoding.md R80, R91, R95;
41_engine_ops.md R150), the move that comes next, and the placing of an instruction on a port. The block
fetches no instructions (R68); commands and events arrive. -/

namespace Sys2Proof.Machine

/-- What taking from a port comes to. -/
inductive Fetched where
  /-- Instruction `i` runs in state `s`, its words or event code consumed. -/
  | run (i : Instr) (s : State)
  /-- No instruction runs; the next state is `s`. -/
  | answered (s : State)
  deriving DecidableEq, Repr

/-- The command at the head of the command port. It waits unless the port is at base level and all its
words have arrived (R150); an illegal header is answered `InvalidCommand`, with no operand word consumed
(R91). -/
def fetchCommand (s : State) : Fetched :=
  if s.baseLevel then
    match decodeCommand s.cmdPort with
    | .instr i rest => .run i { s with cmdPort := rest }
    | .invalidCommand op rest => .answered ({ s with cmdPort := rest }.emit (.ret op .invalidCommand []))
    | .incomplete => .answered s
  else .answered s

/-- The event at the head of the dispatch port; a reserved code is ignored (R95). -/
def fetchEvent (s : State) : Fetched :=
  match s.evtPort with
  | [] => .answered s
  | e :: rest =>
    match decodeEvent e with
    | some i => .run i { s with evtPort := rest }
    | none => .answered { s with evtPort := rest }

/-- The direct primitive whose micro-step is SYNC's next (R136, R150). -/
def State.latchedPrimitive (s : State) : Option Instr := if s.primitiveTurn then s.sync.prim else none

/-- The move that comes next: the schedule's first, or, where the schedule is empty, the processor's top
context, else a waiting event, else a waiting command, else none (log entry 1). -/
def State.nextMove (s : State) : Move :=
  match s.agenda with
  | m :: _ => m
  | [] =>
    if !s.stack.isEmpty then .cpu
    else if !s.evtPort.isEmpty then .dispatch
    else if !s.cmdPort.isEmpty then .command
    else .idle

/-- The state with the schedule's first move taken off. -/
def State.popAgenda (s : State) : State := { s with agenda := s.agenda.tail }

/-- `s` with a table row's instruction placed where the next step takes an instruction from, the schedule asking
for it: an event's code at the head of the dispatch port; a primitive accepted and latched, its micro-step
next; any other command's words, and words that are no legal command, at the head of the command port. -/
def State.placeTableWord (s : State) (nbits w : Nat) : State :=
  match eventCode ((tableWords nbits w).headD 0), decodeTableWord nbits w with
  | some e, _ => { s with evtPort := e :: s.evtPort, agenda := .dispatch :: s.agenda }
  | none, some i =>
    if isPrimitive i then { s.acceptPrimitive i with agenda := .cpu :: s.agenda }
    else { s with cmdPort := tableWords nbits w ++ s.cmdPort, agenda := .command :: s.agenda }
  | none, none => { s with cmdPort := tableWords nbits w ++ s.cmdPort, agenda := .command :: s.agenda }

end Sys2Proof.Machine
end

