-- ==== Sys2Proof/Machine/Step.lean ====
section
/-! DEFINITION. One step of the machine: a state that carries a mark stops (10_state.md R34,
60_exceptions.md R250); otherwise the next move of the schedule is taken. -/

namespace Sys2Proof.Machine

/-- One move. A command or an event that a port yields is `exec`uted, and so is the direct primitive whose
micro-step the processor takes. -/
def runMove (m : Move) (s : State) : Host.Outcome State Fault Refusal :=
  match m with
  | .command =>
    match fetchCommand s with
    | .run i t => exec i t
    | .answered t => .next t
  | .dispatch =>
    match fetchEvent s with
    | .run i t => exec i t
    | .answered t => .next t
  | .cpu =>
    match s.latchedPrimitive with
    | some i => exec i s
    | none => .next (cpuStep s)
  | .rxComplete _ _ _ _ | .txComplete _ _ | .raise _ _ | .resetComplete | .writeBack _
  | .refill _ | .appWrite _ _ | .setLookup _ | .callbackCommand | .idle => .next (agentMove m s)

/-- One step: after a fault no agent steps (R250), after a refusal nothing is claimed (R240). -/
def step (s : State) : Host.Outcome State Fault Refusal :=
  match s.fault with
  | some f => .fault f
  | none => if s.refused then .refused .outsideSpec else runMove s.nextMove s.popAgenda

/-- `s` with a table word placed where `step` takes its next instruction from. -/
def State.withFetchWord (s : State) (nbits w : Nat) : State := s.placeTableWord nbits w

end Sys2Proof.Machine
end

