-- ==== Sys2Proof/Machine/Csr.lean ====
section
/-! DEFINITION. The CSR view (10_state.md R31): every control field under the spec's own number. No command
reads a CSR directly; the view is how a claim names the fields. -/

namespace Sys2Proof.Machine

/-- `G0` to `G8` (R31). -/
inductive CsrG where
  | engState
  | ctlReset
  | syncStep
  | rxhState
  | txhState
  | rsOrigin
  | rsAcc
  | rsFlags
  | fault
  deriving DecidableEq, Repr

/-- `X0` to `X11` of a ring (R31). -/
inductive CsrX where
  | ringCtrl
  | irqEn
  | irqPend
  | base
  | slotCount
  | slotStride
  | maxLen
  | postHead
  | postCnt
  | hwCnt
  | preCnt
  | freeCnt
  deriving DecidableEq, Repr

/-- One bit as a bit vector. -/
def bit1 (b : Bool) : BitVec 1 := BitVec.ofBool b

/-- `G0` to `G8` (R31, R89, R90). DESIGN CHOICE (log entry 25): the bits that R31 does not list read 0. -/
def State.csrG (s : State) : CsrG → Word
  | .engState => (bit1 s.cfgValid ++ s.engState.toBits).zeroExtend 32
  | .ctlReset =>
    (bit1 s.ctl.resetTimeout ++ bit1 s.ctl.resetDone ++ bit1 s.ctl.resetting).zeroExtend 32
  | .syncStep => (busyRingBits s.sync.busyRing ++ s.sync.op.toBits ++ s.sync.step).zeroExtend 32
  | .rxhState => (s.rxh.phase.toBits ++ s.rxh.state.toBits).zeroExtend 32
  | .txhState => (s.txh.phase.toBits ++ s.txh.state.toBits).zeroExtend 32
  | .rsOrigin => s.rs.origin
  | .rsAcc => s.rs.acc
  | .rsFlags => (bit1 s.rs.complete).zeroExtend 32
  | .fault => (faultCode s.fault).zeroExtend 32

/-- `X0` to `X11` (R31). Bits [31:3] of `X2` are unrecognised and read as a free value (R87). DESIGN CHOICE (log
entry 25): the bits of the others that R31 does not list read 0. -/
def State.csrX (s : State) (x : Ring) : CsrX → Word
  | .ringCtrl => (bit1 (s.ring x).created ++ bit1 (s.ring x).run).zeroExtend 32
  | .irqEn => (s.ring x).irqEn.zeroExtend 32
  | .irqPend => irqStatusWord (Config.freeStatusBits s.draws) (s.ring x).irqPend
  | .base => (s.ring x).base
  | .slotCount => (s.ring x).slotCount.zeroExtend 32
  | .slotStride => (s.ring x).slotStride
  | .maxLen => (s.ring x).maxLen
  | .postHead => (s.ring x).postHead.zeroExtend 32
  | .postCnt => (s.ring x).postCnt.zeroExtend 32
  | .hwCnt => (s.ring x).hwCnt.zeroExtend 32
  | .preCnt => (s.ring x).preCnt.zeroExtend 32
  | .freeCnt => (s.ring x).freeCnt.zeroExtend 32

end Sys2Proof.Machine
end

