-- ==== Sys2Proof/Safety.lean ====
section
/-! DEFINITION. The terms in which claims speak of the machine: marks, contexts, the invariants of the rings
(10_state.md R13 to R16), of the context stack (R27) and of memory, and the sets of fields that an
operation may change. -/

namespace Sys2Proof.Machine

/-! ### Situations -/

/-- Neither mark is set (R34). -/
abbrev State.unmarked (s : State) : Prop := s.fault = none ∧ s.refused = false

/-- No synchronous operation is in progress and no handler is on the stack (R150). -/
abbrev State.atBase (s : State) : Prop :=
  s.sync.op = .none ∧ Agent.rxh ∉ s.stack ∧ Agent.txh ∉ s.stack

/-- A direct primitive may be accepted (R136, R150). -/
abbrev State.acceptsPrimitive (s : State) : Prop := s.engState = .uninit ∧ s.atBase

/-- A direct primitive is in progress, SYNC is at the top and the engine is still `Uninit`, so that its one
micro-step is performed (R136, R150). -/
abbrev State.directReady (s : State) : Prop :=
  s.engState = .uninit ∧ s.sync.op = .primitive ∧ s.top = some .sync

/-- The state after an operation of the synchronous path has ended with a response: the response is in the
trace, `sync.op` is `none` and SYNC is off the stack (R150). -/
abbrev responded (t : State) (op : BitVec 8) (c : Code) (results : List Word) : Outcome :=
  .next
    { t with
      out := t.out ++ [.ret op c results]
      sync := { t.sync with op := .none }
      stack := t.stack.dropLast }

/-- The state after a direct primitive that answered `Success` with these results and did `t`. -/
abbrev answered (t : State) (op : BitVec 8) (results : List Word) : Outcome :=
  responded t op .success results

/-- The state after a direct primitive that failed with a code and changed nothing (R110). -/
abbrev failed (s : State) (op : BitVec 8) (c : Code) : Outcome := responded s op c []

/-- The primitives that store nothing to memory, the engine operations (which store only in later micro-steps)
and the two events. `CREATE` is not among them: it changes which bytes are descriptor memory (R62). -/
def storesNothing : Instr → Bool
  | .create _ _ _ _ _ _ | .initSlots _ _ _ _ _ | .commit _ _ _ | .bdSetAddr _ _ _ | .bdSetLen _ _ _
  | .bdSetCtrl _ _ _ => false
  | .reserve _ _ | .unreserve _ _ _ | .drain _ _ | .free _ _ _ | .start _ | .stop _ | .irqEnable _ _
  | .irqDisable _ _ | .irqGet _ | .irqAck _ _ | .reset | .resetDone | .bdGetAddr _ _ | .bdGetLen _ _
  | .bdGetSts _ _ | .bdNext _ _ | .initEngine _ _ _ _ _ _ _ _ _ _ _ _ _ | .transmit _ _ | .irqRx
  | .irqTx => true

/-- The ring that must be created before the primitive's own checks (R110 check 3). -/
def neededRing : Instr → Option Ring
  | .initSlots x _ _ _ _ | .reserve x _ | .unreserve x _ _ | .commit x _ _ | .drain x _ | .free x _ _
  | .start x | .stop x | .bdSetAddr x _ _ | .bdSetLen x _ _ | .bdSetCtrl x _ _ | .bdGetAddr x _
  | .bdGetLen x _ | .bdGetSts x _ | .bdNext x _ => some x
  | .create _ _ _ _ _ _ | .irqEnable _ _ | .irqDisable _ _ | .irqGet _ | .irqAck _ _ | .reset
  | .resetDone | .initEngine _ _ _ _ _ _ _ _ _ _ _ _ _ | .transmit _ _ | .irqRx | .irqTx => none

/-- The descriptor reference of an accessor (R126 to R132). -/
def accessorReference : Instr → Option (Ring × Word)
  | .bdSetAddr x d _ | .bdSetLen x d _ | .bdSetCtrl x _ d | .bdGetAddr x d | .bdGetLen x d
  | .bdGetSts x d | .bdNext x d => some (x, d)
  | .initSlots _ _ _ _ _ | .reserve _ _ | .unreserve _ _ _ | .commit _ _ _ | .drain _ _ | .free _ _ _
  | .start _ | .stop _ | .create _ _ _ _ _ _ | .irqEnable _ _ | .irqDisable _ _ | .irqGet _
  | .irqAck _ _ | .reset | .resetDone | .initEngine _ _ _ _ _ _ _ _ _ _ _ _ _ | .transmit _ _ | .irqRx
  | .irqTx => none

/-- R91: the opcode is not in R83, or `rsv` or a field that its row does not use is not zero. -/
def IllegalHeader (w : Word) : Prop :=
  ∀ r ∈ opcodeMap, r.op = opField w →
    rsvField w ≠ 0 ∨ (r.usesRing = false ∧ ringField w = .tx) ∨ mField w &&& ~~~r.mBits ≠ 0 ∨
      (r.usesN = false ∧ nField w ≠ 0)

/-! ### Runs -/

/-- `k` steps, one after the other. -/
def steps : Nat → State → Outcome
  | 0, s => .next s
  | k + 1, s =>
    match step s with
    | .next t => steps k t
    | .fault f => .fault f
    | .refused r => .refused r

/-- The next step is a micro-step of agent `a`: it is the top of the stack and the schedule picks the
processor (R27). -/
abbrev State.turnOf (s : State) (a : Agent) : Prop :=
  s.unmarked ∧ s.nextMove = .cpu ∧ s.top = some a

/-- Agent `a` is the top of the stack and the schedule asks for nothing else, so that it steps on without
being disturbed (log entry 1). -/
abbrev State.undisturbed (s : State) (a : Agent) : Prop :=
  s.unmarked ∧ s.agenda = [] ∧ s.top = some a

/-! ### Invariants -/

/-- A created ring: the capacity invariant of R15, the head inside the ring, and the geometry that `CREATE`
checks (R111). -/
structure RingRegs.Ok (r : RingRegs) : Prop where
  nonempty : 0 < r.size
  capacity :
    r.postCnt.toNat + r.hwCnt.toNat + r.preCnt.toNat + r.freeCnt.toNat = r.size
  done : r.doneCnt.toNat ≤ r.hwCnt.toNat
  head : r.postHead.toNat < r.size
  stride : 16 ≤ r.slotStride.toNat
  region : r.base.toNat + r.size * r.slotStride.toNat ≤ 2 ^ 32
  maxLen : r.maxLen ≠ 0
  holds : r.size * r.slotStride.toNat ≤ r.regionSize.toNat

/-- Every created ring is `Ok`. -/
def State.RingsOk (s : State) : Prop := ∀ x, (s.ring x).created = true → (s.ring x).Ok

/-- The context stack (R27): no agent twice, SYNC only at the bottom and there exactly while an operation is
in progress, and a handler off the stack is `Idle`. -/
structure State.StackOk (s : State) : Prop where
  nodup : s.stack.Nodup
  syncBottom : Agent.sync ∉ s.stack.tail
  syncIff : Agent.sync ∈ s.stack ↔ s.sync.op ≠ .none
  rxIdle : Agent.rxh ∉ s.stack → s.rxh.state = .idle
  txIdle : Agent.txh ∉ s.stack → s.txh.state = .idle

/-- Both views of memory are in canonical form. -/
def State.MemoryOk (s : State) : Prop := s.memSw.wf ∧ s.memHw.wf

/-- The model's record of when the posted TX slots were posted: one mark for each, none beyond the log's
length (log entry 12). -/
def State.MarksOk (s : State) : Prop :=
  s.tx.created = true →
    s.txMarks.length = s.tx.postedCnt ∧ ∀ m ∈ s.txMarks, m ≤ s.hwLog.length

/-- After a controller reset and until `INITIALIZE`: both channels stopped, masked, nothing pending
(R124, R272). -/
def State.HaltedQuiet (s : State) : Prop :=
  s.engState = .halted → ∀ x, (s.ring x).run = false ∧ (s.ring x).irqEn = 0 ∧ (s.ring x).irqPend = 0

/-- The RX lockup of R257: RX masked, its handler off the stack, and no `INITIALIZE` under way. -/
def State.LockedOut (s : State) : Prop :=
  s.rx.irqEn = 0 ∧ Agent.rxh ∉ s.stack ∧ s.sync.op ≠ .initEngine ∧ s.engState = .ready

/-! ### Slot moves (R14) -/

/-- The moves of R14: `FREE → RESERVED → POSTED → COMPLETED → DRAINED → FREE`, and `RESERVED → FREE`. -/
def slotMove : SlotState → SlotState → Bool
  | .free, .reserved => true
  | .reserved, .posted => true
  | .posted, .completed => true
  | .completed, .drained => true
  | .drained, .free => true
  | .reserved, .free => true
  | _, _ => false

/-! ### What a TX completion may send (R217) -/

/-- The length `hwLog` had when the posted TX slot `i` was posted. -/
def State.txMarkOf (s : State) (i : Nat) : Nat :=
  s.txMarks.getD ((i + s.tx.size - s.tx.oldestPosted) % s.tx.size) 0

/-- `v` is a value that the `hw` byte at `a` has held since the posted TX slot `i` was posted (R217). -/
def State.Sendable (s : State) (i : Nat) (a : Word) (v : Byte) : Prop :=
  v ∈ s.heldSince (s.txMarkOf i) a

/-! ### Bytes and fields -/

/-- `a` is one of the `len` bytes from `b` on (addresses modulo 2^32, R73). -/
def InRange (b : Word) (len : Nat) (a : Word) : Prop := ∃ k < len, a = b + BitVec.ofNat 32 k

/-- `a` is one of the four bytes of field `f` of slot `i` of ring `x` (R54, R84). -/
def State.InField (s : State) (x : Ring) (i : Nat) (f : BdField) (a : Word) : Prop :=
  InRange ((s.ring x).slotAddr i + f.offset) 4 a

/-- Outside memory (with the log of replaced `hw` bytes), `t` is `s`. -/
def SameButMemory (s t : State) : Prop :=
  { t with memSw := s.memSw, memHw := s.memHw, hwLog := s.hwLog } = s

/-- Every byte of both views that is not in `P` reads in `t` as it read in `s`. -/
def BytesKept (s t : State) (P : Word → Prop) : Prop := ∀ v a, ¬P a → t.peek v a = s.peek v a

/-- Field `f` of slot `i` holds `w` in `t`, in both views and little-endian (R53), and nothing else differs
from `s`. -/
structure FieldWritten (s t : State) (x : Ring) (i : Nat) (f : BdField) (w : Word) : Prop where
  value : t.getField x i f = w
  bytes : ∀ v, ∀ k < 4,
    t.peek v ((s.ring x).slotAddr i + f.offset + BitVec.ofNat 32 k) = w.extractLsb' (8 * k) 8
  rest : SameButMemory s t
  frame : BytesKept s t (s.InField x i f)

end Sys2Proof.Machine
end

