-- ==== Sys2Proof/Certificates/Slice0/Obligations.lean ====
section
/-! DEFINITION. The statements for the provers. A statement that speaks of a step names the agent whose turn
it is or the move the schedule asks for; `s.popAgenda` is `s` with that move taken off the schedule. -/

section Statements

open Sys2Proof Sys2Proof.Machine

/-! ### Encoding and the step -/

/-- Every well-formed instruction, at every value of every operand, decodes from its encoding, with what
follows left on the port (R80 to R83, R95, R97, R98). -/
def Obligations.DecodeInvertsEncode : Prop :=
  ∀ (i : Instr) (rest : List Word), i.wellFormed = true → decode (encode i ++ rest) = .instr i rest

/-- Every command the decoder accepts is well formed, and its words are exactly the words of its encoding:
no reserved or unused bit is ignored (R83, R91). -/
def Obligations.DecodedCommandReencodes : Prop :=
  ∀ (ws : List Word) (i : Instr) (rest : List Word),
    decodeCommand ws = .instr i rest → i.wellFormed = true ∧ encode i ++ rest = ws

/-- The encodings that R93 and R95 write out decode to the instructions they stand for. -/
def Obligations.WrittenWordsDecode : Prop :=
  decode [0x03000003] = .instr (.reserve .rx 3) [] ∧
  decode [0x05800001, 0x00011000] = .instr (.commit .tx 1 0x11000) [] ∧
  decode [0x0B070000] = .instr (.irqDisable .rx 7) [] ∧
  decode [0x12830000, 0x00011000] = .instr (.bdSetCtrl .tx 3 0x11000) [] ∧
  decodeEvent 2 = some .irqRx ∧ decodeEvent 3 = some .irqTx ∧
  decodeEvent 0 = none ∧ decodeEvent 1 = none

/-- A step runs the decoded instruction: a command taken at base level, an event of the dispatch port, and, as
SYNC's micro-step, the direct primitive in progress (R95, R150, R219). That a command above base level waits on
the port, and that a reserved event code is consumed, is the model's reading (log entries 13 and 14). -/
def Obligations.StepRunsInstruction : Prop :=
  (∀ (s : State) (i : Instr) (rest : List Word), s.unmarked → s.nextMove = .command → s.atBase →
    decodeCommand s.cmdPort = .instr i rest → step s = exec i { s.popAgenda with cmdPort := rest }) ∧
  (∀ (s : State) (i : Instr), s.turnOf .sync → s.sync.op = .primitive → s.sync.prim = some i →
    step s = exec i s.popAgenda) ∧
  (∀ s : State, s.unmarked → s.nextMove = .command → ¬s.atBase → step s = .next s.popAgenda) ∧
  (∀ (s : State) (rest : List (BitVec 2)), s.unmarked → s.nextMove = .dispatch →
    s.evtPort = 2#2 :: rest → step s = exec .irqRx { s.popAgenda with evtPort := rest }) ∧
  (∀ (s : State) (rest : List (BitVec 2)), s.unmarked → s.nextMove = .dispatch →
    s.evtPort = 3#2 :: rest → step s = exec .irqTx { s.popAgenda with evtPort := rest }) ∧
  (∀ (s : State) (e : BitVec 2) (rest : List (BitVec 2)), s.unmarked → s.nextMove = .dispatch →
    s.evtPort = e :: rest → e = 0 ∨ e = 1 → step s = .next { s.popAgenda with evtPort := rest })

/-- An illegal header is answered `InvalidCommand`; only the header is consumed and nothing else changes
(R91). That it is so in every engine state at base level, and that the response carries the header's own opcode
field, is the model's reading (log entry 16). -/
def Obligations.IllegalHeaderIsAnswered : Prop :=
  ∀ (s : State) (w : Word) (ws : List Word), s.unmarked → s.nextMove = .command → s.atBase →
    s.cmdPort = w :: ws → IllegalHeader w →
    step s = .next ({ s.popAgenda with cmdPort := ws }.emit (.ret (opField w) .invalidCommand []))

/-- After a fault or a refusal no step follows, and the fault's code is what CSR `G8` reads in its bits [7:0]
(R31, R34, R250). That the step after a refusal answers the refusal `outsideSpec` is the model's reading (log
entry 9). -/
def Obligations.MarkedStateStops : Prop :=
  (∀ (s : State) (f : Fault), s.fault = some f → step s = .fault f) ∧
  (∀ s : State, s.fault = none → s.refused = true → step s = .refused .outsideSpec) ∧
  (∀ s : State, (s.fault = none → (s.csrG .fault).extractLsb' 0 8 = 0x00) ∧
    (s.fault = some .concurrentRingAccess → (s.csrG .fault).extractLsb' 0 8 = 0x80) ∧
    (s.fault = some .sequencerPrimitiveError → (s.csrG .fault).extractLsb' 0 8 = 0x81) ∧
    (s.fault = some .noCallback → (s.csrG .fault).extractLsb' 0 8 = 0x82))

/-! ### Reset -/

/-- The values that R32 gives the state after power-on reset. -/
def Obligations.PowerOnValues : Prop :=
  let s := State.reset
  s.engState = .uninit ∧ s.cfgValid = false ∧
  (∀ x, (s.ring x).created = false ∧ (s.ring x).run = false ∧ (s.ring x).irqEn = 0 ∧
    (s.ring x).irqPend = 0 ∧ (s.ring x).base = 0 ∧ (s.ring x).slotCount = 0 ∧
    (s.ring x).slotStride = 0 ∧ (s.ring x).maxLen = 0 ∧ (s.ring x).postHead = 0 ∧
    (s.ring x).postCnt = 0 ∧ (s.ring x).hwCnt = 0 ∧ (s.ring x).doneCnt = 0 ∧
    (s.ring x).preCnt = 0 ∧ (s.ring x).freeCnt = 0) ∧
  s.ctl.resetting = false ∧ s.ctl.resetDone = false ∧ s.ctl.resetTimeout = false ∧
  s.rxh = { state := .idle, phase := .drain, irq := 0, count := 0, first := 0, first2 := 0, i := 0,
            poll := 0 } ∧
  s.txh = { state := .idle, phase := .drain, irq := 0, count := 0, first := 0, poll := 0 } ∧
  s.rs.complete = false ∧ s.sync.op = .none ∧ s.sync.step = 0 ∧ s.sync.busyRing = none ∧
  s.stack = [] ∧ s.out = [] ∧ s.fault = none ∧ s.refused = false

/-- Until it is commanded the block does nothing: with no ring created, no handler bound, no reset under way
and an empty context stack (as after power-on), neither the processor, nor the data mover, nor a callback
changes anything, and an event is taken without effect (R215, R219, R270). That an event whose guard fails is
consumed from the port is the model's reading (log entry 14). -/
def Obligations.PowerOnIsQuiet : Prop :=
  ∀ (s : State) (m : Move), s.unmarked → s.nextMove = m → s.rx.created = false → s.tx.created = false →
    s.ctl.resetting = false → s.cfgValid = false → s.stack = [] →
    ((m = .cpu ∨ m = .idle ∨ m = .resetComplete ∨ m = .callbackCommand ∨
      (∃ sof eof err data, m = .rxComplete sof eof err data) ∨
      (∃ err bytes, m = .txComplete err bytes) ∨ (∃ x b, m = .raise x b)) →
      step s = .next s.popAgenda) ∧
    (m = .dispatch → step s = .next { s.popAgenda with evtPort := s.evtPort.tail })

/-- The machine after reset meets every invariant below. That it meets `MemoryOk` and `MarksOk` rests on the
model's choice to list no byte and no mark at reset (log entries 3 and 12). -/
def Obligations.ResetMeetsInvariants : Prop :=
  State.reset.RingsOk ∧ State.reset.StackOk ∧ State.reset.MemoryOk ∧ State.reset.MarksOk ∧
    State.reset.HaltedQuiet

/-! ### Invariants that every step keeps -/

/-- The capacity invariant of every created ring, with the bounds of its heads and its geometry, is kept by
every step of every agent (R13, R15, R111). -/
def Obligations.StepKeepsRingsOk : Prop :=
  ∀ s t : State, s.RingsOk → step s = .next t → t.RingsOk

/-- The shape of the context stack is kept by every step (R27, R255, R282). -/
def Obligations.StepKeepsStackOk : Prop :=
  ∀ s t : State, s.StackOk → step s = .next t → t.StackOk

/-- Both views of memory keep their canonical form (log entry 3), and the record of when the posted TX slots
were posted keeps one mark for each of them (log entry 12); both representations are the model's own choice. -/
def Obligations.StepKeepsMemoryOk : Prop :=
  (∀ s t : State, s.MemoryOk → step s = .next t → t.MemoryOk) ∧
  (∀ s t : State, s.RingsOk → s.MarksOk → step s = .next t → t.MarksOk)

/-- Every step only appends to the output trace; no step writes a parameter or clears `cfg_valid`; and
`eng.cfg` is written by micro-step I0 of `INITIALIZE` alone (R11, R29, R36, R151). -/
def Obligations.StepKeepsTraceAndConfig : Prop :=
  ∀ s t : State, step s = .next t →
    (∃ es, t.out = s.out ++ es) ∧ t.params = s.params ∧ (s.cfgValid = true → t.cfgValid = true) ∧
    (t.cfg ≠ s.cfg →
      s.nextMove = .cpu ∧ s.top = some .sync ∧ s.sync.op = .initEngine ∧ s.sync.step = 0)

/-- After a controller reset and until an `INITIALIZE`, no step starts a channel, unmasks an interrupt or
makes one pending (R124, R134, R272). -/
def Obligations.StepKeepsHaltedQuiet : Prop :=
  ∀ s t : State, s.HaltedQuiet → step s = .next t → t.HaltedQuiet

/-- The RX lockup: once RX interrupts are masked with the RX handler off the stack and no `INITIALIZE` in
progress, every step leaves it so as long as the engine stays `Ready` (R257). -/
def Obligations.RxLockoutPersists : Prop :=
  ∀ s t : State, s.LockedOut → step s = .next t → t.engState = .ready → t.LockedOut

/-- In every step a slot of a created ring keeps its group or moves along
`FREE → RESERVED → POSTED → COMPLETED → DRAINED → FREE` or `RESERVED → FREE`, unless the step creates the
ring anew (R14, R111, R137). -/
def Obligations.SlotsMoveAlongTheCycle : Prop :=
  ∀ (s t : State) (x : Ring) (i : Nat), s.RingsOk → step s = .next t → (s.ring x).created = true →
    i < (s.ring x).size →
    (∃ n base regionSize alignment maxLen,
      t.ring x = (s.ring x).recreate n base regionSize alignment maxLen) ∨
    ((t.ring x).size = (s.ring x).size ∧
      ((t.ring x).slotState i = (s.ring x).slotState i ∨
        slotMove ((s.ring x).slotState i) ((t.ring x).slotState i) = true))

/-! ### Ring construction -/

/-- Slot addresses and slot indices name each other: `idx` inverts `slot_addr`, is defined on slot addresses
only, and no slot address wraps (R54, R73, R92). -/
def Obligations.SlotReferenceRoundTrip : Prop :=
  ∀ r : RingRegs, r.Ok →
    (∀ i < r.size, r.idx (r.slotAddr i) = some i ∧
      (r.slotAddr i).toNat = r.base.toNat + i * r.slotStride.toNat) ∧
    (∀ (d : Word) (i : Nat), r.idx d = some i → i < r.size ∧ d = r.slotAddr i)

/-- `CREATE` that passes its checks writes the static registers, makes every slot `FREE`, leaves `run`,
`irq_en` and `irq_pend`, the other ring, every other register and every `hw` byte (R111). `txMarks` and
`regionSize` are the model's own fields (log entries 10 and 12). -/
def Obligations.CreateCompletes : Prop :=
  ∀ (s : State) (x : Ring) (n : Half) (regionBase regionSize alignment maxLen : Word),
    s.directReady → (s.ring x).run = false → n ≠ 0 → maxLen ≠ 0 → 4 ≤ alignment.toNat →
    alignment &&& (alignment - 1) = 0 → regionBase.toNat % alignment.toNat = 0 →
    n.toNat * strideOf alignment ≤ regionSize.toNat →
    regionBase.toNat + n.toNat * strideOf alignment ≤ 2 ^ 32 →
    ∃ t : State,
      exec (.create x n regionBase regionSize alignment maxLen) s = answered t 0x01 [] ∧
      t.ring x =
        { created := true, base := regionBase, slotCount := n,
          slotStride := BitVec.ofNat 32 (strideOf alignment), maxLen := maxLen,
          regionSize := regionSize, postHead := 0, postCnt := 0, hwCnt := 0, doneCnt := 0,
          preCnt := 0, freeCnt := n, run := false,
          irqEn := (s.ring x).irqEn, irqPend := (s.ring x).irqPend } ∧
      (∀ y, y ≠ x → t.ring y = s.ring y) ∧
      { t with rx := s.rx, tx := s.tx, txMarks := s.txMarks } = s ∧
      ∀ a, t.peek .hw a = s.peek .hw a

/-- The checks of `CREATE`, in order: the first that fails decides the code and nothing changes (R110, R111,
R251). -/
def Obligations.CreateChecksInOrder : Prop :=
  ∀ (s : State) (x : Ring) (n : Half) (regionBase regionSize alignment maxLen : Word), s.directReady →
    let r := exec (.create x n regionBase regionSize alignment maxLen) s
    let parametersOk := n ≠ 0 ∧ maxLen ≠ 0 ∧ 4 ≤ alignment.toNat ∧ alignment &&& (alignment - 1) = 0
    let fits := n.toNat * strideOf alignment ≤ regionSize.toNat ∧
      regionBase.toNat + n.toNat * strideOf alignment ≤ 2 ^ 32
    ((s.ring x).run = true → r = failed s 0x01 .ringBusy) ∧
    ((s.ring x).run = false → ¬parametersOk → r = failed s 0x01 .invalidParameter) ∧
    ((s.ring x).run = false → parametersOk → regionBase.toNat % alignment.toNat ≠ 0 →
      r = failed s 0x01 .ringRegionMisaligned) ∧
    ((s.ring x).run = false → parametersOk → regionBase.toNat % alignment.toNat = 0 → ¬fits →
      r = failed s 0x01 .ringRegionTooSmall)

/-- After a successful `CREATE` every slot address is a multiple of the alignment, and every record lies in
the region, clear of the records of the other slots (R55, R84, R111). -/
def Obligations.CreateAlignsSlots : Prop :=
  ∀ (s t : State) (x : Ring) (n : Half) (regionBase regionSize alignment maxLen : Word), s.directReady →
    exec (.create x n regionBase regionSize alignment maxLen) s = answered t 0x01 [] →
    ∀ i < n.toNat,
      ((t.ring x).slotAddr i).toNat % alignment.toNat = 0 ∧
      regionBase.toNat ≤ ((t.ring x).slotAddr i).toNat ∧
      ((t.ring x).slotAddr i).toNat + 16 ≤ regionBase.toNat + regionSize.toNat ∧
      ∀ j < i, ((t.ring x).slotAddr j).toNat + 16 ≤ ((t.ring x).slotAddr i).toNat

/-- `INIT_SLOTS` on a ring all of whose slots are `FREE` writes the template to every slot; nothing else
changes, no other byte either (R84, R96, R112). -/
def Obligations.InitSlotsCompletes : Prop :=
  ∀ (s : State) (x : Ring) (bufAddr length ctrl sts : Word), s.directReady → (s.ring x).created = true →
    (s.ring x).Ok → (s.ring x).freeCnt = (s.ring x).slotCount → length ≤ (s.ring x).maxLen →
    ctrl.toNat < 4 → sts.toNat < 16 →
    ∃ t : State,
      exec (.initSlots x bufAddr length ctrl sts) s = answered t 0x02 [] ∧
      (∀ i < (s.ring x).size, t.getField x i .bufAddr = bufAddr ∧ t.getField x i .length = length ∧
        t.getField x i .ctrl = ctrl ∧ t.getField x i .sts = sts) ∧
      SameButMemory s t ∧
      BytesKept s t fun a => ∃ i < (s.ring x).size, ∃ f, s.InField x i f a

/-! ### The ownership cycle -/

/-- `RESERVE` claims `n` slots at `free_head` and returns the first one's address; nothing else changes
(R113). -/
def Obligations.ReserveCompletes : Prop :=
  ∀ (s : State) (x : Ring) (n : Half), s.directReady → (s.ring x).created = true → n ≠ 0 →
    n ≤ (s.ring x).freeCnt →
    exec (.reserve x n) s =
      answered
        (s.setRing x
          { s.ring x with preCnt := (s.ring x).preCnt + n, freeCnt := (s.ring x).freeCnt - n })
        0x03 [(s.ring x).slotAddr (s.ring x).freeHead]

/-- `UNRESERVE` of the `n` most recently reserved slots returns them to the `FREE` group and changes nothing
else; accepted and performed right after a `RESERVE` it restores the ring's registers (R114). -/
def Obligations.UnreserveCompletes : Prop :=
  (∀ (s : State) (x : Ring) (n : Half) (first : Word), s.directReady → (s.ring x).created = true →
    n ≠ 0 → n ≤ (s.ring x).preCnt →
    (s.ring x).idx first =
      some (((s.ring x).freeHead + (s.ring x).size - n.toNat) % (s.ring x).size) →
    exec (.unreserve x n first) s =
      answered
        (s.setRing x
          { s.ring x with preCnt := (s.ring x).preCnt - n, freeCnt := (s.ring x).freeCnt + n })
        0x04 []) ∧
  (∀ (s : State) (x : Ring) (n : Half), s.directReady → (s.ring x).created = true → (s.ring x).Ok →
    n ≠ 0 → n ≤ (s.ring x).freeCnt → Agent.rxh ∉ s.stack → Agent.txh ∉ s.stack →
    ∃ (first : Word) (t u v : State),
      exec (.reserve x n) s = .next t ∧ t.out = s.out ++ [.ret 0x03 .success [first]] ∧
      exec (.unreserve x n first) t = .next u ∧ exec (.unreserve x n first) u = .next v ∧
      v.out = t.out ++ [.ret 0x04 .success []] ∧ v.ring x = s.ring x)

/-- `COMMIT` of the `n` oldest reserved slots, every length of the batch between 1 and `max_len`, posts them
and clears their `STS` words; no other register but the model's own `txMarks` and no other byte changes
(R115). -/
def Obligations.CommitCompletes : Prop :=
  ∀ (s : State) (x : Ring) (n : Half) (first : Word), s.directReady → (s.ring x).created = true →
    (s.ring x).Ok → n ≠ 0 → n ≤ (s.ring x).preCnt → (s.ring x).idx first = some (s.ring x).preHead →
    (∀ j < n.toNat, s.getField x (((s.ring x).preHead + j) % (s.ring x).size) .length ≠ 0 ∧
      s.getField x (((s.ring x).preHead + j) % (s.ring x).size) .length ≤ (s.ring x).maxLen) →
    ∃ t : State,
      exec (.commit x n first) s = answered t 0x05 [] ∧
      t.ring x =
        { s.ring x with preCnt := (s.ring x).preCnt - n, hwCnt := (s.ring x).hwCnt + n } ∧
      (∀ y, y ≠ x → t.ring y = s.ring y) ∧
      { t with rx := s.rx, tx := s.tx, memSw := s.memSw, memHw := s.memHw, hwLog := s.hwLog,
               txMarks := s.txMarks } = s ∧
      (∀ j < n.toNat, t.getField x (((s.ring x).preHead + j) % (s.ring x).size) .sts = 0) ∧
      BytesKept s t fun a =>
        ∃ j < n.toNat, s.InField x (((s.ring x).preHead + j) % (s.ring x).size) .sts a

/-- `DRAIN` takes back the `min(n, done_cnt)` oldest completed slots and returns how many and the first one's
address (0 if none); nothing else changes. With nothing completed since, a second `DRAIN`, accepted and performed, returns
no slot: none is drained twice (R116, R137). -/
def Obligations.DrainCompletes : Prop :=
  (∀ (s : State) (x : Ring) (n k : Half), s.directReady → (s.ring x).created = true →
    (n ≤ (s.ring x).doneCnt ∧ k = n ∨ (s.ring x).doneCnt < n ∧ k = (s.ring x).doneCnt) →
    exec (.drain x n) s =
      answered
        (s.setRing x
          { s.ring x with
            postCnt := (s.ring x).postCnt + k
            hwCnt := (s.ring x).hwCnt - k
            doneCnt := (s.ring x).doneCnt - k })
        0x06 [k.zeroExtend 32, if k = 0 then 0 else (s.ring x).slotAddr (s.ring x).hwHead]) ∧
  (∀ (s t u : State) (x : Ring) (m : Half), s.directReady → (s.ring x).created = true → (s.ring x).Ok →
    Agent.rxh ∉ s.stack → Agent.txh ∉ s.stack → exec (.drain x (s.ring x).slotCount) s = .next t →
    exec (.drain x m) t = .next u → exec (.drain x m) u = answered u 0x06 [0, 0])

/-- `FREE` of the `n` oldest drained slots moves `post_head` past them; nothing else changes (R117). -/
def Obligations.FreeCompletes : Prop :=
  ∀ (s : State) (x : Ring) (n : Half) (first : Word), s.directReady → (s.ring x).created = true →
    n ≠ 0 → n ≤ (s.ring x).postCnt → (s.ring x).idx first = some (s.ring x).postHead.toNat →
    exec (.free x n first) s =
      answered
        (s.setRing x
          { s.ring x with
            postHead := BitVec.ofNat 16 (((s.ring x).postHead.toNat + n.toNat) % (s.ring x).size)
            postCnt := (s.ring x).postCnt - n
            freeCnt := (s.ring x).freeCnt + n })
        0x07 []

/-- The checks of `INIT_SLOTS`, `RESERVE`, `UNRESERVE`, `COMMIT` and `FREE` on a created ring, in order: the
first that fails decides the code and nothing changes (R110, R112 to R115, R117, R251). -/
def Obligations.OwnershipRefusals : Prop :=
  ∀ (s : State) (x : Ring), s.directReady → (s.ring x).created = true →
    (∀ bufAddr length ctrl sts, (s.ring x).freeCnt ≠ (s.ring x).slotCount →
      exec (.initSlots x bufAddr length ctrl sts) s = failed s 0x02 .ringOrderViolation) ∧
    (∀ bufAddr length ctrl sts, (s.ring x).freeCnt = (s.ring x).slotCount →
      ((s.ring x).maxLen < length ∨ 4 ≤ ctrl.toNat ∨ 16 ≤ sts.toNat) →
      exec (.initSlots x bufAddr length ctrl sts) s = failed s 0x02 .invalidParameter) ∧
    exec (.reserve x 0) s = failed s 0x03 .invalidParameter ∧
    (∀ n, n ≠ 0 → (s.ring x).freeCnt < n →
      exec (.reserve x n) s = failed s 0x03 .noSlotsAvailable) ∧
    (∀ n first, n = 0 ∨ (s.ring x).idx first = none →
      exec (.unreserve x n first) s = failed s 0x04 .invalidParameter ∧
      exec (.commit x n first) s = failed s 0x05 .invalidParameter ∧
      exec (.free x n first) s = failed s 0x07 .invalidParameter) ∧
    (∀ n first i, n ≠ 0 → (s.ring x).idx first = some i →
      ((s.ring x).preCnt < n ∨
        i ≠ ((s.ring x).freeHead + (s.ring x).size - n.toNat) % (s.ring x).size) →
      exec (.unreserve x n first) s = failed s 0x04 .ringOrderViolation) ∧
    (∀ n first i, n ≠ 0 → (s.ring x).idx first = some i →
      ((s.ring x).preCnt < n ∨ i ≠ (s.ring x).preHead) →
      exec (.commit x n first) s = failed s 0x05 .ringOrderViolation) ∧
    (∀ (n : Half) (first : Word) (j : Nat), n ≠ 0 →
      (s.ring x).idx first = some (s.ring x).preHead → n ≤ (s.ring x).preCnt → j < n.toNat →
      (s.getField x (((s.ring x).preHead + j) % (s.ring x).size) .length = 0 ∨
        (s.ring x).maxLen < s.getField x (((s.ring x).preHead + j) % (s.ring x).size) .length) →
      exec (.commit x n first) s = failed s 0x05 .invalidDescriptor) ∧
    (∀ n first i, n ≠ 0 → (s.ring x).idx first = some i →
      ((s.ring x).postCnt < n ∨ i ≠ (s.ring x).postHead.toNat) →
      exec (.free x n first) s = failed s 0x07 .ringOrderViolation)

/-! ### Channel control and accessors -/

/-- `START`, `STOP`, `IRQ_ENABLE`, `IRQ_DISABLE`, `IRQ_GET` and `IRQ_ACK`, for every mask: each writes its
one register and nothing else but, for two of them, a field of the model's own (`rxFrameStart`, log entry 11;
`draws`, log entry 4). The `IRQ_*` four need no created ring; the upper bits of a status word are any value
(R87, R118 to R123). -/
def Obligations.ChannelAndIrqControlComplete : Prop :=
  ∀ (s : State) (x : Ring) (m : BitVec 3), s.directReady →
    ((s.ring x).created = true → ∃ t : State, exec (.start x) s = answered t 0x08 [] ∧
      { t with rxFrameStart := s.rxFrameStart } = s.setRing x { s.ring x with run := true }) ∧
    ((s.ring x).created = true →
      exec (.stop x) s = answered (s.setRing x { s.ring x with run := false }) 0x09 []) ∧
    exec (.irqEnable x m) s =
      answered (s.setRing x { s.ring x with irqEn := (s.ring x).irqEn ||| m }) 0x0A [] ∧
    exec (.irqDisable x m) s =
      answered (s.setRing x { s.ring x with irqEn := (s.ring x).irqEn &&& ~~~m }) 0x0B [] ∧
    (∃ u : BitVec 29, exec (.irqGet x) s =
      answered { s with draws := s.draws + 1 } 0x0C [u ++ (s.ring x).irqPend]) ∧
    exec (.irqAck x m) s =
      answered (s.setRing x { s.ring x with irqPend := (s.ring x).irqPend &&& ~~~m }) 0x0D []

/-- `RESET` stops and masks both channels, clears both latches, halts the engine and begins the wait for the
reset-complete flag; all else is unchanged. `RESET_DONE` reads the flag and changes nothing (R124, R125,
R271). -/
def Obligations.ControllerResetCompletes : Prop :=
  ∀ s : State, s.directReady →
    exec .reset s =
      answered
        { s with
          ctl := { resetting := true, resetDone := false, resetTimeout := s.ctl.resetTimeout }
          rx := { s.rx with run := false, irqEn := 0, irqPend := 0 }
          tx := { s.tx with run := false, irqEn := 0, irqPend := 0 }
          engState := .halted }
        0x0E [] ∧
    exec .resetDone s = answered s 0x0F [if s.ctl.resetDone = true then 1 else 0]

/-- The setters on a `RESERVED` slot write exactly their own field, little-endian, in both views. A length
above `max_len` is rejected or clamped as `P_LEN_OVER_MAX` says (R53, R62, R126 to R128). -/
def Obligations.SettersComplete : Prop :=
  ∀ (s : State) (x : Ring) (desc : Word) (i : Nat), s.directReady → (s.ring x).created = true →
    (s.ring x).idx desc = some i → (s.ring x).slotState i = .reserved →
    (∀ addr, ∃ t : State, exec (.bdSetAddr x desc addr) s = answered t 0x10 [] ∧
      FieldWritten s t x i .bufAddr addr) ∧
    (∀ len, len ≤ (s.ring x).maxLen → ∃ t : State, exec (.bdSetLen x desc len) s = answered t 0x11 [] ∧
      FieldWritten s t x i .length len) ∧
    (∀ len, (s.ring x).maxLen < len → s.params.lenOverMax = .reject →
      exec (.bdSetLen x desc len) s = failed s 0x11 .invalidParameter) ∧
    (∀ len, (s.ring x).maxLen < len → s.params.lenOverMax = .clamp →
      ∃ t : State, exec (.bdSetLen x desc len) s = answered t 0x11 [] ∧
        FieldWritten s t x i .length (s.ring x).maxLen) ∧
    (∀ flags : BitVec 2, ∃ t : State,
      exec (.bdSetCtrl x (flags.zeroExtend 3) desc) s = answered t 0x12 [] ∧
      FieldWritten s t x i .ctrl (flags.zeroExtend 32))

/-- Every primitive that needs a created ring answers `RingNotCreated` without one; every accessor answers
`InvalidParameter` for a reference that names no slot; a setter answers `RingOrderViolation` for a slot that
is not `RESERVED`. Nothing changes (R54, R110, R126 to R132). -/
def Obligations.AccessorChecks : Prop :=
  (∀ (s : State) (i : Instr) (x : Ring), s.directReady → i.wellFormed = true → neededRing i = some x →
    (s.ring x).created = false → exec i s = failed s i.opcode .ringNotCreated) ∧
  (∀ (s : State) (i : Instr) (x : Ring) (desc : Word), s.directReady → i.wellFormed = true →
    accessorReference i = some (x, desc) → (s.ring x).created = true → (s.ring x).idx desc = none →
    exec i s = failed s i.opcode .invalidParameter) ∧
  (∀ (s : State) (x : Ring) (desc w : Word) (flags : BitVec 2) (i : Nat), s.directReady →
    (s.ring x).created = true → (s.ring x).idx desc = some i → (s.ring x).slotState i ≠ .reserved →
    exec (.bdSetAddr x desc w) s = failed s 0x10 .ringOrderViolation ∧
    exec (.bdSetLen x desc w) s = failed s 0x11 .ringOrderViolation ∧
    exec (.bdSetCtrl x (flags.zeroExtend 3) desc) s = failed s 0x12 .ringOrderViolation)

/-- The getters return their field, `BD_GET_STS` the zero-extended four flags, and `BD_NEXT` the next slot's
address in ring order, whatever the slot's group; nothing changes (R57, R86, R129 to R132). That the reserved
bits of a stored `STS` word are not returned, as R131 says against R84, is log entry 15. -/
def Obligations.GettersComplete : Prop :=
  ∀ (s : State) (x : Ring) (desc : Word) (i : Nat), s.directReady → (s.ring x).created = true →
    (s.ring x).idx desc = some i →
    exec (.bdGetAddr x desc) s = answered s 0x13 [s.getField x i .bufAddr] ∧
    exec (.bdGetLen x desc) s = answered s 0x14 [s.getField x i .length] ∧
    exec (.bdGetSts x desc) s = answered s 0x15 [((s.getField x i .sts).extractLsb' 0 4).zeroExtend 32] ∧
    exec (.bdNext x desc) s = answered s 0x16 [(s.ring x).slotAddr ((i + 1) % (s.ring x).size)]

/-- Every primitive issued where it may be completes with one response; a code other than `Success` comes
without results and with no change at all (R82, R110, R133). -/
def Obligations.FailedPrimitiveChangesNothing : Prop :=
  ∀ (i : Instr) (s : State), isPrimitive i = true → s.directReady →
    ∃ (t : State) (code : Code) (results : List Word),
      exec i s = responded t i.opcode code results ∧
      (code ≠ .success → results = [] ∧ t = s)

/-- A primitive issued directly in `Uninit` at base level is accepted: `sync.op` becomes `PRIMITIVE`, `sync.step`
0, the command is latched and SYNC goes on the stack; nothing else changes (R26, R27, R136, R150). Outside
`Uninit`, and in interrupt context, it is refused, and nothing else happens (R136, R259). That `exec` also
refuses one during another synchronous operation, when the port would keep it waiting, and refuses one in
progress after a controller reset, is the model's reading (log entries 8 and 13). -/
def Obligations.DirectPrimitiveNeedsUninit : Prop :=
  ∀ (i : Instr) (s : State), isPrimitive i = true → i.wellFormed = true →
    (s.acceptsPrimitive → exec i s = .next
      { s with
        stack := s.stack ++ [.sync]
        sync := { s.sync with op := .primitive, step := 0, prim := some i } }) ∧
    (¬s.acceptsPrimitive → ¬s.directReady → exec i s = .next { s with refused := true })

/-- The primitives that write no descriptor field, the acceptance of an engine operation and a handler's entry
leave every byte of both views as it was (R56, R57, R113, R114, R116 to R125, R129 to R132). -/
def Obligations.OtherInstructionsKeepMemory : Prop :=
  ∀ (i : Instr) (s t : State), storesNothing i = true → exec i s = .next t →
    BytesKept s t fun _ => False

/-! ### The engine operations -/

/-- `INITIALIZE` is accepted in `Uninit` and `Halted`, `TRANSMIT` in `Ready`, each at base level: the operands
are latched and SYNC goes on the stack, and nothing else changes. In the other states each is refused (R150,
R159, R259). The model's readings: the lookup's answers are latched with the operands (log entry 22), `exec`
refuses `INITIALIZE` in `Initializing`, where it cannot arrive, and refuses either above base level, where the
port would keep it waiting (log entry 13). -/
def Obligations.EngineCommandAcceptance : Prop :=
  (∀ (s : State) (n : Half) (deviceId rxVec rxPrio txVec txPrio rxBdBase txBdBase bufSize rxBufBase
      txBufBase callback userCtx : Word),
    let i := Instr.initEngine n deviceId rxVec rxPrio txVec txPrio rxBdBase txBdBase bufSize rxBufBase
      txBufBase callback userCtx
    let operands : EngCfg :=
      { deviceId := deviceId, rxVec := rxVec, rxPrio := rxPrio, txVec := txVec, txPrio := txPrio,
        rxBdBase := rxBdBase, txBdBase := txBdBase, descCount := n, bufSize := bufSize,
        rxBufBase := rxBufBase, txBufBase := txBufBase, callback := callback, userCtx := userCtx }
    (s.atBase → s.engState = .uninit ∨ s.engState = .halted →
      exec i s = .next
        { s with
          stack := s.stack ++ [.sync]
          sync := { s.sync with
            op := .initEngine, step := 0, cfg := operands, lookup := s.lookup } }) ∧
    (s.engState = .ready ∨ s.engState = .initializing ∨ ¬s.atBase →
      exec i s = .next { s with refused := true })) ∧
  (∀ (s : State) (buffer size : Word),
    (s.atBase → s.engState = .ready →
      exec (.transmit buffer size) s = .next
        { s with
          stack := s.stack ++ [.sync]
          sync := { s.sync with op := .transmit, step := 0, buffer := buffer, size := size } }) ∧
    (s.engState ≠ .ready ∨ ¬s.atBase →
      exec (.transmit buffer size) s = .next { s with refused := true }))

/-- Micro-steps I1 to I3: a lookup answer that is missing ends `INITIALIZE` with its own code and
`eng.state = Uninit`; nothing else changes, the rings included (R151, R154, R242, R243). -/
def Obligations.LookupFailuresReported : Prop :=
  ∀ (s : State) (c : Code), s.turnOf .sync → s.sync.op = .initEngine →
    (s.sync.step = 1 ∧ s.sync.lookup.cfgFound = false ∧ c = .configurationMissing ∨
      s.sync.step = 2 ∧ s.sync.lookup.cfgBindOk = false ∧ c = .configMismatch ∨
      s.sync.step = 3 ∧ s.sync.lookup.hasSg = false ∧ c = .unsupportedMode) →
    step s = .next
      { s.popAgenda with
        out := s.out ++ [.ret 0x20 c []]
        engState := .uninit
        stack := s.stack.dropLast
        sync := { s.sync with busyRing := none, op := .none } }

/-- An `INITIALIZE` of a legal configuration that nothing disturbs ends, after `17 + RX_SLOT_COUNT`
micro-steps, `Ready`: the RX ring created, wholly posted, running and unmasked, slot `i` at
`rx_buf_base + i * buf_size` with `length = buf_size`; the TX ring created, wholly free, running and
unmasked; the response `Success` (R71, R94, R151 to R154). That a configuration breaking R52 is refused at I4
is the model's choice (log entry 7), so `regionsOk` is a premise. -/
def Obligations.InitializeBuildsBothRings : Prop :=
  ∀ s : State,
    let c := s.sync.cfg
    let l := s.sync.lookup
    let p := s.params
    let stride := strideOf p.bdAlign
    s.undisturbed .sync → s.stack = [.sync] → s.sync.op = .initEngine → s.sync.step = 0 →
    l.cfgFound = true → l.cfgBindOk = true → l.hasSg = true → s.rx.run = false → s.tx.run = false →
    rxSlots p c ≠ 0 → txSlots p c ≠ 0 → l.maxLenRx ≠ 0 → l.maxLenTx ≠ 0 →
    4 ≤ p.bdAlign.toNat → p.bdAlign &&& (p.bdAlign - 1) = 0 →
    c.rxBdBase.toNat % p.bdAlign.toNat = 0 → c.txBdBase.toNat % p.bdAlign.toNat = 0 →
    (rxSlots p c).toNat * stride ≤ p.rxBdRegionSize.toNat →
    (txSlots p c).toNat * stride ≤ p.txBdRegionSize.toNat →
    c.bufSize ≠ 0 → c.bufSize ≤ l.maxLenRx → regionsOk p c = true →
    ∃ t : State,
      steps (17 + (rxSlots p c).toNat) s = .next t ∧
      t.engState = .ready ∧ t.cfg = c ∧ t.cfgValid = true ∧ t.stack = [] ∧ t.sync.op = .none ∧
      t.sync.busyRing = none ∧ t.out = s.out ++ [.ret 0x20 .success []] ∧
      t.rx =
        { created := true, base := c.rxBdBase, slotCount := rxSlots p c,
          slotStride := BitVec.ofNat 32 stride, maxLen := l.maxLenRx, regionSize := p.rxBdRegionSize,
          postHead := 0, postCnt := 0, hwCnt := rxSlots p c, doneCnt := 0, preCnt := 0, freeCnt := 0,
          run := true, irqEn := 7, irqPend := s.rx.irqPend } ∧
      t.tx =
        { created := true, base := c.txBdBase, slotCount := txSlots p c,
          slotStride := BitVec.ofNat 32 stride, maxLen := l.maxLenTx, regionSize := p.txBdRegionSize,
          postHead := 0, postCnt := 0, hwCnt := 0, doneCnt := 0, preCnt := 0, freeCnt := txSlots p c,
          run := true, irqEn := 7, irqPend := s.tx.irqPend } ∧
      (∀ i < (rxSlots p c).toNat,
        t.getField .rx i .bufAddr = c.rxBufBase + BitVec.ofNat 32 i * c.bufSize ∧
        t.getField .rx i .length = c.bufSize ∧ t.getField .rx i .ctrl = 0 ∧
        t.getField .rx i .sts = 0) ∧
      (∀ i < (txSlots p c).toNat, ∀ f, t.getField .tx i f = 0)

/-- `PayloadTooLarge`: micro-step T0 compares the size with `buf_size`, unsigned, before anything is reserved;
a larger size ends `TRANSMIT` with that code and leaves both rings and memory as they were, any other size
goes on to T1 (R155, R245). -/
def Obligations.TransmitPayloadTooLarge : Prop :=
  ∀ s : State, s.turnOf .sync → s.sync.op = .transmit → s.sync.step = 0 →
    (s.cfg.bufSize.toNat < s.sync.size.toNat → step s = .next
      { s.popAgenda with
        out := s.out ++ [.ret 0x21 .payloadTooLarge []]
        stack := s.stack.dropLast
        sync := { s.sync with busyRing := none, op := .none } }) ∧
    (s.sync.size.toNat ≤ s.cfg.bufSize.toNat → step s = .next
      { s.popAgenda with sync := { s.sync with step := 1 } })

/-- A full TX ring ends `TRANSMIT` at T1 with `NoSlotsAvailable` and the ring unchanged; a `COMMIT` that fails
at T7 for a length of 0 is followed by the release of the reserved slot at T8, and its code is returned
(R155, R157, R244). -/
def Obligations.TransmitErrorPaths : Prop :=
  (∀ s : State, s.turnOf .sync → s.sync.op = .transmit → s.sync.step = 1 → s.engState ≠ .halted →
    s.tx.created = true → s.tx.freeCnt = 0 → step s = .next
      { s.popAgenda with
        out := s.out ++ [.ret 0x21 .noSlotsAvailable []]
        stack := s.stack.dropLast
        sync := { s.sync with busyRing := none, op := .none } }) ∧
  (∀ s : State, s.undisturbed .sync → s.sync.op = .transmit → s.sync.step = 7 → s.engState ≠ .halted →
    s.tx.created = true → s.tx.Ok → s.tx.preCnt = 1 → s.sync.d.toNat = s.tx.preHead →
    s.getField .tx s.tx.preHead .length = 0 →
    ∃ t : State, steps 2 s = .next t ∧
      t.out = s.out ++ [.ret 0x21 .invalidDescriptor []] ∧ t.sync.op = .none ∧
      t.stack = s.stack.dropLast ∧
      t.tx = { s.tx with preCnt := 0, freeCnt := s.tx.freeCnt + 1 } ∧ t.rx = s.rx ∧
      BytesKept s t fun _ => False)

/-- A `TRANSMIT` that nothing disturbs, of a size between 1 and `buf_size` on a ring with a free slot, posts
after 8 micro-steps one slot that describes the staging region, whose `hw` bytes are the caller's; it emits the
flush and `Success`, and no byte outside the staging range and that slot's record changes (R94, R155,
R156). -/
def Obligations.TransmitPostsFrame : Prop :=
  ∀ s : State,
    let staging := s.cfg.txBufBase
    let size := s.sync.size
    let i := s.tx.freeHead
    s.undisturbed .sync → s.stack = [.sync] → s.sync.op = .transmit → s.sync.step = 0 →
    s.engState = .ready → s.tx.created = true → s.tx.Ok → s.tx.preCnt = 0 → s.tx.freeCnt ≠ 0 →
    size ≠ 0 → size ≤ s.cfg.bufSize → size ≤ s.tx.maxLen →
    sourceOk s.params s.cfg s.sync.buffer size = true →
    (∀ k < size.toNat, s.isDescriptorByte (staging + BitVec.ofNat 32 k) = false) →
    (∀ k < size.toNat, ¬InRange staging size.toNat (s.sync.buffer + BitVec.ofNat 32 k)) →
    ∃ t : State,
      steps 8 s = .next t ∧
      t.engState = .ready ∧ t.stack = [] ∧ t.sync.op = .none ∧ t.sync.busyRing = none ∧
      t.out = s.out ++ [.flush staging size, .ret 0x21 .success []] ∧
      t.tx = { s.tx with hwCnt := s.tx.hwCnt + 1, freeCnt := s.tx.freeCnt - 1 } ∧ t.rx = s.rx ∧
      t.getField .tx i .bufAddr = staging ∧ t.getField .tx i .length = size ∧
      t.getField .tx i .ctrl = 3 ∧ t.getField .tx i .sts = 0 ∧
      (∀ k < size.toNat, t.peek .hw (staging + BitVec.ofNat 32 k) =
        s.peek .sw (s.sync.buffer + BitVec.ofNat 32 k)) ∧
      BytesKept s t fun a => InRange staging size.toNat a ∨ ∃ f, s.InField .tx i f a

/-! ### The handlers -/

/-- Interrupt entry. With the line high, the handler off the stack, the handlers bound and nesting permitted,
the event pushes the handler with its sequencer `Idle`; the RX entry also initialises the reassembly state as
`P_REASM_PERSIST` and `P_REASM_INIT` say (no claim on `any value`); nothing else changes but the model's own
`draws`. With a guard that fails the event has no effect (R170, R189, R200, R219, R254). The last clause says
what `P_NESTING` permits: with no handler on the stack every value of it does. -/
def Obligations.HandlerEntry : Prop :=
  (∀ s : State, s.rx.irqPend &&& s.rx.irqEn ≠ 0 → Agent.rxh ∉ s.stack → s.cfgValid = true →
    s.nestingPermits .rx = true →
    ∃ t : State, exec .irqRx s = .next t ∧ t.stack = s.stack ++ [.rxh] ∧
      t.rxh = { s.rxh with state := .idle } ∧
      { t with stack := s.stack, rxh := s.rxh, rs := s.rs, draws := s.draws } = s ∧
      (s.params.reasmPersist = true → t.rs = s.rs) ∧
      (s.params.reasmPersist = false → t.rs.complete = false) ∧
      (s.params.reasmPersist = false → s.params.reasmInit = .zero →
        t.rs.origin = 0 ∧ t.rs.acc = 0)) ∧
  (∀ s : State, s.tx.irqPend &&& s.tx.irqEn ≠ 0 → Agent.txh ∉ s.stack → s.cfgValid = true →
    s.nestingPermits .tx = true →
    exec .irqTx s = .next
      { s with stack := s.stack ++ [.txh], txh := { s.txh with state := .idle } }) ∧
  (∀ (s : State) (x : Ring),
    ((s.ring x).irqPend &&& (s.ring x).irqEn = 0 ∨ handlerOf x ∈ s.stack ∨ s.cfgValid = false ∨
      s.nestingPermits x = false) →
    exec (match x with | .rx => .irqRx | .tx => .irqTx) s = .next s) ∧
  (∀ (s : State) (x y : Ring),
    (Agent.rxh ∉ s.stack → Agent.txh ∉ s.stack → s.nestingPermits x = true) ∧
    (s.params.nesting = .any → s.nestingPermits x = true) ∧
    (s.params.nesting = .none →
      (s.nestingPermits x = true ↔ Agent.rxh ∉ s.stack ∧ Agent.txh ∉ s.stack)) ∧
    (s.params.nesting = .byPriority → s.top = some (handlerOf y) →
      (s.nestingPermits x = true ↔ s.cfg.prio y < s.cfg.prio x)))

/-- Read and acknowledge, in one micro-step: with nothing pending the handler returns and acknowledges
nothing; otherwise exactly the bits read are cleared and latched (R171, R201, R255). `draws` is the model's
own counter (log entry 4). -/
def Obligations.HandlersAcknowledge : Prop :=
  (∀ s : State, s.turnOf .rxh → s.rxh.state = .idle →
    (s.rx.irqPend = 0 → step s = .next
      { s.popAgenda with draws := s.draws + 1, stack := s.stack.dropLast }) ∧
    (s.rx.irqPend ≠ 0 → s.engState ≠ .halted → step s = .next
      { s.popAgenda with
        draws := s.draws + 1
        rx := { s.rx with irqPend := 0 }
        rxh := { s.rxh with irq := s.rx.irqPend, state := .acknowledged } })) ∧
  (∀ s : State, s.turnOf .txh → s.txh.state = .idle →
    (s.tx.irqPend = 0 → step s = .next
      { s.popAgenda with draws := s.draws + 1, stack := s.stack.dropLast }) ∧
    (s.tx.irqPend ≠ 0 → s.engState ≠ .halted → step s = .next
      { s.popAgenda with
        draws := s.draws + 1
        tx := { s.tx with irqPend := 0 }
        txh := { s.txh with irq := s.tx.irqPend, state := .acknowledged } }))

/-- `ERROR` is served first and alone: whatever the other latched bits, the handler triggers the reset of the
whole controller and drains nothing; its response is not in the trace (R172, R173, R202, R203, R256). -/
def Obligations.ErrorServedFirst : Prop :=
  (∀ s : State, s.turnOf .rxh → s.rxh.state = .acknowledged → s.rxh.irq.getLsbD 2 = true →
    step s = .next
      { s.popAgenda with
        ctl := { s.ctl with resetting := true, resetDone := false }
        rx := { s.rx with run := false, irqEn := 0, irqPend := 0 }
        tx := { s.tx with run := false, irqEn := 0, irqPend := 0 }
        engState := .halted
        rxh := { s.rxh with poll := 0, state := .errorRecovery } }) ∧
  (∀ s : State, s.turnOf .txh → s.txh.state = .acknowledged → s.txh.irq.getLsbD 2 = true →
    step s = .next
      { s.popAgenda with
        ctl := { s.ctl with resetting := true, resetDone := false }
        rx := { s.rx with run := false, irqEn := 0, irqPend := 0 }
        tx := { s.tx with run := false, irqEn := 0, irqPend := 0 }
        engState := .halted
        txh := { s.txh with poll := 0, state := .errorRecovery } })

/-- The RX handler masks its ring and enters the drain pass, but for the overlap with the synchronous path,
which is the fault `ConcurrentRingAccess` and masks nothing (R175, R280). -/
def Obligations.RxMaskEntersDrain : Prop :=
  ∀ s : State, s.turnOf .rxh → s.rxh.state = .acknowledged → s.rxh.irq.getLsbD 2 = false →
    (s.sync.busyRing = some .rx → s.params.syncIrqOverlap = .fault →
      step s = .next { s.popAgenda with fault := some .concurrentRingAccess }) ∧
    ((s.sync.busyRing ≠ some .rx ∨ s.params.syncIrqOverlap = .atomicInterleave) →
      s.engState ≠ .halted →
      step s = .next
        { s.popAgenda with
          rx := { s.rx with irqEn := 0 }
          rxh := { s.rxh with state := .draining, phase := .drain } })

/-- The reset poll is bounded: left to itself, a handler in `ErrorRecovery` returns after one poll if the
reset is confirmed, and otherwise after the polls that are left of the budget; it re-enables nothing, and the
time-out bit is set only with `P_RESET_TIMEOUT_FLAG` (R174, R203, R247, R255). -/
def Obligations.ResetPollIsBounded : Prop :=
  (∀ s : State, s.undisturbed .rxh → s.rxh.state = .errorRecovery →
    s.rxh.poll.toNat < s.params.resetPollBudget.toNat →
    ∃ t : State,
      steps (if s.ctl.resetDone then 1
        else s.params.resetPollBudget.toNat - s.rxh.poll.toNat) s = .next t ∧
      t.stack = s.stack.dropLast ∧ t.rxh.state = .idle ∧ t.rx = s.rx ∧ t.tx = s.tx ∧
      t.engState = s.engState ∧ t.out = s.out ∧
      t.ctl = { s.ctl with
        resetTimeout := s.ctl.resetTimeout || (!s.ctl.resetDone && s.params.resetTimeoutFlag) }) ∧
  (∀ s : State, s.undisturbed .txh → s.txh.state = .errorRecovery →
    s.txh.poll.toNat < s.params.resetPollBudget.toNat →
    ∃ t : State,
      steps (if s.ctl.resetDone then 1
        else s.params.resetPollBudget.toNat - s.txh.poll.toNat) s = .next t ∧
      t.stack = s.stack.dropLast ∧ t.txh.state = .idle ∧ t.rx = s.rx ∧ t.tx = s.tx ∧
      t.engState = s.engState ∧ t.out = s.out ∧
      t.ctl = { s.ctl with
        resetTimeout := s.ctl.resetTimeout || (!s.ctl.resetDone && s.params.resetTimeoutFlag) })

/-- The RX drain takes every completed slot. With none, the handler returns and leaves RX masked, or, with
`P_REARM_ON_EMPTY`, goes on to re-enable (R176, R257). -/
def Obligations.RxDrainStep : Prop :=
  ∀ s : State, s.turnOf .rxh → s.rxh.state = .draining → s.rxh.phase = .drain →
    s.engState ≠ .halted → s.rx.created = true → s.rx.Ok →
    (s.rx.doneCnt ≠ 0 → step s = .next
      { s.popAgenda with
        rx := { s.rx with
          postCnt := s.rx.postCnt + s.rx.doneCnt
          hwCnt := s.rx.hwCnt - s.rx.doneCnt
          doneCnt := 0 }
        rxh := { s.rxh with
          count := s.rx.doneCnt, i := 0, first := BitVec.ofNat 16 s.rx.hwHead, phase := .walk } }) ∧
    (s.rx.doneCnt = 0 → s.params.rearmOnEmpty = false → step s = .next
      { s.popAgenda with
        stack := s.stack.dropLast
        rxh := { s.rxh with count := 0, i := 0, state := .idle } }) ∧
    (s.rx.doneCnt = 0 → s.params.rearmOnEmpty = true → step s = .next
      { s.popAgenda with rxh := { s.rxh with count := 0, i := 0, phase := .enable } })

/-- One walk step. A fragment that completes a packet is delivered exactly once: the range of the packet is
invalidated, so that the `sw` view there reads what the `hw` view holds, the callback is invoked with origin,
length and context, and `complete` is cleared. A fragment that completes none emits nothing. A descriptor whose
`COMPLETE` is clear, or whose `ERROR` is set with `P_BD_ERROR_SKIP`, is skipped: the walk goes on to the next one
and nothing else changes (R177 to R179). -/
def Obligations.WalkDeliversOnce : Prop :=
  ∀ s : State,
    let i := (s.rxh.first.toNat + s.rxh.i.toNat) % s.rx.size
    let sts := s.getField .rx i .sts
    let r := s.rs.addFragment (s.getField .rx i .bufAddr) (s.getField .rx i .length) sts
    let rxh' := { s.rxh with
      i := s.rxh.i + 1, phase := if s.rxh.i + 1 = s.rxh.count then RxPhase.free else .walk }
    s.turnOf .rxh → s.rxh.state = .draining → s.rxh.phase = .walk →
    (sts.getLsbD 0 = false ∨ (s.params.bdErrorSkip = true ∧ sts.getLsbD 3 = true) →
      step s = .next { s.popAgenda with rxh := rxh' }) ∧
    (sts.getLsbD 0 = true → (s.params.bdErrorSkip = false ∨ sts.getLsbD 3 = false) →
      (r.complete = true → s.cfg.callback ≠ 0 →
        ∃ t : State, step s = .next t ∧
          t.out = s.out ++ [.invalidate r.origin r.acc, .callback r.origin r.acc s.cfg.userCtx] ∧
          t.rs = { r with complete := false } ∧ t.rxh = rxh' ∧ t.rx = s.rx ∧ t.tx = s.tx ∧
          (∀ k < r.acc.toNat, t.peek .sw (r.origin + BitVec.ofNat 32 k) =
            s.peek .hw (r.origin + BitVec.ofNat 32 k)) ∧
          (∀ a, t.peek .hw a = s.peek .hw a) ∧
          ∀ a, ¬InRange r.origin r.acc.toNat a → t.peek .sw a = s.peek .sw a) ∧
      (r.complete = false → step s = .next { s.popAgenda with rs := r, rxh := rxh' }))

/-- Fragments that begin with a start of frame and hold no other reassemble to the first one's buffer address
and the sum of their lengths modulo 2^32; the packet is complete when one of them ends the frame, or one was
already (R178). A fragment is (buffer address, length, status). -/
def Obligations.ReassemblySums : Prop :=
  ∀ (r : Reasm) (b l sts : Word) (rest : List (Word × Word × Word)), sts.getLsbD 1 = true →
    (∀ q ∈ rest, q.2.2.getLsbD 1 = false) →
    let t := rest.foldl (fun r q => r.addFragment q.1 q.2.1 q.2.2) (r.addFragment b l sts)
    t.origin = b ∧ t.acc.toNat = (l.toNat + (rest.map fun q => q.2.1.toNat).sum) % 2 ^ 32 ∧
    (t.complete = true ↔
      r.complete = true ∨ sts.getLsbD 2 = true ∨ ∃ q ∈ rest, q.2.2.getLsbD 2 = true)

/-- Re-provisioning, undisturbed, from phase `FREE` to phase `ENABLE`: the slots re-reserved are the slots
freed, every slot of the ring keeps its buffer address, the re-posted ones get `length = buf_size` and cleared
flags, and the count of posted slots is back where it was before the drain (R180 to R182, R188). -/
def Obligations.RepostKeepsBuffers : Prop :=
  ∀ s : State, s.undisturbed .rxh → s.rxh.state = .draining → s.rxh.phase = .free →
    s.engState ≠ .halted → s.rx.created = true → s.rx.Ok → s.rxh.count ≠ 0 →
    s.rx.postCnt = s.rxh.count → s.rxh.first = s.rx.postHead → s.rx.preCnt = 0 → s.rx.freeCnt = 0 →
    s.cfg.bufSize ≠ 0 → s.cfg.bufSize ≤ s.rx.maxLen →
    ∃ t : State,
      steps (s.rxh.count.toNat + 3) s = .next t ∧
      t.rxh.state = .draining ∧ t.rxh.phase = .enable ∧ t.rxh.first2 = s.rxh.first ∧
      t.rx =
        { s.rx with
          postHead := BitVec.ofNat 16 ((s.rx.postHead.toNat + s.rxh.count.toNat) % s.rx.size)
          postCnt := 0
          hwCnt := s.rx.hwCnt + s.rxh.count } ∧
      t.out = s.out ∧ t.stack = s.stack ∧
      (∀ i < s.rx.size, t.getField .rx i .bufAddr = s.getField .rx i .bufAddr) ∧
      (∀ j < s.rxh.count.toNat,
        let i := (s.rxh.first.toNat + j) % s.rx.size
        t.getField .rx i .length = s.cfg.bufSize ∧ t.getField .rx i .ctrl = 0 ∧
          t.getField .rx i .sts = 0)

/-- The TX handler masks its ring, but for the overlap, and drains; an empty drain goes on to re-enable. What it
drained, the oldest drained slots, it then frees: they join the `FREE` group, `post_head` moves past them, the
phase becomes `ENABLE`, and nothing else changes, no descriptor field either (R204, R205, R207, R280). -/
def Obligations.TxMaskDrainFree : Prop :=
  (∀ s : State, s.turnOf .txh → s.txh.state = .acknowledged → s.txh.irq.getLsbD 2 = false →
    (s.sync.busyRing = some .tx → s.params.syncIrqOverlap = .fault →
      step s = .next { s.popAgenda with fault := some .concurrentRingAccess }) ∧
    ((s.sync.busyRing ≠ some .tx ∨ s.params.syncIrqOverlap = .atomicInterleave) →
      s.engState ≠ .halted →
      step s = .next
        { s.popAgenda with
          tx := { s.tx with irqEn := 0 }
          txh := { s.txh with state := .draining, phase := .drain } })) ∧
  (∀ s : State, s.turnOf .txh → s.txh.state = .draining → s.txh.phase = .drain →
    s.engState ≠ .halted → s.tx.created = true → s.tx.Ok →
    (s.tx.doneCnt ≠ 0 → step s = .next
      { s.popAgenda with
        tx := { s.tx with
          postCnt := s.tx.postCnt + s.tx.doneCnt
          hwCnt := s.tx.hwCnt - s.tx.doneCnt
          doneCnt := 0 }
        txh := { s.txh with
          count := s.tx.doneCnt, first := BitVec.ofNat 16 s.tx.hwHead, phase := .free } }) ∧
    (s.tx.doneCnt = 0 → step s = .next
      { s.popAgenda with txh := { s.txh with count := 0, phase := .enable } })) ∧
  (∀ s : State, s.turnOf .txh → s.txh.state = .draining → s.txh.phase = .free →
    s.engState ≠ .halted → s.tx.created = true → s.tx.Ok → s.txh.count ≠ 0 →
    s.txh.count ≤ s.tx.postCnt → s.txh.first = s.tx.postHead → step s = .next
      { s.popAgenda with
        tx := { s.tx with
          postHead := BitVec.ofNat 16 ((s.tx.postHead.toNat + s.txh.count.toNat) % s.tx.size)
          postCnt := s.tx.postCnt - s.txh.count
          freeCnt := s.tx.freeCnt + s.txh.count }
        txh := { s.txh with phase := .enable } })

/-- The re-arm and return of the TX handler, and of the RX handler: all three sources are enabled and the state
is `Rearmed`; then the handler pops itself and is `Idle` (R206 for TX, R183 for RX). -/
def Obligations.HandlersRearm : Prop :=
  (∀ s : State, s.turnOf .txh → s.txh.state = .draining → s.txh.phase = .enable →
    s.engState ≠ .halted → step s = .next
      { s.popAgenda with
        tx := { s.tx with irqEn := 7 }
        txh := { s.txh with state := .rearmed } }) ∧
  (∀ s : State, s.turnOf .txh → s.txh.state = .rearmed → step s = .next
    { s.popAgenda with stack := s.stack.dropLast, txh := { s.txh with state := .idle } }) ∧
  (∀ s : State, s.turnOf .rxh → s.rxh.state = .draining → s.rxh.phase = .enable →
    s.engState ≠ .halted → step s = .next
      { s.popAgenda with
        rx := { s.rx with irqEn := 7 }
        rxh := { s.rxh with state := .rearmed } }) ∧
  (∀ s : State, s.turnOf .rxh → s.rxh.state = .rearmed → step s = .next
    { s.popAgenda with stack := s.stack.dropLast, rxh := { s.rxh with state := .idle } })

/-- What the TX handler never does: no micro-step of it adds to the trace, reserves, releases, posts or
writes a descriptor, touches the reassembly state, or changes any register of the RX ring but, by a controller
reset, `run`, `irq_en` and `irq_pend` (R208, R254, R258). -/
def Obligations.TxHandlerFrame : Prop :=
  ∀ s t : State, s.turnOf .txh → step s = .next t →
    t.out = s.out ∧ t.rs = s.rs ∧ t.memSw = s.memSw ∧ t.memHw = s.memHw ∧
    (BytesKept s t fun _ => False) ∧ t.sync = s.sync ∧ t.rxh = s.rxh ∧ t.cfg = s.cfg ∧
    t.tx.preCnt = s.tx.preCnt ∧
    { t.rx with run := s.rx.run, irqEn := s.rx.irqEn, irqPend := s.rx.irqPend } = s.rx

/-- What stops an operation in flight. In `Halted`, the next primitive of a drain pass and `TRANSMIT`'s `COMMIT`
are refused, and so is I17 of `INITIALIZE`; a sequencer's primitive that answers an error code (here `FREE`,
of both handlers) is the fault `SequencerPrimitiveError`; a delivery without a callback is the fault
`NoCallback`, and nothing is emitted (R134, R154, R187, R209, R221, R250). -/
def Obligations.InFlightFailuresStop : Prop :=
  (∀ s : State, s.turnOf .rxh → s.engState = .halted → s.rxh.state = .draining → s.rxh.phase ≠ .walk →
    step s = .next { s.popAgenda with refused := true }) ∧
  (∀ s : State, s.turnOf .txh → s.engState = .halted → s.txh.state = .draining →
    step s = .next { s.popAgenda with refused := true }) ∧
  (∀ s : State, s.turnOf .sync → s.engState = .halted →
    (s.sync.op = .transmit ∧ s.sync.step = 7 ∨ s.sync.op = .initEngine ∧ s.sync.step = 17) →
    step s = .next { s.popAgenda with refused := true }) ∧
  (∀ s : State, s.turnOf .rxh → s.engState ≠ .halted → s.rxh.state = .draining → s.rxh.phase = .free →
    (s.rx.created = false ∨ s.rxh.count = 0 ∨ s.rx.postCnt < s.rxh.count) →
    step s = .next { s.popAgenda with fault := some .sequencerPrimitiveError }) ∧
  (∀ s : State, s.turnOf .txh → s.engState ≠ .halted → s.txh.state = .draining → s.txh.phase = .free →
    (s.tx.created = false ∨ s.txh.count = 0 ∨ s.tx.postCnt < s.txh.count) →
    step s = .next { s.popAgenda with fault := some .sequencerPrimitiveError }) ∧
  (∀ s : State,
    let i := (s.rxh.first.toNat + s.rxh.i.toNat) % s.rx.size
    let sts := s.getField .rx i .sts
    s.turnOf .rxh → s.rxh.state = .draining → s.rxh.phase = .walk → sts.getLsbD 0 = true →
    sts.getLsbD 2 = true → (s.params.bdErrorSkip = false ∨ sts.getLsbD 3 = false) →
    s.cfg.callback = 0 →
    ∃ t : State, step s = .next t ∧ t.fault = some .noCallback ∧ t.out = s.out)

/-! ### The data mover and memory -/

/-- One RX completion: the oldest posted slot gets its actual length and its status, its buffer gets the data
in the `hw` view and keeps its bytes in the `sw` view, the hidden count grows by one, the trace gains `RxData`;
the buffer address, the control flags, every other register and every other byte stay (R58, R65, R216, R226).
A buffer in descriptor memory, of which the spec says nothing, is left out (log entry 27). `rxFrameStart` is the
model's own field (log entry 11). -/
def Obligations.RxCompletion : Prop :=
  ∀ (s : State) (sof eof err : Bool) (data : List Byte),
    let i := s.rx.oldestPosted
    let buf := s.getField .rx i .bufAddr
    s.unmarked → s.nextMove = .rxComplete sof eof err data → s.rx.created = true → s.rx.Ok →
    s.rx.run = true → s.ctl.resetting = false → s.rx.doneCnt < s.rx.hwCnt →
    data.length ≤ (s.getField .rx i .length).toNat →
    (s.params.rxFraming = .free ∨ sof = s.rxFrameStart) →
    (∀ k < data.length, s.isDescriptorByte (buf + BitVec.ofNat 32 k) = false) →
    ∃ t : State, step s = .next t ∧
      t.rx = { s.rx with doneCnt := s.rx.doneCnt + 1 } ∧
      t.getField .rx i .length = BitVec.ofNat 32 data.length ∧
      t.getField .rx i .sts =
        (BitVec.ofBool err ++ BitVec.ofBool eof ++ BitVec.ofBool sof ++ 1#1).zeroExtend 32 ∧
      t.getField .rx i .bufAddr = buf ∧ t.getField .rx i .ctrl = s.getField .rx i .ctrl ∧
      (∀ (k : Nat) (h : k < data.length), t.peek .hw (buf + BitVec.ofNat 32 k) = data[k]) ∧
      (∀ k < data.length, t.peek .sw (buf + BitVec.ofNat 32 k) = s.peek .sw (buf + BitVec.ofNat 32 k)) ∧
      t.out = s.out ++ [.rxData (BitVec.ofNat 16 i) data] ∧
      { t with rx := s.rx, memSw := s.memSw, memHw := s.memHw, hwLog := s.hwLog, out := s.out,
               rxFrameStart := s.rxFrameStart } = s.popAgenda ∧
      BytesKept s t fun a =>
        InRange buf data.length a ∨ s.InField .rx i .length a ∨ s.InField .rx i .sts a

/-- One TX completion. Bytes of the buffer's length, each of which its `hw` byte has held since the slot was
posted, are a step, and no others: the oldest posted slot gets its status and nothing else of it changes, the
hidden count grows by one and the trace gains the bytes. The values of a posted slot's byte: when the slot is
posted, the `hw` byte alone; in every step after that, those it had and the one the `hw` byte then has; a `Flush`,
such as that of a second `TRANSMIT`, adds exactly the byte it puts there, so that the frame is a per-byte mix;
while no `hw` write is logged, the `hw` byte alone (R217, R226, R283). The record of the values, `hwLog` and
`txMarks`, is the model's own (log entry 12). -/
def Obligations.TxCompletion : Prop :=
  (∀ (s : State) (err : Bool) (bytes : List Byte),
    let i := s.tx.oldestPosted
    let buf := s.getField .tx i .bufAddr
    s.unmarked → s.nextMove = .txComplete err bytes → s.tx.created = true → s.tx.run = true →
    s.ctl.resetting = false → s.tx.doneCnt < s.tx.hwCnt →
    let legal := bytes.length = (s.getField .tx i .length).toNat ∧
      ∀ (k : Nat) (h : k < bytes.length), s.Sendable i (buf + BitVec.ofNat 32 k) bytes[k]
    (¬legal → step s = .next s.popAgenda) ∧
    (legal →
      ∃ t : State, step s = .next t ∧
        t.tx = { s.tx with doneCnt := s.tx.doneCnt + 1 } ∧
        t.getField .tx i .sts = (BitVec.ofBool err ++ 0#2 ++ 1#1).zeroExtend 32 ∧
        t.out = s.out ++ [.txWire bytes] ∧
        { t with tx := s.tx, memSw := s.memSw, memHw := s.memHw, hwLog := s.hwLog, out := s.out,
                 txMarks := s.txMarks } = s.popAgenda ∧
        BytesKept s t (s.InField .tx i .sts))) ∧
  (∀ (s t : State) (i : Nat), s.RingsOk → s.MarksOk → step s = .next t → s.tx.created = true →
    i < s.tx.size → s.tx.slotState i = .reserved → t.tx.slotState i = .posted →
    ∀ a v, t.Sendable i a v ↔ v = t.peek .hw a) ∧
  (∀ (s t : State) (i : Nat), s.RingsOk → s.MarksOk → step s = .next t → s.tx.created = true →
    i < s.tx.size → s.tx.slotState i = .posted → t.tx.slotState i = .posted →
    ∀ a v, s.Sendable i a v ∨ v = t.peek .hw a → t.Sendable i a v) ∧
  (∀ (s : State) (i : Nat) (b len : Word), s.tx.created = true → s.tx.Ok → s.MarksOk →
    i < s.tx.size → s.tx.slotState i = .posted →
    ∀ a v, (s.flush b len).Sendable i a v ↔ s.Sendable i a v ∨ v = (s.flush b len).peek .hw a) ∧
  (∀ (s : State) (i : Nat) (a : Word),
    (∀ c ∈ s.hwLog.take (s.hwLog.length - s.txMarkOf i), c.1 ≠ a.toNat) →
    ∀ v, s.Sendable i a v ↔ v = s.peek .hw a)

/-- While a channel is not created, not running or under reset the data mover takes no completion and no raise
step on it; with no posted slot it takes no completion step; otherwise a raise latches its bit whether or not
the source is enabled, and changes nothing else (R21, R215, R218, R226). -/
def Obligations.ChannelGuard : Prop :=
  ∀ s : State, s.unmarked →
    (∀ x b, s.nextMove = .raise x b →
      ((s.ring x).created = false ∨ (s.ring x).run = false ∨ s.ctl.resetting = true →
        step s = .next s.popAgenda) ∧
      ((s.ring x).created = true → (s.ring x).run = true → s.ctl.resetting = false →
        step s = .next
          (s.popAgenda.setRing x { s.ring x with irqPend := (s.ring x).irqPend |||
            (match b with | .completion => 1#3 | .delayTimeout => 2#3 | .error => 4#3) }))) ∧
    (∀ sof eof err data, s.nextMove = .rxComplete sof eof err data →
      (s.rx.created = false ∨ s.rx.run = false ∨ s.ctl.resetting = true ∨ s.rx.hwCnt ≤ s.rx.doneCnt) →
      step s = .next s.popAgenda) ∧
    (∀ err bytes, s.nextMove = .txComplete err bytes →
      (s.tx.created = false ∨ s.tx.run = false ∨ s.ctl.resetting = true ∨ s.tx.hwCnt ≤ s.tx.doneCnt) →
      step s = .next s.popAgenda)

/-- The reset confirmation step (R220). -/
def Obligations.ResetConfirmation : Prop :=
  ∀ s : State, s.unmarked → s.nextMove = .resetComplete →
    (s.ctl.resetting = true → step s = .next
      { s.popAgenda with ctl := { s.ctl with resetting := false, resetDone := true } }) ∧
    (s.ctl.resetting = false → step s = .next s.popAgenda)

/-- `Flush` makes the `hw` view of its range what the `sw` view is, `Invalidate` the reverse; each is recorded
in the trace and changes no other byte of either view (R59, R60, R222). -/
def Obligations.CacheMaintenance : Prop :=
  ∀ (s : State) (a len : Word),
    ((s.flush a len).out = s.out ++ [.flush a len] ∧
      (∀ k < len.toNat, (s.flush a len).peek .hw (a + BitVec.ofNat 32 k) =
        s.peek .sw (a + BitVec.ofNat 32 k)) ∧
      (∀ c, ¬InRange a len.toNat c → (s.flush a len).peek .hw c = s.peek .hw c) ∧
      (∀ c, (s.flush a len).peek .sw c = s.peek .sw c) ∧
      SameButMemory { s with out := (s.flush a len).out } (s.flush a len)) ∧
    ((s.invalidate a len).out = s.out ++ [.invalidate a len] ∧
      (∀ k < len.toNat, (s.invalidate a len).peek .sw (a + BitVec.ofNat 32 k) =
        s.peek .hw (a + BitVec.ofNat 32 k)) ∧
      (∀ c, ¬InRange a len.toNat c → (s.invalidate a len).peek .sw c = s.peek .sw c) ∧
      (∀ c, (s.invalidate a len).peek .hw c = s.peek .hw c) ∧
      SameButMemory { s with out := (s.invalidate a len).out } (s.invalidate a len))

/-- The staging copy is bytewise and ascending, overlapping source or not: byte `k` of the destination gets the
source byte as it reads after the first `k` bytes were copied; no byte outside the destination changes. It writes
the `sw` view alone: outside descriptor memory, which is coherent (R62), no `hw` byte changes, in the destination
either (R52, R53, R58, R156). -/
def Obligations.StagingCopy : Prop :=
  ∀ (s : State) (dst src : Word) (len : Nat), len ≤ 2 ^ 32 →
    (∀ k < len, (s.copyUp dst src len).peek .sw (dst + BitVec.ofNat 32 k) =
      (s.copyUp dst src k).peek .sw (src + BitVec.ofNat 32 k)) ∧
    (BytesKept s (s.copyUp dst src len) (InRange dst len)) ∧
    (∀ a, s.isDescriptorByte a = false → (s.copyUp dst src len).peek .hw a = s.peek .hw a) ∧
    SameButMemory s (s.copyUp dst src len)

end Statements
end

