-- ==== Sys2Proof/Laws/Decode.lean ====
section
/-! SUPPORT. The fields of a header built by `header`, and the header rebuilt from its fields. -/

namespace Sys2Proof

@[simp] theorem opField_header (op : BitVec 8) (x : Ring) (m : BitVec 3) (n : Half) :
    opField (header op x m n) = op := by
  apply BitVec.eq_of_getLsbD_eq
  intro i hi
  simp only [opField, header, BitVec.getLsbD_extractLsb', BitVec.getLsbD_append]
  rw [if_neg (by omega), if_neg (by omega), if_neg (by omega), if_neg (by omega)]
  rw [show 24 + i - 16 - 3 - 4 - 1 = i by omega]
  simp [hi]

@[simp] theorem ringField_header (op : BitVec 8) (x : Ring) (m : BitVec 3) (n : Half) :
    ringField (header op x m n) = x := by
  have : (header op x m n).getLsbD 23 = x.bit.getLsbD 0 := by
    simp only [header, BitVec.getLsbD_append]
    rw [if_neg (by omega), if_neg (by omega), if_neg (by omega), if_pos (by omega)]
  simp only [ringField, this]
  cases x <;> rfl

@[simp] theorem rsvField_header (op : BitVec 8) (x : Ring) (m : BitVec 3) (n : Half) :
    rsvField (header op x m n) = 0 := by
  apply BitVec.eq_of_getLsbD_eq
  intro i hi
  simp only [rsvField, header, BitVec.getLsbD_extractLsb', BitVec.getLsbD_append]
  rw [if_neg (by omega), if_neg (by omega), if_pos (by omega)]
  simp

@[simp] theorem mField_header (op : BitVec 8) (x : Ring) (m : BitVec 3) (n : Half) :
    mField (header op x m n) = m := by
  apply BitVec.eq_of_getLsbD_eq
  intro i hi
  simp only [mField, header, BitVec.getLsbD_extractLsb', BitVec.getLsbD_append]
  rw [if_neg (by omega), if_pos (by omega), show 16 + i - 16 = i by omega]
  simp [hi]

@[simp] theorem nField_header (op : BitVec 8) (x : Ring) (m : BitVec 3) (n : Half) :
    nField (header op x m n) = n := by
  apply BitVec.eq_of_getLsbD_eq
  intro i hi
  simp only [nField, header, BitVec.getLsbD_extractLsb', BitVec.getLsbD_append]
  rw [if_pos (by omega)]
  simp [hi]

theorem build_header (op : BitVec 8) (x : Ring) (m : BitVec 3) (n : Half) (ws : List Word) :
    build (header op x m n) ws = buildFrom op x m n ws := by
  unfold build
  rw [opField_header, ringField_header, mField_header, nField_header]

/-- A header whose reserved field is 0 is the header of its fields. -/
theorem header_fields (w : Word) (h : rsvField w = 0) :
    header (opField w) (ringField w) (mField w) (nField w) = w := by
  have hr : ∀ i, i < 4 → w.getLsbD (19 + i) = false := fun i hi => by
    have := congrArg (fun v : BitVec 4 => v.getLsbD i) h
    simpa [rsvField, hi] using this
  have hb : ∀ i, i = 0 → (ringField w).bit.getLsbD i = w.getLsbD 23 := fun i hi => by
    subst hi
    unfold ringField
    cases w.getLsbD 23 <;> rfl
  apply BitVec.eq_of_getLsbD_eq
  intro i hi
  simp only [header, BitVec.getLsbD_append, opField, mField, nField, BitVec.getLsbD_extractLsb']
  by_cases h1 : i < 16
  · rw [if_pos h1]; simp [h1]
  · rw [if_neg h1]
    by_cases h2 : i - 16 < 3
    · rw [if_pos h2, show 16 + (i - 16) = i by omega]; simp [h2]
    · rw [if_neg h2]
      by_cases h3 : i - 16 - 3 < 4
      · rw [if_pos h3]
        have := hr (i - 19) (by omega)
        rw [show 19 + (i - 19) = i by omega] at this
        simp [this]
      · rw [if_neg h3]
        by_cases h4 : i - 16 - 3 - 4 < 1
        · rw [if_pos h4, hb _ (by omega), show i = 23 by omega]
        · rw [if_neg h4, show 24 + (i - 16 - 3 - 4 - 1) = i by omega]
          simp; omega

end Sys2Proof
end

