-- ==== Sys2Proof/Laws/State.lean ====
section
/-! SUPPORT. One lemma per field and update of the state: a named update leaves every field it does not name
as it was, and sets the fields it names. -/

namespace Sys2Proof.Machine

/-! ### `setRing` -/

@[simp] theorem State.setRing_engState (s : State) (x : Ring) (r : RingRegs) : (s.setRing x r).engState = s.engState := by cases x <;> rfl
@[simp] theorem State.setRing_cfg (s : State) (x : Ring) (r : RingRegs) : (s.setRing x r).cfg = s.cfg := by cases x <;> rfl
@[simp] theorem State.setRing_cfgValid (s : State) (x : Ring) (r : RingRegs) : (s.setRing x r).cfgValid = s.cfgValid := by cases x <;> rfl
@[simp] theorem State.setRing_ctl (s : State) (x : Ring) (r : RingRegs) : (s.setRing x r).ctl = s.ctl := by cases x <;> rfl
@[simp] theorem State.setRing_rxh (s : State) (x : Ring) (r : RingRegs) : (s.setRing x r).rxh = s.rxh := by cases x <;> rfl
@[simp] theorem State.setRing_txh (s : State) (x : Ring) (r : RingRegs) : (s.setRing x r).txh = s.txh := by cases x <;> rfl
@[simp] theorem State.setRing_rs (s : State) (x : Ring) (r : RingRegs) : (s.setRing x r).rs = s.rs := by cases x <;> rfl
@[simp] theorem State.setRing_sync (s : State) (x : Ring) (r : RingRegs) : (s.setRing x r).sync = s.sync := by cases x <;> rfl
@[simp] theorem State.setRing_stack (s : State) (x : Ring) (r : RingRegs) : (s.setRing x r).stack = s.stack := by cases x <;> rfl
@[simp] theorem State.setRing_out (s : State) (x : Ring) (r : RingRegs) : (s.setRing x r).out = s.out := by cases x <;> rfl
@[simp] theorem State.setRing_fault (s : State) (x : Ring) (r : RingRegs) : (s.setRing x r).fault = s.fault := by cases x <;> rfl
@[simp] theorem State.setRing_refused (s : State) (x : Ring) (r : RingRegs) : (s.setRing x r).refused = s.refused := by cases x <;> rfl
@[simp] theorem State.setRing_memSw (s : State) (x : Ring) (r : RingRegs) : (s.setRing x r).memSw = s.memSw := by cases x <;> rfl
@[simp] theorem State.setRing_memHw (s : State) (x : Ring) (r : RingRegs) : (s.setRing x r).memHw = s.memHw := by cases x <;> rfl
@[simp] theorem State.setRing_cmdPort (s : State) (x : Ring) (r : RingRegs) : (s.setRing x r).cmdPort = s.cmdPort := by cases x <;> rfl
@[simp] theorem State.setRing_evtPort (s : State) (x : Ring) (r : RingRegs) : (s.setRing x r).evtPort = s.evtPort := by cases x <;> rfl
@[simp] theorem State.setRing_params (s : State) (x : Ring) (r : RingRegs) : (s.setRing x r).params = s.params := by cases x <;> rfl
@[simp] theorem State.setRing_lookup (s : State) (x : Ring) (r : RingRegs) : (s.setRing x r).lookup = s.lookup := by cases x <;> rfl
@[simp] theorem State.setRing_agenda (s : State) (x : Ring) (r : RingRegs) : (s.setRing x r).agenda = s.agenda := by cases x <;> rfl
@[simp] theorem State.setRing_draws (s : State) (x : Ring) (r : RingRegs) : (s.setRing x r).draws = s.draws := by cases x <;> rfl
@[simp] theorem State.setRing_hwLog (s : State) (x : Ring) (r : RingRegs) : (s.setRing x r).hwLog = s.hwLog := by cases x <;> rfl
@[simp] theorem State.setRing_txMarks (s : State) (x : Ring) (r : RingRegs) : (s.setRing x r).txMarks = s.txMarks := by cases x <;> rfl
@[simp] theorem State.setRing_rxFrameStart (s : State) (x : Ring) (r : RingRegs) : (s.setRing x r).rxFrameStart = s.rxFrameStart := by cases x <;> rfl

/-! ### `emit` -/

@[simp] theorem State.emit_engState (s : State) (e : Event) : (s.emit e).engState = s.engState := rfl
@[simp] theorem State.emit_cfg (s : State) (e : Event) : (s.emit e).cfg = s.cfg := rfl
@[simp] theorem State.emit_cfgValid (s : State) (e : Event) : (s.emit e).cfgValid = s.cfgValid := rfl
@[simp] theorem State.emit_rx (s : State) (e : Event) : (s.emit e).rx = s.rx := rfl
@[simp] theorem State.emit_tx (s : State) (e : Event) : (s.emit e).tx = s.tx := rfl
@[simp] theorem State.emit_ctl (s : State) (e : Event) : (s.emit e).ctl = s.ctl := rfl
@[simp] theorem State.emit_rxh (s : State) (e : Event) : (s.emit e).rxh = s.rxh := rfl
@[simp] theorem State.emit_txh (s : State) (e : Event) : (s.emit e).txh = s.txh := rfl
@[simp] theorem State.emit_rs (s : State) (e : Event) : (s.emit e).rs = s.rs := rfl
@[simp] theorem State.emit_sync (s : State) (e : Event) : (s.emit e).sync = s.sync := rfl
@[simp] theorem State.emit_stack (s : State) (e : Event) : (s.emit e).stack = s.stack := rfl
@[simp] theorem State.emit_fault (s : State) (e : Event) : (s.emit e).fault = s.fault := rfl
@[simp] theorem State.emit_refused (s : State) (e : Event) : (s.emit e).refused = s.refused := rfl
@[simp] theorem State.emit_memSw (s : State) (e : Event) : (s.emit e).memSw = s.memSw := rfl
@[simp] theorem State.emit_memHw (s : State) (e : Event) : (s.emit e).memHw = s.memHw := rfl
@[simp] theorem State.emit_cmdPort (s : State) (e : Event) : (s.emit e).cmdPort = s.cmdPort := rfl
@[simp] theorem State.emit_evtPort (s : State) (e : Event) : (s.emit e).evtPort = s.evtPort := rfl
@[simp] theorem State.emit_params (s : State) (e : Event) : (s.emit e).params = s.params := rfl
@[simp] theorem State.emit_lookup (s : State) (e : Event) : (s.emit e).lookup = s.lookup := rfl
@[simp] theorem State.emit_agenda (s : State) (e : Event) : (s.emit e).agenda = s.agenda := rfl
@[simp] theorem State.emit_draws (s : State) (e : Event) : (s.emit e).draws = s.draws := rfl
@[simp] theorem State.emit_hwLog (s : State) (e : Event) : (s.emit e).hwLog = s.hwLog := rfl
@[simp] theorem State.emit_txMarks (s : State) (e : Event) : (s.emit e).txMarks = s.txMarks := rfl
@[simp] theorem State.emit_rxFrameStart (s : State) (e : Event) : (s.emit e).rxFrameStart = s.rxFrameStart := rfl

/-! ### `markFault` -/

@[simp] theorem State.markFault_engState (s : State) (f : Fault) : (s.markFault f).engState = s.engState := rfl
@[simp] theorem State.markFault_cfg (s : State) (f : Fault) : (s.markFault f).cfg = s.cfg := rfl
@[simp] theorem State.markFault_cfgValid (s : State) (f : Fault) : (s.markFault f).cfgValid = s.cfgValid := rfl
@[simp] theorem State.markFault_rx (s : State) (f : Fault) : (s.markFault f).rx = s.rx := rfl
@[simp] theorem State.markFault_tx (s : State) (f : Fault) : (s.markFault f).tx = s.tx := rfl
@[simp] theorem State.markFault_ctl (s : State) (f : Fault) : (s.markFault f).ctl = s.ctl := rfl
@[simp] theorem State.markFault_rxh (s : State) (f : Fault) : (s.markFault f).rxh = s.rxh := rfl
@[simp] theorem State.markFault_txh (s : State) (f : Fault) : (s.markFault f).txh = s.txh := rfl
@[simp] theorem State.markFault_rs (s : State) (f : Fault) : (s.markFault f).rs = s.rs := rfl
@[simp] theorem State.markFault_sync (s : State) (f : Fault) : (s.markFault f).sync = s.sync := rfl
@[simp] theorem State.markFault_stack (s : State) (f : Fault) : (s.markFault f).stack = s.stack := rfl
@[simp] theorem State.markFault_out (s : State) (f : Fault) : (s.markFault f).out = s.out := rfl
@[simp] theorem State.markFault_refused (s : State) (f : Fault) : (s.markFault f).refused = s.refused := rfl
@[simp] theorem State.markFault_memSw (s : State) (f : Fault) : (s.markFault f).memSw = s.memSw := rfl
@[simp] theorem State.markFault_memHw (s : State) (f : Fault) : (s.markFault f).memHw = s.memHw := rfl
@[simp] theorem State.markFault_cmdPort (s : State) (f : Fault) : (s.markFault f).cmdPort = s.cmdPort := rfl
@[simp] theorem State.markFault_evtPort (s : State) (f : Fault) : (s.markFault f).evtPort = s.evtPort := rfl
@[simp] theorem State.markFault_params (s : State) (f : Fault) : (s.markFault f).params = s.params := rfl
@[simp] theorem State.markFault_lookup (s : State) (f : Fault) : (s.markFault f).lookup = s.lookup := rfl
@[simp] theorem State.markFault_agenda (s : State) (f : Fault) : (s.markFault f).agenda = s.agenda := rfl
@[simp] theorem State.markFault_draws (s : State) (f : Fault) : (s.markFault f).draws = s.draws := rfl
@[simp] theorem State.markFault_hwLog (s : State) (f : Fault) : (s.markFault f).hwLog = s.hwLog := rfl
@[simp] theorem State.markFault_txMarks (s : State) (f : Fault) : (s.markFault f).txMarks = s.txMarks := rfl
@[simp] theorem State.markFault_rxFrameStart (s : State) (f : Fault) : (s.markFault f).rxFrameStart = s.rxFrameStart := rfl

/-! ### `markRefused` -/

@[simp] theorem State.markRefused_engState (s : State) : (s.markRefused).engState = s.engState := rfl
@[simp] theorem State.markRefused_cfg (s : State) : (s.markRefused).cfg = s.cfg := rfl
@[simp] theorem State.markRefused_cfgValid (s : State) : (s.markRefused).cfgValid = s.cfgValid := rfl
@[simp] theorem State.markRefused_rx (s : State) : (s.markRefused).rx = s.rx := rfl
@[simp] theorem State.markRefused_tx (s : State) : (s.markRefused).tx = s.tx := rfl
@[simp] theorem State.markRefused_ctl (s : State) : (s.markRefused).ctl = s.ctl := rfl
@[simp] theorem State.markRefused_rxh (s : State) : (s.markRefused).rxh = s.rxh := rfl
@[simp] theorem State.markRefused_txh (s : State) : (s.markRefused).txh = s.txh := rfl
@[simp] theorem State.markRefused_rs (s : State) : (s.markRefused).rs = s.rs := rfl
@[simp] theorem State.markRefused_sync (s : State) : (s.markRefused).sync = s.sync := rfl
@[simp] theorem State.markRefused_stack (s : State) : (s.markRefused).stack = s.stack := rfl
@[simp] theorem State.markRefused_out (s : State) : (s.markRefused).out = s.out := rfl
@[simp] theorem State.markRefused_fault (s : State) : (s.markRefused).fault = s.fault := rfl
@[simp] theorem State.markRefused_memSw (s : State) : (s.markRefused).memSw = s.memSw := rfl
@[simp] theorem State.markRefused_memHw (s : State) : (s.markRefused).memHw = s.memHw := rfl
@[simp] theorem State.markRefused_cmdPort (s : State) : (s.markRefused).cmdPort = s.cmdPort := rfl
@[simp] theorem State.markRefused_evtPort (s : State) : (s.markRefused).evtPort = s.evtPort := rfl
@[simp] theorem State.markRefused_params (s : State) : (s.markRefused).params = s.params := rfl
@[simp] theorem State.markRefused_lookup (s : State) : (s.markRefused).lookup = s.lookup := rfl
@[simp] theorem State.markRefused_agenda (s : State) : (s.markRefused).agenda = s.agenda := rfl
@[simp] theorem State.markRefused_draws (s : State) : (s.markRefused).draws = s.draws := rfl
@[simp] theorem State.markRefused_hwLog (s : State) : (s.markRefused).hwLog = s.hwLog := rfl
@[simp] theorem State.markRefused_txMarks (s : State) : (s.markRefused).txMarks = s.txMarks := rfl
@[simp] theorem State.markRefused_rxFrameStart (s : State) : (s.markRefused).rxFrameStart = s.rxFrameStart := rfl

/-! ### `push` -/

@[simp] theorem State.push_engState (s : State) (a : Agent) : (s.push a).engState = s.engState := rfl
@[simp] theorem State.push_cfg (s : State) (a : Agent) : (s.push a).cfg = s.cfg := rfl
@[simp] theorem State.push_cfgValid (s : State) (a : Agent) : (s.push a).cfgValid = s.cfgValid := rfl
@[simp] theorem State.push_rx (s : State) (a : Agent) : (s.push a).rx = s.rx := rfl
@[simp] theorem State.push_tx (s : State) (a : Agent) : (s.push a).tx = s.tx := rfl
@[simp] theorem State.push_ctl (s : State) (a : Agent) : (s.push a).ctl = s.ctl := rfl
@[simp] theorem State.push_rxh (s : State) (a : Agent) : (s.push a).rxh = s.rxh := rfl
@[simp] theorem State.push_txh (s : State) (a : Agent) : (s.push a).txh = s.txh := rfl
@[simp] theorem State.push_rs (s : State) (a : Agent) : (s.push a).rs = s.rs := rfl
@[simp] theorem State.push_sync (s : State) (a : Agent) : (s.push a).sync = s.sync := rfl
@[simp] theorem State.push_out (s : State) (a : Agent) : (s.push a).out = s.out := rfl
@[simp] theorem State.push_fault (s : State) (a : Agent) : (s.push a).fault = s.fault := rfl
@[simp] theorem State.push_refused (s : State) (a : Agent) : (s.push a).refused = s.refused := rfl
@[simp] theorem State.push_memSw (s : State) (a : Agent) : (s.push a).memSw = s.memSw := rfl
@[simp] theorem State.push_memHw (s : State) (a : Agent) : (s.push a).memHw = s.memHw := rfl
@[simp] theorem State.push_cmdPort (s : State) (a : Agent) : (s.push a).cmdPort = s.cmdPort := rfl
@[simp] theorem State.push_evtPort (s : State) (a : Agent) : (s.push a).evtPort = s.evtPort := rfl
@[simp] theorem State.push_params (s : State) (a : Agent) : (s.push a).params = s.params := rfl
@[simp] theorem State.push_lookup (s : State) (a : Agent) : (s.push a).lookup = s.lookup := rfl
@[simp] theorem State.push_agenda (s : State) (a : Agent) : (s.push a).agenda = s.agenda := rfl
@[simp] theorem State.push_draws (s : State) (a : Agent) : (s.push a).draws = s.draws := rfl
@[simp] theorem State.push_hwLog (s : State) (a : Agent) : (s.push a).hwLog = s.hwLog := rfl
@[simp] theorem State.push_txMarks (s : State) (a : Agent) : (s.push a).txMarks = s.txMarks := rfl
@[simp] theorem State.push_rxFrameStart (s : State) (a : Agent) : (s.push a).rxFrameStart = s.rxFrameStart := rfl

/-! ### `pop` -/

@[simp] theorem State.pop_engState (s : State) : (s.pop).engState = s.engState := rfl
@[simp] theorem State.pop_cfg (s : State) : (s.pop).cfg = s.cfg := rfl
@[simp] theorem State.pop_cfgValid (s : State) : (s.pop).cfgValid = s.cfgValid := rfl
@[simp] theorem State.pop_rx (s : State) : (s.pop).rx = s.rx := rfl
@[simp] theorem State.pop_tx (s : State) : (s.pop).tx = s.tx := rfl
@[simp] theorem State.pop_ctl (s : State) : (s.pop).ctl = s.ctl := rfl
@[simp] theorem State.pop_rxh (s : State) : (s.pop).rxh = s.rxh := rfl
@[simp] theorem State.pop_txh (s : State) : (s.pop).txh = s.txh := rfl
@[simp] theorem State.pop_rs (s : State) : (s.pop).rs = s.rs := rfl
@[simp] theorem State.pop_sync (s : State) : (s.pop).sync = s.sync := rfl
@[simp] theorem State.pop_out (s : State) : (s.pop).out = s.out := rfl
@[simp] theorem State.pop_fault (s : State) : (s.pop).fault = s.fault := rfl
@[simp] theorem State.pop_refused (s : State) : (s.pop).refused = s.refused := rfl
@[simp] theorem State.pop_memSw (s : State) : (s.pop).memSw = s.memSw := rfl
@[simp] theorem State.pop_memHw (s : State) : (s.pop).memHw = s.memHw := rfl
@[simp] theorem State.pop_cmdPort (s : State) : (s.pop).cmdPort = s.cmdPort := rfl
@[simp] theorem State.pop_evtPort (s : State) : (s.pop).evtPort = s.evtPort := rfl
@[simp] theorem State.pop_params (s : State) : (s.pop).params = s.params := rfl
@[simp] theorem State.pop_lookup (s : State) : (s.pop).lookup = s.lookup := rfl
@[simp] theorem State.pop_agenda (s : State) : (s.pop).agenda = s.agenda := rfl
@[simp] theorem State.pop_draws (s : State) : (s.pop).draws = s.draws := rfl
@[simp] theorem State.pop_hwLog (s : State) : (s.pop).hwLog = s.hwLog := rfl
@[simp] theorem State.pop_txMarks (s : State) : (s.pop).txMarks = s.txMarks := rfl
@[simp] theorem State.pop_rxFrameStart (s : State) : (s.pop).rxFrameStart = s.rxFrameStart := rfl

/-! ### `writeHw` -/

@[simp] theorem State.writeHw_engState (s : State) (a : Word) (b : Byte) : (s.writeHw a b).engState = s.engState := rfl
@[simp] theorem State.writeHw_cfg (s : State) (a : Word) (b : Byte) : (s.writeHw a b).cfg = s.cfg := rfl
@[simp] theorem State.writeHw_cfgValid (s : State) (a : Word) (b : Byte) : (s.writeHw a b).cfgValid = s.cfgValid := rfl
@[simp] theorem State.writeHw_rx (s : State) (a : Word) (b : Byte) : (s.writeHw a b).rx = s.rx := rfl
@[simp] theorem State.writeHw_tx (s : State) (a : Word) (b : Byte) : (s.writeHw a b).tx = s.tx := rfl
@[simp] theorem State.writeHw_ctl (s : State) (a : Word) (b : Byte) : (s.writeHw a b).ctl = s.ctl := rfl
@[simp] theorem State.writeHw_rxh (s : State) (a : Word) (b : Byte) : (s.writeHw a b).rxh = s.rxh := rfl
@[simp] theorem State.writeHw_txh (s : State) (a : Word) (b : Byte) : (s.writeHw a b).txh = s.txh := rfl
@[simp] theorem State.writeHw_rs (s : State) (a : Word) (b : Byte) : (s.writeHw a b).rs = s.rs := rfl
@[simp] theorem State.writeHw_sync (s : State) (a : Word) (b : Byte) : (s.writeHw a b).sync = s.sync := rfl
@[simp] theorem State.writeHw_stack (s : State) (a : Word) (b : Byte) : (s.writeHw a b).stack = s.stack := rfl
@[simp] theorem State.writeHw_out (s : State) (a : Word) (b : Byte) : (s.writeHw a b).out = s.out := rfl
@[simp] theorem State.writeHw_fault (s : State) (a : Word) (b : Byte) : (s.writeHw a b).fault = s.fault := rfl
@[simp] theorem State.writeHw_refused (s : State) (a : Word) (b : Byte) : (s.writeHw a b).refused = s.refused := rfl
@[simp] theorem State.writeHw_memSw (s : State) (a : Word) (b : Byte) : (s.writeHw a b).memSw = s.memSw := rfl
@[simp] theorem State.writeHw_cmdPort (s : State) (a : Word) (b : Byte) : (s.writeHw a b).cmdPort = s.cmdPort := rfl
@[simp] theorem State.writeHw_evtPort (s : State) (a : Word) (b : Byte) : (s.writeHw a b).evtPort = s.evtPort := rfl
@[simp] theorem State.writeHw_params (s : State) (a : Word) (b : Byte) : (s.writeHw a b).params = s.params := rfl
@[simp] theorem State.writeHw_lookup (s : State) (a : Word) (b : Byte) : (s.writeHw a b).lookup = s.lookup := rfl
@[simp] theorem State.writeHw_agenda (s : State) (a : Word) (b : Byte) : (s.writeHw a b).agenda = s.agenda := rfl
@[simp] theorem State.writeHw_draws (s : State) (a : Word) (b : Byte) : (s.writeHw a b).draws = s.draws := rfl
@[simp] theorem State.writeHw_txMarks (s : State) (a : Word) (b : Byte) : (s.writeHw a b).txMarks = s.txMarks := rfl
@[simp] theorem State.writeHw_rxFrameStart (s : State) (a : Word) (b : Byte) : (s.writeHw a b).rxFrameStart = s.rxFrameStart := rfl

/-! ### `writeSw` -/

@[simp] theorem State.writeSw_engState (s : State) (a : Word) (b : Byte) : (s.writeSw a b).engState = s.engState := rfl
@[simp] theorem State.writeSw_cfg (s : State) (a : Word) (b : Byte) : (s.writeSw a b).cfg = s.cfg := rfl
@[simp] theorem State.writeSw_cfgValid (s : State) (a : Word) (b : Byte) : (s.writeSw a b).cfgValid = s.cfgValid := rfl
@[simp] theorem State.writeSw_rx (s : State) (a : Word) (b : Byte) : (s.writeSw a b).rx = s.rx := rfl
@[simp] theorem State.writeSw_tx (s : State) (a : Word) (b : Byte) : (s.writeSw a b).tx = s.tx := rfl
@[simp] theorem State.writeSw_ctl (s : State) (a : Word) (b : Byte) : (s.writeSw a b).ctl = s.ctl := rfl
@[simp] theorem State.writeSw_rxh (s : State) (a : Word) (b : Byte) : (s.writeSw a b).rxh = s.rxh := rfl
@[simp] theorem State.writeSw_txh (s : State) (a : Word) (b : Byte) : (s.writeSw a b).txh = s.txh := rfl
@[simp] theorem State.writeSw_rs (s : State) (a : Word) (b : Byte) : (s.writeSw a b).rs = s.rs := rfl
@[simp] theorem State.writeSw_sync (s : State) (a : Word) (b : Byte) : (s.writeSw a b).sync = s.sync := rfl
@[simp] theorem State.writeSw_stack (s : State) (a : Word) (b : Byte) : (s.writeSw a b).stack = s.stack := rfl
@[simp] theorem State.writeSw_out (s : State) (a : Word) (b : Byte) : (s.writeSw a b).out = s.out := rfl
@[simp] theorem State.writeSw_fault (s : State) (a : Word) (b : Byte) : (s.writeSw a b).fault = s.fault := rfl
@[simp] theorem State.writeSw_refused (s : State) (a : Word) (b : Byte) : (s.writeSw a b).refused = s.refused := rfl
@[simp] theorem State.writeSw_memHw (s : State) (a : Word) (b : Byte) : (s.writeSw a b).memHw = s.memHw := rfl
@[simp] theorem State.writeSw_cmdPort (s : State) (a : Word) (b : Byte) : (s.writeSw a b).cmdPort = s.cmdPort := rfl
@[simp] theorem State.writeSw_evtPort (s : State) (a : Word) (b : Byte) : (s.writeSw a b).evtPort = s.evtPort := rfl
@[simp] theorem State.writeSw_params (s : State) (a : Word) (b : Byte) : (s.writeSw a b).params = s.params := rfl
@[simp] theorem State.writeSw_lookup (s : State) (a : Word) (b : Byte) : (s.writeSw a b).lookup = s.lookup := rfl
@[simp] theorem State.writeSw_agenda (s : State) (a : Word) (b : Byte) : (s.writeSw a b).agenda = s.agenda := rfl
@[simp] theorem State.writeSw_draws (s : State) (a : Word) (b : Byte) : (s.writeSw a b).draws = s.draws := rfl
@[simp] theorem State.writeSw_hwLog (s : State) (a : Word) (b : Byte) : (s.writeSw a b).hwLog = s.hwLog := rfl
@[simp] theorem State.writeSw_txMarks (s : State) (a : Word) (b : Byte) : (s.writeSw a b).txMarks = s.txMarks := rfl
@[simp] theorem State.writeSw_rxFrameStart (s : State) (a : Word) (b : Byte) : (s.writeSw a b).rxFrameStart = s.rxFrameStart := rfl

/-! ### `writeDesc` -/

@[simp] theorem State.writeDesc_engState (s : State) (a w : Word) : (s.writeDesc a w).engState = s.engState := rfl
@[simp] theorem State.writeDesc_cfg (s : State) (a w : Word) : (s.writeDesc a w).cfg = s.cfg := rfl
@[simp] theorem State.writeDesc_cfgValid (s : State) (a w : Word) : (s.writeDesc a w).cfgValid = s.cfgValid := rfl
@[simp] theorem State.writeDesc_rx (s : State) (a w : Word) : (s.writeDesc a w).rx = s.rx := rfl
@[simp] theorem State.writeDesc_tx (s : State) (a w : Word) : (s.writeDesc a w).tx = s.tx := rfl
@[simp] theorem State.writeDesc_ctl (s : State) (a w : Word) : (s.writeDesc a w).ctl = s.ctl := rfl
@[simp] theorem State.writeDesc_rxh (s : State) (a w : Word) : (s.writeDesc a w).rxh = s.rxh := rfl
@[simp] theorem State.writeDesc_txh (s : State) (a w : Word) : (s.writeDesc a w).txh = s.txh := rfl
@[simp] theorem State.writeDesc_rs (s : State) (a w : Word) : (s.writeDesc a w).rs = s.rs := rfl
@[simp] theorem State.writeDesc_sync (s : State) (a w : Word) : (s.writeDesc a w).sync = s.sync := rfl
@[simp] theorem State.writeDesc_stack (s : State) (a w : Word) : (s.writeDesc a w).stack = s.stack := rfl
@[simp] theorem State.writeDesc_out (s : State) (a w : Word) : (s.writeDesc a w).out = s.out := rfl
@[simp] theorem State.writeDesc_fault (s : State) (a w : Word) : (s.writeDesc a w).fault = s.fault := rfl
@[simp] theorem State.writeDesc_refused (s : State) (a w : Word) : (s.writeDesc a w).refused = s.refused := rfl
@[simp] theorem State.writeDesc_cmdPort (s : State) (a w : Word) : (s.writeDesc a w).cmdPort = s.cmdPort := rfl
@[simp] theorem State.writeDesc_evtPort (s : State) (a w : Word) : (s.writeDesc a w).evtPort = s.evtPort := rfl
@[simp] theorem State.writeDesc_params (s : State) (a w : Word) : (s.writeDesc a w).params = s.params := rfl
@[simp] theorem State.writeDesc_lookup (s : State) (a w : Word) : (s.writeDesc a w).lookup = s.lookup := rfl
@[simp] theorem State.writeDesc_agenda (s : State) (a w : Word) : (s.writeDesc a w).agenda = s.agenda := rfl
@[simp] theorem State.writeDesc_draws (s : State) (a w : Word) : (s.writeDesc a w).draws = s.draws := rfl
@[simp] theorem State.writeDesc_txMarks (s : State) (a w : Word) : (s.writeDesc a w).txMarks = s.txMarks := rfl
@[simp] theorem State.writeDesc_rxFrameStart (s : State) (a w : Word) : (s.writeDesc a w).rxFrameStart = s.rxFrameStart := rfl

/-! ### `setField` -/

@[simp] theorem State.setField_engState (s : State) (x : Ring) (i : Nat) (f : BdField) (w : Word) : (s.setField x i f w).engState = s.engState := rfl
@[simp] theorem State.setField_cfg (s : State) (x : Ring) (i : Nat) (f : BdField) (w : Word) : (s.setField x i f w).cfg = s.cfg := rfl
@[simp] theorem State.setField_cfgValid (s : State) (x : Ring) (i : Nat) (f : BdField) (w : Word) : (s.setField x i f w).cfgValid = s.cfgValid := rfl
@[simp] theorem State.setField_rx (s : State) (x : Ring) (i : Nat) (f : BdField) (w : Word) : (s.setField x i f w).rx = s.rx := rfl
@[simp] theorem State.setField_tx (s : State) (x : Ring) (i : Nat) (f : BdField) (w : Word) : (s.setField x i f w).tx = s.tx := rfl
@[simp] theorem State.setField_ctl (s : State) (x : Ring) (i : Nat) (f : BdField) (w : Word) : (s.setField x i f w).ctl = s.ctl := rfl
@[simp] theorem State.setField_rxh (s : State) (x : Ring) (i : Nat) (f : BdField) (w : Word) : (s.setField x i f w).rxh = s.rxh := rfl
@[simp] theorem State.setField_txh (s : State) (x : Ring) (i : Nat) (f : BdField) (w : Word) : (s.setField x i f w).txh = s.txh := rfl
@[simp] theorem State.setField_rs (s : State) (x : Ring) (i : Nat) (f : BdField) (w : Word) : (s.setField x i f w).rs = s.rs := rfl
@[simp] theorem State.setField_sync (s : State) (x : Ring) (i : Nat) (f : BdField) (w : Word) : (s.setField x i f w).sync = s.sync := rfl
@[simp] theorem State.setField_stack (s : State) (x : Ring) (i : Nat) (f : BdField) (w : Word) : (s.setField x i f w).stack = s.stack := rfl
@[simp] theorem State.setField_out (s : State) (x : Ring) (i : Nat) (f : BdField) (w : Word) : (s.setField x i f w).out = s.out := rfl
@[simp] theorem State.setField_fault (s : State) (x : Ring) (i : Nat) (f : BdField) (w : Word) : (s.setField x i f w).fault = s.fault := rfl
@[simp] theorem State.setField_refused (s : State) (x : Ring) (i : Nat) (f : BdField) (w : Word) : (s.setField x i f w).refused = s.refused := rfl
@[simp] theorem State.setField_cmdPort (s : State) (x : Ring) (i : Nat) (f : BdField) (w : Word) : (s.setField x i f w).cmdPort = s.cmdPort := rfl
@[simp] theorem State.setField_evtPort (s : State) (x : Ring) (i : Nat) (f : BdField) (w : Word) : (s.setField x i f w).evtPort = s.evtPort := rfl
@[simp] theorem State.setField_params (s : State) (x : Ring) (i : Nat) (f : BdField) (w : Word) : (s.setField x i f w).params = s.params := rfl
@[simp] theorem State.setField_lookup (s : State) (x : Ring) (i : Nat) (f : BdField) (w : Word) : (s.setField x i f w).lookup = s.lookup := rfl
@[simp] theorem State.setField_agenda (s : State) (x : Ring) (i : Nat) (f : BdField) (w : Word) : (s.setField x i f w).agenda = s.agenda := rfl
@[simp] theorem State.setField_draws (s : State) (x : Ring) (i : Nat) (f : BdField) (w : Word) : (s.setField x i f w).draws = s.draws := rfl
@[simp] theorem State.setField_txMarks (s : State) (x : Ring) (i : Nat) (f : BdField) (w : Word) : (s.setField x i f w).txMarks = s.txMarks := rfl
@[simp] theorem State.setField_rxFrameStart (s : State) (x : Ring) (i : Nat) (f : BdField) (w : Word) : (s.setField x i f w).rxFrameStart = s.rxFrameStart := rfl

/-! ### `dropMarks` -/

@[simp] theorem State.dropMarks_engState (s : State) (x : Ring) : (s.dropMarks x).engState = s.engState := by cases x <;> rfl
@[simp] theorem State.dropMarks_cfg (s : State) (x : Ring) : (s.dropMarks x).cfg = s.cfg := by cases x <;> rfl
@[simp] theorem State.dropMarks_cfgValid (s : State) (x : Ring) : (s.dropMarks x).cfgValid = s.cfgValid := by cases x <;> rfl
@[simp] theorem State.dropMarks_rx (s : State) (x : Ring) : (s.dropMarks x).rx = s.rx := by cases x <;> rfl
@[simp] theorem State.dropMarks_tx (s : State) (x : Ring) : (s.dropMarks x).tx = s.tx := by cases x <;> rfl
@[simp] theorem State.dropMarks_ctl (s : State) (x : Ring) : (s.dropMarks x).ctl = s.ctl := by cases x <;> rfl
@[simp] theorem State.dropMarks_rxh (s : State) (x : Ring) : (s.dropMarks x).rxh = s.rxh := by cases x <;> rfl
@[simp] theorem State.dropMarks_txh (s : State) (x : Ring) : (s.dropMarks x).txh = s.txh := by cases x <;> rfl
@[simp] theorem State.dropMarks_rs (s : State) (x : Ring) : (s.dropMarks x).rs = s.rs := by cases x <;> rfl
@[simp] theorem State.dropMarks_sync (s : State) (x : Ring) : (s.dropMarks x).sync = s.sync := by cases x <;> rfl
@[simp] theorem State.dropMarks_stack (s : State) (x : Ring) : (s.dropMarks x).stack = s.stack := by cases x <;> rfl
@[simp] theorem State.dropMarks_out (s : State) (x : Ring) : (s.dropMarks x).out = s.out := by cases x <;> rfl
@[simp] theorem State.dropMarks_fault (s : State) (x : Ring) : (s.dropMarks x).fault = s.fault := by cases x <;> rfl
@[simp] theorem State.dropMarks_refused (s : State) (x : Ring) : (s.dropMarks x).refused = s.refused := by cases x <;> rfl
@[simp] theorem State.dropMarks_memSw (s : State) (x : Ring) : (s.dropMarks x).memSw = s.memSw := by cases x <;> rfl
@[simp] theorem State.dropMarks_memHw (s : State) (x : Ring) : (s.dropMarks x).memHw = s.memHw := by cases x <;> rfl
@[simp] theorem State.dropMarks_cmdPort (s : State) (x : Ring) : (s.dropMarks x).cmdPort = s.cmdPort := by cases x <;> rfl
@[simp] theorem State.dropMarks_evtPort (s : State) (x : Ring) : (s.dropMarks x).evtPort = s.evtPort := by cases x <;> rfl
@[simp] theorem State.dropMarks_params (s : State) (x : Ring) : (s.dropMarks x).params = s.params := by cases x <;> rfl
@[simp] theorem State.dropMarks_lookup (s : State) (x : Ring) : (s.dropMarks x).lookup = s.lookup := by cases x <;> rfl
@[simp] theorem State.dropMarks_agenda (s : State) (x : Ring) : (s.dropMarks x).agenda = s.agenda := by cases x <;> rfl
@[simp] theorem State.dropMarks_draws (s : State) (x : Ring) : (s.dropMarks x).draws = s.draws := by cases x <;> rfl
@[simp] theorem State.dropMarks_hwLog (s : State) (x : Ring) : (s.dropMarks x).hwLog = s.hwLog := by cases x <;> rfl
@[simp] theorem State.dropMarks_rxFrameStart (s : State) (x : Ring) : (s.dropMarks x).rxFrameStart = s.rxFrameStart := by cases x <;> rfl

/-! ### `addMarks` -/

@[simp] theorem State.addMarks_engState (s : State) (n : Nat) (x : Ring) : (s.addMarks n x).engState = s.engState := by cases x <;> rfl
@[simp] theorem State.addMarks_cfg (s : State) (n : Nat) (x : Ring) : (s.addMarks n x).cfg = s.cfg := by cases x <;> rfl
@[simp] theorem State.addMarks_cfgValid (s : State) (n : Nat) (x : Ring) : (s.addMarks n x).cfgValid = s.cfgValid := by cases x <;> rfl
@[simp] theorem State.addMarks_rx (s : State) (n : Nat) (x : Ring) : (s.addMarks n x).rx = s.rx := by cases x <;> rfl
@[simp] theorem State.addMarks_tx (s : State) (n : Nat) (x : Ring) : (s.addMarks n x).tx = s.tx := by cases x <;> rfl
@[simp] theorem State.addMarks_ctl (s : State) (n : Nat) (x : Ring) : (s.addMarks n x).ctl = s.ctl := by cases x <;> rfl
@[simp] theorem State.addMarks_rxh (s : State) (n : Nat) (x : Ring) : (s.addMarks n x).rxh = s.rxh := by cases x <;> rfl
@[simp] theorem State.addMarks_txh (s : State) (n : Nat) (x : Ring) : (s.addMarks n x).txh = s.txh := by cases x <;> rfl
@[simp] theorem State.addMarks_rs (s : State) (n : Nat) (x : Ring) : (s.addMarks n x).rs = s.rs := by cases x <;> rfl
@[simp] theorem State.addMarks_sync (s : State) (n : Nat) (x : Ring) : (s.addMarks n x).sync = s.sync := by cases x <;> rfl
@[simp] theorem State.addMarks_stack (s : State) (n : Nat) (x : Ring) : (s.addMarks n x).stack = s.stack := by cases x <;> rfl
@[simp] theorem State.addMarks_out (s : State) (n : Nat) (x : Ring) : (s.addMarks n x).out = s.out := by cases x <;> rfl
@[simp] theorem State.addMarks_fault (s : State) (n : Nat) (x : Ring) : (s.addMarks n x).fault = s.fault := by cases x <;> rfl
@[simp] theorem State.addMarks_refused (s : State) (n : Nat) (x : Ring) : (s.addMarks n x).refused = s.refused := by cases x <;> rfl
@[simp] theorem State.addMarks_memSw (s : State) (n : Nat) (x : Ring) : (s.addMarks n x).memSw = s.memSw := by cases x <;> rfl
@[simp] theorem State.addMarks_memHw (s : State) (n : Nat) (x : Ring) : (s.addMarks n x).memHw = s.memHw := by cases x <;> rfl
@[simp] theorem State.addMarks_cmdPort (s : State) (n : Nat) (x : Ring) : (s.addMarks n x).cmdPort = s.cmdPort := by cases x <;> rfl
@[simp] theorem State.addMarks_evtPort (s : State) (n : Nat) (x : Ring) : (s.addMarks n x).evtPort = s.evtPort := by cases x <;> rfl
@[simp] theorem State.addMarks_params (s : State) (n : Nat) (x : Ring) : (s.addMarks n x).params = s.params := by cases x <;> rfl
@[simp] theorem State.addMarks_lookup (s : State) (n : Nat) (x : Ring) : (s.addMarks n x).lookup = s.lookup := by cases x <;> rfl
@[simp] theorem State.addMarks_agenda (s : State) (n : Nat) (x : Ring) : (s.addMarks n x).agenda = s.agenda := by cases x <;> rfl
@[simp] theorem State.addMarks_draws (s : State) (n : Nat) (x : Ring) : (s.addMarks n x).draws = s.draws := by cases x <;> rfl
@[simp] theorem State.addMarks_hwLog (s : State) (n : Nat) (x : Ring) : (s.addMarks n x).hwLog = s.hwLog := by cases x <;> rfl
@[simp] theorem State.addMarks_rxFrameStart (s : State) (n : Nat) (x : Ring) : (s.addMarks n x).rxFrameStart = s.rxFrameStart := by cases x <;> rfl

/-! ### `beginFraming` -/

@[simp] theorem State.beginFraming_engState (s : State) (x : Ring) : (s.beginFraming x).engState = s.engState := by cases x; (simp only [State.beginFraming]; split <;> rfl); rfl
@[simp] theorem State.beginFraming_cfg (s : State) (x : Ring) : (s.beginFraming x).cfg = s.cfg := by cases x; (simp only [State.beginFraming]; split <;> rfl); rfl
@[simp] theorem State.beginFraming_cfgValid (s : State) (x : Ring) : (s.beginFraming x).cfgValid = s.cfgValid := by cases x; (simp only [State.beginFraming]; split <;> rfl); rfl
@[simp] theorem State.beginFraming_rx (s : State) (x : Ring) : (s.beginFraming x).rx = s.rx := by cases x; (simp only [State.beginFraming]; split <;> rfl); rfl
@[simp] theorem State.beginFraming_tx (s : State) (x : Ring) : (s.beginFraming x).tx = s.tx := by cases x; (simp only [State.beginFraming]; split <;> rfl); rfl
@[simp] theorem State.beginFraming_ctl (s : State) (x : Ring) : (s.beginFraming x).ctl = s.ctl := by cases x; (simp only [State.beginFraming]; split <;> rfl); rfl
@[simp] theorem State.beginFraming_rxh (s : State) (x : Ring) : (s.beginFraming x).rxh = s.rxh := by cases x; (simp only [State.beginFraming]; split <;> rfl); rfl
@[simp] theorem State.beginFraming_txh (s : State) (x : Ring) : (s.beginFraming x).txh = s.txh := by cases x; (simp only [State.beginFraming]; split <;> rfl); rfl
@[simp] theorem State.beginFraming_rs (s : State) (x : Ring) : (s.beginFraming x).rs = s.rs := by cases x; (simp only [State.beginFraming]; split <;> rfl); rfl
@[simp] theorem State.beginFraming_sync (s : State) (x : Ring) : (s.beginFraming x).sync = s.sync := by cases x; (simp only [State.beginFraming]; split <;> rfl); rfl
@[simp] theorem State.beginFraming_stack (s : State) (x : Ring) : (s.beginFraming x).stack = s.stack := by cases x; (simp only [State.beginFraming]; split <;> rfl); rfl
@[simp] theorem State.beginFraming_out (s : State) (x : Ring) : (s.beginFraming x).out = s.out := by cases x; (simp only [State.beginFraming]; split <;> rfl); rfl
@[simp] theorem State.beginFraming_fault (s : State) (x : Ring) : (s.beginFraming x).fault = s.fault := by cases x; (simp only [State.beginFraming]; split <;> rfl); rfl
@[simp] theorem State.beginFraming_refused (s : State) (x : Ring) : (s.beginFraming x).refused = s.refused := by cases x; (simp only [State.beginFraming]; split <;> rfl); rfl
@[simp] theorem State.beginFraming_memSw (s : State) (x : Ring) : (s.beginFraming x).memSw = s.memSw := by cases x; (simp only [State.beginFraming]; split <;> rfl); rfl
@[simp] theorem State.beginFraming_memHw (s : State) (x : Ring) : (s.beginFraming x).memHw = s.memHw := by cases x; (simp only [State.beginFraming]; split <;> rfl); rfl
@[simp] theorem State.beginFraming_cmdPort (s : State) (x : Ring) : (s.beginFraming x).cmdPort = s.cmdPort := by cases x; (simp only [State.beginFraming]; split <;> rfl); rfl
@[simp] theorem State.beginFraming_evtPort (s : State) (x : Ring) : (s.beginFraming x).evtPort = s.evtPort := by cases x; (simp only [State.beginFraming]; split <;> rfl); rfl
@[simp] theorem State.beginFraming_params (s : State) (x : Ring) : (s.beginFraming x).params = s.params := by cases x; (simp only [State.beginFraming]; split <;> rfl); rfl
@[simp] theorem State.beginFraming_lookup (s : State) (x : Ring) : (s.beginFraming x).lookup = s.lookup := by cases x; (simp only [State.beginFraming]; split <;> rfl); rfl
@[simp] theorem State.beginFraming_agenda (s : State) (x : Ring) : (s.beginFraming x).agenda = s.agenda := by cases x; (simp only [State.beginFraming]; split <;> rfl); rfl
@[simp] theorem State.beginFraming_draws (s : State) (x : Ring) : (s.beginFraming x).draws = s.draws := by cases x; (simp only [State.beginFraming]; split <;> rfl); rfl
@[simp] theorem State.beginFraming_hwLog (s : State) (x : Ring) : (s.beginFraming x).hwLog = s.hwLog := by cases x; (simp only [State.beginFraming]; split <;> rfl); rfl
@[simp] theorem State.beginFraming_txMarks (s : State) (x : Ring) : (s.beginFraming x).txMarks = s.txMarks := by cases x; (simp only [State.beginFraming]; split <;> rfl); rfl

/-! ### `goStep` -/

@[simp] theorem State.goStep_engState (s : State) (k : BitVec 8) : (s.goStep k).engState = s.engState := rfl
@[simp] theorem State.goStep_cfg (s : State) (k : BitVec 8) : (s.goStep k).cfg = s.cfg := rfl
@[simp] theorem State.goStep_cfgValid (s : State) (k : BitVec 8) : (s.goStep k).cfgValid = s.cfgValid := rfl
@[simp] theorem State.goStep_rx (s : State) (k : BitVec 8) : (s.goStep k).rx = s.rx := rfl
@[simp] theorem State.goStep_tx (s : State) (k : BitVec 8) : (s.goStep k).tx = s.tx := rfl
@[simp] theorem State.goStep_ctl (s : State) (k : BitVec 8) : (s.goStep k).ctl = s.ctl := rfl
@[simp] theorem State.goStep_rxh (s : State) (k : BitVec 8) : (s.goStep k).rxh = s.rxh := rfl
@[simp] theorem State.goStep_txh (s : State) (k : BitVec 8) : (s.goStep k).txh = s.txh := rfl
@[simp] theorem State.goStep_rs (s : State) (k : BitVec 8) : (s.goStep k).rs = s.rs := rfl
@[simp] theorem State.goStep_stack (s : State) (k : BitVec 8) : (s.goStep k).stack = s.stack := rfl
@[simp] theorem State.goStep_out (s : State) (k : BitVec 8) : (s.goStep k).out = s.out := rfl
@[simp] theorem State.goStep_fault (s : State) (k : BitVec 8) : (s.goStep k).fault = s.fault := rfl
@[simp] theorem State.goStep_refused (s : State) (k : BitVec 8) : (s.goStep k).refused = s.refused := rfl
@[simp] theorem State.goStep_memSw (s : State) (k : BitVec 8) : (s.goStep k).memSw = s.memSw := rfl
@[simp] theorem State.goStep_memHw (s : State) (k : BitVec 8) : (s.goStep k).memHw = s.memHw := rfl
@[simp] theorem State.goStep_cmdPort (s : State) (k : BitVec 8) : (s.goStep k).cmdPort = s.cmdPort := rfl
@[simp] theorem State.goStep_evtPort (s : State) (k : BitVec 8) : (s.goStep k).evtPort = s.evtPort := rfl
@[simp] theorem State.goStep_params (s : State) (k : BitVec 8) : (s.goStep k).params = s.params := rfl
@[simp] theorem State.goStep_lookup (s : State) (k : BitVec 8) : (s.goStep k).lookup = s.lookup := rfl
@[simp] theorem State.goStep_agenda (s : State) (k : BitVec 8) : (s.goStep k).agenda = s.agenda := rfl
@[simp] theorem State.goStep_draws (s : State) (k : BitVec 8) : (s.goStep k).draws = s.draws := rfl
@[simp] theorem State.goStep_hwLog (s : State) (k : BitVec 8) : (s.goStep k).hwLog = s.hwLog := rfl
@[simp] theorem State.goStep_txMarks (s : State) (k : BitVec 8) : (s.goStep k).txMarks = s.txMarks := rfl
@[simp] theorem State.goStep_rxFrameStart (s : State) (k : BitVec 8) : (s.goStep k).rxFrameStart = s.rxFrameStart := rfl

/-! ### `setBusy` -/

@[simp] theorem State.setBusy_engState (s : State) (b : Option Ring) : (s.setBusy b).engState = s.engState := rfl
@[simp] theorem State.setBusy_cfg (s : State) (b : Option Ring) : (s.setBusy b).cfg = s.cfg := rfl
@[simp] theorem State.setBusy_cfgValid (s : State) (b : Option Ring) : (s.setBusy b).cfgValid = s.cfgValid := rfl
@[simp] theorem State.setBusy_rx (s : State) (b : Option Ring) : (s.setBusy b).rx = s.rx := rfl
@[simp] theorem State.setBusy_tx (s : State) (b : Option Ring) : (s.setBusy b).tx = s.tx := rfl
@[simp] theorem State.setBusy_ctl (s : State) (b : Option Ring) : (s.setBusy b).ctl = s.ctl := rfl
@[simp] theorem State.setBusy_rxh (s : State) (b : Option Ring) : (s.setBusy b).rxh = s.rxh := rfl
@[simp] theorem State.setBusy_txh (s : State) (b : Option Ring) : (s.setBusy b).txh = s.txh := rfl
@[simp] theorem State.setBusy_rs (s : State) (b : Option Ring) : (s.setBusy b).rs = s.rs := rfl
@[simp] theorem State.setBusy_stack (s : State) (b : Option Ring) : (s.setBusy b).stack = s.stack := rfl
@[simp] theorem State.setBusy_out (s : State) (b : Option Ring) : (s.setBusy b).out = s.out := rfl
@[simp] theorem State.setBusy_fault (s : State) (b : Option Ring) : (s.setBusy b).fault = s.fault := rfl
@[simp] theorem State.setBusy_refused (s : State) (b : Option Ring) : (s.setBusy b).refused = s.refused := rfl
@[simp] theorem State.setBusy_memSw (s : State) (b : Option Ring) : (s.setBusy b).memSw = s.memSw := rfl
@[simp] theorem State.setBusy_memHw (s : State) (b : Option Ring) : (s.setBusy b).memHw = s.memHw := rfl
@[simp] theorem State.setBusy_cmdPort (s : State) (b : Option Ring) : (s.setBusy b).cmdPort = s.cmdPort := rfl
@[simp] theorem State.setBusy_evtPort (s : State) (b : Option Ring) : (s.setBusy b).evtPort = s.evtPort := rfl
@[simp] theorem State.setBusy_params (s : State) (b : Option Ring) : (s.setBusy b).params = s.params := rfl
@[simp] theorem State.setBusy_lookup (s : State) (b : Option Ring) : (s.setBusy b).lookup = s.lookup := rfl
@[simp] theorem State.setBusy_agenda (s : State) (b : Option Ring) : (s.setBusy b).agenda = s.agenda := rfl
@[simp] theorem State.setBusy_draws (s : State) (b : Option Ring) : (s.setBusy b).draws = s.draws := rfl
@[simp] theorem State.setBusy_hwLog (s : State) (b : Option Ring) : (s.setBusy b).hwLog = s.hwLog := rfl
@[simp] theorem State.setBusy_txMarks (s : State) (b : Option Ring) : (s.setBusy b).txMarks = s.txMarks := rfl
@[simp] theorem State.setBusy_rxFrameStart (s : State) (b : Option Ring) : (s.setBusy b).rxFrameStart = s.rxFrameStart := rfl

/-! ### `acceptPrimitive` -/

@[simp] theorem State.acceptPrimitive_engState (s : State) (i : Instr) : (s.acceptPrimitive i).engState = s.engState := rfl
@[simp] theorem State.acceptPrimitive_cfg (s : State) (i : Instr) : (s.acceptPrimitive i).cfg = s.cfg := rfl
@[simp] theorem State.acceptPrimitive_cfgValid (s : State) (i : Instr) : (s.acceptPrimitive i).cfgValid = s.cfgValid := rfl
@[simp] theorem State.acceptPrimitive_rx (s : State) (i : Instr) : (s.acceptPrimitive i).rx = s.rx := rfl
@[simp] theorem State.acceptPrimitive_tx (s : State) (i : Instr) : (s.acceptPrimitive i).tx = s.tx := rfl
@[simp] theorem State.acceptPrimitive_ctl (s : State) (i : Instr) : (s.acceptPrimitive i).ctl = s.ctl := rfl
@[simp] theorem State.acceptPrimitive_rxh (s : State) (i : Instr) : (s.acceptPrimitive i).rxh = s.rxh := rfl
@[simp] theorem State.acceptPrimitive_txh (s : State) (i : Instr) : (s.acceptPrimitive i).txh = s.txh := rfl
@[simp] theorem State.acceptPrimitive_rs (s : State) (i : Instr) : (s.acceptPrimitive i).rs = s.rs := rfl
@[simp] theorem State.acceptPrimitive_out (s : State) (i : Instr) : (s.acceptPrimitive i).out = s.out := rfl
@[simp] theorem State.acceptPrimitive_fault (s : State) (i : Instr) : (s.acceptPrimitive i).fault = s.fault := rfl
@[simp] theorem State.acceptPrimitive_refused (s : State) (i : Instr) : (s.acceptPrimitive i).refused = s.refused := rfl
@[simp] theorem State.acceptPrimitive_memSw (s : State) (i : Instr) : (s.acceptPrimitive i).memSw = s.memSw := rfl
@[simp] theorem State.acceptPrimitive_memHw (s : State) (i : Instr) : (s.acceptPrimitive i).memHw = s.memHw := rfl
@[simp] theorem State.acceptPrimitive_cmdPort (s : State) (i : Instr) : (s.acceptPrimitive i).cmdPort = s.cmdPort := rfl
@[simp] theorem State.acceptPrimitive_evtPort (s : State) (i : Instr) : (s.acceptPrimitive i).evtPort = s.evtPort := rfl
@[simp] theorem State.acceptPrimitive_params (s : State) (i : Instr) : (s.acceptPrimitive i).params = s.params := rfl
@[simp] theorem State.acceptPrimitive_lookup (s : State) (i : Instr) : (s.acceptPrimitive i).lookup = s.lookup := rfl
@[simp] theorem State.acceptPrimitive_agenda (s : State) (i : Instr) : (s.acceptPrimitive i).agenda = s.agenda := rfl
@[simp] theorem State.acceptPrimitive_draws (s : State) (i : Instr) : (s.acceptPrimitive i).draws = s.draws := rfl
@[simp] theorem State.acceptPrimitive_hwLog (s : State) (i : Instr) : (s.acceptPrimitive i).hwLog = s.hwLog := rfl
@[simp] theorem State.acceptPrimitive_txMarks (s : State) (i : Instr) : (s.acceptPrimitive i).txMarks = s.txMarks := rfl
@[simp] theorem State.acceptPrimitive_rxFrameStart (s : State) (i : Instr) : (s.acceptPrimitive i).rxFrameStart = s.rxFrameStart := rfl

/-! ### `endSync` -/

@[simp] theorem State.endSync_engState (s : State) : (s.endSync).engState = s.engState := rfl
@[simp] theorem State.endSync_cfg (s : State) : (s.endSync).cfg = s.cfg := rfl
@[simp] theorem State.endSync_cfgValid (s : State) : (s.endSync).cfgValid = s.cfgValid := rfl
@[simp] theorem State.endSync_rx (s : State) : (s.endSync).rx = s.rx := rfl
@[simp] theorem State.endSync_tx (s : State) : (s.endSync).tx = s.tx := rfl
@[simp] theorem State.endSync_ctl (s : State) : (s.endSync).ctl = s.ctl := rfl
@[simp] theorem State.endSync_rxh (s : State) : (s.endSync).rxh = s.rxh := rfl
@[simp] theorem State.endSync_txh (s : State) : (s.endSync).txh = s.txh := rfl
@[simp] theorem State.endSync_rs (s : State) : (s.endSync).rs = s.rs := rfl
@[simp] theorem State.endSync_out (s : State) : (s.endSync).out = s.out := rfl
@[simp] theorem State.endSync_fault (s : State) : (s.endSync).fault = s.fault := rfl
@[simp] theorem State.endSync_refused (s : State) : (s.endSync).refused = s.refused := rfl
@[simp] theorem State.endSync_memSw (s : State) : (s.endSync).memSw = s.memSw := rfl
@[simp] theorem State.endSync_memHw (s : State) : (s.endSync).memHw = s.memHw := rfl
@[simp] theorem State.endSync_cmdPort (s : State) : (s.endSync).cmdPort = s.cmdPort := rfl
@[simp] theorem State.endSync_evtPort (s : State) : (s.endSync).evtPort = s.evtPort := rfl
@[simp] theorem State.endSync_params (s : State) : (s.endSync).params = s.params := rfl
@[simp] theorem State.endSync_lookup (s : State) : (s.endSync).lookup = s.lookup := rfl
@[simp] theorem State.endSync_agenda (s : State) : (s.endSync).agenda = s.agenda := rfl
@[simp] theorem State.endSync_draws (s : State) : (s.endSync).draws = s.draws := rfl
@[simp] theorem State.endSync_hwLog (s : State) : (s.endSync).hwLog = s.hwLog := rfl
@[simp] theorem State.endSync_txMarks (s : State) : (s.endSync).txMarks = s.txMarks := rfl
@[simp] theorem State.endSync_rxFrameStart (s : State) : (s.endSync).rxFrameStart = s.rxFrameStart := rfl

/-! ### `rxPhase` -/

@[simp] theorem State.rxPhase_engState (s : State) (p : RxPhase) : (s.rxPhase p).engState = s.engState := rfl
@[simp] theorem State.rxPhase_cfg (s : State) (p : RxPhase) : (s.rxPhase p).cfg = s.cfg := rfl
@[simp] theorem State.rxPhase_cfgValid (s : State) (p : RxPhase) : (s.rxPhase p).cfgValid = s.cfgValid := rfl
@[simp] theorem State.rxPhase_rx (s : State) (p : RxPhase) : (s.rxPhase p).rx = s.rx := rfl
@[simp] theorem State.rxPhase_tx (s : State) (p : RxPhase) : (s.rxPhase p).tx = s.tx := rfl
@[simp] theorem State.rxPhase_ctl (s : State) (p : RxPhase) : (s.rxPhase p).ctl = s.ctl := rfl
@[simp] theorem State.rxPhase_txh (s : State) (p : RxPhase) : (s.rxPhase p).txh = s.txh := rfl
@[simp] theorem State.rxPhase_rs (s : State) (p : RxPhase) : (s.rxPhase p).rs = s.rs := rfl
@[simp] theorem State.rxPhase_sync (s : State) (p : RxPhase) : (s.rxPhase p).sync = s.sync := rfl
@[simp] theorem State.rxPhase_stack (s : State) (p : RxPhase) : (s.rxPhase p).stack = s.stack := rfl
@[simp] theorem State.rxPhase_out (s : State) (p : RxPhase) : (s.rxPhase p).out = s.out := rfl
@[simp] theorem State.rxPhase_fault (s : State) (p : RxPhase) : (s.rxPhase p).fault = s.fault := rfl
@[simp] theorem State.rxPhase_refused (s : State) (p : RxPhase) : (s.rxPhase p).refused = s.refused := rfl
@[simp] theorem State.rxPhase_memSw (s : State) (p : RxPhase) : (s.rxPhase p).memSw = s.memSw := rfl
@[simp] theorem State.rxPhase_memHw (s : State) (p : RxPhase) : (s.rxPhase p).memHw = s.memHw := rfl
@[simp] theorem State.rxPhase_cmdPort (s : State) (p : RxPhase) : (s.rxPhase p).cmdPort = s.cmdPort := rfl
@[simp] theorem State.rxPhase_evtPort (s : State) (p : RxPhase) : (s.rxPhase p).evtPort = s.evtPort := rfl
@[simp] theorem State.rxPhase_params (s : State) (p : RxPhase) : (s.rxPhase p).params = s.params := rfl
@[simp] theorem State.rxPhase_lookup (s : State) (p : RxPhase) : (s.rxPhase p).lookup = s.lookup := rfl
@[simp] theorem State.rxPhase_agenda (s : State) (p : RxPhase) : (s.rxPhase p).agenda = s.agenda := rfl
@[simp] theorem State.rxPhase_draws (s : State) (p : RxPhase) : (s.rxPhase p).draws = s.draws := rfl
@[simp] theorem State.rxPhase_hwLog (s : State) (p : RxPhase) : (s.rxPhase p).hwLog = s.hwLog := rfl
@[simp] theorem State.rxPhase_txMarks (s : State) (p : RxPhase) : (s.rxPhase p).txMarks = s.txMarks := rfl
@[simp] theorem State.rxPhase_rxFrameStart (s : State) (p : RxPhase) : (s.rxPhase p).rxFrameStart = s.rxFrameStart := rfl

/-! ### `noteTimeout` -/

@[simp] theorem State.noteTimeout_engState (s : State) : (s.noteTimeout).engState = s.engState := by simp only [State.noteTimeout]; split <;> rfl
@[simp] theorem State.noteTimeout_cfg (s : State) : (s.noteTimeout).cfg = s.cfg := by simp only [State.noteTimeout]; split <;> rfl
@[simp] theorem State.noteTimeout_cfgValid (s : State) : (s.noteTimeout).cfgValid = s.cfgValid := by simp only [State.noteTimeout]; split <;> rfl
@[simp] theorem State.noteTimeout_rx (s : State) : (s.noteTimeout).rx = s.rx := by simp only [State.noteTimeout]; split <;> rfl
@[simp] theorem State.noteTimeout_tx (s : State) : (s.noteTimeout).tx = s.tx := by simp only [State.noteTimeout]; split <;> rfl
@[simp] theorem State.noteTimeout_rxh (s : State) : (s.noteTimeout).rxh = s.rxh := by simp only [State.noteTimeout]; split <;> rfl
@[simp] theorem State.noteTimeout_txh (s : State) : (s.noteTimeout).txh = s.txh := by simp only [State.noteTimeout]; split <;> rfl
@[simp] theorem State.noteTimeout_rs (s : State) : (s.noteTimeout).rs = s.rs := by simp only [State.noteTimeout]; split <;> rfl
@[simp] theorem State.noteTimeout_sync (s : State) : (s.noteTimeout).sync = s.sync := by simp only [State.noteTimeout]; split <;> rfl
@[simp] theorem State.noteTimeout_stack (s : State) : (s.noteTimeout).stack = s.stack := by simp only [State.noteTimeout]; split <;> rfl
@[simp] theorem State.noteTimeout_out (s : State) : (s.noteTimeout).out = s.out := by simp only [State.noteTimeout]; split <;> rfl
@[simp] theorem State.noteTimeout_fault (s : State) : (s.noteTimeout).fault = s.fault := by simp only [State.noteTimeout]; split <;> rfl
@[simp] theorem State.noteTimeout_refused (s : State) : (s.noteTimeout).refused = s.refused := by simp only [State.noteTimeout]; split <;> rfl
@[simp] theorem State.noteTimeout_memSw (s : State) : (s.noteTimeout).memSw = s.memSw := by simp only [State.noteTimeout]; split <;> rfl
@[simp] theorem State.noteTimeout_memHw (s : State) : (s.noteTimeout).memHw = s.memHw := by simp only [State.noteTimeout]; split <;> rfl
@[simp] theorem State.noteTimeout_cmdPort (s : State) : (s.noteTimeout).cmdPort = s.cmdPort := by simp only [State.noteTimeout]; split <;> rfl
@[simp] theorem State.noteTimeout_evtPort (s : State) : (s.noteTimeout).evtPort = s.evtPort := by simp only [State.noteTimeout]; split <;> rfl
@[simp] theorem State.noteTimeout_params (s : State) : (s.noteTimeout).params = s.params := by simp only [State.noteTimeout]; split <;> rfl
@[simp] theorem State.noteTimeout_lookup (s : State) : (s.noteTimeout).lookup = s.lookup := by simp only [State.noteTimeout]; split <;> rfl
@[simp] theorem State.noteTimeout_agenda (s : State) : (s.noteTimeout).agenda = s.agenda := by simp only [State.noteTimeout]; split <;> rfl
@[simp] theorem State.noteTimeout_draws (s : State) : (s.noteTimeout).draws = s.draws := by simp only [State.noteTimeout]; split <;> rfl
@[simp] theorem State.noteTimeout_hwLog (s : State) : (s.noteTimeout).hwLog = s.hwLog := by simp only [State.noteTimeout]; split <;> rfl
@[simp] theorem State.noteTimeout_txMarks (s : State) : (s.noteTimeout).txMarks = s.txMarks := by simp only [State.noteTimeout]; split <;> rfl
@[simp] theorem State.noteTimeout_rxFrameStart (s : State) : (s.noteTimeout).rxFrameStart = s.rxFrameStart := by simp only [State.noteTimeout]; split <;> rfl

/-! ### `popAgenda` -/

@[simp] theorem State.popAgenda_engState (s : State) : (s.popAgenda).engState = s.engState := rfl
@[simp] theorem State.popAgenda_cfg (s : State) : (s.popAgenda).cfg = s.cfg := rfl
@[simp] theorem State.popAgenda_cfgValid (s : State) : (s.popAgenda).cfgValid = s.cfgValid := rfl
@[simp] theorem State.popAgenda_rx (s : State) : (s.popAgenda).rx = s.rx := rfl
@[simp] theorem State.popAgenda_tx (s : State) : (s.popAgenda).tx = s.tx := rfl
@[simp] theorem State.popAgenda_ctl (s : State) : (s.popAgenda).ctl = s.ctl := rfl
@[simp] theorem State.popAgenda_rxh (s : State) : (s.popAgenda).rxh = s.rxh := rfl
@[simp] theorem State.popAgenda_txh (s : State) : (s.popAgenda).txh = s.txh := rfl
@[simp] theorem State.popAgenda_rs (s : State) : (s.popAgenda).rs = s.rs := rfl
@[simp] theorem State.popAgenda_sync (s : State) : (s.popAgenda).sync = s.sync := rfl
@[simp] theorem State.popAgenda_stack (s : State) : (s.popAgenda).stack = s.stack := rfl
@[simp] theorem State.popAgenda_out (s : State) : (s.popAgenda).out = s.out := rfl
@[simp] theorem State.popAgenda_fault (s : State) : (s.popAgenda).fault = s.fault := rfl
@[simp] theorem State.popAgenda_refused (s : State) : (s.popAgenda).refused = s.refused := rfl
@[simp] theorem State.popAgenda_memSw (s : State) : (s.popAgenda).memSw = s.memSw := rfl
@[simp] theorem State.popAgenda_memHw (s : State) : (s.popAgenda).memHw = s.memHw := rfl
@[simp] theorem State.popAgenda_cmdPort (s : State) : (s.popAgenda).cmdPort = s.cmdPort := rfl
@[simp] theorem State.popAgenda_evtPort (s : State) : (s.popAgenda).evtPort = s.evtPort := rfl
@[simp] theorem State.popAgenda_params (s : State) : (s.popAgenda).params = s.params := rfl
@[simp] theorem State.popAgenda_lookup (s : State) : (s.popAgenda).lookup = s.lookup := rfl
@[simp] theorem State.popAgenda_draws (s : State) : (s.popAgenda).draws = s.draws := rfl
@[simp] theorem State.popAgenda_hwLog (s : State) : (s.popAgenda).hwLog = s.hwLog := rfl
@[simp] theorem State.popAgenda_txMarks (s : State) : (s.popAgenda).txMarks = s.txMarks := rfl
@[simp] theorem State.popAgenda_rxFrameStart (s : State) : (s.popAgenda).rxFrameStart = s.rxFrameStart := rfl

/-! ### `poke` -/

@[simp] theorem State.poke_engState (s : State) (v : View) (a : Word) (b : Byte) : (s.poke v a b).engState = s.engState := by unfold State.poke; split <;> cases v <;> rfl
@[simp] theorem State.poke_cfg (s : State) (v : View) (a : Word) (b : Byte) : (s.poke v a b).cfg = s.cfg := by unfold State.poke; split <;> cases v <;> rfl
@[simp] theorem State.poke_cfgValid (s : State) (v : View) (a : Word) (b : Byte) : (s.poke v a b).cfgValid = s.cfgValid := by unfold State.poke; split <;> cases v <;> rfl
@[simp] theorem State.poke_rx (s : State) (v : View) (a : Word) (b : Byte) : (s.poke v a b).rx = s.rx := by unfold State.poke; split <;> cases v <;> rfl
@[simp] theorem State.poke_tx (s : State) (v : View) (a : Word) (b : Byte) : (s.poke v a b).tx = s.tx := by unfold State.poke; split <;> cases v <;> rfl
@[simp] theorem State.poke_ctl (s : State) (v : View) (a : Word) (b : Byte) : (s.poke v a b).ctl = s.ctl := by unfold State.poke; split <;> cases v <;> rfl
@[simp] theorem State.poke_rxh (s : State) (v : View) (a : Word) (b : Byte) : (s.poke v a b).rxh = s.rxh := by unfold State.poke; split <;> cases v <;> rfl
@[simp] theorem State.poke_txh (s : State) (v : View) (a : Word) (b : Byte) : (s.poke v a b).txh = s.txh := by unfold State.poke; split <;> cases v <;> rfl
@[simp] theorem State.poke_rs (s : State) (v : View) (a : Word) (b : Byte) : (s.poke v a b).rs = s.rs := by unfold State.poke; split <;> cases v <;> rfl
@[simp] theorem State.poke_sync (s : State) (v : View) (a : Word) (b : Byte) : (s.poke v a b).sync = s.sync := by unfold State.poke; split <;> cases v <;> rfl
@[simp] theorem State.poke_stack (s : State) (v : View) (a : Word) (b : Byte) : (s.poke v a b).stack = s.stack := by unfold State.poke; split <;> cases v <;> rfl
@[simp] theorem State.poke_out (s : State) (v : View) (a : Word) (b : Byte) : (s.poke v a b).out = s.out := by unfold State.poke; split <;> cases v <;> rfl
@[simp] theorem State.poke_fault (s : State) (v : View) (a : Word) (b : Byte) : (s.poke v a b).fault = s.fault := by unfold State.poke; split <;> cases v <;> rfl
@[simp] theorem State.poke_refused (s : State) (v : View) (a : Word) (b : Byte) : (s.poke v a b).refused = s.refused := by unfold State.poke; split <;> cases v <;> rfl
@[simp] theorem State.poke_cmdPort (s : State) (v : View) (a : Word) (b : Byte) : (s.poke v a b).cmdPort = s.cmdPort := by unfold State.poke; split <;> cases v <;> rfl
@[simp] theorem State.poke_evtPort (s : State) (v : View) (a : Word) (b : Byte) : (s.poke v a b).evtPort = s.evtPort := by unfold State.poke; split <;> cases v <;> rfl
@[simp] theorem State.poke_params (s : State) (v : View) (a : Word) (b : Byte) : (s.poke v a b).params = s.params := by unfold State.poke; split <;> cases v <;> rfl
@[simp] theorem State.poke_lookup (s : State) (v : View) (a : Word) (b : Byte) : (s.poke v a b).lookup = s.lookup := by unfold State.poke; split <;> cases v <;> rfl
@[simp] theorem State.poke_agenda (s : State) (v : View) (a : Word) (b : Byte) : (s.poke v a b).agenda = s.agenda := by unfold State.poke; split <;> cases v <;> rfl
@[simp] theorem State.poke_draws (s : State) (v : View) (a : Word) (b : Byte) : (s.poke v a b).draws = s.draws := by unfold State.poke; split <;> cases v <;> rfl
@[simp] theorem State.poke_txMarks (s : State) (v : View) (a : Word) (b : Byte) : (s.poke v a b).txMarks = s.txMarks := by unfold State.poke; split <;> cases v <;> rfl
@[simp] theorem State.poke_rxFrameStart (s : State) (v : View) (a : Word) (b : Byte) : (s.poke v a b).rxFrameStart = s.rxFrameStart := by unfold State.poke; split <;> cases v <;> rfl

/-! ### `initReassembly` -/

@[simp] theorem State.initReassembly_engState (s : State) : (s.initReassembly).engState = s.engState := by unfold State.initReassembly; split; rfl; split <;> rfl
@[simp] theorem State.initReassembly_cfg (s : State) : (s.initReassembly).cfg = s.cfg := by unfold State.initReassembly; split; rfl; split <;> rfl
@[simp] theorem State.initReassembly_cfgValid (s : State) : (s.initReassembly).cfgValid = s.cfgValid := by unfold State.initReassembly; split; rfl; split <;> rfl
@[simp] theorem State.initReassembly_rx (s : State) : (s.initReassembly).rx = s.rx := by unfold State.initReassembly; split; rfl; split <;> rfl
@[simp] theorem State.initReassembly_tx (s : State) : (s.initReassembly).tx = s.tx := by unfold State.initReassembly; split; rfl; split <;> rfl
@[simp] theorem State.initReassembly_ctl (s : State) : (s.initReassembly).ctl = s.ctl := by unfold State.initReassembly; split; rfl; split <;> rfl
@[simp] theorem State.initReassembly_rxh (s : State) : (s.initReassembly).rxh = s.rxh := by unfold State.initReassembly; split; rfl; split <;> rfl
@[simp] theorem State.initReassembly_txh (s : State) : (s.initReassembly).txh = s.txh := by unfold State.initReassembly; split; rfl; split <;> rfl
@[simp] theorem State.initReassembly_sync (s : State) : (s.initReassembly).sync = s.sync := by unfold State.initReassembly; split; rfl; split <;> rfl
@[simp] theorem State.initReassembly_stack (s : State) : (s.initReassembly).stack = s.stack := by unfold State.initReassembly; split; rfl; split <;> rfl
@[simp] theorem State.initReassembly_out (s : State) : (s.initReassembly).out = s.out := by unfold State.initReassembly; split; rfl; split <;> rfl
@[simp] theorem State.initReassembly_fault (s : State) : (s.initReassembly).fault = s.fault := by unfold State.initReassembly; split; rfl; split <;> rfl
@[simp] theorem State.initReassembly_refused (s : State) : (s.initReassembly).refused = s.refused := by unfold State.initReassembly; split; rfl; split <;> rfl
@[simp] theorem State.initReassembly_memSw (s : State) : (s.initReassembly).memSw = s.memSw := by unfold State.initReassembly; split; rfl; split <;> rfl
@[simp] theorem State.initReassembly_memHw (s : State) : (s.initReassembly).memHw = s.memHw := by unfold State.initReassembly; split; rfl; split <;> rfl
@[simp] theorem State.initReassembly_cmdPort (s : State) : (s.initReassembly).cmdPort = s.cmdPort := by unfold State.initReassembly; split; rfl; split <;> rfl
@[simp] theorem State.initReassembly_evtPort (s : State) : (s.initReassembly).evtPort = s.evtPort := by unfold State.initReassembly; split; rfl; split <;> rfl
@[simp] theorem State.initReassembly_params (s : State) : (s.initReassembly).params = s.params := by unfold State.initReassembly; split; rfl; split <;> rfl
@[simp] theorem State.initReassembly_lookup (s : State) : (s.initReassembly).lookup = s.lookup := by unfold State.initReassembly; split; rfl; split <;> rfl
@[simp] theorem State.initReassembly_agenda (s : State) : (s.initReassembly).agenda = s.agenda := by unfold State.initReassembly; split; rfl; split <;> rfl
@[simp] theorem State.initReassembly_hwLog (s : State) : (s.initReassembly).hwLog = s.hwLog := by unfold State.initReassembly; split; rfl; split <;> rfl
@[simp] theorem State.initReassembly_txMarks (s : State) : (s.initReassembly).txMarks = s.txMarks := by unfold State.initReassembly; split; rfl; split <;> rfl
@[simp] theorem State.initReassembly_rxFrameStart (s : State) : (s.initReassembly).rxFrameStart = s.rxFrameStart := by unfold State.initReassembly; split; rfl; split <;> rfl

/-! ### `leaveHandler` -/

@[simp] theorem State.leaveHandler_engState (s : State) (x : Ring) : (s.leaveHandler x).engState = s.engState := by cases x <;> rfl
@[simp] theorem State.leaveHandler_cfg (s : State) (x : Ring) : (s.leaveHandler x).cfg = s.cfg := by cases x <;> rfl
@[simp] theorem State.leaveHandler_cfgValid (s : State) (x : Ring) : (s.leaveHandler x).cfgValid = s.cfgValid := by cases x <;> rfl
@[simp] theorem State.leaveHandler_rx (s : State) (x : Ring) : (s.leaveHandler x).rx = s.rx := by cases x <;> rfl
@[simp] theorem State.leaveHandler_tx (s : State) (x : Ring) : (s.leaveHandler x).tx = s.tx := by cases x <;> rfl
@[simp] theorem State.leaveHandler_ctl (s : State) (x : Ring) : (s.leaveHandler x).ctl = s.ctl := by cases x <;> rfl
@[simp] theorem State.leaveHandler_rs (s : State) (x : Ring) : (s.leaveHandler x).rs = s.rs := by cases x <;> rfl
@[simp] theorem State.leaveHandler_sync (s : State) (x : Ring) : (s.leaveHandler x).sync = s.sync := by cases x <;> rfl
@[simp] theorem State.leaveHandler_out (s : State) (x : Ring) : (s.leaveHandler x).out = s.out := by cases x <;> rfl
@[simp] theorem State.leaveHandler_fault (s : State) (x : Ring) : (s.leaveHandler x).fault = s.fault := by cases x <;> rfl
@[simp] theorem State.leaveHandler_refused (s : State) (x : Ring) : (s.leaveHandler x).refused = s.refused := by cases x <;> rfl
@[simp] theorem State.leaveHandler_memSw (s : State) (x : Ring) : (s.leaveHandler x).memSw = s.memSw := by cases x <;> rfl
@[simp] theorem State.leaveHandler_memHw (s : State) (x : Ring) : (s.leaveHandler x).memHw = s.memHw := by cases x <;> rfl
@[simp] theorem State.leaveHandler_cmdPort (s : State) (x : Ring) : (s.leaveHandler x).cmdPort = s.cmdPort := by cases x <;> rfl
@[simp] theorem State.leaveHandler_evtPort (s : State) (x : Ring) : (s.leaveHandler x).evtPort = s.evtPort := by cases x <;> rfl
@[simp] theorem State.leaveHandler_params (s : State) (x : Ring) : (s.leaveHandler x).params = s.params := by cases x <;> rfl
@[simp] theorem State.leaveHandler_lookup (s : State) (x : Ring) : (s.leaveHandler x).lookup = s.lookup := by cases x <;> rfl
@[simp] theorem State.leaveHandler_agenda (s : State) (x : Ring) : (s.leaveHandler x).agenda = s.agenda := by cases x <;> rfl
@[simp] theorem State.leaveHandler_draws (s : State) (x : Ring) : (s.leaveHandler x).draws = s.draws := by cases x <;> rfl
@[simp] theorem State.leaveHandler_hwLog (s : State) (x : Ring) : (s.leaveHandler x).hwLog = s.hwLog := by cases x <;> rfl
@[simp] theorem State.leaveHandler_txMarks (s : State) (x : Ring) : (s.leaveHandler x).txMarks = s.txMarks := by cases x <;> rfl
@[simp] theorem State.leaveHandler_rxFrameStart (s : State) (x : Ring) : (s.leaveHandler x).rxFrameStart = s.rxFrameStart := by cases x <;> rfl

/-! ### The fields that are set -/

@[simp] theorem State.ring_rx (s : State) : s.ring .rx = s.rx := rfl
@[simp] theorem State.ring_tx (s : State) : s.ring .tx = s.tx := rfl
@[simp] theorem State.setRing_rx_rx (s : State) (r : RingRegs) : (s.setRing .rx r).rx = r := rfl
@[simp] theorem State.setRing_rx_tx (s : State) (r : RingRegs) : (s.setRing .rx r).tx = s.tx := rfl
@[simp] theorem State.setRing_tx_tx (s : State) (r : RingRegs) : (s.setRing .tx r).tx = r := rfl
@[simp] theorem State.setRing_tx_rx (s : State) (r : RingRegs) : (s.setRing .tx r).rx = s.rx := rfl

@[simp] theorem State.ring_setRing (s : State) (x : Ring) (r : RingRegs) : (s.setRing x r).ring x = r := by
  cases x <;> rfl

theorem State.ring_setRing_ne (s : State) {x y : Ring} (r : RingRegs) (h : y ≠ x) :
    (s.setRing x r).ring y = s.ring y := by
  cases x <;> cases y <;> first | rfl | exact absurd rfl h

@[simp] theorem State.setRing_self (s : State) (x : Ring) : s.setRing x (s.ring x) = s := by
  cases x <;> rfl

@[simp] theorem State.setRing_setRing (s : State) (x : Ring) (r q : RingRegs) :
    (s.setRing x r).setRing x q = s.setRing x q := by cases x <;> rfl

@[simp] theorem State.emit_out (s : State) (e : Event) : (s.emit e).out = s.out ++ [e] := rfl
@[simp] theorem State.markRefused_refused (s : State) : s.markRefused.refused = true := rfl
@[simp] theorem State.push_stack (s : State) (a : Agent) : (s.push a).stack = s.stack ++ [a] := rfl
@[simp] theorem State.pop_stack (s : State) : s.pop.stack = s.stack.dropLast := rfl
@[simp] theorem State.goStep_sync (s : State) (k : BitVec 8) :
    (s.goStep k).sync = { s.sync with step := k } := rfl
@[simp] theorem State.setBusy_sync (s : State) (b : Option Ring) :
    (s.setBusy b).sync = { s.sync with busyRing := b } := rfl
@[simp] theorem State.endSync_sync (s : State) : s.endSync.sync = { s.sync with op := .none } := rfl
@[simp] theorem State.endSync_stack (s : State) : s.endSync.stack = s.stack.dropLast := rfl
@[simp] theorem State.rxPhase_rxh (s : State) (p : RxPhase) :
    (s.rxPhase p).rxh = { s.rxh with phase := p } := rfl
@[simp] theorem State.leaveHandler_stack (s : State) (x : Ring) :
    (s.leaveHandler x).stack = s.stack.dropLast := by cases x <;> rfl

theorem State.markFault_fault_of_none (s : State) (f : Fault) (h : s.fault = none) :
    (s.markFault f).fault = some f := by simp [State.markFault, h]

theorem State.markFault_fault_of_some (s : State) (f g : Fault) (h : s.fault = some g) :
    (s.markFault f).fault = some g := by simp [State.markFault, h]

/-! ### The rings under the updates that leave both alone -/

@[simp] theorem State.emit_ring (s : State) (e : Event) (y : Ring) : (s.emit e).ring y = s.ring y := by cases y <;> simp
@[simp] theorem State.markFault_ring (s : State) (f : Fault) (y : Ring) : (s.markFault f).ring y = s.ring y := by cases y <;> simp
@[simp] theorem State.markRefused_ring (s : State) (y : Ring) : (s.markRefused).ring y = s.ring y := by cases y <;> simp
@[simp] theorem State.push_ring (s : State) (a : Agent) (y : Ring) : (s.push a).ring y = s.ring y := by cases y <;> simp
@[simp] theorem State.pop_ring (s : State) (y : Ring) : (s.pop).ring y = s.ring y := by cases y <;> simp
@[simp] theorem State.writeHw_ring (s : State) (a : Word) (b : Byte) (y : Ring) : (s.writeHw a b).ring y = s.ring y := by cases y <;> simp
@[simp] theorem State.writeSw_ring (s : State) (a : Word) (b : Byte) (y : Ring) : (s.writeSw a b).ring y = s.ring y := by cases y <;> simp
@[simp] theorem State.writeDesc_ring (s : State) (a w : Word) (y : Ring) : (s.writeDesc a w).ring y = s.ring y := by cases y <;> simp
@[simp] theorem State.setField_ring (s : State) (x : Ring) (i : Nat) (f : BdField) (w : Word) (y : Ring) : (s.setField x i f w).ring y = s.ring y := by cases y <;> simp
@[simp] theorem State.dropMarks_ring (s : State) (x : Ring) (y : Ring) : (s.dropMarks x).ring y = s.ring y := by cases y <;> simp
@[simp] theorem State.addMarks_ring (s : State) (n : Nat) (x : Ring) (y : Ring) : (s.addMarks n x).ring y = s.ring y := by cases y <;> simp
@[simp] theorem State.beginFraming_ring (s : State) (x : Ring) (y : Ring) : (s.beginFraming x).ring y = s.ring y := by cases y <;> simp
@[simp] theorem State.goStep_ring (s : State) (k : BitVec 8) (y : Ring) : (s.goStep k).ring y = s.ring y := by cases y <;> simp
@[simp] theorem State.setBusy_ring (s : State) (b : Option Ring) (y : Ring) : (s.setBusy b).ring y = s.ring y := by cases y <;> simp
@[simp] theorem State.acceptPrimitive_ring (s : State) (i : Instr) (y : Ring) : (s.acceptPrimitive i).ring y = s.ring y := by cases y <;> simp
@[simp] theorem State.endSync_ring (s : State) (y : Ring) : (s.endSync).ring y = s.ring y := by cases y <;> simp
@[simp] theorem State.rxPhase_ring (s : State) (p : RxPhase) (y : Ring) : (s.rxPhase p).ring y = s.ring y := by cases y <;> simp
@[simp] theorem State.noteTimeout_ring (s : State) (y : Ring) : (s.noteTimeout).ring y = s.ring y := by cases y <;> simp
@[simp] theorem State.popAgenda_ring (s : State) (y : Ring) : (s.popAgenda).ring y = s.ring y := by cases y <;> simp
@[simp] theorem State.poke_ring (s : State) (v : View) (a : Word) (b : Byte) (y : Ring) : (s.poke v a b).ring y = s.ring y := by cases y <;> simp
@[simp] theorem State.initReassembly_ring (s : State) (y : Ring) : (s.initReassembly).ring y = s.ring y := by cases y <;> simp
@[simp] theorem State.leaveHandler_ring (s : State) (x : Ring) (y : Ring) : (s.leaveHandler x).ring y = s.ring y := by cases y <;> simp

end Sys2Proof.Machine
end

