-- ==== Sys2Proof/Laws/Memory.lean ====
section
/-! SUPPORT. The laws of memory: a read after a write, the canonical form, little-endian words, descriptor
fields, and what the byte-by-byte operations over a range leave alone. -/

namespace Sys2Proof.Machine

/-! ### Cells -/

@[simp] theorem getCell_setCell (m : List Host.Cell) (a b : Nat) (v : Byte) :
    getCell (setCell m a v) b = if b = a then some v else getCell m b := by
  induction m with
  | nil => simp [setCell, getCell]
  | cons c m ih =>
    obtain ⟨k, w⟩ := c
    simp only [setCell]
    split
    · simp [getCell]
    · split
      · subst k; simp only [getCell]; split <;> simp_all
      · simp only [getCell, ih]; split <;> simp_all; omega

theorem mem_setCell {m : List Host.Cell} {a : Nat} {v : Byte} {c : Host.Cell}
    (h : c ∈ setCell m a v) : c = (a, v) ∨ c ∈ m := by
  induction m with
  | nil => simpa [setCell] using h
  | cons d m ih =>
    obtain ⟨k, w⟩ := d
    simp only [setCell] at h
    split at h
    · simpa using h
    · split at h
      · rcases List.mem_cons.1 h with h | h
        · exact .inl h
        · exact .inr (.tail _ h)
      · rcases List.mem_cons.1 h with h | h
        · exact .inr (h ▸ .head _)
        · exact (ih h).imp_right (.tail _)

theorem setCell_rising {m : List Host.Cell} (a : Nat) (v : Byte)
    (h : m.Pairwise (fun p q => p.1 < q.1)) : (setCell m a v).Pairwise (fun p q => p.1 < q.1) := by
  induction m with
  | nil => simp [setCell]
  | cons d m ih =>
    obtain ⟨k, w⟩ := d
    obtain ⟨hd, ht⟩ := List.pairwise_cons.1 h
    simp only [setCell]
    split
    · refine List.pairwise_cons.2 ⟨fun c hc => ?_, h⟩
      rcases List.mem_cons.1 hc with rfl | hc
      · assumption
      · exact Nat.lt_trans ‹_› (hd c hc)
    · split
      · subst k; exact List.pairwise_cons.2 ⟨hd, ht⟩
      · refine List.pairwise_cons.2 ⟨fun c hc => ?_, ih ht⟩
        rcases mem_setCell hc with rfl | hc
        · simp only; omega
        · exact hd c hc

/-! ### One view -/

theorem Memory.write_wf {m : Memory} (a : Word) (b : Byte) (h : m.wf) : (m.write a b).wf := by
  refine ⟨setCell_rising _ _ h.1, fun c hc => ?_⟩
  rcases mem_setCell hc with rfl | hc
  · exact a.isLt
  · exact h.2 c hc

@[simp] theorem Memory.read_write (m : Memory) (v : View) (a c : Word) (b : Byte) :
    (m.write a b).read v c = if c = a then b else m.read v c := by
  simp only [Memory.read, Memory.write, getCell_setCell, ← BitVec.toNat_eq]
  split <;> rfl

theorem Memory.writeWord_wf {m : Memory} (a w : Word) (h : m.wf) : (m.writeWord a w).wf := by
  simp only [Memory.writeWord, wordCells, List.foldl]
  exact write_wf _ _ (write_wf _ _ (write_wf _ _ (write_wf _ _ h)))

/-- The four addresses of a word are different. -/
theorem word_addresses_ne (a : Word) :
    a ≠ a + 1 ∧ a ≠ a + 2 ∧ a ≠ a + 3 ∧ a + 1 ≠ a + 2 ∧ a + 1 ≠ a + 3 ∧ a + 2 ≠ a + 3 := by
  refine ⟨?_, ?_, ?_, ?_, ?_, ?_⟩ <;> bv_omega

theorem Memory.read_writeWord (m : Memory) (v : View) (a w c : Word) :
    (m.writeWord a w).read v c =
      if c = a + 3 then w.extractLsb' 24 8 else if c = a + 2 then w.extractLsb' 16 8
      else if c = a + 1 then w.extractLsb' 8 8 else if c = a then w.extractLsb' 0 8
      else m.read v c := by
  simp only [Memory.writeWord, wordCells, List.foldl, Memory.read_write]

theorem Memory.read_writeWord_byte0 (m : Memory) (v : View) (a w : Word) :
    (m.writeWord a w).read v a = w.extractLsb' 0 8 := by
  obtain ⟨h1, h2, h3, -⟩ := word_addresses_ne a
  simp only [read_writeWord, h1, h2, h3, if_false, if_true]

theorem Memory.read_writeWord_byte1 (m : Memory) (v : View) (a w : Word) :
    (m.writeWord a w).read v (a + 1) = w.extractLsb' 8 8 := by
  obtain ⟨-, -, -, h1, h2, -⟩ := word_addresses_ne a
  simp only [read_writeWord, h1, h2, if_false, if_true]

theorem Memory.read_writeWord_byte2 (m : Memory) (v : View) (a w : Word) :
    (m.writeWord a w).read v (a + 2) = w.extractLsb' 16 8 := by
  obtain ⟨-, -, -, -, -, h⟩ := word_addresses_ne a
  simp only [read_writeWord, h, if_false, if_true]

theorem Memory.read_writeWord_byte3 (m : Memory) (v : View) (a w : Word) :
    (m.writeWord a w).read v (a + 3) = w.extractLsb' 24 8 := by
  simp only [read_writeWord, if_true]

theorem Memory.read_writeWord_outside (m : Memory) (v : View) {a c : Word} (w : Word)
    (h : ¬InRange a 4 c) : (m.writeWord a w).read v c = m.read v c := by
  have key : ∀ k < 4, c ≠ a + BitVec.ofNat 32 k := fun k hk e => h ⟨k, hk, e⟩
  have h0 : c ≠ a := by simpa using key 0 (by decide)
  have h1 : c ≠ a + 1 := by simpa using key 1 (by decide)
  have h2 : c ≠ a + 2 := by simpa using key 2 (by decide)
  have h3 : c ≠ a + 3 := by simpa using key 3 (by decide)
  simp only [read_writeWord, h0, h1, h2, h3, if_false]

/-! ### Words of descriptor memory -/

/-- Four bytes of a word, put together again. -/
theorem word_of_bytes (w : Word) :
    w.extractLsb' 24 8 ++ w.extractLsb' 16 8 ++ w.extractLsb' 8 8 ++ w.extractLsb' 0 8 = w := by
  apply BitVec.eq_of_getLsbD_eq
  intro i hi
  simp only [BitVec.getLsbD_append, BitVec.getLsbD_extractLsb']
  split
  · simp; omega
  · split
    · rw [show 8 + (i - 8) = i by omega]; simp; omega
    · split
      · rw [show 16 + (i - 8 - 8) = i by omega]; simp; omega
      · rw [show 24 + (i - 8 - 8 - 8) = i by omega]; simp; omega

@[simp] theorem State.readDesc_writeDesc (s : State) (a w : Word) :
    (s.writeDesc a w).readDesc a = w := by
  simp only [State.readDesc, State.writeDesc, Memory.read_writeWord_byte0,
    Memory.read_writeWord_byte1, Memory.read_writeWord_byte2, Memory.read_writeWord_byte3]
  exact word_of_bytes w

theorem State.readDesc_congr {s t : State} {a : Word}
    (h : ∀ k < 4, t.memHw.read .hw (a + BitVec.ofNat 32 k) = s.memHw.read .hw (a + BitVec.ofNat 32 k)) :
    t.readDesc a = s.readDesc a := by
  have h0 : t.memHw.read .hw a = s.memHw.read .hw a := by simpa using h 0 (by decide)
  have h1 : t.memHw.read .hw (a + 1) = s.memHw.read .hw (a + 1) := h 1 (by decide)
  have h2 : t.memHw.read .hw (a + 2) = s.memHw.read .hw (a + 2) := h 2 (by decide)
  have h3 : t.memHw.read .hw (a + 3) = s.memHw.read .hw (a + 3) := h 3 (by decide)
  simp only [State.readDesc, h0, h1, h2, h3]

theorem State.readDesc_writeDesc_disjoint (s : State) {a c : Word} (w : Word)
    (h : ∀ k < 4, ¬InRange a 4 (c + BitVec.ofNat 32 k)) :
    (s.writeDesc a w).readDesc c = s.readDesc c :=
  State.readDesc_congr fun k hk => Memory.read_writeWord_outside _ _ _ (h k hk)

@[simp] theorem State.getField_setField (s : State) (x : Ring) (i : Nat) (f : BdField) (w : Word) :
    (s.setField x i f w).getField x i f = w := by
  simp only [State.getField, State.setField_ring]
  exact State.readDesc_writeDesc ..

/-- Two different fields of one slot do not overlap. -/
theorem BdField.disjoint (b : Word) {f g : BdField} (h : f ≠ g) (k : Nat) (hk : k < 4) :
    ¬InRange (b + f.offset) 4 (b + g.offset + BitVec.ofNat 32 k) := by
  rintro ⟨j, hj, e⟩
  have e' : g.offset + BitVec.ofNat 32 k = f.offset + BitVec.ofNat 32 j := by
    rw [BitVec.add_assoc, BitVec.add_assoc] at e
    exact (BitVec.add_right_inj b).1 e
  have hk' : k = 0 ∨ k = 1 ∨ k = 2 ∨ k = 3 := by omega
  have hj' : j = 0 ∨ j = 1 ∨ j = 2 ∨ j = 3 := by omega
  cases f <;> cases g <;> first | exact h rfl | skip
  all_goals
    rcases hk' with rfl | rfl | rfl | rfl <;> rcases hj' with rfl | rfl | rfl | rfl <;>
      exact absurd e' (by decide)

theorem State.getField_setField_ne (s : State) (x : Ring) (i : Nat) {f g : BdField} (w : Word)
    (h : g ≠ f) : (s.setField x i f w).getField x i g = s.getField x i g := by
  simp only [State.getField, State.setField_ring]
  exact State.readDesc_writeDesc_disjoint _ _ fun k hk => BdField.disjoint _ (Ne.symm h) k hk

/-! ### Descriptor regions -/

/-- The bytes of a range, as the set the claims name. -/
theorem inBytes_iff (b len a : Word) : inBytes b len a = true ↔ InRange b len.toNat a := by
  simp only [inBytes, BitVec.ult, decide_eq_true_eq]
  constructor
  · intro h
    refine ⟨(a - b).toNat, h, ?_⟩
    rw [BitVec.ofNat_toNat, BitVec.setWidth_eq, BitVec.add_comm, BitVec.sub_add_cancel]
  · rintro ⟨k, hk, rfl⟩
    have : k < 2 ^ 32 := Nat.lt_trans hk len.isLt
    rw [BitVec.add_comm, BitVec.add_sub_cancel, BitVec.toNat_ofNat, Nat.mod_eq_of_lt this]
    exact hk

/-- Every byte of the first `stride` bytes of a slot lies in the region its ring was created in. -/
theorem RingRegs.Ok.covers {r : RingRegs} (h : r.Ok) (hc : r.created = true) {i k : Nat} (hi : i < r.size)
    (hk : k < r.slotStride.toNat) : r.covers (r.slotAddr i + BitVec.ofNat 32 k) = true := by
  have hn : i * r.slotStride.toNat + k < r.size * r.slotStride.toNat :=
    Nat.lt_of_lt_of_le (by rw [Nat.succ_mul]; omega) (Nat.mul_le_mul_right _ hi)
  have hs := h.holds
  have hl := r.regionSize.isLt
  have hi' : i * r.slotStride.toNat + k < 2 ^ 32 := by omega
  simp only [RingRegs.covers, hc, Bool.true_and, inBytes_iff]
  refine ⟨i * r.slotStride.toNat + k, by omega, ?_⟩
  simp only [RingRegs.slotAddr, BitVec.add_assoc]
  congr 1
  apply BitVec.eq_of_toNat_eq
  simp [BitVec.toNat_add, BitVec.toNat_mul]

/-- The values R217 lets a byte be sent with: the present one, and each that was overwritten since. -/
theorem State.mem_heldSince (s : State) (mark : Nat) (a : Word) (v : Byte) :
    v ∈ s.heldSince mark a ↔
      v = s.peek .hw a ∨ (a.toNat, v) ∈ s.hwLog.take (s.hwLog.length - mark) := by
  simp only [State.heldSince, List.mem_cons, List.mem_map, List.mem_filter, beq_iff_eq]
  refine or_congr Iff.rfl ⟨?_, fun h => ⟨_, ⟨h, rfl⟩, rfl⟩⟩
  rintro ⟨⟨b, w⟩, ⟨h, rfl⟩, rfl⟩
  exact h

/-! ### One byte of the two views -/

/-- Descriptor memory depends on the rings, the configuration and the parameters alone. -/
theorem State.isDescriptorByte_congr {s t : State} (hr : t.rx = s.rx) (ht : t.tx = s.tx)
    (hv : t.cfgValid = s.cfgValid) (hc : t.cfg = s.cfg) (hp : t.params = s.params) (a : Word) :
    t.isDescriptorByte a = s.isDescriptorByte a := by
  simp only [State.isDescriptorByte, hr, ht, hv, hc, hp]

@[simp] theorem State.poke_isDescriptorByte (s : State) (v : View) (a c : Word) (b : Byte) :
    (s.poke v a b).isDescriptorByte c = s.isDescriptorByte c :=
  State.isDescriptorByte_congr (by simp) (by simp) (by simp) (by simp) (by simp) c

@[simp] theorem State.setField_isDescriptorByte (s : State) (x : Ring) (i : Nat) (f : BdField)
    (w : Word) (c : Word) : (s.setField x i f w).isDescriptorByte c = s.isDescriptorByte c :=
  State.isDescriptorByte_congr rfl rfl rfl rfl rfl c

theorem State.peek_hw (s : State) (a : Word) : s.peek .hw a = s.memHw.read .hw a := rfl

theorem State.peek_sw_descriptor {s : State} {a : Word} (h : s.isDescriptorByte a = true) :
    s.peek .sw a = s.memHw.read .hw a := by simp only [State.peek, h, if_true]

theorem State.peek_sw_data {s : State} {a : Word} (h : s.isDescriptorByte a = false) :
    s.peek .sw a = s.memSw.read .sw a := by simp only [State.peek, h, Bool.false_eq_true, if_false]

/-- One byte reads the same where the address is of the same kind and the stored bytes are the same. -/
theorem State.peek_congr_byte {s t : State} {a : Word}
    (hi : t.isDescriptorByte a = s.isDescriptorByte a)
    (hh : t.memHw.read .hw a = s.memHw.read .hw a)
    (hs : s.isDescriptorByte a = false → t.memSw.read .sw a = s.memSw.read .sw a) (v : View) :
    t.peek v a = s.peek v a := by
  cases v
  · cases hd : s.isDescriptorByte a
    · rw [peek_sw_data hd, peek_sw_data (hi.trans hd), hs hd]
    · rw [peek_sw_descriptor hd, peek_sw_descriptor (hi.trans hd), hh]
  · exact hh

theorem State.peek_congr {s t : State} (hr : t.rx = s.rx) (ht : t.tx = s.tx)
    (hv : t.cfgValid = s.cfgValid) (hc : t.cfg = s.cfg) (hp : t.params = s.params)
    (hh : t.memHw = s.memHw) (hs : t.memSw = s.memSw) (v : View) (a : Word) :
    t.peek v a = s.peek v a :=
  State.peek_congr_byte (State.isDescriptorByte_congr hr ht hv hc hp a) (by rw [hh]) (fun _ => by rw [hs]) v

/-- A write leaves every other byte as it was, in both views. -/
theorem State.peek_poke_ne (s : State) (v u : View) {a c : Word} (b : Byte) (h : c ≠ a) :
    (s.poke v a b).peek u c = s.peek u c := by
  refine State.peek_congr_byte (State.poke_isDescriptorByte ..) ?_ (fun _ => ?_) u
  · unfold State.poke; split
    · simp [State.writeHw, State.writeSw, h]
    · cases v <;> simp [State.writeHw, State.writeSw, h]
  · unfold State.poke; split
    · simp [State.writeHw, State.writeSw, h]
    · cases v <;> simp [State.writeHw, State.writeSw, h]

/-- A byte of descriptor memory is written in both views (R62). -/
theorem State.peek_poke_descriptor (s : State) (v u : View) {a : Word} (b : Byte)
    (h : s.isDescriptorByte a = true) : (s.poke v a b).peek u a = b := by
  have hh : (s.poke v a b).memHw.read .hw a = b := by
    simp [State.poke, h, State.writeHw, State.writeSw]
  cases u
  · rw [peek_sw_descriptor ((State.poke_isDescriptorByte ..).trans h), hh]
  · exact hh

/-- Any other byte is written in the named view, and only there (R58). -/
theorem State.peek_poke_data (s : State) (v u : View) {a : Word} (b : Byte)
    (h : s.isDescriptorByte a = false) :
    (s.poke v a b).peek u a = if v = u then b else s.peek u a := by
  have hi : (s.poke v a b).isDescriptorByte a = false := (State.poke_isDescriptorByte ..).trans h
  cases u
  · rw [peek_sw_data hi, peek_sw_data h]
    cases v <;> simp [State.poke, h, State.writeHw, State.writeSw]
  · cases v <;> simp [State.peek_hw, State.poke, h, State.writeHw, State.writeSw]

/-- A field write leaves every byte outside the field as it was, in both views. -/
theorem State.peek_setField_outside (s : State) (x : Ring) (i : Nat) (f : BdField) (w : Word) (v : View)
    {c : Word} (h : ¬s.InField x i f c) : (s.setField x i f w).peek v c = s.peek v c := by
  have hh : (s.setField x i f w).memHw.read .hw c = s.memHw.read .hw c :=
    Memory.read_writeWord_outside _ _ _ h
  have hs : (s.setField x i f w).memSw.read .sw c = s.memSw.read .sw c :=
    Memory.read_writeWord_outside _ _ _ h
  exact State.peek_congr_byte (State.setField_isDescriptorByte ..) hh (fun _ => hs) v

/-! ### The canonical form is kept -/

theorem State.reset_memoryOk : State.reset.MemoryOk :=
  ⟨⟨List.Pairwise.nil, fun _ h => nomatch h⟩, ⟨List.Pairwise.nil, fun _ h => nomatch h⟩⟩

/-- Any update that leaves both views alone keeps them canonical. -/
theorem State.MemoryOk.congr {s t : State} (h : s.MemoryOk) (hs : t.memSw = s.memSw)
    (hh : t.memHw = s.memHw) : t.MemoryOk := by unfold State.MemoryOk; rwa [hs, hh]

theorem State.MemoryOk.poke {s : State} (h : s.MemoryOk) (v : View) (a : Word) (b : Byte) :
    (s.poke v a b).MemoryOk := by
  unfold State.poke
  split
  · exact ⟨Memory.write_wf _ _ h.1, Memory.write_wf _ _ h.2⟩
  · cases v
    · exact ⟨Memory.write_wf _ _ h.1, h.2⟩
    · exact ⟨h.1, Memory.write_wf _ _ h.2⟩

theorem State.MemoryOk.setField {s : State} (h : s.MemoryOk) (x : Ring) (i : Nat) (f : BdField)
    (w : Word) : (s.setField x i f w).MemoryOk :=
  ⟨Memory.writeWord_wf _ _ h.1, Memory.writeWord_wf _ _ h.2⟩

/-- A fold of steps that each keep a property keeps it. -/
theorem foldl_keeps {α : Type} {P : State → Prop} {f : State → α → State}
    (hf : ∀ s a, P s → P (f s a)) (l : List α) {s : State} (h : P s) : P (l.foldl f s) := by
  induction l generalizing s with
  | nil => exact h
  | cons a l ih => exact ih (hf s a h)

/-- A fold of steps that each keep what `g` says keeps it. -/
theorem foldl_same {α β : Type} {f : State → α → State} {g : State → β}
    (hf : ∀ s a, g (f s a) = g s) (l : List α) (s : State) : g (l.foldl f s) = g s := by
  induction l generalizing s with
  | nil => rfl
  | cons a l ih => exact (ih _).trans (hf s a)

theorem State.MemoryOk.overRange {f : State → Word → State}
    (hf : ∀ s a, s.MemoryOk → (f s a).MemoryOk) (a : Word) (len : Nat) {s : State} (h : s.MemoryOk) :
    (overRange f a len s).MemoryOk := foldl_keeps (fun s _ => hf s _) _ h

theorem State.MemoryOk.flush {s : State} (h : s.MemoryOk) (a len : Word) : (s.flush a len).MemoryOk :=
  (State.MemoryOk.overRange (fun _ a h => h.poke _ a _) a len.toNat h).congr rfl rfl

theorem State.MemoryOk.invalidate {s : State} (h : s.MemoryOk) (a len : Word) :
    (s.invalidate a len).MemoryOk :=
  (State.MemoryOk.overRange (fun _ a h => h.poke _ a _) a len.toNat h).congr rfl rfl

theorem State.MemoryOk.copyUp {s : State} (h : s.MemoryOk) (d a : Word) (len : Nat) :
    (s.copyUp d a len).MemoryOk := foldl_keeps (fun _ _ h => h.poke _ _ _) _ h

theorem State.MemoryOk.pokeList {s : State} (h : s.MemoryOk) (v : View) (a : Word) (l : List Byte) :
    (s.pokeList v a l).MemoryOk := by
  induction l generalizing s a with
  | nil => exact h
  | cons b l ih => exact ih (h.poke v a b) (a + 1)

end Sys2Proof.Machine
end

