-- ==== Sys2Proof/Laws/Ops.lean ====
section
/-! SUPPORT. What each shared operation and each primitive can do, said once: who may issue a primitive, how a
primitive issued in flight goes on, interrupt entry and return, and, for each primitive, either a refusal that
changes nothing or its one effect under its conditions. -/

namespace Sys2Proof.Machine

/-! ### Checks and issue -/

theorem needRing_created {s : State} {x : Ring} (p : Prim) (h : (s.ring x).created = true) :
    needRing x p s = p s := by simp [needRing, h]

theorem needRing_absent {s : State} {x : Ring} (p : Prim) (h : (s.ring x).created = false) :
    needRing x p s = (⟨.ringNotCreated, []⟩, s) := by simp [needRing, h, refuseWith]

theorem needDesc_some {s : State} {x : Ring} {d : Word} {i : Nat} (p : Nat → Prim)
    (h : (s.ring x).idx d = some i) : needDesc x d p s = p i s := by simp [needDesc, h]

theorem needDesc_none {s : State} {x : Ring} {d : Word} (p : Nat → Prim)
    (h : (s.ring x).idx d = none) : needDesc x d p s = (⟨.invalidParameter, []⟩, s) := by
  simp [needDesc, h, refuseWith]

theorem baseLevel_iff (s : State) : s.baseLevel = true ↔ s.atBase := by
  simp [State.baseLevel, State.handlerOnStack]

theorem primitiveTurn_iff (s : State) :
    s.primitiveTurn = true ↔ s.sync.op = .primitive ∧ s.top = some .sync := by
  simp [State.primitiveTurn]

theorem endSync_eq (t : State) (op : BitVec 8) (c : Code) (rs : List Word) :
    Host.Outcome.next (t.emit (.ret op c rs)).endSync = responded t op c rs := rfl

/-- A direct primitive in progress is performed and answered, and the operation ends. -/
theorem issueDirect_ready {s : State} (i : Instr) (p : Prim) (h : s.directReady) :
    s.issueDirect i p = ((p s).2.emit (.ret i.opcode (p s).1.code (p s).1.results)).endSync := by
  simp [State.issueDirect, h.1, (primitiveTurn_iff s).2 h.2, State.performDirect]

/-- A direct primitive that arrives at base level in `Uninit` is accepted. -/
theorem issueDirect_accepted {s : State} (i : Instr) (p : Prim) (h : s.acceptsPrimitive) :
    s.issueDirect i p = s.acceptPrimitive i := by
  have ht : s.primitiveTurn = false := by simp [State.primitiveTurn, h.2.1]
  simp [State.issueDirect, h.1, ht, (baseLevel_iff s).2 h.2]

theorem issueDirect_elsewhere {s : State} (i : Instr) (p : Prim) (h : ¬s.directReady)
    (ha : ¬s.acceptsPrimitive) : s.issueDirect i p = s.markRefused := by
  unfold State.issueDirect
  by_cases he : s.engState = .uninit
  · have ht : s.primitiveTurn ≠ true := fun ht => h ⟨he, (primitiveTurn_iff s).1 ht⟩
    have hb : s.baseLevel ≠ true := fun hb => ha ⟨he, (baseLevel_iff s).1 hb⟩
    simp [he, ht, hb]
  · simp [he]

/-- What issuing a direct primitive can do: perform it, accept it, or set the refused mark. -/
theorem issueDirect_cases (s : State) (i : Instr) (p : Prim) :
    (s.directReady ∧
      s.issueDirect i p = ((p s).2.emit (.ret i.opcode (p s).1.code (p s).1.results)).endSync) ∨
    (s.acceptsPrimitive ∧ s.issueDirect i p = s.acceptPrimitive i) ∨
    (¬s.directReady ∧ ¬s.acceptsPrimitive ∧ s.issueDirect i p = s.markRefused) := by
  by_cases h : s.directReady
  · exact .inl ⟨h, issueDirect_ready i p h⟩
  · by_cases ha : s.acceptsPrimitive
    · exact .inr (.inl ⟨ha, issueDirect_accepted i p ha⟩)
    · exact .inr (.inr ⟨h, ha, issueDirect_elsewhere i p h ha⟩)

/-- A primitive in flight is refused by the halted rule, or goes on with its results, or with its code. -/
theorem inFlight_cases (s : State) (exempt : Bool) (p : Prim) (ok : List Word → State → State)
    (bad : Code → State → State) :
    (s.engState = .halted ∧ exempt = false ∧ s.inFlight exempt p ok bad = s.markRefused) ∨
    ((s.engState ≠ .halted ∨ exempt = true) ∧ (p s).1.code = .success ∧
      s.inFlight exempt p ok bad = ok (p s).1.results (p s).2) ∨
    ((s.engState ≠ .halted ∨ exempt = true) ∧ (p s).1.code ≠ .success ∧
      s.inFlight exempt p ok bad = bad (p s).1.code (p s).2) := by
  unfold State.inFlight
  by_cases h : s.engState = .halted <;> cases exempt <;>
    by_cases hc : (p s).1.code = .success <;> simp [h, hc]

theorem inFlight_success {s u : State} {exempt : Bool} {p : Prim} {rs : List Word}
    (ok : List Word → State → State) (bad : Code → State → State)
    (h : s.engState ≠ .halted ∨ exempt = true) (hp : p s = (Reply.ok rs, u)) :
    s.inFlight exempt p ok bad = ok rs u := by
  rcases h with h | h <;> simp [State.inFlight, h, hp, Reply.ok]

theorem inFlight_failure {s u : State} {exempt : Bool} {p : Prim} {c : Code}
    (ok : List Word → State → State) (bad : Code → State → State)
    (h : s.engState ≠ .halted ∨ exempt = true) (hc : c ≠ .success) (hp : p s = (⟨c, []⟩, u)) :
    s.inFlight exempt p ok bad = bad c u := by
  rcases h with h | h <;> simp [State.inFlight, h, hp, hc]

theorem inFlight_halted {s : State} (p : Prim) (ok : List Word → State → State)
    (bad : Code → State → State) (h : s.engState = .halted) :
    s.inFlight false p ok bad = s.markRefused := by simp [State.inFlight, h]

theorem seqPrim_success {s u : State} {exempt : Bool} {p : Prim} {rs : List Word}
    (ok : List Word → State → State) (h : s.engState ≠ .halted ∨ exempt = true)
    (hp : p s = (Reply.ok rs, u)) : s.seqPrim exempt p ok = ok rs u :=
  inFlight_success ok _ h hp

theorem seqPrim_failure {s u : State} {exempt : Bool} {p : Prim} {c : Code}
    (ok : List Word → State → State) (h : s.engState ≠ .halted ∨ exempt = true) (hc : c ≠ .success)
    (hp : p s = (⟨c, []⟩, u)) : s.seqPrim exempt p ok = u.markFault .sequencerPrimitiveError :=
  inFlight_failure ok _ h hc hp

theorem seqPrim_halted {s : State} (p : Prim) (ok : List Word → State → State)
    (h : s.engState = .halted) : s.seqPrim false p ok = s.markRefused := inFlight_halted p ok _ h

/-! ### Interrupt entry and return -/

theorem dispatch_taken {s : State} {x : Ring} (h : s.canDispatch x = true) :
    s.dispatch x = s.enterHandler x := by simp [State.dispatch, h]

theorem dispatch_not_taken {s : State} {x : Ring} (h : s.canDispatch x = false) :
    s.dispatch x = s := by simp [State.dispatch, h]

theorem canDispatch_iff (s : State) (x : Ring) :
    s.canDispatch x = true ↔
      (s.ring x).irqPend &&& (s.ring x).irqEn ≠ 0 ∧ handlerOf x ∉ s.stack ∧ s.cfgValid = true ∧
        s.nestingPermits x = true := by
  simp [State.canDispatch, RingRegs.irqLine, and_assoc]

theorem enterHandler_tx (s : State) :
    s.enterHandler .tx =
      { s with stack := s.stack ++ [.txh], txh := { s.txh with state := .idle } } := rfl

/-- The RX entry changes the stack, the sequencer's state and, unless it persists, the reassembly state. -/
theorem enterHandler_rx (s : State) :
    ∃ rs draws, s.enterHandler .rx =
      { s with stack := s.stack ++ [.rxh], rxh := { s.rxh with state := .idle }, rs := rs,
               draws := draws } ∧
      (s.params.reasmPersist = true → rs = s.rs) ∧
      (s.params.reasmPersist = false → rs.complete = false) ∧
      (s.params.reasmPersist = false → s.params.reasmInit = .zero → rs.origin = 0 ∧ rs.acc = 0) := by
  cases hp : s.params.reasmPersist
  · cases hi : s.params.reasmInit
    · exact ⟨⟨Config.freeOrigin s.draws, Config.freeAcc s.draws, false⟩, s.draws + 1,
        by simp [State.enterHandler, State.initReassembly, State.push, hp, hi], by simp, fun _ => rfl,
        by simp⟩
    · exact ⟨⟨0, 0, false⟩, s.draws, by simp [State.enterHandler, State.initReassembly, State.push, hp, hi],
        by simp, fun _ => rfl, fun _ _ => ⟨rfl, rfl⟩⟩
  · exact ⟨s.rs, s.draws, by simp [State.enterHandler, State.initReassembly, State.push, hp],
      fun _ => rfl, by simp, by simp⟩

theorem leaveHandler_rx (s : State) :
    s.leaveHandler .rx =
      { s with stack := s.stack.dropLast, rxh := { s.rxh with state := .idle } } := rfl

theorem leaveHandler_tx (s : State) :
    s.leaveHandler .tx =
      { s with stack := s.stack.dropLast, txh := { s.txh with state := .idle } } := rfl

/-! ### The primitives: refused without any change, or one effect -/

/-- The primitive answered an error code and changed nothing (R110). -/
def Refuses (p : Prim) (s : State) : Prop := ∃ c, c ≠ Code.success ∧ p s = (⟨c, []⟩, s)

theorem refuses_refuseWith {c : Code} (s : State) (h : c ≠ .success) : Refuses (refuseWith c) s :=
  ⟨c, h, rfl⟩

/-- What a primitive behind the `created` check can do. -/
theorem needRing_cases (s : State) (x : Ring) (p : Prim) :
    Refuses (needRing x p) s ∨ ((s.ring x).created = true ∧ needRing x p s = p s) := by
  cases h : (s.ring x).created
  · exact .inl ⟨_, by decide, needRing_absent p h⟩
  · exact .inr ⟨rfl, needRing_created p h⟩

theorem primCreate_cases (s : State) (x : Ring) (n : Half) (b z a m : Word) :
    Refuses (primCreate x n b z a m) s ∨
    ((s.ring x).run = false ∧ n ≠ 0 ∧ m ≠ 0 ∧ 4 ≤ a.toNat ∧ a &&& (a - 1) = 0 ∧
      b.toNat % a.toNat = 0 ∧ n.toNat * strideOf a ≤ z.toNat ∧
      b.toNat + n.toNat * strideOf a ≤ 2 ^ 32 ∧
      primCreate x n b z a m s =
        (Reply.ok [], (s.setRing x ((s.ring x).recreate n b z a m)).dropMarks x)) := by
  unfold Refuses primCreate
  by_cases h1 : (s.ring x).run = true
  · exact .inl ⟨.ringBusy, by decide, by rw [if_pos h1]; rfl⟩
  by_cases h2 : n = 0 ∨ m = 0
  · exact .inl ⟨.invalidParameter, by decide, by rw [if_neg h1, if_pos h2]; rfl⟩
  by_cases h3 : a.toNat < 4 ∨ a &&& (a - 1) ≠ 0
  · exact .inl ⟨.invalidParameter, by decide, by rw [if_neg h1, if_neg h2, if_pos h3]; rfl⟩
  by_cases h4 : b.toNat % a.toNat ≠ 0
  · exact .inl ⟨.ringRegionMisaligned, by decide, by rw [if_neg h1, if_neg h2, if_neg h3, if_pos h4]; rfl⟩
  by_cases h5 : z.toNat < n.toNat * strideOf a
  · exact .inl ⟨.ringRegionTooSmall, by decide, by rw [if_neg h1, if_neg h2, if_neg h3, if_neg h4, if_pos h5]; rfl⟩
  by_cases h6 : 2 ^ 32 < b.toNat + n.toNat * strideOf a
  · exact .inl ⟨.ringRegionTooSmall, by decide, by rw [if_neg h1, if_neg h2, if_neg h3, if_neg h4, if_neg h5, if_pos h6]; rfl⟩
  refine .inr ⟨by simpa using h1, ?_, ?_, ?_, ?_, ?_, ?_, ?_, ?_⟩
  · exact fun h => h2 (.inl h)
  · exact fun h => h2 (.inr h)
  · exact Nat.le_of_not_lt fun h => h3 (.inl h)
  · exact Classical.not_not.1 fun h => h3 (.inr h)
  · exact Classical.not_not.1 h4
  · exact Nat.le_of_not_lt h5
  · exact Nat.le_of_not_lt h6
  · rw [if_neg h1, if_neg h2, if_neg h3, if_neg h4, if_neg h5, if_neg h6]

theorem primInitSlots_cases (s : State) (x : Ring) (b l c t : Word) :
    Refuses (primInitSlots x b l c t) s ∨
    ((s.ring x).created = true ∧ (s.ring x).freeCnt = (s.ring x).slotCount ∧ l ≤ (s.ring x).maxLen ∧
      primInitSlots x b l c t s =
        (Reply.ok [], (List.range (s.ring x).size).foldl (fun s i => s.setRecord x b l c t i) s)) := by
  rcases needRing_cases s x _ with h | ⟨hc, h⟩
  · exact .inl h
  · unfold Refuses primInitSlots
    rw [h]
    split
    · exact .inl ⟨_, by decide, rfl⟩
    · split
      · exact .inl ⟨_, by decide, rfl⟩
      · rename_i h1 h2
        exact .inr ⟨hc, Classical.not_not.1 h1,
          BitVec.not_lt.1 fun hl => h2 (.inl hl), rfl⟩

theorem primReserve_cases (s : State) (x : Ring) (n : Half) :
    Refuses (primReserve x n) s ∨
    ((s.ring x).created = true ∧ n ≠ 0 ∧ n ≤ (s.ring x).freeCnt ∧
      primReserve x n s =
        (Reply.ok [(s.ring x).slotAddr (s.ring x).freeHead],
          s.setRing x
            { s.ring x with
              preCnt := (s.ring x).preCnt + n, freeCnt := (s.ring x).freeCnt - n })) := by
  rcases needRing_cases s x _ with h | ⟨hc, h⟩
  · exact .inl h
  · unfold Refuses primReserve
    rw [h]
    split
    · exact .inl ⟨_, by decide, rfl⟩
    · split
      · exact .inl ⟨_, by decide, rfl⟩
      · exact .inr ⟨hc, ‹_›, BitVec.not_lt.1 ‹_›, rfl⟩

theorem primUnreserve_cases (s : State) (x : Ring) (n : Half) (d : Word) :
    Refuses (primUnreserve x n d) s ∨
    ((s.ring x).created = true ∧ n ≠ 0 ∧ n ≤ (s.ring x).preCnt ∧
      (s.ring x).idx d =
        some (((s.ring x).freeHead + (s.ring x).size - n.toNat) % (s.ring x).size) ∧
      primUnreserve x n d s =
        (Reply.ok [],
          s.setRing x
            { s.ring x with
              preCnt := (s.ring x).preCnt - n, freeCnt := (s.ring x).freeCnt + n })) := by
  rcases needRing_cases s x _ with h | ⟨hc, h⟩
  · exact .inl h
  · unfold Refuses primUnreserve
    rw [h]
    split
    · exact .inl ⟨_, by decide, rfl⟩
    · cases hd : (s.ring x).idx d with
      | none => exact .inl ⟨_, by decide, needDesc_none _ hd⟩
      | some i =>
        rw [needDesc_some _ hd]
        dsimp only
        split
        · exact .inl ⟨_, by decide, rfl⟩
        · split
          · exact .inl ⟨_, by decide, rfl⟩
          · rename_i h1 h2 h3
            exact .inr ⟨hc, h1, BitVec.not_lt.1 h2, by rw [Classical.not_not.1 h3], rfl⟩

theorem primCommit_cases (s : State) (x : Ring) (n : Half) (d : Word) :
    Refuses (primCommit x n d) s ∨
    ((s.ring x).created = true ∧ n ≠ 0 ∧ n ≤ (s.ring x).preCnt ∧
      (s.ring x).idx d = some (s.ring x).preHead ∧
      (∀ j < n.toNat, s.lengthOk x (batchSlot (s.ring x).size (s.ring x).preHead j) = true) ∧
      primCommit x n d s =
        (Reply.ok [],
          ((s.clearStatus x (s.ring x).preHead n.toNat).setRing x
            { s.ring x with
              preCnt := (s.ring x).preCnt - n, hwCnt := (s.ring x).hwCnt + n }).addMarks n.toNat x)) := by
  rcases needRing_cases s x _ with h | ⟨hc, h⟩
  · exact .inl h
  · unfold Refuses primCommit
    rw [h]
    split
    · exact .inl ⟨_, by decide, rfl⟩
    · cases hd : (s.ring x).idx d with
      | none => exact .inl ⟨_, by decide, needDesc_none _ hd⟩
      | some i =>
        rw [needDesc_some _ hd]
        dsimp only
        split
        · exact .inl ⟨_, by decide, rfl⟩
        · split
          · exact .inl ⟨_, by decide, rfl⟩
          · split
            · exact .inl ⟨_, by decide, rfl⟩
            · rename_i h1 h2 h3 h4
              refine .inr ⟨hc, h1, BitVec.not_lt.1 h2, by rw [Classical.not_not.1 h3], ?_, rfl⟩
              simpa using h4

theorem primDrain_cases (s : State) (x : Ring) (n : Half) :
    Refuses (primDrain x n) s ∨
    ((s.ring x).created = true ∧
      primDrain x n s =
        (Reply.ok [(minHalf n (s.ring x).doneCnt).zeroExtend 32,
            if minHalf n (s.ring x).doneCnt = 0 then 0 else (s.ring x).slotAddr (s.ring x).hwHead],
          s.setRing x
            { s.ring x with
              postCnt := (s.ring x).postCnt + minHalf n (s.ring x).doneCnt
              hwCnt := (s.ring x).hwCnt - minHalf n (s.ring x).doneCnt
              doneCnt := (s.ring x).doneCnt - minHalf n (s.ring x).doneCnt })) := by
  rcases needRing_cases s x _ with h | ⟨hc, h⟩
  · exact .inl h
  · exact .inr ⟨hc, h⟩

theorem primFree_cases (s : State) (x : Ring) (n : Half) (d : Word) :
    Refuses (primFree x n d) s ∨
    ((s.ring x).created = true ∧ n ≠ 0 ∧ n ≤ (s.ring x).postCnt ∧
      (s.ring x).idx d = some (s.ring x).postHead.toNat ∧
      primFree x n d s =
        (Reply.ok [],
          s.setRing x
            { s.ring x with
              postHead := BitVec.ofNat 16 (((s.ring x).postHead.toNat + n.toNat) % (s.ring x).size)
              postCnt := (s.ring x).postCnt - n
              freeCnt := (s.ring x).freeCnt + n })) := by
  rcases needRing_cases s x _ with h | ⟨hc, h⟩
  · exact .inl h
  · unfold Refuses primFree
    rw [h]
    split
    · exact .inl ⟨_, by decide, rfl⟩
    · cases hd : (s.ring x).idx d with
      | none => exact .inl ⟨_, by decide, needDesc_none _ hd⟩
      | some i =>
        rw [needDesc_some _ hd]
        dsimp only
        split
        · exact .inl ⟨_, by decide, rfl⟩
        · split
          · exact .inl ⟨_, by decide, rfl⟩
          · rename_i h1 h2 h3
            exact .inr ⟨hc, h1, BitVec.not_lt.1 h2, by rw [Classical.not_not.1 h3], rfl⟩

theorem primStart_cases (s : State) (x : Ring) :
    Refuses (primStart x) s ∨
    ((s.ring x).created = true ∧
      primStart x s = (Reply.ok [], (s.beginFraming x).setRing x { s.ring x with run := true })) := by
  rcases needRing_cases s x _ with h | ⟨hc, h⟩
  · exact .inl h
  · exact .inr ⟨hc, h⟩

theorem primStop_cases (s : State) (x : Ring) :
    Refuses (primStop x) s ∨
    ((s.ring x).created = true ∧
      primStop x s = (Reply.ok [], s.setRing x { s.ring x with run := false })) := by
  rcases needRing_cases s x _ with h | ⟨hc, h⟩
  · exact .inl h
  · exact .inr ⟨hc, h⟩

theorem needReserved_cases (s : State) (x : Ring) (d : Word) (p : Nat → Prim) :
    Refuses (needReserved x d p) s ∨
    ∃ i, (s.ring x).created = true ∧ (s.ring x).idx d = some i ∧ (s.ring x).slotState i = .reserved ∧
      needReserved x d p s = p i s := by
  rcases needRing_cases s x _ with h | ⟨hc, h⟩
  · exact .inl h
  · unfold Refuses needReserved
    rw [h]
    cases hd : (s.ring x).idx d with
    | none => exact .inl ⟨_, by decide, needDesc_none _ hd⟩
    | some i =>
      rw [needDesc_some _ hd]
      by_cases hr : (s.ring x).slotState i = .reserved
      · exact .inr ⟨i, hc, rfl, hr, by simp [hr]⟩
      · exact .inl ⟨.ringOrderViolation, by decide, by simp [hr, refuseWith]⟩

/-- What `BD_SET_LEN` stores: the length, or `max_len` where it is clamped. -/
theorem primBdSetLen_cases (s : State) (x : Ring) (d len : Word) :
    Refuses (primBdSetLen x d len) s ∨
    ∃ i w, (s.ring x).created = true ∧ (s.ring x).idx d = some i ∧
      (s.ring x).slotState i = .reserved ∧ w ≤ (s.ring x).maxLen ∧ (len ≤ (s.ring x).maxLen → w = len) ∧
      primBdSetLen x d len s = (Reply.ok [], s.setField x i .length w) := by
  rcases needReserved_cases s x d _ with h | ⟨i, hc, hd, hr, h⟩
  · exact .inl h
  · unfold Refuses primBdSetLen
    rw [h]
    split
    · rename_i hl
      split
      · exact .inl ⟨_, by decide, rfl⟩
      · exact .inr ⟨i, _, hc, hd, hr, BitVec.le_refl _, fun hle => absurd hl (BitVec.not_lt.2 hle), rfl⟩
    · exact .inr ⟨i, len, hc, hd, hr, BitVec.not_lt.1 ‹_›, fun _ => rfl, rfl⟩

/-! ### Folds that write descriptor fields -/

theorem setField_sameButMemory (s : State) (x : Ring) (i : Nat) (f : BdField) (w : Word) :
    SameButMemory s (s.setField x i f w) := rfl

theorem poke_sameButMemory (s : State) (v : View) (a : Word) (b : Byte) :
    SameButMemory s (s.poke v a b) := by
  unfold SameButMemory State.poke
  split
  · rfl
  · cases v <;> rfl

theorem SameButMemory.refl (s : State) : SameButMemory s s := rfl

theorem SameButMemory.trans {s t u : State} (h : SameButMemory s t) (k : SameButMemory t u) :
    SameButMemory s u := by
  unfold SameButMemory at *
  rw [← h]
  have := congrArg (fun z : State => { z with memSw := s.memSw, memHw := s.memHw, hwLog := s.hwLog }) k
  simpa using this

theorem SameButMemory.ring {s t : State} (h : SameButMemory s t) (x : Ring) : t.ring x = s.ring x := by
  unfold SameButMemory at h
  cases x
  · have := congrArg State.rx h; exact this
  · have := congrArg State.tx h; exact this

theorem SameButMemory.foldl {α : Type} {f : State → α → State} (hf : ∀ s a, SameButMemory s (f s a))
    (l : List α) (s : State) : SameButMemory s (l.foldl f s) := by
  induction l generalizing s with
  | nil => exact .refl s
  | cons a l ih => exact (hf s a).trans (ih _)

theorem clearStatus_sameButMemory (s : State) (x : Ring) (h n : Nat) :
    SameButMemory s (s.clearStatus x h n) :=
  SameButMemory.foldl (fun s j => setField_sameButMemory s x (batchSlot (s.ring x).size h j) .sts 0) _ s

theorem setRecord_sameButMemory (s : State) (x : Ring) (b l c t : Word) (i : Nat) :
    SameButMemory s (s.setRecord x b l c t i) :=
  (((setField_sameButMemory ..).trans (setField_sameButMemory ..)).trans
    (setField_sameButMemory ..)).trans (setField_sameButMemory ..)

theorem copyUp_sameButMemory (s : State) (d a : Word) (len : Nat) :
    SameButMemory s (s.copyUp d a len) := SameButMemory.foldl (fun _ _ => poke_sameButMemory ..) _ s

theorem overRange_sameButMemory {f : State → Word → State} (hf : ∀ s a, SameButMemory s (f s a))
    (a : Word) (len : Nat) (s : State) : SameButMemory s (overRange f a len s) :=
  SameButMemory.foldl (fun _ _ => hf ..) _ s

theorem pokeList_sameButMemory (s : State) (v : View) (a : Word) (l : List Byte) :
    SameButMemory s (s.pokeList v a l) := by
  induction l generalizing s a with
  | nil => exact .refl s
  | cons b l ih => exact (poke_sameButMemory ..).trans (ih ..)

theorem BytesKept.refl (s : State) (P : Word → Prop) : BytesKept s s P := fun _ _ _ => rfl

theorem BytesKept.trans {s t u : State} {P : Word → Prop} (h : BytesKept s t P)
    (k : BytesKept t u P) : BytesKept s u P := fun v a ha => (k v a ha).trans (h v a ha)

theorem BytesKept.mono {s t : State} {P Q : Word → Prop} (h : BytesKept s t P) (hPQ : ∀ a, P a → Q a) :
    BytesKept s t Q := fun v a ha => h v a fun hp => ha (hPQ a hp)

theorem poke_bytesKept (s : State) (v : View) (a : Word) (b : Byte) :
    BytesKept s (s.poke v a b) (· = a) := fun u _ h => State.peek_poke_ne s v u b h

theorem setField_bytesKept (s : State) (x : Ring) (i : Nat) (f : BdField) (w : Word) :
    BytesKept s (s.setField x i f w) (s.InField x i f) :=
  fun v _ h => State.peek_setField_outside s x i f w v h

end Sys2Proof.Machine
end

