-- ==== Sys2Proof/Laws/PerInstr.lean ====
section
/-! SUPPORT. Per instruction: the header that the encoder writes is a legal one of the instruction's own row of
the opcode map (R83, R91), with as many operand words as the row says, and they build the instruction again; a
dispatch event's word stands for the event's code (R95). -/

namespace Sys2Proof.Laws.EncodedHeader

open Sys2Proof

set_option Elab.async false

/-- The encoder's header of an instruction. -/
abbrev headerOf (i : Instr) : Word := header i.opcode i.ringSelect i.maskField i.countField

/-- What the family says of one instruction. -/
def Statement (i : Instr) : Prop :=
  i.wellFormed = true →
    (∃ r, opRow i.opcode = some r ∧ eventCode (headerOf i) = none ∧ r.legal (headerOf i) = true ∧
      i.operandWords.length = r.operands ∧ build (headerOf i) i.operandWords = some i) ∨
    (∃ e, eventCode (headerOf i) = some e ∧ decodeEvent e = some i ∧ i.operandWords = [])

theorem create (x : Ring) (n : Half) (b z a m : Word) : Statement (.create x n b z a m) := fun _ => by
  refine .inl ⟨_, rfl, ?_, ?_, rfl, ?_⟩
  · simp [eventCode, Instr.opcode]
  · simp [OpRow.legal, Instr.ringSelect, Instr.maskField, Instr.countField]
  · rw [build_header]; rfl

theorem initSlots (x : Ring) (b l c t : Word) : Statement (.initSlots x b l c t) := fun _ => by
  refine .inl ⟨_, rfl, ?_, ?_, rfl, ?_⟩
  · simp [eventCode, Instr.opcode]
  · simp [OpRow.legal, Instr.ringSelect, Instr.maskField, Instr.countField]
  · rw [build_header]; rfl

theorem reserve (x : Ring) (n : Half) : Statement (.reserve x n) := fun _ => by
  refine .inl ⟨_, rfl, ?_, ?_, rfl, ?_⟩
  · simp [eventCode, Instr.opcode]
  · simp [OpRow.legal, Instr.ringSelect, Instr.maskField, Instr.countField]
  · rw [build_header]; rfl

theorem unreserve (x : Ring) (n : Half) (d : Word) : Statement (.unreserve x n d) := fun _ => by
  refine .inl ⟨_, rfl, ?_, ?_, rfl, ?_⟩
  · simp [eventCode, Instr.opcode]
  · simp [OpRow.legal, Instr.ringSelect, Instr.maskField, Instr.countField]
  · rw [build_header]; rfl

theorem commit (x : Ring) (n : Half) (d : Word) : Statement (.commit x n d) := fun _ => by
  refine .inl ⟨_, rfl, ?_, ?_, rfl, ?_⟩
  · simp [eventCode, Instr.opcode]
  · simp [OpRow.legal, Instr.ringSelect, Instr.maskField, Instr.countField]
  · rw [build_header]; rfl

theorem drain (x : Ring) (n : Half) : Statement (.drain x n) := fun _ => by
  refine .inl ⟨_, rfl, ?_, ?_, rfl, ?_⟩
  · simp [eventCode, Instr.opcode]
  · simp [OpRow.legal, Instr.ringSelect, Instr.maskField, Instr.countField]
  · rw [build_header]; rfl

theorem free (x : Ring) (n : Half) (d : Word) : Statement (.free x n d) := fun _ => by
  refine .inl ⟨_, rfl, ?_, ?_, rfl, ?_⟩
  · simp [eventCode, Instr.opcode]
  · simp [OpRow.legal, Instr.ringSelect, Instr.maskField, Instr.countField]
  · rw [build_header]; rfl

theorem start (x : Ring) : Statement (.start x) := fun _ => by
  refine .inl ⟨_, rfl, ?_, ?_, rfl, ?_⟩
  · simp [eventCode, Instr.opcode]
  · simp [OpRow.legal, Instr.ringSelect, Instr.maskField, Instr.countField]
  · rw [build_header]; rfl

theorem stop (x : Ring) : Statement (.stop x) := fun _ => by
  refine .inl ⟨_, rfl, ?_, ?_, rfl, ?_⟩
  · simp [eventCode, Instr.opcode]
  · simp [OpRow.legal, Instr.ringSelect, Instr.maskField, Instr.countField]
  · rw [build_header]; rfl

theorem irqEnable (x : Ring) (m : BitVec 3) : Statement (.irqEnable x m) := fun _ => by
  refine .inl ⟨_, rfl, ?_, ?_, rfl, ?_⟩
  · simp [eventCode, Instr.opcode]
  · simp [OpRow.legal, Instr.ringSelect, Instr.maskField, Instr.countField]
  · rw [build_header]; rfl

theorem irqDisable (x : Ring) (m : BitVec 3) : Statement (.irqDisable x m) := fun _ => by
  refine .inl ⟨_, rfl, ?_, ?_, rfl, ?_⟩
  · simp [eventCode, Instr.opcode]
  · simp [OpRow.legal, Instr.ringSelect, Instr.maskField, Instr.countField]
  · rw [build_header]; rfl

theorem irqGet (x : Ring) : Statement (.irqGet x) := fun _ => by
  refine .inl ⟨_, rfl, ?_, ?_, rfl, ?_⟩
  · simp [eventCode, Instr.opcode]
  · simp [OpRow.legal, Instr.ringSelect, Instr.maskField, Instr.countField]
  · rw [build_header]; rfl

theorem irqAck (x : Ring) (m : BitVec 3) : Statement (.irqAck x m) := fun _ => by
  refine .inl ⟨_, rfl, ?_, ?_, rfl, ?_⟩
  · simp [eventCode, Instr.opcode]
  · simp [OpRow.legal, Instr.ringSelect, Instr.maskField, Instr.countField]
  · rw [build_header]; rfl

theorem reset : Statement .reset := fun _ => by
  refine .inl ⟨_, rfl, ?_, ?_, rfl, ?_⟩
  · simp [eventCode, Instr.opcode]
  · simp [OpRow.legal, Instr.ringSelect, Instr.maskField, Instr.countField]
  · rw [build_header]; rfl

theorem resetDone : Statement .resetDone := fun _ => by
  refine .inl ⟨_, rfl, ?_, ?_, rfl, ?_⟩
  · simp [eventCode, Instr.opcode]
  · simp [OpRow.legal, Instr.ringSelect, Instr.maskField, Instr.countField]
  · rw [build_header]; rfl

theorem bdSetAddr (x : Ring) (d a : Word) : Statement (.bdSetAddr x d a) := fun _ => by
  refine .inl ⟨_, rfl, ?_, ?_, rfl, ?_⟩
  · simp [eventCode, Instr.opcode]
  · simp [OpRow.legal, Instr.ringSelect, Instr.maskField, Instr.countField]
  · rw [build_header]; rfl

theorem bdSetLen (x : Ring) (d l : Word) : Statement (.bdSetLen x d l) := fun _ => by
  refine .inl ⟨_, rfl, ?_, ?_, rfl, ?_⟩
  · simp [eventCode, Instr.opcode]
  · simp [OpRow.legal, Instr.ringSelect, Instr.maskField, Instr.countField]
  · rw [build_header]; rfl

/-- The flags of `BD_SET_CTRL` leave nothing above `m[1:0]`. -/
theorem flags_of_bit2 : ∀ m : BitVec 3, m.getLsbD 2 = false → m &&& 4#3 = 0 := by decide

theorem bdSetCtrl (x : Ring) (m : BitVec 3) (d : Word) : Statement (.bdSetCtrl x m d) := fun h => by
  have hm : m.getLsbD 2 = false := by simpa [Instr.wellFormed] using h
  refine .inl ⟨⟨0x12, true, 3, false, 1⟩, rfl, ?_, ?_, rfl, ?_⟩
  · simp [eventCode, Instr.opcode]
  · simp [OpRow.legal, Instr.ringSelect, Instr.maskField, Instr.countField, flags_of_bit2 m hm]
  · rw [build_header]; rfl

theorem bdGetAddr (x : Ring) (d : Word) : Statement (.bdGetAddr x d) := fun _ => by
  refine .inl ⟨_, rfl, ?_, ?_, rfl, ?_⟩
  · simp [eventCode, Instr.opcode]
  · simp [OpRow.legal, Instr.ringSelect, Instr.maskField, Instr.countField]
  · rw [build_header]; rfl

theorem bdGetLen (x : Ring) (d : Word) : Statement (.bdGetLen x d) := fun _ => by
  refine .inl ⟨_, rfl, ?_, ?_, rfl, ?_⟩
  · simp [eventCode, Instr.opcode]
  · simp [OpRow.legal, Instr.ringSelect, Instr.maskField, Instr.countField]
  · rw [build_header]; rfl

theorem bdGetSts (x : Ring) (d : Word) : Statement (.bdGetSts x d) := fun _ => by
  refine .inl ⟨_, rfl, ?_, ?_, rfl, ?_⟩
  · simp [eventCode, Instr.opcode]
  · simp [OpRow.legal, Instr.ringSelect, Instr.maskField, Instr.countField]
  · rw [build_header]; rfl

theorem bdNext (x : Ring) (d : Word) : Statement (.bdNext x d) := fun _ => by
  refine .inl ⟨_, rfl, ?_, ?_, rfl, ?_⟩
  · simp [eventCode, Instr.opcode]
  · simp [OpRow.legal, Instr.ringSelect, Instr.maskField, Instr.countField]
  · rw [build_header]; rfl

theorem initEngine (n : Half) (a b c d e f g h i j k l : Word) : Statement (.initEngine n a b c d e f g h i j k l) := fun _ => by
  refine .inl ⟨_, rfl, ?_, ?_, rfl, ?_⟩
  · simp [eventCode, Instr.opcode]
  · simp [OpRow.legal, Instr.ringSelect, Instr.maskField, Instr.countField]
  · rw [build_header]; rfl

theorem transmit (b z : Word) : Statement (.transmit b z) := fun _ => by
  refine .inl ⟨_, rfl, ?_, ?_, rfl, ?_⟩
  · simp [eventCode, Instr.opcode]
  · simp [OpRow.legal, Instr.ringSelect, Instr.maskField, Instr.countField]
  · rw [build_header]; rfl

theorem irqRx : Statement .irqRx := fun _ => .inr ⟨2#2, by decide, by decide, rfl⟩

theorem irqTx : Statement .irqTx := fun _ => .inr ⟨3#2, by decide, by decide, rfl⟩

end Sys2Proof.Laws.EncodedHeader
end

