-- ==== Sys2Proof/Laws/Step.lean ====
section
/-! SUPPORT. The step taken apart: when a step answers a next state, what the two ports yield, which move comes
next, and that every instruction answers a next state. -/

namespace Sys2Proof.Machine

/-! ### The schedule -/

@[simp] theorem State.popAgenda_agenda (s : State) : s.popAgenda.agenda = s.agenda.tail := rfl

@[simp] theorem State.popAgenda_baseLevel (s : State) : s.popAgenda.baseLevel = s.baseLevel := rfl

@[simp] theorem State.popAgenda_isDescriptorByte (s : State) (a : Word) :
    s.popAgenda.isDescriptorByte a = s.isDescriptorByte a := rfl

@[simp] theorem State.popAgenda_peek (s : State) (v : View) (a : Word) :
    s.popAgenda.peek v a = s.peek v a := rfl

@[simp] theorem State.popAgenda_getField (s : State) (x : Ring) (i : Nat) (f : BdField) :
    s.popAgenda.getField x i f = s.getField x i f := rfl

theorem State.nextMove_cons {s : State} {m : Move} {ms : List Move} (h : s.agenda = m :: ms) :
    s.nextMove = m := by simp [State.nextMove, h]

/-- With an empty schedule the top context of the processor steps. -/
theorem State.nextMove_undisturbed {s : State} {a : Agent} (h : s.undisturbed a) :
    s.nextMove = .cpu := by
  obtain ⟨-, ha, ht⟩ := h
  have : s.stack ≠ [] := fun h => by simp [State.top, h] at ht
  simp [State.nextMove, ha, this]

theorem State.undisturbed.turnOf {s : State} {a : Agent} (h : s.undisturbed a) : s.turnOf a :=
  ⟨h.1, State.nextMove_undisturbed h, h.2.2⟩

/-! ### One step -/

theorem step_unmarked {s : State} (h : s.unmarked) : step s = runMove s.nextMove s.popAgenda := by
  simp [step, h.1, h.2]

/-- A step that answers a next state started without a mark and ran the next move. -/
theorem step_next {s t : State} (h : step s = .next t) :
    s.unmarked ∧ runMove s.nextMove s.popAgenda = .next t := by
  unfold step at h
  split at h
  · cases h
  · split at h
    · cases h
    · exact ⟨⟨‹_›, by simpa using ‹¬s.refused = true›⟩, h⟩

theorem latchedPrimitive_handler {s : State} {a : Agent} (h : s.top = some a) (ha : a ≠ .sync) :
    s.latchedPrimitive = none := by
  have : s.primitiveTurn = false := by
    cases hp : s.primitiveTurn
    · rfl
    · exact absurd (Option.some.inj (h.symm.trans ((primitiveTurn_iff s).1 hp).2)) ha
  simp [State.latchedPrimitive, this]

theorem latchedPrimitive_op {s : State} (h : s.sync.op ≠ .primitive) : s.latchedPrimitive = none := by
  simp [State.latchedPrimitive, State.primitiveTurn, h]

theorem latchedPrimitive_turn {s : State} {i : Instr} (ho : s.sync.op = .primitive)
    (ht : s.top = some .sync) (hi : s.sync.prim = some i) : s.latchedPrimitive = some i := by
  simp [State.latchedPrimitive, (primitiveTurn_iff s).2 ⟨ho, ht⟩, hi]

/-- The micro-step of the agent whose turn it is, but for a direct primitive's. -/
theorem step_turnOf {s : State} {a : Agent} (h : s.turnOf a) (hp : a ≠ .sync ∨ s.sync.op ≠ .primitive) :
    step s = .next (match (generalizing := false) a with
      | .sync => syncStep s.popAgenda
      | .rxh => rxhStep s.popAgenda
      | .txh => txhStep s.popAgenda) := by
  obtain ⟨hu, hm, ht⟩ := h
  have ht' : s.popAgenda.top = some a := ht
  have hl : s.popAgenda.latchedPrimitive = none :=
    hp.elim (latchedPrimitive_handler ht') fun hp => latchedPrimitive_op hp
  rw [step_unmarked hu, hm]
  cases a <;> simp [runMove, cpuStep, ht', hl]

/-- The micro-step of a direct primitive in progress is the primitive's meaning. -/
theorem step_primitive {s : State} {i : Instr} (h : s.turnOf .sync) (ho : s.sync.op = .primitive)
    (hi : s.sync.prim = some i) : step s = exec i s.popAgenda := by
  have hl : s.popAgenda.latchedPrimitive = some i := latchedPrimitive_turn ho h.2.2 hi
  rw [step_unmarked h.1, h.2.1]
  simp [runMove, hl]

/-- Every move but the two ports' and a direct primitive's micro-step answers a next state by itself. -/
theorem runMove_agent {m : Move} (s : State) (h₁ : m ≠ .command) (h₂ : m ≠ .dispatch)
    (h₃ : m = .cpu → s.latchedPrimitive = none) : runMove m s = .next (agentMove m s) := by
  cases m <;> first | rfl | exact absurd rfl h₁ | exact absurd rfl h₂ | simp [runMove, agentMove, h₃]

/-! ### The ports -/

theorem fetchCommand_waits {s : State} (h : ¬s.atBase) : fetchCommand s = .answered s := by
  have : s.baseLevel = false := by
    cases hb : s.baseLevel
    · rfl
    · exact absurd ((baseLevel_iff s).1 hb) h
  simp [fetchCommand, this]

theorem fetchCommand_runs {s : State} {i : Instr} {rest : List Word} (h : s.atBase)
    (hd : decodeCommand s.cmdPort = .instr i rest) :
    fetchCommand s = .run i { s with cmdPort := rest } := by
  simp [fetchCommand, (baseLevel_iff s).2 h, hd]

/-- What the command port yields: an instruction at base level, or an answer that changes only the port and
the trace. -/
theorem fetchCommand_cases (s : State) :
    (∃ i rest, s.atBase ∧ decodeCommand s.cmdPort = .instr i rest ∧
      fetchCommand s = .run i { s with cmdPort := rest }) ∨
    (∃ op rest, s.atBase ∧ decodeCommand s.cmdPort = .invalidCommand op rest ∧
      fetchCommand s = .answered ({ s with cmdPort := rest }.emit (.ret op .invalidCommand []))) ∨
    fetchCommand s = .answered s := by
  unfold fetchCommand
  cases hb : s.baseLevel
  · exact .inr (.inr rfl)
  · have hB := (baseLevel_iff s).1 hb
    cases hd : decodeCommand s.cmdPort with
    | instr i rest => exact .inl ⟨i, rest, hB, rfl, by simp⟩
    | invalidCommand op rest => exact .inr (.inl ⟨op, rest, hB, rfl, by simp⟩)
    | incomplete => exact .inr (.inr (by simp))

/-- What the dispatch port yields: one of the two events, or nothing but a consumed code. -/
theorem fetchEvent_cases (s : State) :
    (∃ x rest, fetchEvent s = .run (match (generalizing := false) x with | Ring.rx => .irqRx | .tx => .irqTx)
      { s with evtPort := rest }) ∨
    (∃ rest, fetchEvent s = .answered { s with evtPort := rest }) := by
  unfold fetchEvent decodeEvent
  split
  · exact .inr ⟨s.evtPort, rfl⟩
  · rename_i e rest h
    by_cases h2 : e = 2#2
    · exact .inl ⟨.rx, rest, by simp [h2]⟩
    · by_cases h3 : e = 3#2
      · exact .inl ⟨.tx, rest, by simp [h3]⟩
      · exact .inr ⟨rest, by simp [h2, h3]⟩

/-! ### Every instruction answers a next state -/

/-- Whatever the instruction and the state: a fault or a refusal of the spec sets a mark, with which the
following step stops (R34). -/
theorem exec_answers (i : Instr) (s : State) : ∃ t, exec i s = .next t := by
  cases i <;>
    first
    | exact ⟨_, rfl⟩
    | (simp only [exec, execInitEngine, execTransmit]; split <;> exact ⟨_, rfl⟩)

/-- An unmarked state steps to a next state. -/
theorem step_answers {s : State} (h : s.unmarked) : ∃ t, step s = .next t := by
  rw [step_unmarked h]
  cases hm : s.nextMove <;> try exact ⟨_, rfl⟩
  · simp only [runMove]
    split
    · exact exec_answers ..
    · exact ⟨_, rfl⟩
  · simp only [runMove]
    split
    · exact exec_answers ..
    · exact ⟨_, rfl⟩
  · simp only [runMove]
    split
    · exact exec_answers ..
    · exact ⟨_, rfl⟩

/-! ### Several steps -/

@[simp] theorem steps_zero (s : State) : steps 0 s = .next s := rfl

theorem steps_succ_of_next {s t : State} (k : Nat) (h : step s = .next t) :
    steps (k + 1) s = steps k t := by simp [steps, h]

/-- A run of `j` steps followed by a run of `k` steps. -/
theorem steps_add {s t : State} (j k : Nat) (h : steps j s = .next t) :
    steps (j + k) s = steps k t := by
  induction j generalizing s with
  | zero => cases h; rw [Nat.zero_add]
  | succ j ih =>
    rw [show j + 1 + k = (j + k) + 1 by omega]
    cases hs : step s with
    | next u => simp only [steps, hs] at h ⊢; exact ih h
    | fault f => simp [steps, hs] at h
    | refused r => simp [steps, hs] at h

end Sys2Proof.Machine
end

