-- ==== Sys2Proof/Tests/Slice0.lean ====
section
/-! SUPPORT. The model's own tests. Expected values come from the spec's test vectors (95_test_vectors.md) or
are worked by hand from the rules. For every statement with hypotheses, one theorem shows a concrete state that
meets them all. -/

namespace Sys2Proof.Tests

open Sys2Proof Sys2Proof.Machine

set_option Elab.async false

/-! ### Helpers -/

/-- The state after an outcome. -/
def after : Outcome → State
  | .next t => t
  | .fault _ | .refused _ => State.reset

/-- The last event of the trace. -/
def lastOut (s : State) : Option Event := s.out.getLast?

/-- Two words of one descriptor: its buffer address and its length, `CTRL` and `STS` 0. -/
def putRecord (m : Memory) (a buf len ctrl sts : Word) : Memory :=
  (((m.writeWord a buf).writeWord (a + 4) len).writeWord (a + 8) ctrl).writeWord (a + 12) sts

/-- The records of a 4-slot RX ring at 0x1000 and a 1-slot TX ring at 0x11000, stride 64, and four bytes of
payload at 0x40000. -/
def records : Memory :=
  (putRecord (putRecord (putRecord (putRecord (putRecord ⟨[]⟩ 0x1000 0x20000 0x100 0 1)
    0x1040 0x20100 0x100 0 5) 0x1080 0x20200 0x100 0 3) 0x10C0 0x20300 0x100 0 0)
    0x11000 0x30000 2 3 0).writeWord 0x40000 0x44332211

/-- RING-B of the spec with the given head and counts. -/
def rxRing (head post hw done pre free : Half) : RingRegs :=
  { created := true, base := 0x1000, slotCount := 4, slotStride := 64, maxLen := 0xFFFF, regionSize := 0x100,
    postHead := head, postCnt := post, hwCnt := hw, doneCnt := done, preCnt := pre, freeCnt := free,
    run := false, irqEn := 0, irqPend := 0 }

/-- A 1-slot TX ring with the given counts. -/
def txRing (post hw done pre free : Half) : RingRegs :=
  { created := true, base := 0x11000, slotCount := 1, slotStride := 64, maxLen := 0xFFFF, regionSize := 0x40,
    postHead := 0, postCnt := post, hwCnt := hw, doneCnt := done, preCnt := pre, freeCnt := free,
    run := false, irqEn := 0, irqPend := 0 }

/-- `s` with a direct primitive in progress. -/
def inProgress (s : State) : State :=
  { s with stack := [.sync], sync := { s.sync with op := .primitive } }

/-- The machine after reset with a direct primitive in progress. -/
abbrev fresh : State := inProgress State.reset

/-- A state in `Uninit` with RX ring `r` and an idle TX ring, a direct primitive in progress. -/
def bare (r : RingRegs) : State :=
  inProgress
    { State.reset with rx := r, tx := txRing 0 0 0 0 1, memSw := records, memHw := records }

/-- A state in `Ready` whose processor runs agent `a`, handlers bound, both channels running. -/
def running (a : Agent) (r t : RingRegs) : State :=
  { State.reset with
    engState := .ready
    cfgValid := true
    cfg := { EngCfg.zero with bufSize := 0x100, txBufBase := 0x30000, callback := 0x8000, userCtx := 7 }
    rx := { r with run := true }
    tx := { t with run := true }
    stack := [a]
    memSw := records
    memHw := records }

theorem rxRing_ok : (rxRing 0 0 4 2 0 0).Ok := by constructor <;> decide

/-! ### Well-formedness -/

theorem test_bd_set_ctrl_m2_is_ill_formed : (Instr.bdSetCtrl .tx 4 0x11000).wellFormed = false := by
  decide

theorem test_bd_set_ctrl_flags_are_well_formed : (Instr.bdSetCtrl .tx 3 0x11000).wellFormed = true := by
  decide

/-! ### Decoding: one word of every row, written out from 95_test_vectors.md section 2.1 -/

theorem test_decode_create :
    decode [0x01000004, 0x00001000, 0x00000100, 0x00000040, 0x0000FFFF] =
      .instr (.create .rx 4 0x1000 0x100 64 0xFFFF) [] := by decide

theorem test_decode_init_slots :
    decode [0x02800000, 1, 2, 3, 4] = .instr (.initSlots .tx 1 2 3 4) [] := by decide

theorem test_decode_reserve : decode [0x03000003] = .instr (.reserve .rx 3) [] := by decide

theorem test_decode_unreserve :
    decode [0x04800001, 0x00011000] = .instr (.unreserve .tx 1 0x11000) [] := by decide

theorem test_decode_commit :
    decode [0x05800001, 0x00011000] = .instr (.commit .tx 1 0x11000) [] := by decide

theorem test_decode_drain : decode [0x0600FFFF] = .instr (.drain .rx 65535) [] := by decide

theorem test_decode_free :
    decode [0x07000002, 0x00001000] = .instr (.free .rx 2 0x1000) [] := by decide

theorem test_decode_start : decode [0x08800000] = .instr (.start .tx) [] := by decide

theorem test_decode_stop : decode [0x09000000] = .instr (.stop .rx) [] := by decide

theorem test_decode_irq_enable : decode [0x0A870000] = .instr (.irqEnable .tx 7) [] := by decide

theorem test_decode_irq_disable : decode [0x0B070000] = .instr (.irqDisable .rx 7) [] := by decide

theorem test_decode_irq_get : decode [0x0C000000] = .instr (.irqGet .rx) [] := by decide

theorem test_decode_irq_ack : decode [0x0D050000] = .instr (.irqAck .rx 5) [] := by decide

theorem test_decode_reset : decode [0x0E000000] = .instr .reset [] := by decide

theorem test_decode_reset_done : decode [0x0F000000] = .instr .resetDone [] := by decide

theorem test_decode_bd_set_addr :
    decode [0x10000000, 0x00001000, 0x00002000] = .instr (.bdSetAddr .rx 0x1000 0x2000) [] := by
  decide

theorem test_decode_bd_set_len :
    decode [0x11000000, 0x00001000, 0x00000100] = .instr (.bdSetLen .rx 0x1000 0x100) [] := by decide

theorem test_decode_bd_set_ctrl :
    decode [0x12830000, 0x00011000] = .instr (.bdSetCtrl .tx 3 0x11000) [] := by decide

theorem test_decode_bd_get_addr :
    decode [0x13000000, 0x00001040] = .instr (.bdGetAddr .rx 0x1040) [] := by decide

theorem test_decode_bd_get_len :
    decode [0x14000000, 0x00001040] = .instr (.bdGetLen .rx 0x1040) [] := by decide

theorem test_decode_bd_get_sts :
    decode [0x15000000, 0x00001040] = .instr (.bdGetSts .rx 0x1040) [] := by decide

theorem test_decode_bd_next :
    decode [0x16000000, 0x000010C0] = .instr (.bdNext .rx 0x10C0) [] := by decide

theorem test_decode_initialize :
    decode [0x20000004, 1, 0x3D, 0xA0, 0x3E, 0xA1, 0x10000, 0x11000, 0x100, 0x20000, 0x30000, 0x8000,
        0xC0DE] =
      .instr (.initEngine 4 1 61 0xA0 62 0xA1 0x10000 0x11000 0x100 0x20000 0x30000 0x8000 0xC0DE)
        [] := by decide

theorem test_decode_transmit :
    decode [0x21000000, 0x00040000, 0x00000100] = .instr (.transmit 0x40000 0x100) [] := by decide

theorem test_decode_irq_rx : decodeEvent 0b10#2 = some .irqRx := by decide

theorem test_decode_irq_tx : decodeEvent 0b11#2 = some .irqTx := by decide

/-- The illegal headers of section 2.1, each answered with its own opcode field and the operand left. -/
theorem test_decode_illegal :
    ([0x03080003, 0xFF000000, 0x00000000, 0x17000000, 0x22000000, 0x08000001, 0x0E800000, 0x12840000,
      0x03010003, 0x30000000, 0x31000000] : List Word).all
        (fun w => decodeCommand [w, 9] == .invalidCommand (opField w) [9]) = true := by decide

theorem test_decode_waits_for_operands : decodeCommand [0x04800001] = .incomplete := by decide

/-- The host's view of a row: the words above the given bits are 0. -/
theorem test_table_word : decodeTableWord 32 0x04800001 = some (.unreserve .tx 1 0) := by
  decide +kernel

/-! ### One step of each instruction (95_test_vectors.md section 2.2 and the rules' own examples) -/

theorem test_create :
    let t := after (exec (.create .rx 4 0x1000 0x100 64 0xFFFF) fresh)
    (t.rx.created, t.rx.slotStride, t.rx.freeCnt, lastOut t, t.stack, t.sync.op) =
      (true, 64, 4, some (.ret 0x01 .success []), [], .none) := by decide +kernel

theorem test_create_misaligned :
    lastOut (after (exec (.create .rx 4 0x1020 0x100 64 0xFFFF) fresh)) =
      some (.ret 0x01 .ringRegionMisaligned []) := by decide +kernel

/-- A placed table word runs in the very next step: `RESET_DONE` answers 0. -/
theorem test_placed_word_runs :
    (after (step (State.reset.withFetchWord 32 0x0F000000))).out = [.ret 0x0F .success [0]] := by
  decide +kernel

theorem test_init_slots :
    let t := after (exec (.initSlots .rx 0 0 0 0) (bare (rxRing 0 0 0 0 0 4)))
    (t.getField .rx 2 .sts, t.getField .rx 3 .bufAddr, lastOut t) =
      (0, 0, some (.ret 0x02 .success [])) := by decide +kernel

theorem test_init_slots_reserved :
    lastOut (after (exec (.initSlots .rx 0 0 0 0) (bare (rxRing 0 0 0 0 1 3)))) =
      some (.ret 0x02 .ringOrderViolation []) := by decide +kernel

/-- The example of R113: the batch of three begins at slot 3. -/
theorem test_reserve_wraps :
    let t := after (exec (.reserve .rx 3) (bare (rxRing 2 0 1 0 0 3)))
    (t.rx.preCnt, t.rx.freeCnt, lastOut t) = (3, 0, some (.ret 0x03 .success [0x10C0])) := by
  decide +kernel

theorem test_reserve_too_many :
    lastOut (after (exec (.reserve .rx 5) (bare (rxRing 0 0 0 0 0 4)))) =
      some (.ret 0x03 .noSlotsAvailable []) := by decide +kernel

theorem test_unreserve_newest :
    let t := after (exec (.unreserve .rx 1 0x1080) (bare (rxRing 0 0 0 0 3 1)))
    (t.rx.preCnt, t.rx.freeCnt, t.rx.freeHead) = (2, 2, 2) := by decide +kernel

theorem test_unreserve_oldest_fails :
    lastOut (after (exec (.unreserve .rx 1 0x1000) (bare (rxRing 0 0 0 0 3 1)))) =
      some (.ret 0x04 .ringOrderViolation []) := by decide +kernel

theorem test_commit_clears_status :
    let t := after (exec (.commit .rx 2 0x1000) (bare (rxRing 0 0 0 0 3 1)))
    (t.rx.hwCnt, t.rx.preCnt, t.getField .rx 0 .sts, t.getField .rx 1 .sts, t.getField .rx 2 .sts) =
      (2, 1, 0, 0, 3) := by decide +kernel

theorem test_commit_not_oldest :
    lastOut (after (exec (.commit .rx 3 0x1040) (bare (rxRing 0 0 0 0 3 1)))) =
      some (.ret 0x05 .ringOrderViolation []) := by decide +kernel

theorem test_drain :
    let t := after (exec (.drain .rx 4) (bare (rxRing 3 0 3 2 0 1)))
    (t.rx.postCnt, t.rx.hwCnt, t.rx.doneCnt, lastOut t) =
      (2, 1, 0, some (.ret 0x06 .success [2, 0x10C0])) := by decide +kernel

theorem test_drain_zero :
    lastOut (after (exec (.drain .rx 0) (bare (rxRing 0 0 3 2 0 1)))) =
      some (.ret 0x06 .success [0, 0]) := by decide +kernel

theorem test_free_wraps :
    let t := after (exec (.free .rx 2 0x10C0) (bare (rxRing 3 2 1 0 0 1)))
    (t.rx.postHead, t.rx.postCnt, t.rx.freeCnt) = (1, 0, 3) := by decide +kernel

theorem test_start_not_created :
    lastOut (after (exec (.start .rx) fresh)) = some (.ret 0x08 .ringNotCreated []) := by
  decide +kernel

theorem test_start : (after (exec (.start .rx) (bare (rxRing 0 0 3 1 0 1)))).rx.run = true := by
  decide +kernel

theorem test_stop :
    (after (exec (.stop .rx) (running .rxh (rxRing 0 0 3 1 0 1) (txRing 0 0 0 0 1)))).refused =
      true := by decide +kernel

theorem test_irq_enable_raises_line :
    let r := { rxRing 0 0 0 0 0 4 with irqEn := 6, irqPend := 1 }
    (r.irqLine, (after (exec (.irqEnable .rx 1) (bare r))).rx.irqLine) = (false, true) := by
  decide +kernel

theorem test_irq_disable :
    (after (exec (.irqDisable .rx 3) (bare { rxRing 0 0 0 0 0 4 with irqEn := 7 }))).rx.irqEn = 4 := by
  decide +kernel

theorem test_irq_ack :
    (after (exec (.irqAck .rx 1) (bare { rxRing 0 0 0 0 0 4 with irqPend := 5 }))).rx.irqPend = 4 := by
  decide +kernel

/-- The latch is what the low bits of the status word show, whatever the free bits are. -/
theorem test_irq_get (u : BitVec 29) : recognised (irqStatusWord u 5) = 5 := by
  apply BitVec.eq_of_getLsbD_eq
  intro i hi
  simp only [recognised, irqStatusWord, BitVec.getLsbD_extractLsb', BitVec.getLsbD_append]
  simp [hi]

theorem test_reset :
    let t := after (exec .reset (bare { rxRing 0 0 3 1 0 1 with run := true, irqEn := 7, irqPend := 5 }))
    (t.rx.run, t.rx.irqEn, t.rx.irqPend, t.rx.hwCnt, t.engState, t.ctl.resetting) =
      (false, 0, 0, 3, .halted, true) := by decide +kernel

theorem test_reset_done :
    lastOut (after (exec .resetDone { fresh with ctl := ⟨false, true, false⟩ })) =
      some (.ret 0x0F .success [1]) := by decide +kernel

/-- The four bytes of R53, ascending: `00 20 00 00` for 0x2000. -/
theorem test_bd_set_addr :
    let t := after (exec (.bdSetAddr .rx 0x1040 0x2000) (bare (rxRing 0 0 0 0 3 1)))
    (t.peekList .hw 0x1040 4, t.peekList .sw 0x1040 4) =
      ([0x00, 0x20, 0x00, 0x00], [0x00, 0x20, 0x00, 0x00]) := by decide +kernel

theorem test_bd_set_len_over_max :
    lastOut (after (exec (.bdSetLen .rx 0x1000 0x10000) (bare (rxRing 0 0 0 0 3 1)))) =
      some (.ret 0x11 .invalidParameter []) := by decide +kernel

theorem test_bd_set_len_posted :
    lastOut (after (exec (.bdSetLen .rx 0x1000 0x10) (bare (rxRing 0 0 3 0 0 1)))) =
      some (.ret 0x11 .ringOrderViolation []) := by decide +kernel

theorem test_bd_set_ctrl :
    (after (exec (.bdSetCtrl .tx 2 0x11000) { bare (rxRing 0 0 0 0 0 4) with
      tx := txRing 0 0 0 1 0 })).getField .tx 0 .ctrl = 2 := by decide +kernel

theorem test_bd_get_addr :
    lastOut (after (exec (.bdGetAddr .rx 0x1080) (bare (rxRing 0 0 0 0 0 4)))) =
      some (.ret 0x13 .success [0x20200]) := by decide +kernel

theorem test_bd_get_len_bad_reference :
    lastOut (after (exec (.bdGetLen .rx 0x1100) (bare (rxRing 0 0 0 0 0 4)))) =
      some (.ret 0x14 .invalidParameter []) := by decide +kernel

theorem test_bd_get_sts :
    lastOut (after (exec (.bdGetSts .rx 0x1080) (bare (rxRing 0 3 0 0 0 1)))) =
      some (.ret 0x15 .success [3]) := by decide +kernel

/-- R131 and D3: the reserved bits of a word that nothing has initialised read 0. -/
theorem test_bd_get_sts_reserved :
    lastOut (after (exec (.bdGetSts .rx 0x1080)
      ((bare (rxRing 0 0 0 0 0 4)).setField .rx 2 .sts 0xFFFFFFF5))) =
      some (.ret 0x15 .success [5]) := by decide +kernel

/-- R62: a byte of the descriptor region past the slots is coherent, the byte after the region is not. -/
theorem test_region_is_coherent :
    let s := { State.reset with rx := { rxRing 0 0 0 0 0 4 with regionSize := 0x101 } }
    (s.isDescriptorByte 0x1100, s.isDescriptorByte 0x1101, (s.poke .sw 0x1100 7).peek .hw 0x1100) =
      (true, false, 7) := by decide +kernel

/-- R150: acceptance is a step of its own, the primitive the next. -/
theorem test_direct_primitive_takes_two_steps :
    let s := { State.reset with cmdPort := [0x0F000000] }
    let t := after (step s)
    ((t.csrG .syncStep).extractLsb' 8 2, t.sync.step, t.stack, t.out, (after (step t)).out) =
      (3, 0, [.sync], [], [.ret 0x0F .success [0]]) := by decide +kernel

theorem test_bd_next_wraps :
    lastOut (after (exec (.bdNext .rx 0x10C0) (bare (rxRing 0 0 0 0 0 4)))) =
      some (.ret 0x16 .success [0x1000]) := by decide +kernel

theorem test_initialize_accepted :
    let t := after (exec (.initEngine 4 1 61 0xA0 62 0xA1 0x10000 0x11000 0x100 0x20000 0x30000 0x8000
      0xC0DE) State.reset)
    (t.stack, t.sync.op, t.sync.cfg.txPrio, t.sync.cfg.userCtx, t.refused) =
      ([.sync], .initEngine, 0xA1, 0xC0DE, false) := by decide +kernel

theorem test_transmit_refused_before_initialize :
    (after (exec (.transmit 0x40000 0x100) State.reset)).refused = true := by decide +kernel

theorem test_irq_rx_enters :
    let s := running .sync (rxRing 0 0 4 0 0 0) (txRing 0 0 0 0 1)
    let t := after (exec .irqRx { s with rx := { s.rx with irqEn := 7, irqPend := 1 } })
    (t.stack, t.rs.complete) = ([.sync, .rxh], false) := by decide +kernel

theorem test_irq_tx_masked :
    let s := running .sync (rxRing 0 0 4 0 0 0) { txRing 0 1 1 0 0 with irqPend := 1 }
    (after (exec .irqTx s)).stack = [.sync] := by decide +kernel

/-! ### Witnesses: for each statement with hypotheses, a state and operands that meet them all -/

/-- An RX ring with three reserved slots and one free. -/
abbrev reserved3 : State := bare (rxRing 0 0 0 0 3 1)

/-- `s` at base level with the words of an instruction waiting on the command port, the schedule asking for
it. -/
def commanded (i : Instr) (s : State) : State :=
  { s with
    stack := []
    sync := { s.sync with op := .none }
    cmdPort := encode i ++ [9]
    agenda := [.command] }

/-- `s` with primitive `i` in progress, its micro-step next. -/
def latched (i : Instr) (s : State) : State :=
  { s with sync := { s.sync with prim := some i }, agenda := [.cpu] }

/-- A whole-state equation that a step meets. -/
theorem step_after_reserve :
    step (latched (.reserve .rx 1) reserved3) =
      .next (after (step (latched (.reserve .rx 1) reserved3))) := rfl

theorem witness_DecodeInvertsEncode : (Instr.bdSetCtrl .tx 3 0x11000).wellFormed = true := by decide

theorem witness_DecodedCommandReencodes :
    decodeCommand [0x03000003, 9] = .instr (.reserve .rx 3) [9] := by decide

theorem witness_StepRunsInstruction :
    ((commanded (.reserve .rx 1) reserved3).unmarked ∧
      (commanded (.reserve .rx 1) reserved3).nextMove = .command ∧
      (commanded (.reserve .rx 1) reserved3).atBase ∧
      decodeCommand (commanded (.reserve .rx 1) reserved3).cmdPort = .instr (.reserve .rx 1) [9]) ∧
    ((latched (.reserve .rx 1) reserved3).turnOf .sync ∧
      (latched (.reserve .rx 1) reserved3).sync.op = .primitive ∧
      (latched (.reserve .rx 1) reserved3).sync.prim = some (.reserve .rx 1)) ∧
    ¬({ reserved3 with stack := [.rxh], agenda := [.command] } : State).atBase ∧
    ({ State.reset with evtPort := [2#2] } : State).nextMove = .dispatch ∧
    ({ State.reset with evtPort := [3#2] } : State).nextMove = .dispatch ∧
    ({ State.reset with evtPort := [1#2] } : State).nextMove = .dispatch := by decide +kernel

/-- One header for each way to be illegal: `n`, opcode, ring, `m`, `rsv`. -/
theorem witness_IllegalHeaderIsAnswered :
    (IllegalHeader 0x08000001 ∧ IllegalHeader 0xFF000000 ∧ IllegalHeader 0x0E800000 ∧
      IllegalHeader 0x12840000 ∧ IllegalHeader 0x03080003) ∧
    ({ State.reset with cmdPort := [0x08000001, 9] } : State).nextMove = .command ∧
    State.reset.unmarked ∧ State.reset.atBase :=
  ⟨by refine ⟨?_, ?_, ?_, ?_, ?_⟩ <;> (intro r; revert r; decide), by decide +kernel⟩

theorem witness_MarkedStateStops :
    ({ State.reset with fault := some .noCallback } : State).fault = some .noCallback ∧
    ({ State.reset with refused := true } : State).fault = none := by decide

theorem witness_PowerOnIsQuiet :
    ({ State.reset with agenda := [.raise .rx .error] } : State).unmarked ∧
    ({ State.reset with agenda := [.raise .rx .error] } : State).nextMove = .raise .rx .error ∧
    ({ State.reset with agenda := [.dispatch] } : State).nextMove = .dispatch ∧
    State.reset.rx.created = false ∧ State.reset.tx.created = false ∧
    State.reset.ctl.resetting = false ∧ State.reset.cfgValid = false ∧ State.reset.stack = [] := by
  decide +kernel

theorem witness_StepKeepsRingsOk : (latched (.reserve .rx 1) reserved3).RingsOk := by
  intro x _
  cases x <;> constructor <;> decide

theorem witness_StepKeepsStackOk : (latched (.reserve .rx 1) reserved3).StackOk := by
  constructor <;> decide

theorem witness_StepKeepsMemoryOk :
    (latched (.reserve .rx 1) reserved3).MemoryOk ∧ (latched (.reserve .rx 1) reserved3).MarksOk := by
  unfold State.MemoryOk Memory.wf State.MarksOk; decide +kernel

theorem witness_StepKeepsHaltedQuiet : ({ State.reset with engState := .halted } : State).HaltedQuiet := by
  intro _ x; cases x <;> decide

theorem witness_RxLockoutPersists :
    (running .txh (rxRing 0 0 4 4 0 0) (txRing 0 1 1 0 0)).LockedOut ∧
    (after (step (running .txh (rxRing 0 0 4 4 0 0) (txRing 0 1 1 0 0)))).engState = .ready := by
  unfold State.LockedOut; decide +kernel

theorem witness_SlotsMoveAlongTheCycle :
    (latched (.reserve .rx 1) reserved3).rx.created = true ∧ 3 < reserved3.rx.size ∧
    (latched (.reserve .rx 1) reserved3).rx.slotState 3 = .free ∧
    (after (step (latched (.reserve .rx 1) reserved3))).rx.slotState 3 = .reserved := by
  decide +kernel

theorem witness_SlotReferenceRoundTrip :
    (rxRing 0 0 4 2 0 0).Ok ∧ (rxRing 0 0 4 2 0 0).idx 0x10C0 = some 3 :=
  ⟨rxRing_ok, by decide +kernel⟩

theorem witness_CreateCompletes :
    fresh.directReady ∧ (fresh.ring .rx).run = false ∧ (16 : Half) ≠ 0 ∧
    (0xFFFF : Word) ≠ 0 ∧ 4 ≤ (16 : Word).toNat ∧ (16 : Word) &&& (16 - 1) = 0 ∧
    (0xFFFFFF00 : Word).toNat % (16 : Word).toNat = 0 ∧
    (16 : Half).toNat * strideOf 16 ≤ (0x1000 : Word).toNat ∧
    (0xFFFFFF00 : Word).toNat + (16 : Half).toNat * strideOf 16 ≤ 2 ^ 32 := by decide +kernel

/-- The boundary values of each check: busy, alignment 2 and 48, a base off by 32, a region one byte short, one
slot past the top of memory. -/
theorem witness_CreateChecksInOrder :
    (bare { rxRing 0 0 0 0 0 4 with run := true }).rx.run = true ∧
    ¬4 ≤ (2 : Word).toNat ∧ (48 : Word) &&& (48 - 1) ≠ 0 ∧ (64 : Word) &&& (64 - 1) = 0 ∧
    (0x1020 : Word).toNat % (64 : Word).toNat ≠ 0 ∧
    ¬(4 : Half).toNat * strideOf 64 ≤ (0xFF : Word).toNat ∧
    ¬(0xFFFFFF00 : Word).toNat + (17 : Half).toNat * strideOf 16 ≤ 2 ^ 32 ∧
    fresh.directReady := by decide +kernel

theorem witness_CreateAlignsSlots :
    ∃ t, exec (.create .rx 4 0x1000 0x100 64 0xFFFF) fresh = answered t 0x01 [] ∧ 3 < (4 : Half).toNat :=
  ⟨(fresh.setRing .rx (RingRegs.reset.recreate 4 0x1000 0x100 64 0xFFFF)).dropMarks .rx, rfl, by decide⟩

theorem witness_InitSlotsCompletes :
    (bare (rxRing 0 0 0 0 0 4)).directReady ∧ (rxRing 0 0 0 0 0 4).created = true ∧
    (rxRing 0 0 0 0 0 4).Ok ∧ (rxRing 0 0 0 0 0 4).freeCnt = (rxRing 0 0 0 0 0 4).slotCount ∧
    (0xFFFF : Word) ≤ (rxRing 0 0 0 0 0 4).maxLen ∧ (3 : Word).toNat < 4 ∧ (15 : Word).toNat < 16 :=
  ⟨by decide, by decide, by constructor <;> decide, by decide, by decide, by decide, by decide⟩

theorem witness_ReserveCompletes :
    reserved3.directReady ∧ (reserved3.ring .rx).created = true ∧ (1 : Half) ≠ 0 ∧
    1 ≤ (reserved3.ring .rx).freeCnt := by decide +kernel

theorem witness_UnreserveCompletes :
    (reserved3.directReady ∧ Agent.rxh ∉ reserved3.stack ∧ Agent.txh ∉ reserved3.stack) ∧
    (3 : Half) ≤ reserved3.rx.preCnt ∧
    reserved3.rx.idx 0x1000 = some ((reserved3.rx.freeHead + 4 - (3 : Half).toNat) % 4) ∧
    reserved3.rx.size = 4 := by decide +kernel

theorem witness_CommitCompletes :
    reserved3.directReady ∧ (3 : Half) ≤ reserved3.rx.preCnt ∧
    reserved3.rx.idx 0x1000 = some reserved3.rx.preHead ∧
    (∀ j < (3 : Half).toNat, reserved3.getField .rx ((reserved3.rx.preHead + j) % reserved3.rx.size)
      .length ≠ 0 ∧ reserved3.getField .rx ((reserved3.rx.preHead + j) % reserved3.rx.size) .length ≤
        reserved3.rx.maxLen) := by decide +kernel

theorem reserved3_ok : reserved3.rx.Ok := by constructor <;> decide

/-- Both cases of the minimum, with `n = done_cnt` in the first alone. -/
theorem witness_DrainCompletes :
    (bare (rxRing 0 0 3 2 0 1)).directReady ∧ (2 : Half) ≤ (rxRing 0 0 3 2 0 1).doneCnt ∧
    (rxRing 0 0 3 2 0 1).doneCnt < 3 ∧
    (let t := after (exec (.drain .rx 4) (bare (rxRing 0 0 3 2 0 1)))
     t.rx.postCnt = 2 ∧ (after (exec (.drain .rx 4) t)).directReady) := by decide +kernel

theorem witness_FreeCompletes :
    (bare (rxRing 3 2 1 0 0 1)).directReady ∧ (2 : Half) ≤ (rxRing 3 2 1 0 0 1).postCnt ∧
    (rxRing 3 2 1 0 0 1).idx 0x10C0 = some (rxRing 3 2 1 0 0 1).postHead.toNat := by decide +kernel

/-- One state for every check: three slots reserved, one free, slot 1 with a length of 0. -/
theorem witness_OwnershipRefusals :
    reserved3.rx.freeCnt ≠ reserved3.rx.slotCount ∧ reserved3.rx.freeCnt < 2 ∧
    reserved3.rx.idx 0x1004 = none ∧ reserved3.rx.idx 0x1000 = some 0 ∧ reserved3.rx.preCnt < 4 ∧
    0 ≠ (reserved3.rx.freeHead + reserved3.rx.size - (1 : Half).toNat) % reserved3.rx.size ∧
    reserved3.rx.idx 0x1040 = some 1 ∧ 1 ≠ reserved3.rx.preHead ∧ reserved3.rx.postCnt < 1 ∧
    (reserved3.setField .rx 1 .length 0).getField .rx 1 .length = 0 ∧
    (bare (rxRing 0 0 0 0 0 4)).rx.maxLen < 0x10000 ∧ 4 ≤ (4 : Word).toNat ∧
    16 ≤ (16 : Word).toNat := by decide +kernel

theorem witness_ChannelAndIrqControlComplete :
    reserved3.directReady ∧ (reserved3.ring .rx).created = true := by decide +kernel

theorem witness_ControllerResetCompletes : reserved3.directReady := by decide +kernel

theorem witness_SettersComplete :
    reserved3.directReady ∧ reserved3.rx.idx 0x1080 = some 2 ∧
    reserved3.rx.slotState 2 = .reserved ∧ (0xFFFF : Word) ≤ reserved3.rx.maxLen ∧
    reserved3.rx.maxLen < 0x10000 ∧ reserved3.params.lenOverMax = .reject ∧
    ({ reserved3 with params := { reserved3.params with lenOverMax := .clamp } } : State).params.lenOverMax
      = .clamp := by decide +kernel

theorem witness_AccessorChecks :
    fresh.directReady ∧ neededRing (.bdGetSts .rx 0) = some .rx ∧
    (fresh.ring .rx).created = false ∧
    accessorReference (.bdGetSts .rx 0x1010) = some (.rx, 0x1010) ∧
    reserved3.rx.idx 0x1010 = none ∧ reserved3.rx.idx 0x1100 = none ∧
    reserved3.rx.idx 0x10C0 = some 3 ∧ reserved3.rx.slotState 3 ≠ .reserved := by decide +kernel

theorem witness_GettersComplete :
    reserved3.directReady ∧ reserved3.rx.idx 0x10C0 = some 3 := by decide +kernel

theorem witness_FailedPrimitiveChangesNothing :
    isPrimitive (.bdNext .rx 0) = true ∧ reserved3.directReady := by decide +kernel

theorem witness_DirectPrimitiveNeedsUninit :
    isPrimitive .resetDone = true ∧ Instr.resetDone.wellFormed = true ∧
    State.reset.acceptsPrimitive ∧
    ¬(running .rxh (rxRing 0 0 4 2 0 0) (txRing 0 0 0 0 1)).acceptsPrimitive ∧
    ¬(running .rxh (rxRing 0 0 4 2 0 0) (txRing 0 0 0 0 1)).directReady := by decide +kernel

theorem witness_OtherInstructionsKeepMemory :
    storesNothing (.reserve .rx 1) = true ∧
    exec (.reserve .rx 1) reserved3 = .next (after (exec (.reserve .rx 1) reserved3)) :=
  ⟨by decide, rfl⟩

theorem witness_EngineCommandAcceptance :
    State.reset.atBase ∧ State.reset.engState = .uninit ∧
    ({ State.reset with engState := .halted } : State).atBase ∧
    ({ State.reset with engState := .ready } : State).atBase ∧ ¬fresh.atBase := by decide +kernel

/-- `INITIALIZE` at micro-step `k` with lookup answers `l`. -/
def initializing (k : BitVec 8) (l : Lookup) : State :=
  { State.reset with
    engState := .initializing
    stack := [.sync]
    sync := { State.reset.sync with op := .initEngine, step := k, lookup := l } }

theorem witness_LookupFailuresReported :
    (initializing 1 { Config.lookup with cfgFound := false }).turnOf .sync ∧
    (initializing 2 { Config.lookup with cfgBindOk := false }).turnOf .sync ∧
    (initializing 3 { Config.lookup with hasSg := false }).turnOf .sync ∧
    (initializing 3 { Config.lookup with hasSg := false }).sync.lookup.hasSg = false := by
  decide +kernel

/-- `INIT-A` of the spec, accepted from power-on. -/
def initA : State :=
  after (exec (.initEngine 4 1 61 0xA0 62 0xA0 0x10000 0x11000 0x100 0x20000 0x30000 0x8000 0xC0DE)
    State.reset)

theorem witness_InitializeBuildsBothRings :
    initA.undisturbed .sync ∧ initA.stack = [.sync] ∧ initA.sync.op = .initEngine ∧
    initA.sync.step = 0 ∧ initA.sync.lookup.cfgFound = true ∧ initA.sync.lookup.cfgBindOk = true ∧
    initA.sync.lookup.hasSg = true ∧ initA.rx.run = false ∧ initA.tx.run = false ∧
    rxSlots initA.params initA.sync.cfg ≠ 0 ∧ txSlots initA.params initA.sync.cfg ≠ 0 ∧
    initA.sync.lookup.maxLenRx ≠ 0 ∧ initA.sync.lookup.maxLenTx ≠ 0 ∧
    4 ≤ initA.params.bdAlign.toNat ∧ initA.params.bdAlign &&& (initA.params.bdAlign - 1) = 0 ∧
    initA.sync.cfg.rxBdBase.toNat % initA.params.bdAlign.toNat = 0 ∧
    initA.sync.cfg.txBdBase.toNat % initA.params.bdAlign.toNat = 0 ∧
    (rxSlots initA.params initA.sync.cfg).toNat * strideOf initA.params.bdAlign ≤
      initA.params.rxBdRegionSize.toNat ∧
    (txSlots initA.params initA.sync.cfg).toNat * strideOf initA.params.bdAlign ≤
      initA.params.txBdRegionSize.toNat ∧
    initA.sync.cfg.bufSize ≠ 0 ∧ initA.sync.cfg.bufSize ≤ initA.sync.lookup.maxLenRx ∧
    regionsOk initA.params initA.sync.cfg = true := by decide +kernel

/-- `TRANSMIT` of `size` bytes at 0x40000, at micro-step `k`, on TX ring `t`. -/
def transmitting (k : BitVec 8) (size : Word) (t : RingRegs) : State :=
  let s := running .sync (rxRing 0 0 4 0 0 0) t
  { s with sync := { s.sync with op := .transmit, step := k, buffer := 0x40000, size := size } }

/-- Both sides of the boundary: 0x101 bytes and 0x100 bytes with `buf_size = 0x100` (T-S5). -/
theorem witness_TransmitPayloadTooLarge :
    (transmitting 0 0x101 (txRing 0 0 0 0 1)).turnOf .sync ∧
    (transmitting 0 0x101 (txRing 0 0 0 0 1)).cfg.bufSize.toNat < (0x101 : Word).toNat ∧
    (0x100 : Word).toNat ≤ (transmitting 0 0x100 (txRing 0 0 0 0 1)).cfg.bufSize.toNat := by
  decide +kernel

theorem witness_TransmitErrorPaths :
    ((transmitting 1 4 (txRing 0 1 0 0 0)).turnOf .sync ∧
      (transmitting 1 4 (txRing 0 1 0 0 0)).tx.freeCnt = 0) ∧
    (let s := (transmitting 7 0 (txRing 0 0 0 1 0)).setField .tx 0 .length 0
     s.undisturbed .sync ∧ s.sync.op = .transmit ∧ s.sync.step = 7 ∧ s.engState ≠ .halted ∧
     s.tx.created = true ∧ s.tx.preCnt = 1 ∧ s.sync.d.toNat = s.tx.preHead ∧
     s.getField .tx s.tx.preHead .length = 0) := by decide +kernel

theorem txRing_ok : (txRing 0 0 0 1 0).Ok ∧ (txRing 0 0 0 0 1).Ok := by
  constructor <;> constructor <;> decide

/-- Four bytes on an idle ring. -/
theorem witness_TransmitPostsFrame :
    let s := transmitting 0 4 (txRing 0 0 0 0 1)
    s.undisturbed .sync ∧ s.stack = [.sync] ∧ s.sync.op = .transmit ∧ s.sync.step = 0 ∧
    s.engState = .ready ∧ s.tx.created = true ∧ s.tx.preCnt = 0 ∧ s.tx.freeCnt ≠ 0 ∧
    s.sync.size ≠ 0 ∧ s.sync.size ≤ s.cfg.bufSize ∧ s.sync.size ≤ s.tx.maxLen ∧
    sourceOk s.params s.cfg s.sync.buffer s.sync.size = true ∧
    (∀ k < s.sync.size.toNat, s.isDescriptorByte (s.cfg.txBufBase + BitVec.ofNat 32 k) = false) ∧
    (∀ k < s.sync.size.toNat, ¬∃ j, j < s.sync.size.toNat ∧
      s.sync.buffer + BitVec.ofNat 32 k = s.cfg.txBufBase + BitVec.ofNat 32 j) := by
  decide +kernel

/-- A pending, enabled completion of ring `x` over the top `a`. -/
def pending (a : Agent) : State :=
  let s := running a (rxRing 0 0 4 2 0 0) (txRing 0 1 1 0 0)
  { s with rx := { s.rx with irqEn := 7, irqPend := 1 }, tx := { s.tx with irqEn := 7, irqPend := 2 } }

theorem witness_HandlerEntry :
    ((pending .sync).rx.irqPend &&& (pending .sync).rx.irqEn ≠ 0 ∧ Agent.rxh ∉ (pending .sync).stack ∧
      (pending .sync).cfgValid = true ∧ (pending .sync).nestingPermits .rx = true) ∧
    ((pending .rxh).tx.irqPend &&& (pending .rxh).tx.irqEn ≠ 0 ∧ Agent.txh ∉ (pending .rxh).stack ∧
      (pending .rxh).nestingPermits .tx = true) ∧
    handlerOf .rx ∈ (pending .rxh).stack ∧
    ({ pending .rxh with params := { Config.params with nesting := .none } } : State).nestingPermits .tx =
      false ∧
    ({ pending .rxh with params := { Config.params with nesting := .byPriority } } : State).top =
      some (handlerOf .rx) := by decide +kernel

theorem witness_HandlersAcknowledge :
    (pending .rxh).turnOf .rxh ∧ (pending .rxh).rxh.state = .idle ∧ (pending .rxh).rx.irqPend ≠ 0 ∧
    (pending .txh).turnOf .txh ∧ (pending .txh).tx.irqPend ≠ 0 ∧
    (running .rxh (rxRing 0 0 4 2 0 0) (txRing 0 0 0 0 1)).rx.irqPend = 0 ∧
    (running .txh (rxRing 0 0 4 2 0 0) (txRing 0 0 0 0 1)).turnOf .txh := by decide +kernel

/-- The RX handler in a state and phase. -/
def rxIn (st : SeqState) (ph : RxPhase) (r : RingRegs) : State :=
  let s := running .rxh r (txRing 0 0 0 0 1)
  { s with rxh := { s.rxh with state := st, phase := ph, irq := 1 } }

/-- The TX handler in a state and phase. -/
def txIn (st : SeqState) (ph : TxPhase) (t : RingRegs) : State :=
  let s := running .txh (rxRing 0 0 4 0 0 0) t
  { s with txh := { s.txh with state := st, phase := ph, irq := 1 } }

/-- `ERROR` with `COMPLETION`, and `ERROR` alone. -/
theorem witness_ErrorServedFirst :
    (let s := rxIn .acknowledged .drain (rxRing 0 0 4 2 0 0)
     ({ s with rxh := { s.rxh with irq := 5 } } : State).turnOf .rxh) ∧
    (5 : BitVec 3).getLsbD 2 = true ∧
    (txIn .acknowledged .drain (txRing 0 1 1 0 0)).turnOf .txh ∧ (4 : BitVec 3).getLsbD 2 = true := by
  decide +kernel

theorem witness_RxMaskEntersDrain :
    let s := rxIn .acknowledged .drain (rxRing 0 0 4 2 0 0)
    s.turnOf .rxh ∧ s.rxh.state = .acknowledged ∧ s.rxh.irq.getLsbD 2 = false ∧
    s.sync.busyRing ≠ some .rx ∧ s.engState ≠ .halted ∧ s.params.syncIrqOverlap = .fault ∧
    ({ s with sync := { s.sync with busyRing := some .rx } } : State).sync.busyRing = some .rx := by
  decide +kernel

theorem witness_ResetPollIsBounded :
    (rxIn .errorRecovery .drain (rxRing 0 0 4 2 0 0)).undisturbed .rxh ∧
    (rxIn .errorRecovery .drain (rxRing 0 0 4 2 0 0)).rxh.poll.toNat <
      (rxIn .errorRecovery .drain (rxRing 0 0 4 2 0 0)).params.resetPollBudget.toNat ∧
    (txIn .errorRecovery .drain (txRing 0 0 0 0 1)).undisturbed .txh ∧
    (txIn .errorRecovery .drain (txRing 0 0 0 0 1)).txh.poll.toNat <
      (txIn .errorRecovery .drain (txRing 0 0 0 0 1)).params.resetPollBudget.toNat := by decide +kernel

theorem witness_RxDrainStep :
    let s := rxIn .draining .drain (rxRing 0 0 4 2 0 0)
    let e := rxIn .draining .drain (rxRing 0 0 4 0 0 0)
    s.turnOf .rxh ∧ s.rxh.state = .draining ∧ s.rxh.phase = .drain ∧ s.engState ≠ .halted ∧
    s.rx.created = true ∧ s.rx.doneCnt ≠ 0 ∧ e.turnOf .rxh ∧ e.rx.doneCnt = 0 ∧
    e.params.rearmOnEmpty = false ∧
    ({ e with params := { e.params with rearmOnEmpty := true } } : State).params.rearmOnEmpty = true := by
  decide +kernel

/-- Slot 1 ends a frame (`STS = 0b0101`), slot 2 only starts one (`0b0011`), slot 3 is not complete (`0`). -/
theorem witness_WalkDeliversOnce :
    let s := rxIn .draining .walk (rxRing 1 2 2 0 0 0)
    let e := { s with rxh := { s.rxh with first := 1 } }
    let c := { s with rxh := { s.rxh with first := 2 } }
    let k := { s with rxh := { s.rxh with first := 3 } }
    let x := { (s.setField .rx 1 .sts 9) with params := { s.params with bdErrorSkip := true } }
    k.turnOf .rxh ∧ (k.getField .rx 3 .sts).getLsbD 0 = false ∧
    (x.params.bdErrorSkip = true ∧ (x.getField .rx 1 .sts).getLsbD 3 = true) ∧
    e.turnOf .rxh ∧ (e.getField .rx 1 .sts).getLsbD 0 = true ∧ e.params.bdErrorSkip = false ∧
    (e.rs.addFragment (e.getField .rx 1 .bufAddr) (e.getField .rx 1 .length)
      (e.getField .rx 1 .sts)).complete = true ∧ e.cfg.callback ≠ 0 ∧
    (c.rs.addFragment (c.getField .rx 2 .bufAddr) (c.getField .rx 2 .length)
      (c.getField .rx 2 .sts)).complete = false := by decide +kernel

/-- The source's own example (T-S3): `[SOF, -, -, EOF]`, lengths 100, 200, 50, 10. -/
theorem witness_ReassemblySums :
    (3 : Word).getLsbD 1 = true ∧
    (∀ q ∈ [((0 : Word), (200 : Word), (1 : Word)), (0, 50, 1), (0, 10, 5)],
      q.2.2.getLsbD 1 = false) := by
  refine ⟨by decide, fun q hq => ?_⟩
  simp only [List.mem_cons, List.not_mem_nil, or_false] at hq
  rcases hq with rfl | rfl | rfl <;> rfl

theorem test_reassembly_example :
    let r : Reasm := { origin := 9, acc := 9, complete := false }
    let t := (((r.addFragment 0x20000 100 3).addFragment 0 200 1).addFragment 0 50 1).addFragment 0 10 5
    t = { origin := 0x20000, acc := 360, complete := true } := by decide

/-- Two drained slots, 0 and 1, of a ring whose other two are posted. -/
theorem witness_RepostKeepsBuffers :
    let s := rxIn .draining .free (rxRing 0 2 2 0 0 0)
    let s := { s with rxh := { s.rxh with count := 2 } }
    s.undisturbed .rxh ∧ s.rxh.state = .draining ∧ s.rxh.phase = .free ∧ s.engState ≠ .halted ∧
    s.rx.created = true ∧ s.rxh.count ≠ 0 ∧ s.rx.postCnt = s.rxh.count ∧
    s.rxh.first = s.rx.postHead ∧ s.rx.preCnt = 0 ∧ s.rx.freeCnt = 0 ∧ s.cfg.bufSize ≠ 0 ∧
    s.cfg.bufSize ≤ s.rx.maxLen := by decide +kernel

theorem witness_TxMaskDrainFree :
    (txIn .acknowledged .drain (txRing 0 1 1 0 0)).turnOf .txh ∧
    (txIn .draining .drain (txRing 0 1 1 0 0)).turnOf .txh ∧
    (txIn .draining .drain (txRing 0 1 1 0 0)).tx.doneCnt ≠ 0 ∧
    (txIn .draining .drain (txRing 0 1 0 0 0)).tx.doneCnt = 0 ∧
    (txIn .draining .drain (txRing 0 1 0 0 0)).engState ≠ .halted ∧
    (let s := txIn .draining .free (txRing 1 0 0 0 0)
     let s := { s with txh := { s.txh with count := 1 } }
     s.turnOf .txh ∧ s.txh.count ≠ 0 ∧ s.txh.count ≤ s.tx.postCnt ∧ s.txh.first = s.tx.postHead) := by
  decide +kernel

theorem witness_HandlersRearm :
    (rxIn .draining .enable (rxRing 0 0 4 0 0 0)).turnOf .rxh ∧
    (rxIn .rearmed .enable (rxRing 0 0 4 0 0 0)).turnOf .rxh ∧
    (txIn .draining .enable (txRing 0 0 0 0 1)).turnOf .txh ∧
    (txIn .draining .enable (txRing 0 0 0 0 1)).engState ≠ .halted ∧
    (txIn .rearmed .enable (txRing 0 0 0 0 1)).turnOf .txh := by decide +kernel

theorem witness_TxHandlerFrame :
    (txIn .draining .drain (txRing 0 1 1 0 0)).turnOf .txh ∧
    step (txIn .draining .drain (txRing 0 1 1 0 0)) =
      .next (after (step (txIn .draining .drain (txRing 0 1 1 0 0)))) :=
  ⟨by decide +kernel, rfl⟩

theorem witness_InFlightFailuresStop :
    ({ rxIn .draining .commit (rxRing 0 0 3 0 1 0) with engState := .halted } : State).turnOf .rxh ∧
    ({ txIn .draining .enable (txRing 0 0 0 0 1) with engState := .halted } : State).turnOf .txh ∧
    ({ transmitting 7 4 (txRing 0 0 0 1 0) with engState := .halted } : State).turnOf .sync ∧
    ({ initializing 17 Config.lookup with engState := .halted } : State).turnOf .sync ∧
    ((rxIn .draining .free (rxRing 0 2 2 0 0 0)).turnOf .rxh ∧
      (rxIn .draining .free (rxRing 0 2 2 0 0 0)).rxh.count = 0) ∧
    ((txIn .draining .free (txRing 0 0 0 0 1)).turnOf .txh ∧
      (txIn .draining .free (txRing 0 0 0 0 1)).txh.count = 0) ∧
    (let s := rxIn .draining .walk (rxRing 1 2 2 0 0 0)
     let e := { s with rxh := { s.rxh with first := 1 }, cfg := { s.cfg with callback := 0 } }
     e.turnOf .rxh ∧ (e.getField .rx 1 .sts).getLsbD 2 = true) := by decide +kernel

/-- Two bytes into the posted slot 3, whose requested length is 0x100. -/
theorem witness_RxCompletion :
    let s := { rxIn .idle .drain (rxRing 3 0 4 0 0 0) with agenda := [.rxComplete true false false [1, 2]] }
    s.unmarked ∧ s.nextMove = .rxComplete true false false [1, 2] ∧ s.rx.created = true ∧
    s.rx.run = true ∧ s.ctl.resetting = false ∧ s.rx.doneCnt < s.rx.hwCnt ∧
    2 ≤ (s.getField .rx s.rx.oldestPosted .length).toNat ∧ s.params.rxFraming = .free ∧
    (∀ k < 2, s.isDescriptorByte (s.getField .rx s.rx.oldestPosted .bufAddr + BitVec.ofNat 32 k) =
      false) := by decide +kernel

/-- A posted TX slot of two bytes at 0x30000, whose `hw` bytes are 11 22. -/
def txPosted : State :=
  let s := txIn .idle .drain (txRing 0 1 0 0 0)
  { s with
    memHw := s.memHw.writeWord 0x30000 0x2211
    memSw := s.memSw.writeWord 0x30000 0x8877
    txMarks := [0]
    agenda := [.txComplete false [0x11, 0x22]] }

/-- A reserved TX slot that `TRANSMIT`'s micro-step T7 posts; the posted slot's bytes; and after a flush of the
`sw` bytes 77 88, the mix 77 22 (R283). -/
theorem witness_TxCompletion :
    (txPosted.unmarked ∧ txPosted.nextMove = .txComplete false [0x11, 0x22] ∧
      txPosted.tx.created = true ∧ txPosted.tx.run = true ∧ txPosted.ctl.resetting = false ∧
      txPosted.tx.doneCnt < txPosted.tx.hwCnt ∧
      txPosted.getField .tx txPosted.tx.oldestPosted .bufAddr = 0x30000 ∧
      (txPosted.getField .tx txPosted.tx.oldestPosted .length).toNat = 2 ∧
      0x11 ∈ txPosted.heldSince (txPosted.txMarkOf 0) 0x30000) ∧
    (txPosted.MarksOk ∧ txPosted.tx.slotState 0 = .posted ∧
      (after (step { txPosted with agenda := [.writeBack 0x30000] })).tx.slotState 0 = .posted) ∧
    (let s := transmitting 7 2 (txRing 0 0 0 1 0)
     s.MarksOk ∧ s.tx.slotState 0 = .reserved ∧ (after (step s)).tx.slotState 0 = .posted) ∧
    (let s := txPosted.flush 0x30000 2
     0x77 ∈ s.heldSince (s.txMarkOf 0) 0x30000 ∧ 0x22 ∈ s.heldSince (s.txMarkOf 0) 0x30001 ∧
      (after (step { s with agenda := [.txComplete false [0x77, 0x22]] })).out =
        s.out ++ [.txWire [0x77, 0x22]]) := by
  unfold State.MarksOk; decide +kernel

theorem txPosted_ringsOk :
    txPosted.RingsOk ∧ (transmitting 7 2 (txRing 0 0 0 1 0)).RingsOk := by
  constructor <;> (intro x _; cases x <;> constructor <;> decide)

theorem witness_ChannelGuard :
    ({ State.reset with agenda := [.raise .tx .error] } : State).nextMove = .raise .tx .error ∧
    (State.reset.ring .tx).created = false ∧
    (let s := rxIn .idle .drain (rxRing 0 0 4 4 0 0)
     (s.ring .rx).created = true ∧ (s.ring .rx).run = true ∧ s.ctl.resetting = false ∧
     s.rx.hwCnt ≤ s.rx.doneCnt) ∧
    ({ State.reset with agenda := [.rxComplete true true false []] } : State).nextMove =
      .rxComplete true true false [] ∧
    ({ State.reset with agenda := [.txComplete false []] } : State).nextMove = .txComplete false [] := by
  decide +kernel

theorem witness_ResetConfirmation :
    ({ State.reset with agenda := [.resetComplete] } : State).unmarked ∧
    ({ State.reset with agenda := [.resetComplete] } : State).nextMove = .resetComplete ∧
    ({ State.reset with ctl := ⟨true, false, false⟩ } : State).ctl.resetting = true := by decide +kernel

theorem witness_StagingCopy :
    (4 : Nat) ≤ 2 ^ 32 ∧ txPosted.isDescriptorByte 0x30000 = false := ⟨by norm_num, by decide +kernel⟩

/-- R58: the staging copy reaches the `sw` view alone. -/
theorem test_staging_copy_keeps_hw :
    let t := txPosted.copyUp 0x30000 0x40000 2
    (t.peekList .sw 0x30000 2, t.peekList .hw 0x30000 2) = ([0x11, 0x22], [0x11, 0x22]) ∧
    (txPosted.copyUp 0x30000 0x40002 2).peekList .hw 0x30000 2 = [0x11, 0x22] ∧
    (txPosted.copyUp 0x30000 0x40002 2).peekList .sw 0x30000 2 = [0x33, 0x44] := by decide +kernel

/-- Vector 2.6: an RX completion reaches the `hw` view alone. -/
theorem test_rx_completion_keeps_sw :
    let s := { rxIn .idle .drain (rxRing 3 0 4 0 0 0) with
      memSw := records.writeWord 0x20300 0x8877, agenda := [.rxComplete true false false [1, 2]] }
    let t := after (step s)
    (t.peekList .hw 0x20300 2, t.peekList .sw 0x20300 2) = ([1, 2], [0x77, 0x88]) := by decide +kernel

end Sys2Proof.Tests
end

section
/-! PROOF. The RX handler's mask micro-step (42_rx_sequencer.md R175): the overlap check of R280, the mask of
the whole ring, and the step that takes them. -/

namespace Sys2Proof.Machine

/-! ### The overlap check and the mask of a ring -/

theorem overlapFault_iff (s : State) (x : Ring) :
    s.overlapFault x = true ↔ s.sync.busyRing = some x ∧ s.params.syncIrqOverlap = .fault := by
  simp [State.overlapFault]

/-- Where the ring is not busy, or the parameter allows the interleaving, there is no overlap fault. -/
theorem overlapFault_eq_false {s : State} {x : Ring}
    (h : s.sync.busyRing ≠ some x ∨ s.params.syncIrqOverlap = .atomicInterleave) :
    s.overlapFault x = false := by
  rw [Bool.eq_false_iff, ne_eq, overlapFault_iff]
  rintro ⟨hbusy, hfault⟩
  rcases h with hfree | hinterleave
  · exact hfree hbusy
  · cases hfault.symm.trans hinterleave

/-- Masking every interrupt of a ring clears its enable register. -/
theorem primIrqDisable_irqAll (x : Ring) (s : State) :
    primIrqDisable x irqAll s = (Reply.ok [], s.setRing x { s.ring x with irqEn := 0 }) := by
  have hmask : ∀ m : BitVec 3, m &&& ~~~irqAll = 0 := by decide
  simp only [primIrqDisable, hmask]

theorem markFault_of_none {s : State} (f : Fault) (h : s.fault = none) :
    s.markFault f = { s with fault := some f } := by simp [State.markFault, h]

/-! ### The micro-step -/

theorem rxMask_overlap {s : State} (h : s.overlapFault .rx = true) :
    rxMask s = s.markFault .concurrentRingAccess := by simp [rxMask, h]

theorem rxMask_drains {s : State} (h : s.overlapFault .rx = false) (he : s.engState ≠ .halted) :
    rxMask s =
      { s with
        rx := { s.rx with irqEn := 0 }
        rxh := { s.rxh with state := .draining, phase := .drain } } := by
  simp only [rxMask, h, Bool.false_eq_true, if_false]
  exact seqPrim_success _ (.inl he) (primIrqDisable_irqAll .rx s)

/-- An acknowledged interrupt without `ERROR` masks the ring. -/
theorem rxhStep_acknowledged {s : State} (hs : s.rxh.state = .acknowledged)
    (he : s.rxh.irq.getLsbD 2 = false) : rxhStep s = rxMask s := by
  simp only [rxhStep, hs, hasError, he, Bool.false_eq_true, if_false]

theorem step_rxMask {s : State} (h : s.turnOf .rxh) (hs : s.rxh.state = .acknowledged)
    (he : s.rxh.irq.getLsbD 2 = false) : step s = .next (rxMask s.popAgenda) :=
  (step_turnOf h (.inl (by decide))).trans
    (congrArg _ (rxhStep_acknowledged (s := s.popAgenda) hs he))

/-- Settles O45: the step is the mask micro-step, and R280's check decides which of its two outcomes it has. -/
theorem rxMaskEntersDrain : Obligations.RxMaskEntersDrain := by
  intro s hturn hstate hirq
  rw [step_rxMask hturn hstate hirq]
  obtain ⟨⟨hfault, -⟩, -⟩ := hturn
  constructor
  · intro hbusy hparam
    have hoverlap : s.popAgenda.overlapFault .rx = true := (overlapFault_iff ..).2 ⟨hbusy, hparam⟩
    exact congrArg _ ((rxMask_overlap hoverlap).trans (markFault_of_none _ hfault))
  · intro hfree hready
    have hoverlap : s.popAgenda.overlapFault .rx = false := overlapFault_eq_false hfree
    exact congrArg _ (rxMask_drains hoverlap hready)

end Sys2Proof.Machine
end

section
/-! PROOF. The reset confirmation of the DMA agent (44_external_agents.md R220): the agent's two cases, and the
step that the schedule gives it. -/

namespace Sys2Proof.Machine

/-- The guard of R220 holds: the agent confirms the reset. -/
theorem resetComplete_of_resetting {s : State} (h : s.ctl.resetting = true) :
    resetComplete s = { s with ctl := { s.ctl with resetting := false, resetDone := true } } :=
  if_pos h

/-- The guard of R220 fails: the agent does nothing. -/
theorem resetComplete_of_not_resetting {s : State} (h : s.ctl.resetting = false) :
    resetComplete s = s :=
  if_neg (Bool.eq_false_iff.mp h)

theorem step_resetComplete {s : State} (h : s.unmarked) (hmove : s.nextMove = .resetComplete) :
    step s = .next (resetComplete s.popAgenda) := by
  rw [step_unmarked h, hmove]
  rfl

/-- Settles O58: the step is the agent's move on the shortened schedule, which leaves R220's guard as it is. -/
theorem resetConfirmation : Obligations.ResetConfirmation := by
  intro s hunmarked hmove
  rw [step_resetComplete hunmarked hmove]
  constructor
  · intro hresetting
    exact congrArg _ (resetComplete_of_resetting (s := s.popAgenda) hresetting)
  · intro hidle
    exact congrArg _ (resetComplete_of_not_resetting (s := s.popAgenda) hidle)

end Sys2Proof.Machine
end

section
/-! PROOF. The size check of `TRANSMIT` (41_engine_ops.md R155, 60_exceptions.md R245): the two outcomes of
micro-step T0, and the step that takes it. -/

namespace Sys2Proof.Machine

/-! ### The end of `TRANSMIT` and micro-step T0 -/

/-- A `TRANSMIT` that ends answers its code, leaves the stack and frees the ring; the rest stays. -/
theorem endTransmit_eq (c : Code) (s : State) :
    endTransmit c s =
      { s with
        out := s.out ++ [.ret 0x21 c []]
        stack := s.stack.dropLast
        sync := { s.sync with busyRing := none, op := .none } } := rfl

/-- The size exceeds `buf_size`: the operation ends before anything is reserved. -/
theorem txT0_tooLarge {s : State} (h : s.cfg.bufSize < s.sync.size) :
    txT0 s = endTransmit .payloadTooLarge s :=
  if_pos h

/-- The size fits, equality included: T1 is next. -/
theorem txT0_fits {s : State} (h : s.sync.size ≤ s.cfg.bufSize) : txT0 s = s.goStep 1 :=
  if_neg (BitVec.not_lt.mpr h)

/-! ### The step -/

theorem syncStep_transmit {s : State} (h : s.sync.op = .transmit) : syncStep s = transmitStep s := by
  simp only [syncStep, h]

theorem transmitStep_zero {s : State} (h : s.sync.step = 0) : transmitStep s = txT0 s := by
  simp [transmitStep, h]

theorem step_transmit {s : State} (h : s.turnOf .sync) (hop : s.sync.op = .transmit) :
    step s = .next (transmitStep s.popAgenda) :=
  (step_turnOf h (.inr (by simp [hop]))).trans
    (congrArg _ (syncStep_transmit (s := s.popAgenda) hop))

theorem step_txT0 {s : State} (h : s.turnOf .sync) (hop : s.sync.op = .transmit)
    (hstep : s.sync.step = 0) : step s = .next (txT0 s.popAgenda) :=
  (step_transmit h hop).trans (congrArg _ (transmitStep_zero (s := s.popAgenda) hstep))

/-- Settles O39: the step is micro-step T0, and its unsigned comparison decides which of its two outcomes it
has. -/
theorem transmitPayloadTooLarge : Obligations.TransmitPayloadTooLarge := by
  intro s hturn hop hstep
  rw [step_txT0 hturn hop hstep]
  constructor
  · intro hlarge
    have hsize : s.popAgenda.cfg.bufSize < s.popAgenda.sync.size := hlarge
    exact congrArg _ ((txT0_tooLarge hsize).trans (endTransmit_eq ..))
  · intro hfits
    have hsize : s.popAgenda.sync.size ≤ s.popAgenda.cfg.bufSize := hfits
    exact congrArg _ (txT0_fits hsize)

end Sys2Proof.Machine
end

section
/-! PROOF. The encoder and the decoder of the command port undo each other (30_encoding.md R80 to R83, R91, R95):
what a legal header decodes to, and the fields from which a decoded command is built. -/

namespace Sys2Proof

open Laws Machine

/-! ### From the instruction to its words -/

/-- Every instruction's header is legal in its own row, or stands for its event. -/
theorem encodedHeader_statement (i : Instr) : EncodedHeader.Statement i := by
  cases i with
  | create => apply EncodedHeader.create
  | initSlots => apply EncodedHeader.initSlots
  | reserve => apply EncodedHeader.reserve
  | unreserve => apply EncodedHeader.unreserve
  | commit => apply EncodedHeader.commit
  | drain => apply EncodedHeader.drain
  | free => apply EncodedHeader.free
  | start => apply EncodedHeader.start
  | stop => apply EncodedHeader.stop
  | irqEnable => apply EncodedHeader.irqEnable
  | irqDisable => apply EncodedHeader.irqDisable
  | irqGet => apply EncodedHeader.irqGet
  | irqAck => apply EncodedHeader.irqAck
  | reset => apply EncodedHeader.reset
  | resetDone => apply EncodedHeader.resetDone
  | bdSetAddr => apply EncodedHeader.bdSetAddr
  | bdSetLen => apply EncodedHeader.bdSetLen
  | bdSetCtrl => apply EncodedHeader.bdSetCtrl
  | bdGetAddr => apply EncodedHeader.bdGetAddr
  | bdGetLen => apply EncodedHeader.bdGetLen
  | bdGetSts => apply EncodedHeader.bdGetSts
  | bdNext => apply EncodedHeader.bdNext
  | initEngine => apply EncodedHeader.initEngine
  | transmit => apply EncodedHeader.transmit
  | irqRx => apply EncodedHeader.irqRx
  | irqTx => apply EncodedHeader.irqTx

/-- A legal header followed by its operand words is the command they build. -/
theorem decodeCommand_of_legal {w : Word} {args rest : List Word} {r : OpRow} {i : Instr}
    (hrow : opRow (opField w) = some r) (hlegal : r.legal w = true) (hlen : args.length = r.operands)
    (hbuild : build w args = some i) : decodeCommand (w :: (args ++ rest)) = .instr i rest := by
  have hargs : (args ++ rest).take r.operands = args := by simp [← hlen]
  have hrest : (args ++ rest).drop r.operands = rest := by simp [← hlen]
  have henough : ¬(args ++ rest).length < r.operands := by simp [← hlen]
  simp only [decodeCommand, hrow, hlegal, if_true, if_neg henough, hargs, hbuild, hrest]

/-- Settles O1: an event's header stands for its code, any other is legal in the instruction's own row. -/
theorem decodeInvertsEncode : Obligations.DecodeInvertsEncode := by
  intro i rest hwf
  rcases encodedHeader_statement i hwf with ⟨r, hrow, hcode, hlegal, hlen, hbuild⟩ | ⟨e, hcode, hevent, hargs⟩
  · have hdecode := decodeCommand_of_legal (rest := rest) ((opField_header ..).symm ▸ hrow) hlegal hlen hbuild
    simpa only [encode, List.cons_append, decode, hcode] using hdecode
  · simp only [encode, hargs, List.cons_append, List.nil_append, decode, hcode, hevent]

/-! ### From the words to the instruction -/

/-- What the decoder has checked of a command that it accepts. -/
theorem decodeCommand_instr {ws : List Word} {i : Instr} {rest : List Word}
    (h : decodeCommand ws = .instr i rest) :
    ∃ w args r, ws = w :: (args ++ rest) ∧ opRow (opField w) = some r ∧ r.legal w = true ∧
      args.length = r.operands ∧ build w args = some i := by
  cases ws with
  | nil => cases h
  | cons w ws =>
    simp only [decodeCommand] at h
    split at h
    · cases h
    · rename_i r hrow
      split at h
      · split at h
        · cases h
        · split at h
          · rename_i hbuild
            cases h
            exact ⟨w, _, r, by rw [List.take_append_drop], hrow, ‹_›, by simp; omega, hbuild⟩
          · cases h
      · cases h

/-- The row that the opcode map gives an opcode is one of its rows, for that opcode. -/
theorem opRow_some {op : BitVec 8} {r : OpRow} (h : opRow op = some r) : r ∈ opcodeMap ∧ r.op = op :=
  ⟨List.mem_of_find?_eq_some h, by simpa using List.find?_some h⟩

/-- R91: the reserved field and the fields that the row does not use are 0. -/
theorem OpRow.legal_iff (r : OpRow) (w : Word) :
    r.legal w = true ↔ rsvField w = 0 ∧ (r.usesRing = false → ringField w = .rx) ∧
      mField w &&& ~~~r.mBits = 0 ∧ (r.usesN = false → nField w = 0) := by
  simp only [OpRow.legal, Bool.and_eq_true, Bool.or_eq_true, beq_iff_eq, and_assoc]
  cases r.usesRing <;> cases r.usesN <;> simp

/-- A mask field of which no bit is used is 0. -/
theorem mask_eq_zero : ∀ m : BitVec 3, m &&& ~~~(0 : BitVec 3) = 0 → m = 0 := by decide

/-- A mask field of which the two low bits are used has its third bit clear. -/
theorem mask_bit2_clear : ∀ m : BitVec 3, m &&& ~~~(3 : BitVec 3) = 0 → m.getLsbD 2 = false := by decide

/-- A list of words is the list of the words at its places. -/
theorem eq_map_range (args : List Word) : (List.range args.length).map (args.getD · 0) = args := by
  apply List.ext_getElem <;> simp +contextual

/-- A command built from the fields of a header that is legal in its row, and from as many operand words as the
row says, is well formed and has exactly those fields and words. -/
theorem buildFrom_fields {r : OpRow} {x : Ring} {m : BitVec 3} {n : Half} {args : List Word} {i : Instr}
    (hrow : r ∈ opcodeMap) (hlen : args.length = r.operands) (h : buildFrom r.op x m n args = some i)
    (hring : r.usesRing = false → x = .rx) (hmask : m &&& ~~~r.mBits = 0)
    (hcount : r.usesN = false → n = 0) :
    i.wellFormed = true ∧ i.opcode = r.op ∧ i.ringSelect = x ∧ i.maskField = m ∧ i.countField = n ∧
      i.operandWords = args := by
  have hnone : r.mBits = 0 → m = 0 := fun hm => mask_eq_zero m (hm ▸ hmask)
  have hflags : r.mBits = 3 → m.getLsbD 2 = false := fun hm => mask_bit2_clear m (hm ▸ hmask)
  clear hmask
  rw [← eq_map_range args, hlen] at h ⊢
  clear hlen
  simp only [opcodeMap, List.mem_cons, List.not_mem_nil, or_false] at hrow
  repeat' rcases hrow with rfl | hrow
  all_goals
    obtain rfl := Option.some.inj (show some _ = some i from h)
    simp_all [Instr.wellFormed, Instr.opcode, Instr.ringSelect, Instr.maskField, Instr.countField,
      Instr.operandWords, List.range_succ]

/-- Settles O2: the accepted header is the header of its fields, and the command has those fields. -/
theorem decodedCommandReencodes : Obligations.DecodedCommandReencodes := by
  intro ws i rest h
  obtain ⟨w, args, r, rfl, hrow, hlegal, hlen, hbuild⟩ := decodeCommand_instr h
  obtain ⟨hmem, hop⟩ := opRow_some hrow
  obtain ⟨hrsv, hring, hmask, hcount⟩ := (OpRow.legal_iff r w).1 hlegal
  rw [build, ← hop] at hbuild
  obtain ⟨hwf, hi, hx, hm, hn, hargs⟩ := buildFrom_fields hmem hlen hbuild hring hmask hcount
  exact ⟨hwf, by simp only [encode, hi, hop, hx, hm, hn, hargs, header_fields w hrsv, List.cons_append]⟩

/-- Settles O3: each word is written out, so that the decoder computes. -/
theorem writtenWordsDecode : Obligations.WrittenWordsDecode := by
  unfold Obligations.WrittenWordsDecode
  decide

/-! ### Illegal headers -/

/-- An illegal header has no row, or is not legal in its row. -/
theorem decodeCommand_illegal {w : Word} (ws : List Word) (h : IllegalHeader w) :
    decodeCommand (w :: ws) = .invalidCommand (opField w) ws := by
  cases hrow : opRow (opField w) with
  | none => simp only [decodeCommand, hrow]
  | some r =>
    obtain ⟨hmem, hop⟩ := opRow_some hrow
    have hillegal : r.legal w = false := by
      rw [Bool.eq_false_iff, ne_eq, OpRow.legal_iff]
      rintro ⟨hrsv, hring, hmask, hcount⟩
      rcases h r hmem hop with h | ⟨h, hx⟩ | h | ⟨h, hn⟩
      · exact h hrsv
      · cases hx.symm.trans (hring h)
      · exact h hmask
      · exact hn (hcount h)
    simp only [decodeCommand, hrow, hillegal, Bool.false_eq_true, if_false]

end Sys2Proof
end

section
/-! PROOF. What one step can do, said once: the elementary changes of which every micro-step, every instruction
and every move of an external agent is made, and the inversion of the step into a run of them (10_state.md R10,
R14, R27; 40_ring_primitives.md R133). Every invariant of the step is then a property that each change keeps. -/

namespace Sys2Proof.Machine

open Relation

/-! ### The elementary changes -/

/-- Only registers that no invariant speaks of may differ: the temporaries of the sequencers and of the
synchronous path, the reassembly state, the reset flags, the ports, the marks and the schedule. -/
structure Book (s t : State) : Prop where
  rx : t.rx = s.rx
  tx : t.tx = s.tx
  memSw : t.memSw = s.memSw
  memHw : t.memHw = s.memHw
  hwLog : t.hwLog = s.hwLog
  txMarks : t.txMarks = s.txMarks
  out : t.out = s.out
  params : t.params = s.params
  cfg : t.cfg = s.cfg
  cfgValid : t.cfgValid = s.cfgValid
  engState : t.engState = s.engState
  stack : t.stack = s.stack
  op : t.sync.op = s.sync.op
  rxh : t.rxh.state = s.rxh.state
  txh : t.txh.state = s.txh.state

/-- A change of who runs and of what is reported, inside a step that begins in `s₀`: no byte, no ring register
and no mark of a posted slot changes. -/
inductive ContextChange (s₀ : State) : State → State → Prop where
  | book {s t : State} (h : Book s t) : ContextChange s₀ s t
  | emit (s : State) (e : Event) : ContextChange s₀ s (s.emit e)
  /-- Micro-step I0 of `INITIALIZE` (R151). -/
  | latch (s : State) (hmove : s₀.nextMove = .cpu) (htop : s₀.top = some .sync)
      (hop : s₀.sync.op = .initEngine) (hstep : s₀.sync.step = 0) :
      ContextChange s₀ s { s with cfg := s.sync.cfg, cfgValid := true, engState := .initializing }
  /-- `fail` of `INITIALIZE` (R154). -/
  | fail (s : State) : ContextChange s₀ s { s with engState := .uninit }
  /-- Micro-step I17 of `INITIALIZE` (R154). -/
  | ready (s : State) (hop : s₀.sync.op = .initEngine) : ContextChange s₀ s { s with engState := .ready }
  /-- A command of the synchronous path is accepted (R150). -/
  | accept (s : State) (op : SyncOp) (hbase : s.atBase) (hop : op ≠ .none)
      (hready : op = .initEngine → s.engState ≠ .ready) :
      ContextChange s₀ s { s.push .sync with sync := { s.sync with op := op } }
  | endSync (s : State) (htop : s.top = some .sync) : ContextChange s₀ s s.endSync
  | enter (s : State) (x : Ring) (h : s.canDispatch x = true) : ContextChange s₀ s (s.enterHandler x)
  | rxh (s : State) (r : Rxh) (h : Agent.rxh ∈ s.stack) : ContextChange s₀ s { s with rxh := r }
  | txh (s : State) (r : Txh) (h : Agent.txh ∈ s.stack) : ContextChange s₀ s { s with txh := r }
  | leave (s : State) (x : Ring) (htop : s.top = some (handlerOf x)) : ContextChange s₀ s (s.leaveHandler x)

/-- A change of a channel's control registers (R20, R21). -/
inductive ControlChange : State → State → Prop where
  | enable (s : State) (x : Ring) (m : BitVec 3) (hhalted : s.engState ≠ .halted)
      (hwho : s.engState = .uninit ∨ s.sync.op = .initEngine ∨ handlerOf x ∈ s.stack) :
      ControlChange s (s.setRing x { s.ring x with irqEn := (s.ring x).irqEn ||| m })
  | disable (s : State) (x : Ring) (m : BitVec 3) :
      ControlChange s (s.setRing x { s.ring x with irqEn := (s.ring x).irqEn &&& ~~~m })
  | ack (s : State) (x : Ring) (m : BitVec 3) :
      ControlChange s (s.setRing x { s.ring x with irqPend := (s.ring x).irqPend &&& ~~~m })
  | raise (s : State) (x : Ring) (b : IrqSource) (h : s.channelEnabled x = true) :
      ControlChange s (s.setRing x { s.ring x with irqPend := (s.ring x).irqPend ||| b.mask })
  | start (s : State) (x : Ring) (hhalted : s.engState ≠ .halted) :
      ControlChange s (s.setRing x { s.ring x with run := true })
  | stop (s : State) (x : Ring) : ControlChange s (s.setRing x { s.ring x with run := false })
  | reset (s : State) (c : Ctl) :
      ControlChange s
        { s with ctl := c, rx := s.rx.afterReset, tx := s.tx.afterReset, engState := .halted }

/-- A write of memory. -/
inductive MemoryChange : State → State → Prop where
  | poke (s : State) (v : View) (a : Word) (b : Byte) : MemoryChange s (s.poke v a b)
  | field (s : State) (x : Ring) (i : Nat) (f : BdField) (w : Word) : MemoryChange s (s.setField x i f w)

/-- A move of slots between the groups of a ring, or its creation anew (R14, R111). -/
inductive CountChange : State → State → Prop where
  | create (s : State) (x : Ring) (n : Half) (b z a m : Word) (hn : n ≠ 0) (hm : m ≠ 0)
      (ha : 4 ≤ a.toNat) (hz : n.toNat * strideOf a ≤ z.toNat)
      (hb : b.toNat + n.toNat * strideOf a ≤ 2 ^ 32) :
      CountChange s ((s.setRing x ((s.ring x).recreate n b z a m)).dropMarks x)
  | reserve (s : State) (x : Ring) (n : Half) (hc : (s.ring x).created = true)
      (hn : n ≤ (s.ring x).freeCnt) :
      CountChange s
        (s.setRing x { s.ring x with preCnt := (s.ring x).preCnt + n, freeCnt := (s.ring x).freeCnt - n })
  | unreserve (s : State) (x : Ring) (n : Half) (hc : (s.ring x).created = true)
      (hn : n ≤ (s.ring x).preCnt) :
      CountChange s
        (s.setRing x { s.ring x with preCnt := (s.ring x).preCnt - n, freeCnt := (s.ring x).freeCnt + n })
  | commit (s : State) (x : Ring) (n : Half) (hc : (s.ring x).created = true)
      (hn : n ≤ (s.ring x).preCnt) :
      CountChange s
        ((s.setRing x
          { s.ring x with preCnt := (s.ring x).preCnt - n, hwCnt := (s.ring x).hwCnt + n }).addMarks n.toNat x)
  | drain (s : State) (x : Ring) (n : Half) (hc : (s.ring x).created = true)
      (hn : n ≤ (s.ring x).doneCnt) :
      CountChange s
        (s.setRing x
          { s.ring x with
            postCnt := (s.ring x).postCnt + n
            hwCnt := (s.ring x).hwCnt - n
            doneCnt := (s.ring x).doneCnt - n })
  | free (s : State) (x : Ring) (n : Half) (hc : (s.ring x).created = true)
      (hn : n ≤ (s.ring x).postCnt) :
      CountChange s
        (s.setRing x
          { s.ring x with
            postHead := BitVec.ofNat 16 (((s.ring x).postHead.toNat + n.toNat) % (s.ring x).size)
            postCnt := (s.ring x).postCnt - n
            freeCnt := (s.ring x).freeCnt + n })
  | rxDone (s : State) (hc : s.rx.created = true) (hp : 0 < s.rx.postedCnt) :
      CountChange s (s.countDone .rx)
  | txDone (s : State) (hc : s.tx.created = true) (hp : 0 < s.tx.postedCnt) :
      CountChange s { s.countDone .tx with txMarks := s.txMarks.tail }

/-! ### Runs of changes -/

/-- A run of changes of context. -/
abbrev ContextRun (s₀ : State) : State → State → Prop := ReflTransGen (ContextChange s₀)

/-- A run of changes of context and of memory. -/
abbrev StoreRun (s₀ : State) : State → State → Prop :=
  ReflTransGen fun s t => ContextChange s₀ s t ∨ MemoryChange s t

/-- A run of changes that move no slot. -/
abbrev QuietRun (s₀ : State) : State → State → Prop :=
  ReflTransGen fun s t => ContextChange s₀ s t ∨ MemoryChange s t ∨ ControlChange s t

/-- What a step that begins in `s₀` does: it moves no slot at all, or it moves slots once, after which it writes
no memory, and then it leaves the channels' control registers alone. -/
inductive StepEffect (s₀ s t : State) : Prop where
  | quiet (h : QuietRun s₀ s t)
  | counted {u v : State} (before : StoreRun s₀ s u) (count : CountChange u v) (after : ContextRun s₀ v t)

theorem ContextRun.toStore {s₀ s t : State} (h : ContextRun s₀ s t) : StoreRun s₀ s t :=
  ReflTransGen.mono (fun _ _ => Or.inl) _ _ h

theorem StoreRun.toQuiet {s₀ s t : State} (h : StoreRun s₀ s t) : QuietRun s₀ s t :=
  ReflTransGen.mono (fun _ _ h => h.elim .inl fun h => .inr (.inl h)) _ _ h

theorem ContextRun.toQuiet {s₀ s t : State} (h : ContextRun s₀ s t) : QuietRun s₀ s t := h.toStore.toQuiet

theorem StepEffect.andThen {s₀ s u t : State} (h : StepEffect s₀ s u) (k : ContextRun s₀ u t) :
    StepEffect s₀ s t := by
  cases h with
  | quiet h => exact .quiet (h.trans k.toQuiet)
  | counted hb hc ha => exact .counted hb hc (ha.trans k)

theorem StepEffect.after {s₀ s u t : State} (h : StoreRun s₀ s u) (k : StepEffect s₀ u t) :
    StepEffect s₀ s t := by
  cases k with
  | quiet k => exact .quiet (h.toQuiet.trans k)
  | counted hb hc ha => exact .counted (h.trans hb) hc ha

theorem ContextRun.effect {s₀ s t : State} (h : ContextRun s₀ s t) : StepEffect s₀ s t := .quiet h.toQuiet

theorem StoreRun.effect {s₀ s t : State} (h : StoreRun s₀ s t) : StepEffect s₀ s t := .quiet h.toQuiet

theorem StepEffect.refl (s₀ s : State) : StepEffect s₀ s s := .quiet .refl

theorem ContextRun.book {s₀ s t : State} (h : Book s t) : ContextRun s₀ s t := .single (.book h)

theorem StoreRun.memory {s₀ s t : State} (h : MemoryChange s t) : StoreRun s₀ s t := .single (.inr h)

theorem StepEffect.control {s₀ s t : State} (h : ControlChange s t) : StepEffect s₀ s t :=
  .quiet (.single (.inr (.inr h)))

theorem StepEffect.count {s₀ s t : State} (h : CountChange s t) : StepEffect s₀ s t := .counted .refl h .refl

/-- A fold whose every step is a run of stores is one. -/
theorem StoreRun.foldl {α : Type} {s₀ : State} {f : State → α → State} (hf : ∀ s a, StoreRun s₀ s (f s a))
    (l : List α) (s : State) : StoreRun s₀ s (l.foldl f s) := by
  induction l generalizing s with
  | nil => exact .refl
  | cons a l ih => exact (hf s a).trans (ih _)

/-! ### Properties that every change keeps -/

/-- A property that each change keeps holds after the step. -/
theorem StepEffect.keeps {s₀ s t : State} {P : State → Prop} (h : StepEffect s₀ s t)
    (hcontext : ∀ s t, ContextChange s₀ s t → P s → P t) (hmemory : ∀ s t, MemoryChange s t → P s → P t)
    (hcontrol : ∀ s t, ControlChange s t → P s → P t) (hcount : ∀ s t, CountChange s t → P s → P t)
    (hs : P s) : P t := by
  have hquiet : ∀ {s t}, QuietRun s₀ s t → P s → P t := fun {s t} h hs => by
    induction h with
    | refl => exact hs
    | tail _ h ih => exact h.elim (hcontext _ _ · ih) (·.elim (hmemory _ _ · ih) (hcontrol _ _ · ih))
  cases h with
  | quiet h => exact hquiet h hs
  | counted hb hc ha => exact hquiet ha.toQuiet (hcount _ _ hc (hquiet hb.toQuiet hs))

/-- What a run of changes of context and memory keeps, if each of them does. -/
theorem StoreRun.same {β : Type} {s₀ s t : State} {g : State → β} (h : StoreRun s₀ s t)
    (hcontext : ∀ s t, ContextChange s₀ s t → g t = g s) (hmemory : ∀ s t, MemoryChange s t → g t = g s) :
    g t = g s := by
  induction h with
  | refl => rfl
  | tail _ h ih => exact (h.elim (hcontext _ _) (hmemory _ _)).trans ih

end Sys2Proof.Machine
end

section
/-! PROOF. The inversion of the step: each primitive (40_ring_primitives.md), each micro-step of the three contexts
and each move of an external agent is a run of the elementary changes. -/

namespace Sys2Proof.Machine

open Relation

/-! ### Primitives -/

/-- What a primitive does inside a step that begins in `s₀`: a run of changes that keeps the context stack and
the synchronous operation. -/
structure PrimEffect (s₀ s u : State) : Prop where
  effect : StepEffect s₀ s u
  stack : u.stack = s.stack
  op : u.sync.op = s.sync.op

theorem PrimEffect.top {s₀ s u : State} (h : PrimEffect s₀ s u) : u.top = s.top :=
  congrArg List.getLast? h.stack

theorem PrimEffect.refl (s₀ s : State) : PrimEffect s₀ s s := ⟨.refl .., rfl, rfl⟩

/-- A primitive does nothing where it is refused, else its one effect. -/
theorem PrimEffect.of_cases {s₀ s : State} {p : Prim} {Q : Prop} (h : Refuses p s ∨ Q)
    (hQ : Q → PrimEffect s₀ s (p s).2) : PrimEffect s₀ s (p s).2 := by
  rcases h with ⟨c, -, h⟩ | h
  · rw [h]; exact .refl ..
  · exact hQ h

/-- What a primitive does that only stores: it may be followed by another primitive in the same micro-step. -/
structure PrimStore (s₀ s u : State) : Prop where
  run : StoreRun s₀ s u
  stack : u.stack = s.stack
  op : u.sync.op = s.sync.op

theorem PrimStore.effect {s₀ s u : State} (h : PrimStore s₀ s u) : PrimEffect s₀ s u :=
  ⟨h.run.effect, h.stack, h.op⟩

theorem PrimStore.of_cases {s₀ s : State} {p : Prim} {Q : Prop} (h : Refuses p s ∨ Q)
    (hQ : Q → PrimStore s₀ s (p s).2) : PrimStore s₀ s (p s).2 := by
  rcases h with ⟨c, -, h⟩ | h
  · rw [h]; exact ⟨.refl, rfl, rfl⟩
  · exact hQ h

theorem PrimEffect.control {s₀ s u : State} (h : ControlChange s u) (hs : u.stack = s.stack)
    (ho : u.sync.op = s.sync.op) : PrimEffect s₀ s u := ⟨.control h, hs, ho⟩

theorem primCreate_effect (s₀ s : State) (x : Ring) (n : Half) (b z a m : Word) :
    PrimEffect s₀ s (primCreate x n b z a m s).2 := by
  refine .of_cases (primCreate_cases s x n b z a m) ?_
  rintro ⟨-, hn, hm, ha, -, -, hz, hb, h⟩
  rw [h]
  exact ⟨.count (.create s x n b z a m hn hm ha hz hb), by simp, by simp⟩

/-- The record of a slot is written field by field. -/
theorem setRecord_run (s₀ s : State) (x : Ring) (b l c t : Word) (i : Nat) :
    StoreRun s₀ s (s.setRecord x b l c t i) :=
  (((StoreRun.memory (.field s x i .bufAddr b)).trans (StoreRun.memory (.field _ x i .length l))).trans
    (StoreRun.memory (.field _ x i .ctrl c))).trans (StoreRun.memory (.field _ x i .sts t))

/-- A field that is no part of memory is the same in two states that differ in memory alone. -/
theorem SameButMemory.same {β : Type} {s t : State} (h : SameButMemory s t) (g : State → β)
    (hg : g { t with memSw := s.memSw, memHw := s.memHw, hwLog := s.hwLog } = g t) : g t = g s :=
  hg.symm.trans (congrArg g h)

theorem primInitSlots_effect (s₀ s : State) (x : Ring) (b l c t : Word) :
    PrimEffect s₀ s (primInitSlots x b l c t s).2 := by
  refine .of_cases (primInitSlots_cases s x b l c t) ?_
  rintro ⟨-, -, -, h⟩
  have hsame := SameButMemory.foldl (fun s i => setRecord_sameButMemory s x b l c t i)
    (List.range (s.ring x).size) s
  rw [h]
  exact ⟨(StoreRun.foldl (fun s i => setRecord_run s₀ s x b l c t i) _ s).effect,
    hsame.same State.stack rfl, hsame.same (fun s => s.sync.op) rfl⟩

theorem primReserve_effect (s₀ s : State) (x : Ring) (n : Half) :
    PrimEffect s₀ s (primReserve x n s).2 := by
  refine .of_cases (primReserve_cases s x n) ?_
  rintro ⟨hc, -, hn, h⟩
  rw [h]
  exact ⟨.count (.reserve s x n hc hn), State.setRing_stack .., by rw [State.setRing_sync]⟩

theorem primUnreserve_effect (s₀ s : State) (x : Ring) (n : Half) (d : Word) :
    PrimEffect s₀ s (primUnreserve x n d s).2 := by
  refine .of_cases (primUnreserve_cases s x n d) ?_
  rintro ⟨hc, -, hn, -, h⟩
  rw [h]
  exact ⟨.count (.unreserve s x n hc hn), State.setRing_stack .., by rw [State.setRing_sync]⟩

theorem clearStatus_run (s₀ s : State) (x : Ring) (h n : Nat) : StoreRun s₀ s (s.clearStatus x h n) :=
  StoreRun.foldl (fun _ _ => StoreRun.memory (.field ..)) _ s

theorem primCommit_effect (s₀ s : State) (x : Ring) (n : Half) (d : Word) :
    PrimEffect s₀ s (primCommit x n d s).2 := by
  refine .of_cases (primCommit_cases s x n d) ?_
  rintro ⟨hc, -, hn, -, -, h⟩
  have hsame := clearStatus_sameButMemory s x (s.ring x).preHead n.toNat
  have hr := hsame.ring x
  have hcommit := CountChange.commit (s.clearStatus x (s.ring x).preHead n.toNat) x n
  rw [hr] at hcommit
  rw [h]
  exact ⟨.after (clearStatus_run ..) (.count (hcommit hc hn)), by simpa using hsame.same State.stack rfl,
    by simpa using hsame.same (fun s => s.sync.op) rfl⟩

theorem minHalf_le_right (a b : Half) : minHalf a b ≤ b := by
  unfold minHalf
  split
  · assumption
  · exact BitVec.le_refl _

theorem primDrain_effect (s₀ s : State) (x : Ring) (n : Half) : PrimEffect s₀ s (primDrain x n s).2 := by
  refine .of_cases (primDrain_cases s x n) ?_
  rintro ⟨hc, h⟩
  rw [h]
  exact ⟨.count (.drain s x _ hc (minHalf_le_right ..)), State.setRing_stack .., by rw [State.setRing_sync]⟩

theorem primFree_effect (s₀ s : State) (x : Ring) (n : Half) (d : Word) :
    PrimEffect s₀ s (primFree x n d s).2 := by
  refine .of_cases (primFree_cases s x n d) ?_
  rintro ⟨hc, -, hn, -, h⟩
  rw [h]
  exact ⟨.count (.free s x n hc hn), State.setRing_stack .., by rw [State.setRing_sync]⟩

theorem beginFraming_book (s : State) (x : Ring) : Book s (s.beginFraming x) := by
  constructor <;> simp

theorem primStart_effect {s₀ s : State} (x : Ring) (hh : s.engState ≠ .halted) :
    PrimEffect s₀ s (primStart x s).2 := by
  refine .of_cases (primStart_cases s x) ?_
  rintro ⟨-, h⟩
  have hstart := ControlChange.start (s.beginFraming x) x (by simpa using hh)
  rw [State.beginFraming_ring] at hstart
  rw [h]
  exact ⟨.after (ContextRun.book (beginFraming_book s x)).toStore (.control hstart), by simp,
    by simp⟩

theorem primStop_effect (s₀ s : State) (x : Ring) : PrimEffect s₀ s (primStop x s).2 := by
  refine .of_cases (primStop_cases s x) ?_
  rintro ⟨-, h⟩
  rw [h]
  exact .control (.stop s x) (State.setRing_stack ..) (by rw [State.setRing_sync])

theorem primIrqEnable_effect {s₀ s : State} (x : Ring) (m : BitVec 3) (hh : s.engState ≠ .halted)
    (hw : s.engState = .uninit ∨ s.sync.op = .initEngine ∨ handlerOf x ∈ s.stack) :
    PrimEffect s₀ s (primIrqEnable x m s).2 :=
  .control (.enable s x m hh hw) (State.setRing_stack ..) (congrArg Sync.op (State.setRing_sync ..))

theorem primIrqDisable_effect (s₀ s : State) (x : Ring) (m : BitVec 3) :
    PrimEffect s₀ s (primIrqDisable x m s).2 :=
  .control (.disable s x m) (State.setRing_stack ..) (congrArg Sync.op (State.setRing_sync ..))

theorem primIrqGet_store (s₀ s : State) (x : Ring) : PrimStore s₀ s (primIrqGet x s).2 :=
  ⟨(ContextRun.book (t := (primIrqGet x s).2) (by constructor <;> rfl)).toStore, rfl, rfl⟩

theorem primIrqAck_effect (s₀ s : State) (x : Ring) (m : BitVec 3) :
    PrimEffect s₀ s (primIrqAck x m s).2 :=
  .control (.ack s x m) (State.setRing_stack ..) (congrArg Sync.op (State.setRing_sync ..))

theorem primReset_effect (s₀ s : State) : PrimEffect s₀ s (primReset s).2 := .control (.reset s _) rfl rfl

theorem primResetDone_effect (s₀ s : State) : PrimEffect s₀ s (primResetDone s).2 := .refl ..

theorem setField_store (s₀ s : State) (x : Ring) (i : Nat) (f : BdField) (w : Word) :
    PrimStore s₀ s (s.setField x i f w) := ⟨StoreRun.memory (.field s x i f w), rfl, rfl⟩

theorem needReserved_store {s₀ s : State} {x : Ring} {d : Word} {p : Nat → Prim}
    (hp : ∀ i, PrimStore s₀ s (p i s).2) : PrimStore s₀ s (needReserved x d p s).2 := by
  refine .of_cases (needReserved_cases s x d p) ?_
  rintro ⟨i, -, -, -, h⟩
  rw [h]
  exact hp i

theorem primBdSetAddr_store (s₀ s : State) (x : Ring) (d a : Word) :
    PrimStore s₀ s (primBdSetAddr x d a s).2 := needReserved_store fun _ => setField_store ..

theorem primBdSetLen_store (s₀ s : State) (x : Ring) (d l : Word) :
    PrimStore s₀ s (primBdSetLen x d l s).2 := by
  refine .of_cases (primBdSetLen_cases s x d l) ?_
  rintro ⟨i, w, -, -, -, -, -, h⟩
  rw [h]
  exact setField_store ..

theorem primBdSetCtrl_store (s₀ s : State) (x : Ring) (m : BitVec 2) (d : Word) :
    PrimStore s₀ s (primBdSetCtrl x m d s).2 := needReserved_store fun _ => setField_store ..

/-- A primitive that never changes the state. -/
theorem needRing_effect {s₀ s : State} {x : Ring} {p : Prim} (hp : (p s).2 = s) :
    PrimEffect s₀ s (needRing x p s).2 := by
  refine .of_cases (needRing_cases s x p) ?_
  rintro ⟨-, h⟩
  rw [h, hp]
  exact .refl ..

theorem needDesc_keeps {s : State} {x : Ring} {d : Word} {p : Nat → Prim} (hp : ∀ i, (p i s).2 = s) :
    (needDesc x d p s).2 = s := by
  cases h : (s.ring x).idx d with
  | none => rw [needDesc_none p h]
  | some i => rw [needDesc_some p h, hp]

theorem primBdGet_effect (s₀ s : State) (x : Ring) (d : Word) (f : BdField) (r : Word → Word) :
    PrimEffect s₀ s (primBdGet x d f r s).2 := needRing_effect (needDesc_keeps fun _ => rfl)

theorem primBdNext_effect (s₀ s : State) (x : Ring) (d : Word) : PrimEffect s₀ s (primBdNext x d s).2 :=
  needRing_effect (needDesc_keeps fun _ => rfl)

/-! ### Issue of a primitive -/

theorem markRefused_run (s₀ s : State) : ContextRun s₀ s s.markRefused :=
  ContextRun.book (by constructor <;> rfl)

theorem markFault_run (s₀ s : State) (f : Fault) : ContextRun s₀ s (s.markFault f) :=
  ContextRun.book (by constructor <;> rfl)

/-- The end of a synchronous operation with a response. -/
theorem respond_run {s₀ s : State} (e : Event) (h : s.top = some .sync) :
    ContextRun s₀ s (s.emit e).endSync := (ReflTransGen.single (.emit s e)).tail (.endSync _ h)

/-- A direct primitive is refused, accepted, or performed in `Uninit` and answered. -/
theorem issueDirect_effect {s₀ s : State} (i : Instr) (p : Prim)
    (hp : s.engState = .uninit → PrimEffect s₀ s (p s).2) : StepEffect s₀ s (s.issueDirect i p) := by
  rcases issueDirect_cases s i p with ⟨⟨he, -, htop⟩, h⟩ | ⟨⟨-, hbase⟩, h⟩ | ⟨-, -, h⟩ <;> rw [h]
  · exact (hp he).effect.andThen (respond_run _ ((hp he).top.trans htop))
  · refine ContextRun.effect (.head (.accept s .primitive hbase (by decide) (by simp)) ?_)
    exact ContextRun.book (by constructor <;> rfl)
  · exact (markRefused_run ..).effect

/-- A primitive in flight is refused, or its effect comes before that of what follows. -/
theorem inFlight_effect {s₀ s : State} {exempt : Bool} {p : Prim} {ok : List Word → State → State}
    {bad : Code → State → State}
    (hp : s.engState ≠ .halted ∨ exempt = true → PrimEffect s₀ s (p s).2)
    (hok : ∀ rs u, PrimEffect s₀ s u → ContextRun s₀ u (ok rs u))
    (hbad : ∀ c u, PrimEffect s₀ s u → ContextRun s₀ u (bad c u)) :
    StepEffect s₀ s (s.inFlight exempt p ok bad) := by
  rcases inFlight_cases s exempt p ok bad with ⟨-, -, h⟩ | ⟨he, -, h⟩ | ⟨he, -, h⟩ <;> rw [h]
  · exact (markRefused_run ..).effect
  · exact (hp he).effect.andThen (hok _ _ (hp he))
  · exact (hp he).effect.andThen (hbad _ _ (hp he))

theorem seqPrim_effect {s₀ s : State} {exempt : Bool} {p : Prim} {ok : List Word → State → State}
    (hp : s.engState ≠ .halted ∨ exempt = true → PrimEffect s₀ s (p s).2)
    (hok : ∀ rs u, PrimEffect s₀ s u → ContextRun s₀ u (ok rs u)) :
    StepEffect s₀ s (s.seqPrim exempt p ok) :=
  inFlight_effect hp hok fun _ _ _ => markFault_run ..

/-- A primitive in flight that only stores, followed by what may be another primitive in flight. -/
theorem inFlight_store_effect {s₀ s : State} {exempt : Bool} {p : Prim} {ok : List Word → State → State}
    {bad : Code → State → State} (hp : PrimStore s₀ s (p s).2)
    (hok : ∀ rs u, u.stack = s.stack → StepEffect s₀ u (ok rs u))
    (hbad : ∀ c u, u.stack = s.stack → ContextRun s₀ u (bad c u)) :
    StepEffect s₀ s (s.inFlight exempt p ok bad) := by
  rcases inFlight_cases s exempt p ok bad with ⟨-, -, h⟩ | ⟨-, -, h⟩ | ⟨-, -, h⟩ <;> rw [h]
  · exact (markRefused_run ..).effect
  · exact .after hp.run (hok _ _ hp.stack)
  · exact StoreRun.effect (hp.run.trans (hbad _ _ hp.stack).toStore)

theorem seqPrim_store_effect {s₀ s : State} {exempt : Bool} {p : Prim} {ok : List Word → State → State}
    (hp : PrimStore s₀ s (p s).2) (hok : ∀ rs u, u.stack = s.stack → StepEffect s₀ u (ok rs u)) :
    StepEffect s₀ s (s.seqPrim exempt p ok) :=
  inFlight_store_effect hp hok fun _ _ _ => markFault_run ..

end Sys2Proof.Machine
end

section
/-! PROOF. The inversion of the step, continued: the instructions, the micro-steps of the three contexts, and the
moves of the external agents. -/

namespace Sys2Proof.Machine

open Relation

/-! ### Instructions -/

theorem enter_effect {s₀ s : State} (x : Ring) : StepEffect s₀ s (s.dispatch x) := by
  cases h : s.canDispatch x
  · rw [dispatch_not_taken h]; exact .refl ..
  · rw [dispatch_taken h]; exact ContextRun.effect (.single (.enter s x h))

/-- An engine command at base level, with the operands it latches. -/
theorem accept_effect {s₀ s : State} (op : SyncOp) (sync : Sync) (hbase : s.atBase) (hop : op ≠ .none)
    (hready : op = .initEngine → s.engState ≠ .ready) (h : sync.op = op) :
    StepEffect s₀ s { s.push .sync with sync := sync } := by
  refine ContextRun.effect (.head (.accept s op hbase hop hready) (ContextRun.book ?_))
  constructor <;> first | exact h | rfl

theorem execInitEngine_effect {s₀ s t : State} {n : Half} {d rv rp tv tp rb tb bs rbb tbb cb uc : Word}
    (h : execInitEngine n d rv rp tv tp rb tb bs rbb tbb cb uc s = .next t) : StepEffect s₀ s t := by
  unfold execInitEngine at h
  split at h <;> cases h
  · rename_i hc
    obtain ⟨he, hbase⟩ := Bool.and_eq_true_iff.1 hc
    refine accept_effect .initEngine _ ((baseLevel_iff s).1 hbase) (by decide) (fun _ hr => ?_) rfl
    simp [hr] at he
  · exact (markRefused_run ..).effect

theorem execTransmit_effect {s₀ s t : State} {b z : Word} (h : execTransmit b z s = .next t) :
    StepEffect s₀ s t := by
  unfold execTransmit at h
  split at h <;> cases h
  · rename_i hc
    obtain ⟨-, hbase⟩ := Bool.and_eq_true_iff.1 hc
    exact accept_effect .transmit _ ((baseLevel_iff s).1 hbase) (by decide) (by simp) rfl
  · exact (markRefused_run ..).effect

/-- Engine state `Uninit`, in which direct primitives are performed, is not `Halted`. -/
theorem not_halted_of_uninit {s : State} (h : s.engState = .uninit) : s.engState ≠ .halted := by
  simp [h]

theorem exec_effect {s₀ s t : State} {i : Instr} (h : exec i s = .next t) : StepEffect s₀ s t := by
  cases i with
  | initEngine => exact execInitEngine_effect h
  | transmit => exact execTransmit_effect h
  | irqRx => cases h; exact enter_effect .rx
  | irqTx => cases h; exact enter_effect .tx
  | create => cases h; exact issueDirect_effect _ _ fun _ => primCreate_effect ..
  | initSlots => cases h; exact issueDirect_effect _ _ fun _ => primInitSlots_effect ..
  | reserve => cases h; exact issueDirect_effect _ _ fun _ => primReserve_effect ..
  | unreserve => cases h; exact issueDirect_effect _ _ fun _ => primUnreserve_effect ..
  | commit => cases h; exact issueDirect_effect _ _ fun _ => primCommit_effect ..
  | drain => cases h; exact issueDirect_effect _ _ fun _ => primDrain_effect ..
  | free => cases h; exact issueDirect_effect _ _ fun _ => primFree_effect ..
  | start => cases h; exact issueDirect_effect _ _ fun he => primStart_effect _ (not_halted_of_uninit he)
  | stop => cases h; exact issueDirect_effect _ _ fun _ => primStop_effect ..
  | irqEnable =>
    cases h; exact issueDirect_effect _ _ fun he => primIrqEnable_effect _ _ (not_halted_of_uninit he) (.inl he)
  | irqDisable => cases h; exact issueDirect_effect _ _ fun _ => primIrqDisable_effect ..
  | irqGet => cases h; exact issueDirect_effect _ _ fun _ => (primIrqGet_store ..).effect
  | irqAck => cases h; exact issueDirect_effect _ _ fun _ => primIrqAck_effect ..
  | reset => cases h; exact issueDirect_effect _ _ fun _ => primReset_effect ..
  | resetDone => cases h; exact issueDirect_effect _ _ fun _ => primResetDone_effect ..
  | bdSetAddr => cases h; exact issueDirect_effect _ _ fun _ => (primBdSetAddr_store ..).effect
  | bdSetLen => cases h; exact issueDirect_effect _ _ fun _ => (primBdSetLen_store ..).effect
  | bdSetCtrl x m d =>
    cases h
    refine issueDirect_effect _ _ fun _ => ?_
    split
    · exact .refl ..
    · exact (primBdSetCtrl_store ..).effect
  | bdGetAddr => cases h; exact issueDirect_effect _ _ fun _ => primBdGet_effect ..
  | bdGetLen => cases h; exact issueDirect_effect _ _ fun _ => primBdGet_effect ..
  | bdGetSts => cases h; exact issueDirect_effect _ _ fun _ => primBdGet_effect ..
  | bdNext => cases h; exact issueDirect_effect _ _ fun _ => primBdNext_effect ..

/-! ### Micro-steps of the synchronous path -/

theorem goStep_run (s₀ s : State) (k : BitVec 8) : ContextRun s₀ s (s.goStep k) :=
  ContextRun.book (by constructor <;> rfl)

theorem setBusy_run (s₀ s : State) (b : Option Ring) : ContextRun s₀ s (s.setBusy b) :=
  ContextRun.book (by constructor <;> rfl)

theorem failInit_run {s₀ s : State} (c : Code) (h : s.top = some .sync) :
    ContextRun s₀ s (failInit c s) :=
  ((ReflTransGen.single (.emit s _)).tail (.fail _)).trans ((setBusy_run ..).tail (.endSync _ h))

theorem endTransmit_run {s₀ s : State} (c : Code) (h : s.top = some .sync) :
    ContextRun s₀ s (endTransmit c s) := (setBusy_run s₀ s none).trans (respond_run _ h)

/-- A primitive of `INITIALIZE` goes on to the next micro-step, or ends the operation. -/
theorem initPrim_effect {s₀ s : State} {p : Prim} (k : BitVec 8) (htop : s.top = some .sync)
    (hp : s.engState ≠ .halted → PrimEffect s₀ s (p s).2) : StepEffect s₀ s (initPrim p k s) :=
  inFlight_effect (fun h => hp (h.resolve_right (by decide))) (fun _ _ _ => goStep_run ..)
    fun c _ hu => failInit_run c (hu.top.trans htop)

theorem initI8_effect {s₀ s : State} (htop : s.top = some .sync) : StepEffect s₀ s (initI8 s) := by
  have hfail : ∀ {u} c, u.stack = s.stack → ContextRun s₀ u (failInit c u) := fun c hu =>
    failInit_run c ((congrArg List.getLast? hu).trans htop)
  unfold initI8
  split
  · refine inFlight_store_effect (primBdSetAddr_store ..) (fun _ u hu => ?_) fun c u hu => hfail c hu
    exact inFlight_effect (fun _ => (primBdSetLen_store ..).effect)
      (fun _ _ _ => ContextRun.book (by constructor <;> rfl)) fun c v hv => hfail c (hv.stack.trans hu)
  · exact (goStep_run ..).effect

/-- The end of a ring's span: `sync.busy_ring` is cleared before the next micro-step (R160). -/
theorem endSpan_run (s₀ s : State) (k : BitVec 8) : ContextRun s₀ s ((s.setBusy none).goStep k) :=
  (setBusy_run ..).trans (goStep_run ..)

/-- The micro-steps of `INITIALIZE`, in a step that begins with them. -/
theorem initStep_effect {s₀ s : State} (hmove : s₀.nextMove = .cpu) (htop : s₀.top = some .sync)
    (hop : s₀.sync.op = .initEngine) (hstack : s.stack = s₀.stack) (hsync : s.sync = s₀.sync) :
    StepEffect s₀ s (initStep s) := by
  have hs : s.top = some .sync := (congrArg List.getLast? hstack).trans htop
  have hfail : ∀ c u, PrimEffect s₀ s u → ContextRun s₀ u (failInit c u) := fun c u hu =>
    failInit_run c (hu.top.trans hs)
  have henable : ∀ x, s.engState ≠ .halted → PrimEffect s₀ s (primIrqEnable x irqAll s).2 := fun x he =>
    primIrqEnable_effect x _ he (.inr (.inl (hsync ▸ hop)))
  have hspan : ∀ {x k}, StepEffect s₀ s
      (s.inFlight false (primStart x) (fun _ s => (s.setBusy none).goStep k) failInit) :=
    inFlight_effect (fun he => primStart_effect _ (he.resolve_right (by decide)))
      (fun _ _ _ => endSpan_run ..) hfail
  have hlookup : ∀ {c k} {b : Bool}, StepEffect s₀ s (if b then s.goStep k else failInit c s) := fun {c k b} => by
    cases b
    · exact (failInit_run c hs).effect
    · exact (goStep_run ..).effect
  unfold initStep
  split
  · rename_i h0
    have hzero : s₀.sync.step = 0 := hsync ▸ BitVec.eq_of_toNat_eq h0
    exact ContextRun.effect (.head (.latch s hmove htop hop hzero) (goStep_run ..))
  · exact hlookup
  · exact hlookup
  · exact hlookup
  · unfold initI4
    split
    · exact .after (setBusy_run ..).toStore (initPrim_effect 5 hs fun _ => primIrqDisable_effect ..)
    · exact (markRefused_run ..).effect
  · exact initPrim_effect 6 hs fun _ => primCreate_effect ..
  · exact initPrim_effect 7 hs fun _ => primInitSlots_effect ..
  · exact inFlight_effect (fun _ => primReserve_effect ..)
      (fun _ _ _ => ContextRun.book (by constructor <;> rfl)) hfail
  · exact initI8_effect hs
  · exact initPrim_effect 10 hs fun _ => primCommit_effect ..
  · exact initPrim_effect 11 hs (henable .rx)
  · exact hspan
  · exact .after (setBusy_run ..).toStore (initPrim_effect 13 hs fun _ => primIrqDisable_effect ..)
  · exact initPrim_effect 14 hs fun _ => primCreate_effect ..
  · exact initPrim_effect 15 hs fun _ => primInitSlots_effect ..
  · exact initPrim_effect 16 hs (henable .tx)
  · exact hspan
  · unfold initI17
    split
    · exact (markRefused_run ..).effect
    · exact ContextRun.effect (.head (.ready s hop) (respond_run _ hs))
  · exact .refl ..

theorem overRange_run {s₀ : State} {f : State → Word → State} (hf : ∀ s a, StoreRun s₀ s (f s a)) (a : Word)
    (len : Nat) (s : State) : StoreRun s₀ s (overRange f a len s) := StoreRun.foldl (fun s _ => hf s _) _ s

theorem flush_run (s₀ s : State) (a len : Word) : StoreRun s₀ s (s.flush a len) :=
  (overRange_run (fun s a => StoreRun.memory (.poke s .hw a _)) ..).tail (.inl (.emit ..))

theorem invalidate_run (s₀ s : State) (a len : Word) : StoreRun s₀ s (s.invalidate a len) :=
  (overRange_run (fun s a => StoreRun.memory (.poke s .sw a _)) ..).tail (.inl (.emit ..))

theorem copyUp_run (s₀ s : State) (dst src : Word) (len : Nat) : StoreRun s₀ s (s.copyUp dst src len) :=
  StoreRun.foldl (fun _ _ => StoreRun.memory (.poke ..)) _ s

theorem pokeList_run (s₀ s : State) (v : View) (a : Word) (l : List Byte) :
    StoreRun s₀ s (s.pokeList v a l) := by
  induction l generalizing s a with
  | nil => exact .refl
  | cons b l ih => exact (StoreRun.memory (.poke s v a b)).trans (ih ..)

theorem txFail_run (s₀ s : State) (c : Code) : ContextRun s₀ s (txFail c s) :=
  ContextRun.book (by constructor <;> rfl)

theorem transmitStep_effect {s₀ s : State} (htop : s.top = some .sync) :
    StepEffect s₀ s (transmitStep s) := by
  have hend : ∀ {u} c, PrimEffect s₀ s u → ContextRun s₀ u (endTransmit c u) := fun c hu =>
    endTransmit_run c (hu.top.trans htop)
  unfold transmitStep
  split
  · unfold txT0
    split
    · exact (endTransmit_run _ htop).effect
    · exact (goStep_run ..).effect
  · refine .after (setBusy_run ..).toStore (inFlight_effect (fun _ => primReserve_effect ..)
      (fun _ _ _ => ContextRun.book (by constructor <;> rfl)) fun c u hu => ?_)
    exact endTransmit_run c (hu.top.trans htop)
  · unfold txT2
    split
    · exact StoreRun.effect ((copyUp_run ..).trans (goStep_run ..).toStore)
    · exact (markRefused_run ..).effect
  · exact StoreRun.effect ((flush_run ..).trans (goStep_run ..).toStore)
  · exact inFlight_effect (fun _ => (primBdSetAddr_store ..).effect) (fun _ _ _ => goStep_run ..)
      fun _ _ _ => goStep_run ..
  · exact inFlight_effect (fun _ => (primBdSetLen_store ..).effect) (fun _ _ _ => goStep_run ..)
      fun _ _ _ => txFail_run ..
  · exact inFlight_effect (fun _ => (primBdSetCtrl_store ..).effect) (fun _ _ _ => goStep_run ..)
      fun _ _ _ => goStep_run ..
  · exact inFlight_effect (fun _ => primCommit_effect ..) (fun _ _ hu => hend _ hu) fun _ _ _ => txFail_run ..
  · exact inFlight_effect (fun _ => primUnreserve_effect ..) (fun _ _ hu => hend _ hu) fun _ _ hu => hend _ hu
  · exact .refl ..

theorem syncStep_effect {s₀ s : State} (hmove : s₀.nextMove = .cpu) (htop : s₀.top = some .sync)
    (hstack : s.stack = s₀.stack) (hsync : s.sync = s₀.sync) : StepEffect s₀ s (syncStep s) := by
  unfold syncStep
  split
  · exact initStep_effect hmove htop (hsync ▸ ‹_›) hstack hsync
  · exact transmitStep_effect ((congrArg List.getLast? hstack).trans htop)
  · exact .refl ..
  · exact .refl ..

/-! ### Micro-steps of the handlers -/

theorem mem_of_top {s : State} {a : Agent} (h : s.top = some a) : a ∈ s.stack := List.mem_of_getLast? h

theorem mem_of_stack {s u : State} {a : Agent} (hu : u.stack = s.stack) (h : s.top = some a) :
    a ∈ u.stack := hu ▸ mem_of_top h

theorem noteTimeout_run (s₀ s : State) : ContextRun s₀ s s.noteTimeout :=
  ContextRun.book (by constructor <;> simp)

theorem deliver_run (s₀ s : State) : StoreRun s₀ s s.deliver := by
  unfold State.deliver
  split
  · exact (markFault_run ..).toStore
  · exact ((invalidate_run ..).tail (.inl (.emit ..))).trans
      (ContextRun.book (by constructor <;> rfl)).toStore

theorem reassemble_run (s₀ s : State) (i : Nat) : StoreRun s₀ s (s.reassemble i) := by
  have hfragment : ∀ r, StoreRun s₀ s { s with rs := r } := fun r =>
    (ContextRun.book (by constructor <;> rfl)).toStore
  simp only [State.reassemble]
  split
  · exact .refl
  · split
    · exact .refl
    · split
      · exact (hfragment _).trans (deliver_run ..)
      · exact hfragment _

end Sys2Proof.Machine
end

section
/-! PROOF. The inversion of the step, concluded: the micro-steps of the two handlers, the moves of the external
agents, and the step itself. -/

namespace Sys2Proof.Machine

open Relation

/-! ### The RX handler -/

/-- The RX handler on the stack sets its own registers. -/
theorem rxh_run {s₀ s u : State} (r : Rxh) (htop : s.top = some .rxh) (hu : u.stack = s.stack) :
    ContextRun s₀ u { u with rxh := r } := .single (.rxh u r (mem_of_stack hu htop))

theorem leave_run {s₀ s u : State} (x : Ring) (htop : s.top = some (handlerOf x)) (hu : u.stack = s.stack) :
    ContextRun s₀ u (u.leaveHandler x) := .single (.leave u x ((congrArg List.getLast? hu).trans htop))

theorem rxAcknowledge_effect {s₀ s : State} (htop : s.top = some .rxh) :
    StepEffect s₀ s (rxAcknowledge s) := by
  refine seqPrim_store_effect (primIrqGet_store ..) fun _ u hu => ?_
  dsimp only
  split
  · exact (leave_run .rx htop hu).effect
  · exact seqPrim_effect (fun _ => primIrqAck_effect ..) fun _ v hv => rxh_run _ htop (hv.stack.trans hu)

theorem rxPoll_effect {s₀ s : State} (htop : s.top = some .rxh) : StepEffect s₀ s (rxPoll s) := by
  refine seqPrim_effect (fun _ => primResetDone_effect ..) fun rs u hu => ?_
  dsimp only
  split
  · exact leave_run .rx htop hu.stack
  · have hpoll := rxh_run (s₀ := s₀) { u.rxh with poll := u.rxh.poll + 1 } htop hu.stack
    split
    · exact (hpoll.trans (noteTimeout_run ..)).trans (leave_run .rx htop (by simpa using hu.stack))
    · exact hpoll

theorem rxMask_effect {s₀ s : State} (htop : s.top = some .rxh) : StepEffect s₀ s (rxMask s) := by
  unfold rxMask
  split
  · exact (markFault_run ..).effect
  · exact seqPrim_effect (fun _ => primIrqDisable_effect ..) fun _ u hu => rxh_run _ htop hu.stack

theorem rxDrain_effect {s₀ s : State} (htop : s.top = some .rxh) : StepEffect s₀ s (rxDrain s) := by
  refine seqPrim_effect (fun _ => primDrain_effect ..) fun rs u hu => ?_
  dsimp only
  split
  · exact rxh_run _ htop hu.stack
  · split
    · exact rxh_run _ htop hu.stack
    · exact (rxh_run _ htop hu.stack).trans (leave_run .rx htop hu.stack)

theorem rxPopulate_effect {s₀ s : State} (htop : s.top = some .rxh) : StepEffect s₀ s (rxPopulate s) :=
  seqPrim_store_effect (primBdSetLen_store ..) fun _ _ hu =>
    seqPrim_effect (fun _ => (primBdSetCtrl_store ..).effect) fun _ _ hv =>
      rxh_run _ htop (hv.stack.trans hu)

theorem overRange_refill_same (s : State) (a : Word) (len : Nat) :
    SameButMemory s (overRange State.refill a len s) :=
  overRange_sameButMemory (fun s a => poke_sameButMemory s .sw a _) a len s

theorem invalidate_stack (s : State) (a len : Word) : (s.invalidate a len).stack = s.stack :=
  (overRange_refill_same s a len.toNat).same State.stack rfl

theorem deliver_stack (s : State) : s.deliver.stack = s.stack := by
  unfold State.deliver
  split
  · rfl
  · exact invalidate_stack ..

theorem reassemble_stack (s : State) (i : Nat) : (s.reassemble i).stack = s.stack := by
  simp only [State.reassemble]
  split
  · rfl
  · split
    · rfl
    · split
      · exact deliver_stack _
      · rfl

theorem rxWalk_effect {s₀ s : State} (htop : s.top = some .rxh) : StepEffect s₀ s (rxWalk s) :=
  StoreRun.effect ((reassemble_run ..).trans (rxh_run _ htop (reassemble_stack ..)).toStore)

theorem rxhStep_effect {s₀ s : State} (htop : s.top = some .rxh) : StepEffect s₀ s (rxhStep s) := by
  unfold rxhStep
  split
  · exact rxAcknowledge_effect htop
  · split
    · exact seqPrim_effect (fun _ => primReset_effect ..) fun _ _ hu => rxh_run _ htop hu.stack
    · exact rxMask_effect htop
  · exact rxPoll_effect htop
  · split
    · exact rxDrain_effect htop
    · exact rxWalk_effect htop
    · exact seqPrim_effect (fun _ => primFree_effect ..) fun _ _ hu => rxh_run _ htop hu.stack
    · exact seqPrim_effect (fun _ => primReserve_effect ..) fun _ _ hu => rxh_run _ htop hu.stack
    · exact rxPopulate_effect htop
    · exact seqPrim_effect (fun _ => primCommit_effect ..) fun _ _ hu => rxh_run _ htop hu.stack
    · refine seqPrim_effect (fun he => ?_) fun _ _ hu => rxh_run _ htop hu.stack
      exact primIrqEnable_effect _ _ (he.resolve_right (by decide)) (.inr (.inr (mem_of_top htop)))
  · exact (leave_run .rx htop rfl).effect

/-! ### The TX handler -/

/-- The TX handler on the stack sets its own registers. -/
theorem txh_run {s₀ s u : State} (r : Txh) (htop : s.top = some .txh) (hu : u.stack = s.stack) :
    ContextRun s₀ u { u with txh := r } := .single (.txh u r (mem_of_stack hu htop))

theorem txAcknowledge_effect {s₀ s : State} (htop : s.top = some .txh) :
    StepEffect s₀ s (txAcknowledge s) := by
  refine seqPrim_store_effect (primIrqGet_store ..) fun _ u hu => ?_
  dsimp only
  split
  · exact (leave_run .tx htop hu).effect
  · exact seqPrim_effect (fun _ => primIrqAck_effect ..) fun _ v hv => txh_run _ htop (hv.stack.trans hu)

theorem txPoll_effect {s₀ s : State} (htop : s.top = some .txh) : StepEffect s₀ s (txPoll s) := by
  refine seqPrim_effect (fun _ => primResetDone_effect ..) fun rs u hu => ?_
  dsimp only
  split
  · exact leave_run .tx htop hu.stack
  · have hpoll := txh_run (s₀ := s₀) { u.txh with poll := u.txh.poll + 1 } htop hu.stack
    split
    · exact (hpoll.trans (noteTimeout_run ..)).trans (leave_run .tx htop (by simpa using hu.stack))
    · exact hpoll

theorem txMask_effect {s₀ s : State} (htop : s.top = some .txh) : StepEffect s₀ s (txMask s) := by
  unfold txMask
  split
  · exact (markFault_run ..).effect
  · exact seqPrim_effect (fun _ => primIrqDisable_effect ..) fun _ u hu => txh_run _ htop hu.stack

theorem txDrain_effect {s₀ s : State} (htop : s.top = some .txh) : StepEffect s₀ s (txDrain s) := by
  refine seqPrim_effect (fun _ => primDrain_effect ..) fun rs u hu => ?_
  dsimp only
  split <;> exact txh_run _ htop hu.stack

theorem txhStep_effect {s₀ s : State} (htop : s.top = some .txh) : StepEffect s₀ s (txhStep s) := by
  unfold txhStep
  split
  · exact txAcknowledge_effect htop
  · split
    · exact seqPrim_effect (fun _ => primReset_effect ..) fun _ _ hu => txh_run _ htop hu.stack
    · exact txMask_effect htop
  · exact txPoll_effect htop
  · split
    · exact txDrain_effect htop
    · exact seqPrim_effect (fun _ => primFree_effect ..) fun _ _ hu => txh_run _ htop hu.stack
    · refine seqPrim_effect (fun he => ?_) fun _ _ hu => txh_run _ htop hu.stack
      exact primIrqEnable_effect _ _ (he.resolve_right (by decide)) (.inr (.inr (mem_of_top htop)))
  · exact (leave_run .tx htop rfl).effect

/-! ### The external agents -/

theorem channelEnabled_iff (s : State) (x : Ring) :
    s.channelEnabled x = true ↔
      (s.ring x).created = true ∧ (s.ring x).run = true ∧ s.ctl.resetting = false := by
  simp [State.channelEnabled, and_assoc]

theorem rxComplete_effect (s₀ s : State) (sof eof err : Bool) (data : List Byte) :
    StepEffect s₀ s (rxComplete sof eof err data s) := by
  unfold rxComplete
  split
  · rename_i hcan
    obtain ⟨⟨⟨henabled, hposted⟩, -⟩, -⟩ := by simpa only [State.canRxComplete, Bool.and_eq_true] using hcan
    dsimp only
    generalize hu : ((s.pokeList .hw (s.getField .rx s.rx.oldestPosted .bufAddr) data).setField .rx
      s.rx.oldestPosted .length (BitVec.ofNat 32 data.length)).setField .rx s.rx.oldestPosted .sts
      (stsWord sof eof err) = u
    have hstores : StoreRun s₀ s u := hu ▸ ((pokeList_run ..).trans (StoreRun.memory (.field ..))).trans
      (StoreRun.memory (.field ..))
    have hsame : SameButMemory s u := hu ▸ ((pokeList_sameButMemory ..).trans
      (setField_sameButMemory ..)).trans (setField_sameButMemory ..)
    have hrx : u.rx = s.rx := hsame.ring .rx
    have hdone := CountChange.rxDone u (by rw [hrx]; exact ((channelEnabled_iff ..).1 henabled).1)
      (by rw [hrx]; exact of_decide_eq_true hposted)
    exact .counted hstores hdone (.head (.emit ..) (ContextRun.book (by constructor <;> rfl)))
  · exact .refl ..

theorem txComplete_effect (s₀ s : State) (err : Bool) (bytes : List Byte) :
    StepEffect s₀ s (txComplete err bytes s) := by
  unfold txComplete
  split
  · rename_i hcan
    obtain ⟨⟨⟨henabled, hposted⟩, -⟩, -⟩ := by simpa only [State.canTxComplete, Bool.and_eq_true] using hcan
    have hdone := CountChange.txDone (s.setField .tx s.tx.oldestPosted .sts (stsWord false false err))
      ((channelEnabled_iff ..).1 henabled).1 (of_decide_eq_true hposted)
    exact .counted (StoreRun.memory (.field ..)) hdone (.single (.emit ..))
  · exact .refl ..

theorem agentMove_effect {s₀ s : State} {m : Move} (hm : s₀.nextMove = m) (hstack : s.stack = s₀.stack)
    (hsync : s.sync = s₀.sync) : StepEffect s₀ s (agentMove m s) := by
  have htop : s.top = s₀.top := congrArg List.getLast? hstack
  cases m with
  | cpu =>
    simp only [agentMove, cpuStep]
    split
    · exact syncStep_effect hm (htop ▸ ‹_›) hstack hsync
    · exact rxhStep_effect ‹_›
    · exact txhStep_effect ‹_›
    · exact .refl ..
  | rxComplete => exact rxComplete_effect ..
  | txComplete => exact txComplete_effect ..
  | raise x b =>
    simp only [agentMove, raiseIrq]
    split
    · exact .control (.raise s x b ‹_›)
    · exact .refl ..
  | resetComplete =>
    simp only [agentMove, resetComplete]
    split
    · exact (ContextRun.book (by constructor <;> rfl)).effect
    · exact .refl ..
  | writeBack a => exact (StoreRun.memory (.poke s .hw a _)).effect
  | refill a => exact (StoreRun.memory (.poke s .sw a _)).effect
  | appWrite =>
    simp only [agentMove, appWrite]
    split
    · exact .refl ..
    · exact (StoreRun.memory (.poke ..)).effect
  | setLookup => exact (ContextRun.book (by constructor <;> rfl)).effect
  | callbackCommand =>
    simp only [agentMove, callbackCommand]
    split
    · exact (markRefused_run ..).effect
    · exact .refl ..
  | command => exact .refl ..
  | dispatch => exact .refl ..
  | idle => exact .refl ..

/-! ### The step -/

/-- What a port yields, and what the instruction it yields does. -/
theorem fetched_effect {s₀ s t : State} (f : Fetched)
    (hrun : ∀ i u, f = .run i u → ContextRun s₀ s u) (hanswer : ∀ u, f = .answered u → ContextRun s₀ s u)
    (h : (match f with | .run i u => exec i u | .answered u => .next u) = Host.Outcome.next t) :
    StepEffect s₀ s t := by
  cases f with
  | run i u => exact .after (hrun i u rfl).toStore (exec_effect h)
  | answered u => cases h; exact (hanswer t rfl).effect

theorem fetchCommand_run {s₀ s : State} :
    (∀ i u, fetchCommand s = .run i u → ContextRun s₀ s u) ∧
    (∀ u, fetchCommand s = .answered u → ContextRun s₀ s u) := by
  rcases fetchCommand_cases s with ⟨i, rest, -, -, h⟩ | ⟨op, rest, -, -, h⟩ | h <;> rw [h]
  · refine ⟨fun _ _ h => ?_, fun _ h => (nomatch h)⟩
    cases h
    exact ContextRun.book (by constructor <;> rfl)
  · refine ⟨fun _ _ h => (nomatch h), fun _ h => ?_⟩
    cases h
    exact (ContextRun.book (by constructor <;> rfl)).tail (.emit ..)
  · refine ⟨fun _ _ h => (nomatch h), fun _ h => ?_⟩
    cases h
    exact .refl

theorem fetchEvent_run {s₀ s : State} :
    (∀ i u, fetchEvent s = .run i u → ContextRun s₀ s u) ∧
    (∀ u, fetchEvent s = .answered u → ContextRun s₀ s u) := by
  rcases fetchEvent_cases s with ⟨x, rest, h⟩ | ⟨rest, h⟩ <;> rw [h]
  · refine ⟨fun _ _ h => ?_, fun _ h => (nomatch h)⟩
    cases h
    exact ContextRun.book (by constructor <;> rfl)
  · refine ⟨fun _ _ h => (nomatch h), fun _ h => ?_⟩
    cases h
    exact ContextRun.book (by constructor <;> rfl)

/-- A step of any agent is a run of the elementary changes, with at most one that moves slots. -/
theorem step_effect {s t : State} (h : step s = .next t) : StepEffect s s t := by
  obtain ⟨-, hrun⟩ := step_next h
  have hpop : ContextRun s s s.popAgenda := ContextRun.book (by constructor <;> rfl)
  refine .after hpop.toStore ?_
  by_cases hcommand : s.nextMove = .command
  · rw [hcommand] at hrun
    exact fetched_effect _ fetchCommand_run.1 fetchCommand_run.2 hrun
  by_cases hdispatch : s.nextMove = .dispatch
  · rw [hdispatch] at hrun
    exact fetched_effect _ fetchEvent_run.1 fetchEvent_run.2 hrun
  cases hl : s.popAgenda.latchedPrimitive with
  | none =>
    rw [runMove_agent _ hcommand hdispatch fun _ => hl] at hrun
    cases hrun
    exact agentMove_effect rfl rfl rfl
  | some i =>
    by_cases hcpu : s.nextMove = .cpu
    · simp only [hcpu, runMove, hl] at hrun
      exact exec_effect hrun
    · rw [runMove_agent _ hcommand hdispatch fun h => absurd h hcpu] at hrun
      cases hrun
      exact agentMove_effect rfl rfl rfl

end Sys2Proof.Machine
end

section
/-! PROOF. The invariants that every step keeps (10_state.md R13 to R15, R27; 40_ring_primitives.md R111), each from
the inversion of the step: the reset state meets them and every elementary change keeps them. -/

namespace Sys2Proof.Machine

open Relation

/-! ### What the changes of context and memory leave alone -/

theorem enterHandler_ring (s : State) (x y : Ring) : (s.enterHandler x).ring y = s.ring y := by
  cases x
  · obtain ⟨rs, d, h, -⟩ := enterHandler_rx s
    rw [h]
    cases y <;> rfl
  · cases y <;> rfl

/-- No change of context touches a ring register. -/
theorem ContextChange.ring {s₀ s t : State} (h : ContextChange s₀ s t) (y : Ring) : t.ring y = s.ring y := by
  cases h with
  | book h => cases y <;> [exact h.rx; exact h.tx]
  | enter x => exact enterHandler_ring s x y
  | leave x => exact State.leaveHandler_ring s x y
  | emit => exact State.emit_ring ..
  | endSync => exact State.endSync_ring ..
  | latch => cases y <;> rfl
  | fail => cases y <;> rfl
  | ready => cases y <;> rfl
  | accept => cases y <;> rfl
  | rxh => cases y <;> rfl
  | txh => cases y <;> rfl

theorem MemoryChange.same {s t : State} (h : MemoryChange s t) : SameButMemory s t := by
  cases h with
  | poke v a b => exact poke_sameButMemory ..
  | field x i f w => exact setField_sameButMemory ..

theorem MemoryChange.ring {s t : State} (h : MemoryChange s t) (y : Ring) : t.ring y = s.ring y :=
  h.same.ring y

/-- What a change of a channel's control registers leaves of a ring: all but those registers (R20, R21). -/
theorem ControlChange.ring {s t : State} (h : ControlChange s t) (y : Ring) :
    t.ring y =
      { s.ring y with run := (t.ring y).run, irqEn := (t.ring y).irqEn, irqPend := (t.ring y).irqPend } := by
  cases h with
  | reset => cases y <;> rfl
  | enable x => cases x <;> cases y <;> rfl
  | disable x => cases x <;> cases y <;> rfl
  | ack x => cases x <;> cases y <;> rfl
  | raise x => cases x <;> cases y <;> rfl
  | start x => cases x <;> cases y <;> rfl
  | stop x => cases x <;> cases y <;> rfl

/-! ### The rings (R13, R15, R111) -/

/-- The geometry that `CREATE` checks, and the counts of a ring whose slots are all free. -/
theorem recreate_ok (r : RingRegs) {n : Half} {b z a m : Word} (hn : n ≠ 0) (hm : m ≠ 0)
    (ha : 4 ≤ a.toNat) (hz : n.toNat * strideOf a ≤ z.toNat)
    (hb : b.toNat + n.toNat * strideOf a ≤ 2 ^ 32) : (r.recreate n b z a m).Ok := by
  have hpos : 0 < n.toNat := Nat.pos_of_ne_zero fun h => hn (BitVec.eq_of_toNat_eq h)
  have hstride : 16 ≤ strideOf a := by
    have := Nat.div_add_mod (16 + a.toNat - 1) a.toNat
    have := Nat.mod_lt (16 + a.toNat - 1) (show 0 < a.toNat by omega)
    unfold strideOf
    rw [Nat.mul_comm]
    omega
  have hfits : strideOf a ≤ n.toNat * strideOf a := Nat.le_mul_of_pos_left _ hpos
  have hword : (BitVec.ofNat 32 (strideOf a)).toNat = strideOf a :=
    (BitVec.toNat_ofNat ..).trans (Nat.mod_eq_of_lt (by have := z.isLt; omega))
  constructor <;> simp only [RingRegs.recreate, RingRegs.size, hword] <;> first | assumption | simp

/-- A ring whose groups are counted anew is well formed if its geometry is kept and the counts add up. -/
theorem RingRegs.Ok.recount {r q : RingRegs} (h : r.Ok) (hsize : q.slotCount = r.slotCount)
    (hstride : q.slotStride = r.slotStride) (hbase : q.base = r.base) (hmax : q.maxLen = r.maxLen)
    (hregion : q.regionSize = r.regionSize) (hhead : q.postHead.toNat < r.size)
    (hcount : q.postCnt.toNat + q.hwCnt.toNat + q.preCnt.toNat + q.freeCnt.toNat = r.size)
    (hdone : q.doneCnt.toNat ≤ q.hwCnt.toNat) : q.Ok := by
  have hs : q.size = r.size := by simp only [RingRegs.size, hsize]
  exact ⟨hs ▸ h.nonempty, hs ▸ hcount, hdone, hs ▸ hhead, hstride ▸ h.stride,
    by rw [hs, hstride, hbase]; exact h.region, hmax ▸ h.maxLen, by rw [hs, hstride, hregion]; exact h.holds⟩

/-- The control registers are no part of the ring's well-formedness. -/
theorem RingRegs.Ok.control {r q : RingRegs} (h : r.Ok)
    (hq : q = { r with run := q.run, irqEn := q.irqEn, irqPend := q.irqPend }) : q.Ok := by
  rw [hq]
  exact h.recount rfl rfl rfl rfl rfl h.head h.capacity h.done

theorem RingRegs.size_lt (r : RingRegs) : r.size < 2 ^ 16 := r.slotCount.isLt

/-- A new head inside the ring. -/
theorem toNat_ofNat_mod_size (r : RingRegs) (k : Nat) (h : 0 < r.size) :
    (BitVec.ofNat 16 (k % r.size)).toNat = k % r.size :=
  (BitVec.toNat_ofNat ..).trans
    (Nat.mod_eq_of_lt (Nat.lt_trans (Nat.mod_lt _ h) r.size_lt))

/-- The bounds that a well-formed ring's counts obey, for arithmetic on 16-bit words. -/
theorem RingRegs.Ok.bounds {r : RingRegs} (h : r.Ok) :
    r.postCnt.toNat + r.hwCnt.toNat + r.preCnt.toNat + r.freeCnt.toNat = r.size ∧
      r.doneCnt.toNat ≤ r.hwCnt.toNat ∧ r.postHead.toNat < r.size ∧ r.size < 65536 :=
  ⟨h.capacity, h.done, h.head, r.size_lt⟩

theorem CountChange.ring_ok {s t : State} (h : CountChange s t) (hs : s.RingsOk) : t.RingsOk := by
  have hother : ∀ {x : Ring} {r : RingRegs}, r.Ok → (s.setRing x r).RingsOk := fun {x r} hr y hy => by
    by_cases hyx : y = x
    · rw [hyx, State.ring_setRing]; exact hr
    · rw [State.ring_setRing_ne s r hyx] at hy ⊢; exact hs y hy
  have hmarks : ∀ {u v : State}, (∀ y, v.ring y = u.ring y) → u.RingsOk → v.RingsOk := fun hv hu y => by
    rw [hv]; exact hu y
  cases h with
  | create x n b z a m hn hm ha hz hb =>
    exact hmarks (fun y => State.dropMarks_ring ..) (hother (recreate_ok _ hn hm ha hz hb))
  | reserve x n hc hn =>
    obtain ⟨hcap, hdone, hhead, hlt⟩ := (hs x hc).bounds
    exact hother ((hs x hc).recount rfl rfl rfl rfl rfl hhead (by dsimp only; bv_omega) hdone)
  | unreserve x n hc hn =>
    obtain ⟨hcap, hdone, hhead, hlt⟩ := (hs x hc).bounds
    exact hother ((hs x hc).recount rfl rfl rfl rfl rfl hhead (by dsimp only; bv_omega) hdone)
  | commit x n hc hn =>
    obtain ⟨hcap, hdone, hhead, hlt⟩ := (hs x hc).bounds
    exact hmarks (fun y => State.addMarks_ring ..) (hother ((hs x hc).recount rfl rfl rfl rfl rfl hhead
      (by dsimp only; bv_omega) (by dsimp only; bv_omega)))
  | drain x n hc hn =>
    obtain ⟨hcap, hdone, hhead, hlt⟩ := (hs x hc).bounds
    exact hother ((hs x hc).recount rfl rfl rfl rfl rfl hhead (by dsimp only; bv_omega)
      (by dsimp only; bv_omega))
  | free x n hc hn =>
    obtain ⟨hcap, hdone, hhead, hlt⟩ := (hs x hc).bounds
    refine hother ((hs x hc).recount rfl rfl rfl rfl rfl ?_ (by dsimp only; bv_omega) hdone)
    exact (toNat_ofNat_mod_size _ _ (hs x hc).nonempty).trans_lt (Nat.mod_lt _ (hs x hc).nonempty)
  | rxDone hc hp =>
    obtain ⟨hcap, hdone, hhead, hlt⟩ := (hs .rx hc).bounds
    refine hother ((hs .rx hc).recount rfl rfl rfl rfl rfl hhead hcap ?_)
    simp only [RingRegs.postedCnt, State.ring_rx] at *
    bv_omega
  | txDone hc hp =>
    obtain ⟨hcap, hdone, hhead, hlt⟩ := (hs .tx hc).bounds
    refine hmarks (u := s.countDone .tx) (fun y => by cases y <;> rfl)
      (hother ((hs .tx hc).recount rfl rfl rfl rfl rfl hhead hcap ?_))
    simp only [RingRegs.postedCnt, State.ring_tx] at *
    bv_omega

theorem StepEffect.ringsOk {s₀ s t : State} (h : StepEffect s₀ s t) (hs : s.RingsOk) : t.RingsOk :=
  h.keeps (fun _ _ h hs x => by rw [h.ring]; exact hs x) (fun _ _ h hs x => by rw [h.ring]; exact hs x)
    (fun _ _ h hs x hc => (hs x (by rw [h.ring] at hc; exact hc)).control (h.ring x))
    (fun _ _ h hs => h.ring_ok hs) hs

/-- Settles O10: each elementary change keeps the rings well formed. -/
theorem stepKeepsRingsOk : Obligations.StepKeepsRingsOk := fun _ _ hs h => (step_effect h).ringsOk hs

end Sys2Proof.Machine
end

section
/-! PROOF. The invariants of the context stack (10_state.md R27), of memory, of the trace and the configuration
(R11, R29), of a halted controller (70_reset_and_hazards.md R272) and of the RX lockup (60_exceptions.md R257). -/

namespace Sys2Proof.Machine

open Relation

/-! ### The context stack -/

/-- What `StackOk` speaks of: the stack, the operation in progress, and the states of the two sequencers. -/
theorem State.StackOk.congr {s t : State} (h : s.StackOk) (hstack : t.stack = s.stack)
    (hop : t.sync.op = s.sync.op) (hrx : t.rxh.state = s.rxh.state) (htx : t.txh.state = s.txh.state) :
    t.StackOk :=
  ⟨hstack ▸ h.nodup, hstack ▸ h.syncBottom, by rw [hstack, hop]; exact h.syncIff,
    by rw [hstack, hrx]; exact h.rxIdle, by rw [hstack, htx]; exact h.txIdle⟩

/-- The agents on the stack are those below the top and the top. -/
theorem mem_stack_iff_of_top {s : State} {a : Agent} (h : s.top = some a) (b : Agent) :
    b ∈ s.stack ↔ b ∈ s.stack.dropLast ∨ b = a := by
  have hs : s.stack.dropLast ++ [a] = s.stack := by
    obtain ⟨l, hl⟩ := List.getLast?_eq_some_iff.1 h
    rw [hl, List.dropLast_concat]
  rw [← hs]
  simp

theorem tail_dropLast_subset {l : List Agent} {a : Agent} (h : a ∉ l.tail) : a ∉ l.dropLast.tail := by
  rw [List.tail_dropLast]
  exact fun ha => h (List.mem_of_mem_dropLast ha)

/-- A handler returns: it is off the stack, and `Idle`. -/
theorem State.StackOk.leave {s : State} (hs : s.StackOk) {x : Ring} (h : s.top = some (handlerOf x)) :
    (s.leaveHandler x).StackOk := by
  have hmem := mem_stack_iff_of_top h
  have hsync : Agent.sync ∈ s.stack.dropLast ↔ s.sync.op ≠ .none := by
    rw [← hs.syncIff, hmem]
    cases x <;> simp [handlerOf]
  cases x with
  | rx =>
    refine ⟨hs.nodup.sublist (List.dropLast_sublist _), tail_dropLast_subset hs.syncBottom, hsync,
      fun _ => rfl, fun htx => hs.txIdle ?_⟩
    rw [hmem]
    rintro (h | h)
    · exact htx h
    · cases h
  | tx =>
    refine ⟨hs.nodup.sublist (List.dropLast_sublist _), tail_dropLast_subset hs.syncBottom, hsync,
      fun hrx => hs.rxIdle ?_, fun _ => rfl⟩
    rw [hmem]
    rintro (h | h)
    · exact hrx h
    · cases h

/-- An agent other than SYNC that is pushed does not disturb SYNC's place. -/
theorem sync_not_mem_tail_push {l : List Agent} {a : Agent} (h : Agent.sync ∉ l.tail) (ha : a ≠ .sync) :
    Agent.sync ∉ (l ++ [a]).tail := by
  cases l with
  | nil => simp
  | cons b l => simpa [ha.symm] using h

/-- A handler that is dispatched is pushed over a stack that it is not on, and is `Idle`. -/
theorem State.StackOk.enter {s : State} (hs : s.StackOk) {x : Ring} (h : s.canDispatch x = true) :
    (s.enterHandler x).StackOk := by
  obtain ⟨-, hoff, -, -⟩ := (canDispatch_iff s x).1 h
  have hnodup : (s.stack ++ [handlerOf x]).Nodup := by
    have hne : ∀ a ∈ s.stack, a ≠ handlerOf x := fun a ha hax => hoff (hax ▸ ha)
    simpa [List.nodup_append, hs.nodup] using hne
  have hbottom : Agent.sync ∉ (s.stack ++ [handlerOf x]).tail :=
    sync_not_mem_tail_push hs.syncBottom (by cases x <;> decide)
  have hiff : Agent.sync ∈ s.stack ++ [handlerOf x] ↔ s.sync.op ≠ .none := by
    rw [← hs.syncIff]
    cases x <;> simp [handlerOf]
  cases x with
  | rx =>
    obtain ⟨rs, d, hentry, -⟩ := enterHandler_rx s
    rw [hentry]
    exact ⟨hnodup, hbottom, hiff, fun _ => rfl, fun htx => hs.txIdle fun h => htx (List.mem_append_left _ h)⟩
  | tx =>
    exact ⟨hnodup, hbottom, hiff, fun hrx => hs.rxIdle fun h => hrx (List.mem_append_left _ h), fun _ => rfl⟩

/-- At base level the stack is empty. -/
theorem State.StackOk.stack_eq_nil {s : State} (hs : s.StackOk) (h : s.atBase) : s.stack = [] := by
  obtain ⟨hop, hrx, htx⟩ := h
  have hsync : Agent.sync ∉ s.stack := fun hm => hs.syncIff.1 hm hop
  refine List.eq_nil_iff_forall_not_mem.2 fun a ha => ?_
  cases a
  · exact hsync ha
  · exact hrx ha
  · exact htx ha

/-- SYNC at the top is alone on the stack, so that the end of its operation leaves the stack empty. -/
theorem State.StackOk.endSync {s : State} (hs : s.StackOk) (h : s.top = some .sync) : s.endSync.StackOk := by
  have hstack : s.stack = [.sync] := by
    obtain ⟨l, hl⟩ := List.getLast?_eq_some_iff.1 h
    have hbottom := hs.syncBottom
    rw [hl] at hbottom ⊢
    cases l with
    | nil => rfl
    | cons b l => simp at hbottom
  have hidle : s.rxh.state = .idle ∧ s.txh.state = .idle :=
    ⟨hs.rxIdle (by simp [hstack]), hs.txIdle (by simp [hstack])⟩
  constructor <;> simp [hstack, hidle]

theorem ContextChange.stackOk {s₀ s t : State} (h : ContextChange s₀ s t) (hs : s.StackOk) : t.StackOk := by
  cases h with
  | book h => exact hs.congr h.stack h.op h.rxh h.txh
  | emit => exact hs.congr rfl rfl rfl rfl
  | latch => exact hs.congr rfl rfl rfl rfl
  | fail => exact hs.congr rfl rfl rfl rfl
  | ready => exact hs.congr rfl rfl rfl rfl
  | accept op hbase hop _ =>
    have hnil := hs.stack_eq_nil hbase
    have hrx := hs.rxIdle hbase.2.1
    have htx := hs.txIdle hbase.2.2
    constructor <;> simp [hnil, hop, hrx, htx]
  | endSync htop => exact hs.endSync htop
  | enter x hcan => exact hs.enter hcan
  | rxh r hmem => exact ⟨hs.nodup, hs.syncBottom, hs.syncIff, fun hoff => absurd hmem hoff, hs.txIdle⟩
  | txh r hmem => exact ⟨hs.nodup, hs.syncBottom, hs.syncIff, hs.rxIdle, fun hoff => absurd hmem hoff⟩
  | leave x htop => exact hs.leave htop

theorem MemoryChange.stackOk {s t : State} (h : MemoryChange s t) (hs : s.StackOk) : t.StackOk :=
  hs.congr (h.same.same State.stack rfl) (h.same.same (fun s => s.sync.op) rfl)
    (h.same.same (fun s => s.rxh.state) rfl) (h.same.same (fun s => s.txh.state) rfl)

/-- The state outside the rings, which a change of a channel or of a count leaves alone. -/
structure SameContext (s t : State) : Prop where
  stack : t.stack = s.stack
  sync : t.sync = s.sync
  rxh : t.rxh = s.rxh
  txh : t.txh = s.txh
  out : t.out = s.out
  params : t.params = s.params
  cfg : t.cfg = s.cfg
  cfgValid : t.cfgValid = s.cfgValid
  memSw : t.memSw = s.memSw
  memHw : t.memHw = s.memHw
  hwLog : t.hwLog = s.hwLog

theorem setRing_sameContext (s : State) (x : Ring) (r : RingRegs) : SameContext s (s.setRing x r) := by
  cases x <;> constructor <;> rfl

theorem ControlChange.sameContext {s t : State} (h : ControlChange s t) : SameContext s t := by
  cases h with
  | reset => constructor <;> rfl
  | enable => exact setRing_sameContext ..
  | disable => exact setRing_sameContext ..
  | ack => exact setRing_sameContext ..
  | raise => exact setRing_sameContext ..
  | start => exact setRing_sameContext ..
  | stop => exact setRing_sameContext ..

theorem CountChange.sameContext {s t : State} (h : CountChange s t) : SameContext s t := by
  cases h with
  | create x => cases x <;> constructor <;> rfl
  | commit x => cases x <;> constructor <;> rfl
  | txDone => constructor <;> rfl
  | rxDone => exact setRing_sameContext ..
  | reserve => exact setRing_sameContext ..
  | unreserve => exact setRing_sameContext ..
  | drain => exact setRing_sameContext ..
  | free => exact setRing_sameContext ..

theorem SameContext.stackOk {s t : State} (h : SameContext s t) (hs : s.StackOk) : t.StackOk :=
  hs.congr h.stack (congrArg Sync.op h.sync) (congrArg Rxh.state h.rxh) (congrArg Txh.state h.txh)

/-- Settles O11: each elementary change keeps the shape of the stack. -/
theorem stepKeepsStackOk : Obligations.StepKeepsStackOk := fun _ _ hs h =>
  (step_effect h).keeps (fun _ _ h => h.stackOk) (fun _ _ h => h.stackOk)
    (fun _ _ h => h.sameContext.stackOk) (fun _ _ h => h.sameContext.stackOk) hs

/-! ### Memory and its log -/

/-- What a change of context leaves of memory and of the record of its replaced bytes: all of it. -/
theorem ContextChange.memory {s₀ s t : State} (h : ContextChange s₀ s t) :
    t.memSw = s.memSw ∧ t.memHw = s.memHw ∧ t.hwLog = s.hwLog ∧ t.txMarks = s.txMarks := by
  cases h with
  | book h => exact ⟨h.memSw, h.memHw, h.hwLog, h.txMarks⟩
  | enter x =>
    cases x
    · obtain ⟨rs, d, h, -⟩ := enterHandler_rx s
      rw [h]
      exact ⟨rfl, rfl, rfl, rfl⟩
    · exact ⟨rfl, rfl, rfl, rfl⟩
  | leave x => cases x <;> exact ⟨rfl, rfl, rfl, rfl⟩
  | emit => exact ⟨rfl, rfl, rfl, rfl⟩
  | latch => exact ⟨rfl, rfl, rfl, rfl⟩
  | fail => exact ⟨rfl, rfl, rfl, rfl⟩
  | ready => exact ⟨rfl, rfl, rfl, rfl⟩
  | accept => exact ⟨rfl, rfl, rfl, rfl⟩
  | endSync => exact ⟨rfl, rfl, rfl, rfl⟩
  | rxh => exact ⟨rfl, rfl, rfl, rfl⟩
  | txh => exact ⟨rfl, rfl, rfl, rfl⟩

theorem MemoryChange.memoryOk {s t : State} (h : MemoryChange s t) (hs : s.MemoryOk) : t.MemoryOk := by
  cases h with
  | poke => exact hs.poke ..
  | field => exact hs.setField ..

theorem StepEffect.memoryOk {s₀ s t : State} (h : StepEffect s₀ s t) (hs : s.MemoryOk) : t.MemoryOk :=
  h.keeps (fun _ _ h hs => hs.congr h.memory.1 h.memory.2.1) (fun _ _ h => h.memoryOk)
    (fun _ _ h hs => hs.congr h.sameContext.memSw h.sameContext.memHw)
    (fun _ _ h hs => hs.congr h.sameContext.memSw h.sameContext.memHw) hs

/-- One mark for each posted TX slot of a created ring whose counts are in order, kept together with the order of
the counts. -/
def State.RecordOk (s : State) : Prop := s.RingsOk ∧ s.MarksOk

theorem State.MarksOk.congr {s t : State} (h : s.MarksOk) (hc : t.tx.created = s.tx.created)
    (hp : t.tx.postedCnt = s.tx.postedCnt) (hm : t.txMarks = s.txMarks)
    (hlog : s.hwLog.length ≤ t.hwLog.length) : t.MarksOk := fun hcreated => by
  obtain ⟨hlen, hle⟩ := h (hc ▸ hcreated)
  rw [hp, hm]
  exact ⟨hlen, fun m hmem => (hle m hmem).trans hlog⟩

/-- A write of memory logs the bytes that it replaces (R217). -/
theorem MemoryChange.hwLog_length {s t : State} (h : MemoryChange s t) : s.hwLog.length ≤ t.hwLog.length := by
  cases h with
  | poke v a b =>
    unfold State.poke
    split
    · simp [State.writeHw]
    · cases v <;> simp [State.writeHw]
  | field x i f w => simp [State.setField, State.writeDesc]

/-- The posted slots of a ring, where no count underflows. -/
theorem ControlChange.postedCnt {s t : State} (h : ControlChange s t) (y : Ring) :
    (t.ring y).created = (s.ring y).created ∧ (t.ring y).postedCnt = (s.ring y).postedCnt := by
  rw [h.ring y]
  exact ⟨rfl, rfl⟩

theorem MemoryChange.txMarks {s t : State} (h : MemoryChange s t) : t.txMarks = s.txMarks :=
  h.same.same State.txMarks rfl

theorem ControlChange.txMarks {s t : State} (h : ControlChange s t) : t.txMarks = s.txMarks := by
  cases h with
  | reset => rfl
  | enable => exact State.setRing_txMarks ..
  | disable => exact State.setRing_txMarks ..
  | ack => exact State.setRing_txMarks ..
  | raise => exact State.setRing_txMarks ..
  | start => exact State.setRing_txMarks ..
  | stop => exact State.setRing_txMarks ..

/-- A change of the RX ring's counts leaves the TX ring and its marks alone. -/
theorem CountChange.marksOk {s t : State} (h : CountChange s t) (hr : s.RingsOk) (hs : s.MarksOk) :
    t.MarksOk := by
  cases h with
  | create x n =>
    cases x with
    | rx => exact hs
    | tx => exact fun _ => ⟨by simp [State.dropMarks, State.setRing, RingRegs.recreate, RingRegs.postedCnt],
        by simp [State.dropMarks]⟩
  | reserve x => cases x <;> exact hs
  | unreserve x => cases x <;> exact hs
  | commit x n hc hn =>
    cases x with
    | rx => exact hs
    | tx =>
      intro _
      obtain ⟨hcap, hdone, -, hlt⟩ := (hr .tx hc).bounds
      obtain ⟨hlen, hle⟩ := hs hc
      simp only [State.ring_tx] at *
      refine ⟨?_, fun m hm => ?_⟩
      · simp only [State.addMarks, State.setRing, RingRegs.postedCnt, List.length_append, List.length_replicate,
          hlen] at *
        bv_omega
      · rcases List.mem_append.1 hm with hm | hm
        · exact hle m hm
        · exact (List.eq_of_mem_replicate hm).le
  | drain x n hc hn =>
    cases x with
    | rx => exact hs
    | tx =>
      obtain ⟨hcap, hdone, -, hlt⟩ := (hr .tx hc).bounds
      refine hs.congr rfl ?_ rfl le_rfl
      simp only [State.ring_tx, State.setRing, RingRegs.postedCnt] at *
      bv_omega
  | free x => cases x <;> exact hs
  | rxDone => exact hs
  | txDone hc hp =>
    intro _
    obtain ⟨hcap, hdone, -, hlt⟩ := (hr .tx hc).bounds
    obtain ⟨hlen, hle⟩ := hs hc
    refine ⟨?_, fun m hm => hle m (List.mem_of_mem_tail hm)⟩
    simp only [State.ring_tx, State.countDone, State.setRing, RingRegs.postedCnt, List.length_tail, hlen] at *
    bv_omega

theorem StepEffect.recordOk {s₀ s t : State} (h : StepEffect s₀ s t) (hs : s.RecordOk) : t.RecordOk := by
  refine h.keeps (fun s t h hs => ⟨?_, ?_⟩) (fun s t h hs => ⟨?_, ?_⟩) (fun s t h hs => ⟨?_, ?_⟩)
    (fun s t h hs => ⟨h.ring_ok hs.1, h.marksOk hs.1 hs.2⟩) hs
  · exact (ContextRun.effect (.single h)).ringsOk hs.1
  · have htx : t.tx = s.tx := h.ring .tx
    exact hs.2.congr (by rw [htx]) (by rw [htx]) h.memory.2.2.2 (by rw [h.memory.2.2.1])
  · exact (StoreRun.memory (s₀ := s₀) h).effect.ringsOk hs.1
  · have htx : t.tx = s.tx := h.ring .tx
    exact hs.2.congr (by rw [htx]) (by rw [htx]) h.txMarks h.hwLog_length
  · exact (StepEffect.control (s₀ := s₀) h).ringsOk hs.1
  · exact hs.2.congr (h.postedCnt .tx).1 (h.postedCnt .tx).2 h.txMarks (by rw [h.sameContext.hwLog])

/-- Settles O12: each elementary change keeps the two representations of memory, and those of the record. -/
theorem stepKeepsMemoryOk : Obligations.StepKeepsMemoryOk :=
  ⟨fun _ _ hs h => (step_effect h).memoryOk hs, fun _ _ hr hs h => ((step_effect h).recordOk ⟨hr, hs⟩).2⟩

end Sys2Proof.Machine
end

section
/-! PROOF. The trace and the configuration (10_state.md R11, R29), a halted controller (70_reset_and_hazards.md R272)
and the RX lockup (60_exceptions.md R257) in every step. -/

namespace Sys2Proof.Machine

open Relation

/-! ### The trace and the configuration -/

/-- What a step that begins in `s₀` may do to the trace and the configuration. -/
structure Reports (s₀ s t : State) : Prop where
  out : ∃ es, t.out = s.out ++ es
  params : t.params = s.params
  valid : s.cfgValid = true → t.cfgValid = true
  cfg : t.cfg ≠ s.cfg →
    s₀.nextMove = .cpu ∧ s₀.top = some .sync ∧ s₀.sync.op = .initEngine ∧ s₀.sync.step = 0

theorem Reports.of_same {s₀ s t : State} (ho : t.out = s.out) (hp : t.params = s.params)
    (hv : t.cfgValid = s.cfgValid) (hc : t.cfg = s.cfg) : Reports s₀ s t :=
  ⟨⟨[], by rw [ho, List.append_nil]⟩, hp, fun h => hv.trans h, fun h => absurd hc h⟩

theorem Reports.trans {s₀ s t u : State} (h : Reports s₀ s t) (k : Reports s₀ t u) : Reports s₀ s u := by
  obtain ⟨⟨es, ht⟩, hp, hv, hc⟩ := h
  obtain ⟨⟨fs, hu⟩, kp, kv, kc⟩ := k
  refine ⟨⟨es ++ fs, by rw [hu, ht, List.append_assoc]⟩, kp.trans hp, fun h => kv (hv h), fun h => ?_⟩
  by_cases htu : u.cfg = t.cfg
  · exact hc fun hts => h (htu.trans hts)
  · exact kc htu

theorem ContextChange.reports {s₀ s t : State} (h : ContextChange s₀ s t) : Reports s₀ s t := by
  cases h with
  | book h => exact .of_same h.out h.params h.cfgValid h.cfg
  | emit e => exact ⟨⟨[e], rfl⟩, rfl, id, fun h => absurd rfl h⟩
  | latch hmove htop hop hstep => exact ⟨⟨[], by simp⟩, rfl, fun _ => rfl, fun _ => ⟨hmove, htop, hop, hstep⟩⟩
  | enter x =>
    cases x
    · obtain ⟨rs, d, h, -⟩ := enterHandler_rx s
      rw [h]
      exact .of_same rfl rfl rfl rfl
    · exact .of_same rfl rfl rfl rfl
  | leave x => cases x <;> exact .of_same rfl rfl rfl rfl
  | fail => exact .of_same rfl rfl rfl rfl
  | ready => exact .of_same rfl rfl rfl rfl
  | accept => exact .of_same rfl rfl rfl rfl
  | endSync => exact .of_same rfl rfl rfl rfl
  | rxh => exact .of_same rfl rfl rfl rfl
  | txh => exact .of_same rfl rfl rfl rfl

theorem SameContext.reports {s₀ s t : State} (h : SameContext s t) : Reports s₀ s t :=
  .of_same h.out h.params h.cfgValid h.cfg

theorem MemoryChange.reports {s₀ s t : State} (h : MemoryChange s t) : Reports s₀ s t :=
  .of_same (h.same.same State.out rfl) (h.same.same State.params rfl) (h.same.same State.cfgValid rfl)
    (h.same.same State.cfg rfl)

/-- Settles O13: what each elementary change appends to the trace adds up, and only I0's latches `eng.cfg`. -/
theorem stepKeepsTraceAndConfig : Obligations.StepKeepsTraceAndConfig := by
  intro s t h
  obtain ⟨hout, hparams, hvalid, hcfg⟩ : Reports s s t :=
    (step_effect h).keeps (P := Reports s s) (fun _ _ h hs => hs.trans h.reports)
      (fun _ _ h hs => hs.trans h.reports) (fun _ _ h hs => hs.trans h.sameContext.reports)
      (fun _ _ h hs => hs.trans h.sameContext.reports) (.of_same rfl rfl rfl rfl)
  exact ⟨hout, hparams, hvalid, hcfg⟩

/-! ### A halted controller -/

/-- A channel that is stopped and masked with nothing pending (R124). -/
def RingRegs.Quiet (r : RingRegs) : Prop := r.run = false ∧ r.irqEn = 0 ∧ r.irqPend = 0

theorem State.HaltedQuiet.congr {s t : State} (h : s.HaltedQuiet) (he : t.engState = .halted → s.engState = .halted)
    (hr : ∀ x, (s.ring x).Quiet → (t.ring x).Quiet) : t.HaltedQuiet := fun ht x => hr x (h (he ht) x)

/-- A change of one ring keeps a halted controller quiet if it keeps that ring quiet. -/
theorem State.HaltedQuiet.setRing {s : State} (h : s.HaltedQuiet) (x : Ring) (r : RingRegs)
    (hr : s.engState = .halted → (s.ring x).Quiet → r.Quiet) : (s.setRing x r).HaltedQuiet := fun ht y => by
  have hs : s.engState = .halted := by simpa using ht
  by_cases hyx : y = x
  · rw [hyx, State.ring_setRing]; exact hr hs (h hs x)
  · rw [State.ring_setRing_ne s r hyx]; exact h hs y

theorem ContextChange.engState {s₀ s t : State} (h : ContextChange s₀ s t) (ht : t.engState = .halted) :
    s.engState = .halted := by
  cases h with
  | book h => exact h.engState ▸ ht
  | enter x =>
    cases x
    · obtain ⟨rs, d, h, -⟩ := enterHandler_rx s
      rw [h] at ht
      exact ht
    · exact ht
  | leave x => cases x <;> exact ht
  | latch => cases ht
  | fail => cases ht
  | ready => cases ht
  | emit => exact ht
  | accept => exact ht
  | endSync => exact ht
  | rxh => exact ht
  | txh => exact ht

theorem ControlChange.haltedQuiet {s t : State} (h : ControlChange s t) (hs : s.HaltedQuiet) :
    t.HaltedQuiet := by
  cases h with
  | enable x m hh => exact hs.setRing x _ fun he => absurd he hh
  | start x hh => exact hs.setRing x _ fun he => absurd he hh
  | raise x b hc =>
    refine hs.setRing x _ fun _ hq => ?_
    cases hq.1.symm.trans ((channelEnabled_iff s x).1 hc).2.1
  | disable x m => exact hs.setRing x _ fun _ ⟨hrun, hen, hpend⟩ => ⟨hrun, by simp [hen], hpend⟩
  | ack x m => exact hs.setRing x _ fun _ ⟨hrun, hen, hpend⟩ => ⟨hrun, hen, by simp [hpend]⟩
  | stop x => exact hs.setRing x _ fun _ ⟨_, hen, hpend⟩ => ⟨rfl, hen, hpend⟩
  | reset => intro _ x; cases x <;> exact ⟨rfl, rfl, rfl⟩

theorem CountChange.haltedQuiet {s t : State} (h : CountChange s t) (hs : s.HaltedQuiet) : t.HaltedQuiet := by
  cases h with
  | create x n b z a m =>
    exact (hs.setRing x ((s.ring x).recreate n b z a m) fun _ hq => hq).congr (by simp)
      fun y hy => by rwa [State.dropMarks_ring]
  | commit x n =>
    refine (hs.setRing x _ fun _ hq => ?_).congr (by simp) fun y hy => by rwa [State.addMarks_ring]
    exact hq
  | reserve x => exact hs.setRing x _ fun _ hq => hq
  | unreserve x => exact hs.setRing x _ fun _ hq => hq
  | drain x => exact hs.setRing x _ fun _ hq => hq
  | free x => exact hs.setRing x _ fun _ hq => hq
  | rxDone => exact hs.setRing .rx _ fun _ hq => hq
  | txDone =>
    exact (hs.setRing .tx { s.tx with doneCnt := s.tx.doneCnt + 1 } fun _ hq => hq).congr id
      fun y hy => by cases y <;> exact hy

/-- Settles O14: each elementary change keeps a halted controller quiet. -/
theorem stepKeepsHaltedQuiet : Obligations.StepKeepsHaltedQuiet := fun _ _ hs h =>
  (step_effect h).keeps (fun _ _ h hs => hs.congr h.engState fun x hq => by rwa [h.ring])
    (fun _ _ h hs => hs.congr (fun he => (h.same.same State.engState rfl).symm.trans he)
      fun x hq => by rwa [h.ring])
    (fun _ _ h => h.haltedQuiet) (fun _ _ h => h.haltedQuiet) hs

/-! ### The RX lockup -/

/-- Inside a step that begins locked out: the lockup holds, or the engine has left `Ready`. -/
def State.LockedOrLeft (s : State) : Prop := s.engState = .ready → s.LockedOut

theorem State.LockedOrLeft.congr {s t : State} (h : s.LockedOrLeft) (he : t.engState = .ready → s.engState = .ready)
    (hen : s.rx.irqEn = 0 → t.rx.irqEn = 0) (hstack : Agent.rxh ∉ s.stack → Agent.rxh ∉ t.stack)
    (hop : s.sync.op ≠ .initEngine → t.sync.op ≠ .initEngine) : t.LockedOrLeft := fun ht => by
  obtain ⟨h₁, h₂, h₃, -⟩ := h (he ht)
  exact ⟨hen h₁, hstack h₂, hop h₃, ht⟩

theorem ContextChange.locked {s₀ s t : State} (h : ContextChange s₀ s t) (h₀ : s₀.sync.op ≠ .initEngine)
    (hs : s.LockedOrLeft) : t.LockedOrLeft := by
  cases h with
  | book h => exact hs.congr (h.engState ▸ id) (h.rx ▸ id) (h.stack ▸ id) (h.op ▸ id)
  | emit => exact hs.congr id id id id
  | latch => intro h; cases h
  | fail => intro h; cases h
  | ready hop => exact absurd hop h₀
  | accept op hbase hop hready =>
    intro ht
    obtain ⟨h₁, h₂, h₃, -⟩ := hs ht
    exact ⟨h₁, by simpa using h₂, fun h => hready h ht, ht⟩
  | endSync => exact hs.congr id id (fun h hm => h (List.mem_of_mem_dropLast hm)) (by simp)
  | enter x hcan =>
    obtain ⟨hline, -⟩ := (canDispatch_iff s x).1 hcan
    cases x
    · obtain ⟨rs, d, h, -⟩ := enterHandler_rx s
      rw [h]
      intro ht
      obtain ⟨h₁, -⟩ := hs ht
      simp only [State.ring_rx] at hline
      simp [h₁] at hline
    · exact hs.congr id id (by simp [enterHandler_tx]) id
  | rxh r => exact hs.congr id id id id
  | txh r => exact hs.congr id id id id
  | leave x =>
    cases x <;> exact hs.congr id id (fun h hm => h (List.mem_of_mem_dropLast hm)) id

theorem ControlChange.locked {s t : State} (h : ControlChange s t) (hs : s.LockedOrLeft) : t.LockedOrLeft := by
  have hset : ∀ (x : Ring) (r : RingRegs), (s.LockedOut → x = .rx → r.irqEn = 0) → (s.setRing x r).LockedOrLeft :=
    fun x r hr ht => by
      have hl := hs (by simpa using ht)
      have ⟨h₁, h₂, h₃, h₄⟩ := hl
      cases x
      · exact ⟨hr hl rfl, h₂, h₃, h₄⟩
      · exact ⟨h₁, h₂, h₃, h₄⟩
  cases h with
  | enable x m hh hw =>
    refine hset x _ fun ⟨_, h₂, h₃, h₄⟩ hx => ?_
    subst hx
    rcases hw with hw | hw | hw
    · cases hw.symm.trans h₄
    · exact absurd hw h₃
    · exact absurd hw h₂
  | disable x m => refine hset x _ fun ⟨h₁, _⟩ hx => ?_; subst hx; simp [h₁]
  | ack x m => refine hset x _ fun ⟨h₁, _⟩ hx => ?_; subst hx; exact h₁
  | raise x m => refine hset x _ fun ⟨h₁, _⟩ hx => ?_; subst hx; exact h₁
  | start x => refine hset x _ fun ⟨h₁, _⟩ hx => ?_; subst hx; exact h₁
  | stop x => refine hset x _ fun ⟨h₁, _⟩ hx => ?_; subst hx; exact h₁
  | reset => intro h; cases h

/-- A change of a ring's counts leaves its channel's control registers and the engine state alone. -/
theorem CountChange.control {s t : State} (h : CountChange s t) :
    t.engState = s.engState ∧ t.rx.irqEn = s.rx.irqEn := by
  cases h with
  | create x => cases x <;> exact ⟨rfl, rfl⟩
  | reserve x => cases x <;> exact ⟨rfl, rfl⟩
  | unreserve x => cases x <;> exact ⟨rfl, rfl⟩
  | commit x => cases x <;> exact ⟨rfl, rfl⟩
  | drain x => cases x <;> exact ⟨rfl, rfl⟩
  | free x => cases x <;> exact ⟨rfl, rfl⟩
  | rxDone => exact ⟨rfl, rfl⟩
  | txDone => exact ⟨rfl, rfl⟩

theorem MemoryChange.locked {s t : State} (h : MemoryChange s t) (hs : s.LockedOrLeft) : t.LockedOrLeft :=
  hs.congr (h.same.same State.engState rfl ▸ id) (h.same.same State.rx rfl ▸ id)
    (h.same.same State.stack rfl ▸ id) (h.same.same State.sync rfl ▸ id)

theorem CountChange.locked {s t : State} (h : CountChange s t) (hs : s.LockedOrLeft) : t.LockedOrLeft :=
  hs.congr (h.control.1 ▸ id) (h.control.2 ▸ id) (h.sameContext.stack ▸ id) (h.sameContext.sync ▸ id)

/-- Settles O15: RX is unmasked in `Uninit`, by `INITIALIZE` or by its own handler, none of which a step that
begins locked out has. -/
theorem rxLockoutPersists : Obligations.RxLockoutPersists := by
  intro s t hs h ht
  have ⟨_, _, hop, _⟩ := hs
  exact (step_effect h).keeps (P := State.LockedOrLeft) (fun _ _ h => h.locked hop) (fun _ _ h => h.locked)
    (fun _ _ h => h.locked) (fun _ _ h => h.locked) (fun _ => hs) ht

end Sys2Proof.Machine
end

section
/-! PROOF. Slots move only along the ownership cycle (10_state.md R14; 40_ring_primitives.md R137): the group of a
slot is a matter of its distance from the head, and each count change moves the bounds between the groups. -/

namespace Sys2Proof.Machine

/-! ### Positions in a ring -/

/-- A remainder of a number below twice the divisor. -/
theorem mod_of_lt_two_mul {a N : Nat} (h : a < 2 * N) : a % N = if a < N then a else a - N := by
  split
  · exact Nat.mod_eq_of_lt ‹_›
  · rw [Nat.mod_eq_sub_mod (by omega), Nat.mod_eq_of_lt (by omega)]

/-- The distance of slot `i` from position `h`, going forward in a ring of `N` slots. -/
def slotOffset (N h i : Nat) : Nat := (i + N - h) % N

theorem slotOffset_eq {N h i : Nat} (hh : h < N) (hi : i < N) :
    slotOffset N h i = if h ≤ i then i - h else i + N - h := by
  rw [slotOffset, mod_of_lt_two_mul (by omega)]
  split <;> split <;> omega

/-- The distance from a position that has moved `n` slots on. -/
theorem slotOffset_advance {N h i n : Nat} (hh : h < N) (hi : i < N) (hn : n ≤ N) :
    slotOffset N ((h + n) % N) i =
      if n ≤ slotOffset N h i then slotOffset N h i - n else slotOffset N h i + N - n := by
  have hm := mod_of_lt_two_mul (a := h + n) (N := N) (by omega)
  rw [slotOffset_eq (Nat.mod_lt _ (by omega)) hi, slotOffset_eq hh hi, hm]
  split <;> split <;> split <;> split <;> omega

theorem slotOffset_lt {N h i : Nat} (hN : 0 < N) : slotOffset N h i < N := Nat.mod_lt _ hN

/-! ### Groups -/

/-- The group at distance `o` from the head, for the counts of drained, completed, outstanding and reserved slots. -/
def groupAt (o post done hw pre : Nat) : SlotState :=
  if o < post then .drained
  else if o < post + done then .completed
  else if o < post + hw then .posted
  else if o < post + hw + pre then .reserved
  else .free

theorem slotState_eq (r : RingRegs) (i : Nat) :
    r.slotState i = groupAt (slotOffset r.size r.postHead.toNat i) r.postCnt.toNat r.doneCnt.toNat
      r.hwCnt.toNat r.preCnt.toNat := rfl

/-- The two groups are the same, or the second follows the first in the cycle. -/
def KeepsOrMoves (a b : SlotState) : Prop := b = a ∨ slotMove a b = true

theorem groupAt_reserve (o post done hw pre n : Nat) :
    KeepsOrMoves (groupAt o post done hw pre) (groupAt o post done hw (pre + n)) := by
  unfold groupAt KeepsOrMoves
  split_ifs <;> first | omega | simp [slotMove]

theorem groupAt_unreserve (o post done hw pre n : Nat) :
    KeepsOrMoves (groupAt o post done hw pre) (groupAt o post done hw (pre - n)) := by
  unfold groupAt KeepsOrMoves
  split_ifs <;> first | omega | simp [slotMove]

theorem groupAt_commit (o post done hw : Nat) {pre n : Nat} (hn : n ≤ pre) :
    KeepsOrMoves (groupAt o post done hw pre) (groupAt o post done (hw + n) (pre - n)) := by
  unfold groupAt KeepsOrMoves
  split_ifs <;> first | omega | simp [slotMove]

theorem groupAt_drain (o post pre : Nat) {done hw n : Nat} (hn : n ≤ done) (hd : done ≤ hw) :
    KeepsOrMoves (groupAt o post done hw pre) (groupAt o (post + n) (done - n) (hw - n) pre) := by
  unfold groupAt KeepsOrMoves
  split_ifs <;> first | omega | simp [slotMove]

theorem groupAt_done (o post pre : Nat) {done hw : Nat} (hd : done < hw) :
    KeepsOrMoves (groupAt o post done hw pre) (groupAt o post (done + 1) hw pre) := by
  unfold groupAt KeepsOrMoves
  split_ifs <;> first | omega | simp [slotMove]

/-- The oldest drained slots are freed: what was nearer to the head than `n` is now farthest from it. -/
theorem groupAt_free {o post done hw pre free N n : Nat} (hn : n ≤ post) (hd : done ≤ hw)
    (hN : post + hw + pre + free = N) :
    KeepsOrMoves (groupAt o post done hw pre)
      (groupAt (if n ≤ o then o - n else o + N - n) (post - n) done hw pre) := by
  unfold groupAt KeepsOrMoves
  split_ifs <;> first | omega | simp [slotMove]

/-! ### Count changes -/

/-- What a step may do to a slot of a created ring: keep it, move it, or create the ring anew. -/
def SlotKept (r q : RingRegs) (i : Nat) : Prop :=
  (∃ n base regionSize alignment maxLen, q = r.recreate n base regionSize alignment maxLen) ∨
    (q.size = r.size ∧ KeepsOrMoves (r.slotState i) (q.slotState i))

theorem SlotKept.refl (r : RingRegs) (i : Nat) : SlotKept r r i := .inr ⟨rfl, .inl rfl⟩

/-- A slot is kept by a change of one ring if it is kept where that ring is its own. -/
theorem SlotKept.setRing (s : State) (x y : Ring) (r : RingRegs) (i : Nat)
    (h : y = x → SlotKept (s.ring x) r i) : SlotKept (s.ring y) ((s.setRing x r).ring y) i := by
  by_cases hyx : y = x
  · rw [hyx, State.ring_setRing]; exact h hyx
  · rw [State.ring_setRing_ne s r hyx]; exact .refl ..

theorem CountChange.slotKept {s t : State} (h : CountChange s t) (hr : s.RingsOk) (y : Ring) {i : Nat}
    (hi : i < (s.ring y).size) : SlotKept (s.ring y) (t.ring y) i := by
  cases h with
  | create x n b z a m =>
    rw [State.dropMarks_ring]
    exact SlotKept.setRing s x y _ i fun _ => .inl ⟨n, b, z, a, m, rfl⟩
  | reserve x n hc hn =>
    refine SlotKept.setRing s x y _ i fun _ => .inr ⟨rfl, ?_⟩
    obtain ⟨hcap, hdone, hhead, hlt⟩ := (hr x hc).bounds
    have hpre : ((s.ring x).preCnt + n).toNat = (s.ring x).preCnt.toNat + n.toNat := by bv_omega
    simp only [slotState_eq, hpre]
    exact groupAt_reserve ..
  | unreserve x n hc hn =>
    refine SlotKept.setRing s x y _ i fun _ => .inr ⟨rfl, ?_⟩
    simp only [slotState_eq, BitVec.toNat_sub_of_le hn]
    exact groupAt_unreserve ..
  | commit x n hc hn =>
    rw [State.addMarks_ring]
    refine SlotKept.setRing s x y _ i fun _ => .inr ⟨rfl, ?_⟩
    obtain ⟨hcap, hdone, hhead, hlt⟩ := (hr x hc).bounds
    have hhw : ((s.ring x).hwCnt + n).toNat = (s.ring x).hwCnt.toNat + n.toNat := by bv_omega
    simp only [slotState_eq, BitVec.toNat_sub_of_le hn, hhw]
    exact groupAt_commit _ _ _ _ hn
  | drain x n hc hn =>
    refine SlotKept.setRing s x y _ i fun _ => .inr ⟨rfl, ?_⟩
    obtain ⟨hcap, hdone, hhead, hlt⟩ := (hr x hc).bounds
    have hpost : ((s.ring x).postCnt + n).toNat = (s.ring x).postCnt.toNat + n.toNat := by bv_omega
    have hhw : ((s.ring x).hwCnt - n).toNat = (s.ring x).hwCnt.toNat - n.toNat := by bv_omega
    simp only [slotState_eq, BitVec.toNat_sub_of_le hn, hpost, hhw]
    exact groupAt_drain _ _ _ hn hdone
  | free x n hc hn =>
    refine SlotKept.setRing s x y _ i fun hyx => .inr ⟨rfl, ?_⟩
    obtain ⟨hcap, hdone, hhead, hlt⟩ := (hr x hc).bounds
    have hle : n.toNat ≤ (s.ring x).postCnt.toNat := hn
    have hmove := slotOffset_advance (n := n.toNat) hhead (hyx ▸ hi) (by omega)
    show KeepsOrMoves (groupAt (slotOffset (s.ring x).size (s.ring x).postHead.toNat i) _ _ _ _)
      (groupAt (slotOffset (s.ring x).size (BitVec.ofNat 16
        (((s.ring x).postHead.toNat + n.toNat) % (s.ring x).size)).toNat i) ((s.ring x).postCnt - n).toNat _ _ _)
    rw [toNat_ofNat_mod_size _ _ (hr x hc).nonempty, hmove, BitVec.toNat_sub_of_le hn]
    exact groupAt_free hle hdone hcap
  | rxDone hc hp =>
    refine SlotKept.setRing s .rx y _ i fun _ => .inr ⟨rfl, ?_⟩
    obtain ⟨hcap, hdone, hhead, hlt⟩ := (hr .rx hc).bounds
    simp only [RingRegs.postedCnt, State.ring_rx] at *
    have hnext : (s.rx.doneCnt + 1).toNat = s.rx.doneCnt.toNat + 1 := by bv_omega
    simp only [slotState_eq, hnext]
    exact groupAt_done _ _ _ (by omega)
  | txDone hc hp =>
    have hring : ({ s.countDone .tx with txMarks := s.txMarks.tail } : State).ring y = (s.countDone .tx).ring y := by
      cases y <;> rfl
    rw [hring]
    refine SlotKept.setRing s .tx y _ i fun _ => .inr ⟨rfl, ?_⟩
    obtain ⟨hcap, hdone, hhead, hlt⟩ := (hr .tx hc).bounds
    simp only [RingRegs.postedCnt, State.ring_tx] at *
    have hnext : (s.tx.doneCnt + 1).toNat = s.tx.doneCnt.toNat + 1 := by bv_omega
    simp only [slotState_eq, hnext]
    exact groupAt_done _ _ _ (by omega)

/-! ### The step -/

theorem StoreRun.ring {s₀ s t : State} (h : StoreRun s₀ s t) (y : Ring) : t.ring y = s.ring y :=
  h.same (fun _ _ h => h.ring y) fun _ _ h => h.ring y

/-- A run that moves no slot leaves a ring but for its control registers as it was. -/
theorem QuietRun.ring {s₀ s t : State} (h : QuietRun s₀ s t) (y : Ring) :
    ∃ run en pend, t.ring y = { s.ring y with run := run, irqEn := en, irqPend := pend } := by
  induction h with
  | refl => exact ⟨_, _, _, rfl⟩
  | tail _ h ih =>
    obtain ⟨run, en, pend, ih⟩ := ih
    rcases h with h | h | h
    · exact ⟨run, en, pend, (h.ring y).trans ih⟩
    · exact ⟨run, en, pend, (h.ring y).trans ih⟩
    · exact ⟨_, _, _, (h.ring y).trans (by rw [ih])⟩

theorem StepEffect.slotKept {s₀ s t : State} (h : StepEffect s₀ s t) (hr : s.RingsOk) (y : Ring) {i : Nat}
    (hi : i < (s.ring y).size) : SlotKept (s.ring y) (t.ring y) i := by
  cases h with
  | quiet h =>
    obtain ⟨run, en, pend, h⟩ := h.ring y
    rw [h]
    exact .inr ⟨rfl, .inl rfl⟩
  | @counted u v hb hc ha =>
    have hu : ∀ x, u.ring x = s.ring x := hb.ring
    have hok : u.RingsOk := fun x => by rw [hu]; exact hr x
    rw [ha.toStore.ring y, ← hu y]
    exact hc.slotKept hok y (by rw [hu]; exact hi)

/-- Settles O16: a step moves slots by at most one change of the counts, and that moves each along the cycle. -/
theorem slotsMoveAlongTheCycle : Obligations.SlotsMoveAlongTheCycle := fun _ _ x _ hr h _ hi =>
  (step_effect h).slotKept hr x hi

end Sys2Proof.Machine
end

section
/-! PROOF. What a step takes from the two ports (30_encoding.md R91, R95; 41_engine_ops.md R150), the stops of a marked
state (10_state.md R34, 60_exceptions.md R250), and the state after reset (10_state.md R32, 70_reset_and_hazards.md
R270). -/

namespace Sys2Proof.Machine

/-! ### The ports -/

theorem step_command {s : State} (hu : s.unmarked) (hm : s.nextMove = .command) :
    step s = runMove .command s.popAgenda := by rw [step_unmarked hu, hm]

theorem step_dispatch {s : State} (hu : s.unmarked) (hm : s.nextMove = .dispatch) :
    step s = runMove .dispatch s.popAgenda := by rw [step_unmarked hu, hm]

theorem runMove_command_run {s t : State} {i : Instr} (h : fetchCommand s = .run i t) :
    runMove .command s = exec i t := by simp only [runMove, h]

theorem runMove_command_answered {s t : State} (h : fetchCommand s = .answered t) :
    runMove .command s = .next t := by simp only [runMove, h]

theorem runMove_dispatch_run {s t : State} {i : Instr} (h : fetchEvent s = .run i t) :
    runMove .dispatch s = exec i t := by simp only [runMove, h]

theorem runMove_dispatch_answered {s t : State} (h : fetchEvent s = .answered t) :
    runMove .dispatch s = .next t := by simp only [runMove, h]

theorem fetchEvent_run_of_code {s : State} {e : BitVec 2} {rest : List (BitVec 2)} {i : Instr}
    (hp : s.evtPort = e :: rest) (he : decodeEvent e = some i) :
    fetchEvent s = .run i { s with evtPort := rest } := by simp only [fetchEvent, hp, he]

theorem fetchEvent_reserved {s : State} {e : BitVec 2} {rest : List (BitVec 2)}
    (hp : s.evtPort = e :: rest) (he : decodeEvent e = none) :
    fetchEvent s = .answered { s with evtPort := rest } := by simp only [fetchEvent, hp, he]

/-- Settles O4: the next move names the port, and the port's lemma the instruction. -/
theorem stepRunsInstruction : Obligations.StepRunsInstruction := by
  refine ⟨fun s i rest hu hm hb hd => ?_, fun s i ht ho hi => step_primitive ht ho hi,
    fun s hu hm hb => ?_, fun s rest hu hm hp => ?_, fun s rest hu hm hp => ?_,
    fun s e rest hu hm hp he => ?_⟩
  · rw [step_command hu hm]
    exact runMove_command_run (fetchCommand_runs (s := s.popAgenda) hb hd)
  · rw [step_command hu hm]
    exact runMove_command_answered (fetchCommand_waits (s := s.popAgenda) hb)
  · rw [step_dispatch hu hm]
    exact runMove_dispatch_run (fetchEvent_run_of_code (s := s.popAgenda) hp rfl)
  · rw [step_dispatch hu hm]
    exact runMove_dispatch_run (fetchEvent_run_of_code (s := s.popAgenda) hp rfl)
  · rw [step_dispatch hu hm]
    refine runMove_dispatch_answered (fetchEvent_reserved (s := s.popAgenda) hp ?_)
    rcases he with rfl | rfl <;> rfl

/-- Settles O5: at base level the port yields the answer to the illegal header. -/
theorem illegalHeaderIsAnswered : Obligations.IllegalHeaderIsAnswered := by
  intro s w ws hu hm hb hp hw
  have hfetch : fetchCommand s.popAgenda =
      .answered ({ s.popAgenda with cmdPort := ws }.emit (.ret (opField w) .invalidCommand [])) := by
    have hbase : s.popAgenda.baseLevel = true := (baseLevel_iff _).2 hb
    have hport : s.popAgenda.cmdPort = w :: ws := hp
    simp only [fetchCommand, hbase, if_true, hport, decodeCommand_illegal ws hw]
  rw [step_command hu hm]
  exact runMove_command_answered hfetch

/-! ### Marks -/

theorem csrG_fault_low (s : State) : (s.csrG .fault).extractLsb' 0 8 = faultCode s.fault := by
  simp only [State.csrG]
  generalize faultCode s.fault = c
  apply BitVec.eq_of_getLsbD_eq
  intro i hi
  simp [hi, Nat.lt_trans hi]

/-- Settles O6: the step looks at the marks first, and `G8` shows the fault's code. -/
theorem markedStateStops : Obligations.MarkedStateStops := by
  refine ⟨fun s f h => by simp only [step, h], fun s h hr => by simp only [step, h, hr, if_true], fun s => ?_⟩
  rw [csrG_fault_low]
  exact ⟨fun h => by rw [h]; rfl, fun h => by rw [h]; rfl, fun h => by rw [h]; rfl, fun h => by rw [h]; rfl⟩

/-! ### Reset -/

theorem reset_ring (x : Ring) : State.reset.ring x = RingRegs.reset := by cases x <;> rfl

/-- Settles O7: the fields of the reset state, ring by ring. -/
theorem powerOnValues : Obligations.PowerOnValues := by
  refine ⟨rfl, rfl, fun x => ?_, rfl, rfl, rfl, rfl, rfl, rfl, rfl, rfl, rfl, rfl, rfl, rfl, rfl⟩
  rw [reset_ring]
  exact ⟨rfl, rfl, rfl, rfl, rfl, rfl, rfl, rfl, rfl, rfl, rfl, rfl, rfl, rfl⟩

/-- A channel whose ring is not created takes no step (R215). -/
theorem channelEnabled_absent {s : State} {x : Ring} (h : (s.ring x).created = false) :
    s.channelEnabled x = false := by simp [State.channelEnabled, h]

theorem rxComplete_disabled {s : State} (sof eof err : Bool) (data : List Byte)
    (h : s.channelEnabled .rx = false) : rxComplete sof eof err data s = s := by
  simp [rxComplete, State.canRxComplete, h]

theorem txComplete_disabled {s : State} (err : Bool) (bytes : List Byte) (h : s.channelEnabled .tx = false) :
    txComplete err bytes s = s := by simp [txComplete, State.canTxComplete, h]

theorem raiseIrq_disabled {s : State} {x : Ring} (b : IrqSource) (h : s.channelEnabled x = false) :
    raiseIrq x b s = s := by simp [raiseIrq, h]

/-- An idle processor does nothing. -/
theorem runMove_cpu_idle {s : State} (h : s.stack = []) : runMove .cpu s = .next s := by
  have htop : s.top = none := by simp [State.top, h]
  have hl : s.latchedPrimitive = none := by simp [State.latchedPrimitive, State.primitiveTurn, htop]
  simp only [runMove, hl, cpuStep, htop]

/-- The event at the head of the port is consumed without effect where no handler is bound (R219). -/
theorem runMove_dispatch_unbound {s : State} (h : s.cfgValid = false) :
    runMove .dispatch s = .next { s with evtPort := s.evtPort.tail } := by
  have hnot : ∀ (x : Ring) (rest : List (BitVec 2)),
      ({ s with evtPort := rest } : State).dispatch x = { s with evtPort := rest } := fun x rest =>
    dispatch_not_taken (by simp [State.canDispatch, h])
  cases hp : s.evtPort with
  | nil => exact runMove_dispatch_answered (by simp only [fetchEvent, hp, List.tail_nil]; rw [← hp])
  | cons e rest =>
    by_cases h2 : e = 2#2
    · rw [runMove_dispatch_run (fetchEvent_run_of_code hp (by rw [h2]; rfl))]
      exact congrArg _ (hnot .rx rest)
    · by_cases h3 : e = 3#2
      · rw [runMove_dispatch_run (fetchEvent_run_of_code hp (by rw [h3]; rfl))]
        exact congrArg _ (hnot .tx rest)
      · exact runMove_dispatch_answered (fetchEvent_reserved hp (by simp [decodeEvent, h2, h3]))

/-- Settles O8: no agent of the quiet block has a step, and no event finds a handler. -/
theorem powerOnIsQuiet : Obligations.PowerOnIsQuiet := by
  rintro s m hu hm hrx htx hreset hcfg hstack
  rw [step_unmarked hu, hm]
  have henabled : ∀ x, s.popAgenda.channelEnabled x = false := fun x =>
    channelEnabled_absent (by cases x <;> assumption)
  refine ⟨?_, fun h => h ▸ runMove_dispatch_unbound (s := s.popAgenda) hcfg⟩
  rintro (rfl | rfl | rfl | rfl | ⟨sof, eof, err, data, rfl⟩ | ⟨err, bytes, rfl⟩ | ⟨x, b, rfl⟩)
  · exact runMove_cpu_idle (s := s.popAgenda) hstack
  · rfl
  · exact congrArg _ (resetComplete_of_not_resetting (s := s.popAgenda) hreset)
  · exact congrArg _ (if_neg (by simp [hstack]))
  · exact congrArg _ (rxComplete_disabled _ _ _ _ (henabled .rx))
  · exact congrArg _ (txComplete_disabled _ _ (henabled .tx))
  · exact congrArg _ (raiseIrq_disabled _ (henabled x))

/-- Settles O9: nothing is created, pushed, listed or halted at reset. -/
theorem resetMeetsInvariants : Obligations.ResetMeetsInvariants := by
  refine ⟨fun x h => ?_, ?_, State.reset_memoryOk, fun h => ?_, fun h => ?_⟩
  · rw [reset_ring] at h
    cases h
  · constructor <;> simp [State.reset]
  · cases h
  · cases h

/-! ### The guards of the data mover -/

theorem channelEnabled_eq_false {s : State} {x : Ring}
    (h : (s.ring x).created = false ∨ (s.ring x).run = false ∨ s.ctl.resetting = true) :
    s.channelEnabled x = false := by
  rcases h with h | h | h <;> simp [State.channelEnabled, h]

theorem rxComplete_none_posted {s : State} (sof eof err : Bool) (data : List Byte)
    (h : s.rx.hwCnt ≤ s.rx.doneCnt) : rxComplete sof eof err data s = s := by
  have hp : s.rx.postedCnt = 0 := Nat.sub_eq_zero_of_le h
  simp [rxComplete, State.canRxComplete, hp]

theorem txComplete_none_posted {s : State} (err : Bool) (bytes : List Byte)
    (h : s.tx.hwCnt ≤ s.tx.doneCnt) : txComplete err bytes s = s := by
  have hp : s.tx.postedCnt = 0 := Nat.sub_eq_zero_of_le h
  simp [txComplete, State.canTxComplete, hp]

theorem step_move {s : State} {m : Move} (hu : s.unmarked) (hm : s.nextMove = m) (h₁ : m ≠ .command)
    (h₂ : m ≠ .dispatch) (h₃ : m ≠ .cpu) : step s = .next (agentMove m s.popAgenda) := by
  rw [step_unmarked hu, hm]
  exact runMove_agent _ h₁ h₂ fun h => absurd h h₃

/-- Settles O57: the guard of each move of the data mover decides whether it is one. -/
theorem channelGuard : Obligations.ChannelGuard := by
  intro s hu
  refine ⟨fun x b hm => ⟨fun h => ?_, fun hc hr ht => ?_⟩, fun sof eof err data hm h => ?_,
    fun err bytes hm h => ?_⟩ <;> rw [step_move hu hm (by simp) (by simp) (by simp)]
  · exact congrArg _ (raiseIrq_disabled b (channelEnabled_eq_false (s := s.popAgenda) (by simpa using h)))
  · have henabled : s.popAgenda.channelEnabled x = true :=
      (channelEnabled_iff ..).2 ⟨by simpa using hc, by simpa using hr, ht⟩
    refine congrArg _ ((if_pos henabled).trans ?_)
    rw [State.popAgenda_ring]
    cases b <;> rfl
  · rcases h with h | h | h | h
    · exact congrArg _ (rxComplete_disabled _ _ _ _ (channelEnabled_eq_false (s := s.popAgenda) (.inl h)))
    · exact congrArg _ (rxComplete_disabled _ _ _ _ (channelEnabled_eq_false (s := s.popAgenda) (.inr (.inl h))))
    · exact congrArg _ (rxComplete_disabled _ _ _ _ (channelEnabled_eq_false (s := s.popAgenda) (.inr (.inr h))))
    · exact congrArg _ (rxComplete_none_posted (s := s.popAgenda) _ _ _ _ h)
  · rcases h with h | h | h | h
    · exact congrArg _ (txComplete_disabled _ _ (channelEnabled_eq_false (s := s.popAgenda) (.inl h)))
    · exact congrArg _ (txComplete_disabled _ _ (channelEnabled_eq_false (s := s.popAgenda) (.inr (.inl h))))
    · exact congrArg _ (txComplete_disabled _ _ (channelEnabled_eq_false (s := s.popAgenda) (.inr (.inr h))))
    · exact congrArg _ (txComplete_none_posted (s := s.popAgenda) _ _ h)

end Sys2Proof.Machine
end

section
/-! PROOF. The geometry of a ring (20_memory.md R54, R55, R84): where the slots lie, that references and indices name
each other, and that the fields of the records do not overlap. -/

namespace Sys2Proof.Machine

/-! ### Slot addresses -/

/-- Inside a ring no slot's bytes run past the ring's end. -/
theorem RingRegs.slot_bound (r : RingRegs) {i k : Nat} (hi : i < r.size) (hk : k < r.slotStride.toNat) :
    i * r.slotStride.toNat + k < r.size * r.slotStride.toNat :=
  calc i * r.slotStride.toNat + k < i * r.slotStride.toNat + r.slotStride.toNat := by omega
    _ = (i + 1) * r.slotStride.toNat := (Nat.succ_mul ..).symm
    _ ≤ r.size * r.slotStride.toNat := Nat.mul_le_mul_right _ hi

/-- The bytes of a slot lie at their place without wrapping (R54, R73). -/
theorem RingRegs.Ok.slotAddr_add {r : RingRegs} (h : r.Ok) {i k : Nat} (hi : i < r.size)
    (hk : k < r.slotStride.toNat) :
    (r.slotAddr i + BitVec.ofNat 32 k).toNat = r.base.toNat + i * r.slotStride.toNat + k := by
  have hb := r.slot_bound hi hk
  have hr := h.region
  have hlt : r.base.toNat + i * r.slotStride.toNat + k < 2 ^ 32 := by omega
  rw [RingRegs.slotAddr, BitVec.toNat_add, BitVec.toNat_add, BitVec.toNat_mul, BitVec.toNat_ofNat,
    BitVec.toNat_ofNat]
  simp only [Nat.mod_mul_mod, Nat.add_mod_mod, Nat.mod_add_mod]
  exact Nat.mod_eq_of_lt hlt

theorem RingRegs.Ok.stride_pos {r : RingRegs} (h : r.Ok) : 0 < r.slotStride.toNat :=
  Nat.lt_of_lt_of_le (by decide) h.stride

theorem RingRegs.Ok.slotAddr_toNat {r : RingRegs} (h : r.Ok) {i : Nat} (hi : i < r.size) :
    (r.slotAddr i).toNat = r.base.toNat + i * r.slotStride.toNat := by
  simpa using h.slotAddr_add hi h.stride_pos

/-- What a reference that names a slot is (R54). -/
theorem RingRegs.idx_eq_some {r : RingRegs} {d : Word} {i : Nat} :
    r.idx d = some i ↔ r.base.toNat ≤ d.toNat ∧ (d.toNat - r.base.toNat) % r.slotStride.toNat = 0 ∧
      i < r.size ∧ (d.toNat - r.base.toNat) / r.slotStride.toNat = i := by
  simp only [RingRegs.idx]
  constructor
  · intro h
    split at h
    · rename_i hd
      cases h
      exact ⟨hd.1, hd.2.1, hd.2.2, rfl⟩
    · cases h
  · rintro ⟨h₁, h₂, h₃, rfl⟩
    exact if_pos ⟨h₁, h₂, h₃⟩

theorem RingRegs.Ok.idx_slotAddr {r : RingRegs} (h : r.Ok) {i : Nat} (hi : i < r.size) :
    r.idx (r.slotAddr i) = some i := by
  rw [RingRegs.idx_eq_some, h.slotAddr_toNat hi, Nat.add_sub_cancel_left]
  exact ⟨Nat.le_add_right .., Nat.mul_mod_left .., hi, Nat.mul_div_cancel _ h.stride_pos⟩

/-- Settles O17: the offset of a slot address is the index times the stride. -/
theorem slotReferenceRoundTrip : Obligations.SlotReferenceRoundTrip := by
  refine fun r h => ⟨fun i hi => ⟨h.idx_slotAddr hi, h.slotAddr_toNat hi⟩, fun d i hd => ?_⟩
  obtain ⟨hbase, hmod, hi, hdiv⟩ := RingRegs.idx_eq_some.1 hd
  refine ⟨hi, BitVec.eq_of_toNat_eq ?_⟩
  have hoff : i * r.slotStride.toNat = d.toNat - r.base.toNat := by
    rw [← hdiv]
    exact Nat.div_mul_cancel (Nat.dvd_of_mod_eq_zero hmod)
  rw [h.slotAddr_toNat hi, hoff]
  omega

/-! ### Records -/

/-- The place of a field's first byte in the record (R84). -/
def BdField.place : BdField → Nat
  | .bufAddr => 0
  | .length => 4
  | .ctrl => 8
  | .sts => 12

theorem BdField.offset_eq (f : BdField) : f.offset = BitVec.ofNat 32 f.place := by cases f <;> rfl

theorem BdField.place_le (f : BdField) : f.place ≤ 12 := by cases f <;> decide

/-- The address of byte `k` of a field, counted from the slot's first byte. -/
theorem fieldByte_eq (r : RingRegs) (i : Nat) (f : BdField) (k : Nat) :
    r.slotAddr i + f.offset + BitVec.ofNat 32 k = r.slotAddr i + BitVec.ofNat 32 (f.place + k) := by
  rw [f.offset_eq, BitVec.add_assoc, BitVec.ofNat_add]

/-- Bytes of two different slots have different addresses. -/
theorem RingRegs.Ok.slot_bytes_ne {r : RingRegs} (h : r.Ok) {i j k l : Nat} (hi : i < r.size) (hj : j < r.size)
    (hk : k < r.slotStride.toNat) (hl : l < r.slotStride.toNat) (hij : i ≠ j) :
    r.slotAddr i + BitVec.ofNat 32 k ≠ r.slotAddr j + BitVec.ofNat 32 l := by
  intro heq
  have haddr := congrArg BitVec.toNat heq
  rw [h.slotAddr_add hi hk, h.slotAddr_add hj hl] at haddr
  have hmul : ∀ {a b : Nat}, a < b → a * r.slotStride.toNat + r.slotStride.toNat ≤ b * r.slotStride.toNat :=
    fun hab => (Nat.succ_mul ..).symm.le.trans (Nat.mul_le_mul_right _ hab)
  rcases Nat.lt_or_gt_of_ne hij with hlt | hlt
  · have := hmul hlt; omega
  · have := hmul hlt; omega

/-- The fields of two different slots do not overlap. -/
theorem RingRegs.Ok.field_disjoint {r : RingRegs} (h : r.Ok) {i j : Nat} (hi : i < r.size) (hj : j < r.size)
    (hij : i ≠ j) (f g : BdField) (k : Nat) (hk : k < 4) :
    ¬InRange (r.slotAddr i + f.offset) 4 (r.slotAddr j + g.offset + BitVec.ofNat 32 k) := by
  rintro ⟨l, hl, heq⟩
  rw [fieldByte_eq, fieldByte_eq] at heq
  have hs := h.stride
  have hf := f.place_le
  have hg := g.place_le
  exact h.slot_bytes_ne hj hi (by omega) (by omega) hij.symm heq

/-- A field reads the same in two states whose ring is at the same place and whose bytes there are the same. -/
theorem getField_congr {s t : State} {x : Ring} {i : Nat} {f : BdField}
    (ha : (t.ring x).slotAddr i = (s.ring x).slotAddr i)
    (hb : ∀ k < 4, t.peek .hw ((s.ring x).slotAddr i + f.offset + BitVec.ofNat 32 k) =
      s.peek .hw ((s.ring x).slotAddr i + f.offset + BitVec.ofNat 32 k)) :
    t.getField x i f = s.getField x i f := by
  rw [State.getField, ha]
  exact State.readDesc_congr hb

/-- Bytes that are kept keep the fields that they make up. -/
theorem BytesKept.getField {s t : State} {P : Word → Prop} (h : BytesKept s t P) {x : Ring} {i : Nat}
    {f : BdField} (ha : (t.ring x).slotAddr i = (s.ring x).slotAddr i)
    (hP : ∀ k < 4, ¬P ((s.ring x).slotAddr i + f.offset + BitVec.ofNat 32 k)) :
    t.getField x i f = s.getField x i f :=
  getField_congr ha fun k hk => h .hw _ (hP k hk)

/-- A field write leaves every other field of the ring's records as it was. -/
theorem getField_setField_other {s : State} {x : Ring} (h : (s.ring x).Ok) {i j : Nat} {f g : BdField} (w : Word)
    (hi : i < (s.ring x).size) (hj : j < (s.ring x).size) (hne : j ≠ i ∨ g ≠ f) :
    (s.setField x i f w).getField x j g = s.getField x j g := by
  by_cases hij : j = i
  · subst hij
    exact State.getField_setField_ne s x j w (hne.resolve_left (not_not_intro rfl))
  · exact (setField_bytesKept s x i f w).getField (by rw [State.setField_ring])
      fun k hk => h.field_disjoint hi hj (Ne.symm hij) f g k hk

/-- The bytes of the records of a created ring are descriptor memory (R62). -/
theorem RingRegs.Ok.isDescriptorByte {s : State} {x : Ring} (h : (s.ring x).Ok)
    (hc : (s.ring x).created = true) {i k : Nat} (hi : i < (s.ring x).size) (hk : k < 16) :
    s.isDescriptorByte ((s.ring x).slotAddr i + BitVec.ofNat 32 k) = true := by
  have hcovers := h.covers hc hi (Nat.lt_of_lt_of_le hk h.stride)
  cases x
  · simp only [State.ring_rx] at *
    simp [State.isDescriptorByte, hcovers]
  · simp only [State.ring_tx] at *
    simp [State.isDescriptorByte, hcovers]

theorem RingRegs.Ok.isDescriptorByte_field {s : State} {x : Ring} (h : (s.ring x).Ok)
    (hc : (s.ring x).created = true) {i k : Nat} (hi : i < (s.ring x).size) (f : BdField) (hk : k < 4) :
    s.isDescriptorByte ((s.ring x).slotAddr i + f.offset + BitVec.ofNat 32 k) = true := by
  have hf := f.place_le
  rw [fieldByte_eq]
  exact h.isDescriptorByte hc hi (by omega)

end Sys2Proof.Machine
end

section
/-! PROOF. A primitive issued directly (40_ring_primitives.md R110, R136): accepted, performed with its response, or
refused; and the outcome of each primitive once its checks are decided. -/

namespace Sys2Proof.Machine

/-! ### Issue and response -/

/-- A primitive that answers `Success` ends its operation with its results. -/
theorem direct_ok {s t : State} {i : Instr} {p : Prim} {rs : List Word} (h : s.directReady)
    (hp : p s = (Reply.ok rs, t)) : Host.Outcome.next (s.issueDirect i p) = answered t i.opcode rs := by
  rw [issueDirect_ready i p h, hp]
  rfl

/-- A primitive that answers an error code ends its operation with the code alone. -/
theorem direct_fails {s : State} {i : Instr} {p : Prim} {c : Code} (h : s.directReady)
    (hp : p s = (⟨c, []⟩, s)) : Host.Outcome.next (s.issueDirect i p) = failed s i.opcode c := by
  rw [issueDirect_ready i p h, hp]
  rfl

/-- A primitive refuses without any change, or succeeds. -/
def Answers (p : Prim) (s : State) : Prop := Refuses p s ∨ (p s).1.code = .success

theorem Answers.of_cases {p : Prim} {s : State} {Q : Prop} (h : Refuses p s ∨ Q)
    (hQ : Q → (p s).1.code = .success) : Answers p s := h.imp_right hQ

theorem needDesc_cases (s : State) (x : Ring) (d : Word) (p : Nat → Prim) :
    Refuses (needDesc x d p) s ∨ ∃ i, (s.ring x).idx d = some i ∧ needDesc x d p s = p i s := by
  cases h : (s.ring x).idx d with
  | none => exact .inl ⟨_, by decide, needDesc_none p h⟩
  | some i => exact .inr ⟨i, rfl, needDesc_some p h⟩

/-- A getter's reference is checked behind the `created` check. -/
theorem needRing_needDesc_cases (s : State) (x : Ring) (d : Word) (p : Nat → Prim) :
    Refuses (needRing x (needDesc x d p)) s ∨
      ∃ i, (s.ring x).created = true ∧ (s.ring x).idx d = some i ∧ needRing x (needDesc x d p) s = p i s := by
  rcases needRing_cases s x (needDesc x d p) with h | ⟨hc, h⟩
  · exact .inl h
  · rcases needDesc_cases s x d p with ⟨c, hc, hp⟩ | ⟨i, hi, hp⟩
    · exact .inl ⟨c, hc, h.trans hp⟩
    · exact .inr ⟨i, hc, hi, h.trans hp⟩

theorem primBdGet_answers (s : State) (x : Ring) (d : Word) (f : BdField) (read : Word → Word) :
    Answers (primBdGet x d f read) s :=
  .of_cases (needRing_needDesc_cases s x d _) fun ⟨_, _, _, h⟩ => congrArg (·.1.code) h

theorem primBdNext_answers (s : State) (x : Ring) (d : Word) : Answers (primBdNext x d) s :=
  .of_cases (needRing_needDesc_cases s x d _) fun ⟨_, _, _, h⟩ => congrArg (·.1.code) h

theorem needReserved_answers (s : State) (x : Ring) (d : Word) {p : Nat → Prim}
    (hp : ∀ i, (p i s).1.code = .success) : Answers (needReserved x d p) s :=
  .of_cases (needReserved_cases s x d p) fun ⟨i, _, _, _, h⟩ => (congrArg (·.1.code) h).trans (hp i)

theorem primBdSetCtrl_answers (s : State) (x : Ring) (m : BitVec 3) (d : Word) :
    Answers (if m.getLsbD 2 then refuseWith .invalidCommand else primBdSetCtrl x (m.extractLsb' 0 2) d) s := by
  split
  · exact .inl (refuses_refuseWith s (by decide))
  · exact needReserved_answers s x d fun _ => rfl

/-- Every primitive is issued as R136 says, and refuses or succeeds. -/
theorem exec_primitive {i : Instr} (hi : isPrimitive i = true) :
    ∃ p : Prim, (∀ s, exec i s = .next (s.issueDirect i p)) ∧ ∀ s, Answers p s := by
  cases i with
  | initEngine => exact absurd hi Bool.false_ne_true
  | transmit => exact absurd hi Bool.false_ne_true
  | irqRx => exact absurd hi Bool.false_ne_true
  | irqTx => exact absurd hi Bool.false_ne_true
  | create x n b z a m =>
    exact ⟨_, fun _ => rfl, fun s => .of_cases (primCreate_cases s x n b z a m) fun h => by
      obtain ⟨-, -, -, -, -, -, -, -, h⟩ := h; rw [h]; rfl⟩
  | initSlots x b l c t =>
    exact ⟨_, fun _ => rfl, fun s => .of_cases (primInitSlots_cases s x b l c t) fun ⟨_, _, _, h⟩ =>
      congrArg (·.1.code) h⟩
  | reserve x n =>
    exact ⟨_, fun _ => rfl, fun s => .of_cases (primReserve_cases s x n) fun ⟨_, _, _, h⟩ => congrArg (·.1.code) h⟩
  | unreserve x n d =>
    exact ⟨_, fun _ => rfl, fun s => .of_cases (primUnreserve_cases s x n d) fun ⟨_, _, _, _, h⟩ =>
      congrArg (·.1.code) h⟩
  | commit x n d =>
    exact ⟨_, fun _ => rfl, fun s => .of_cases (primCommit_cases s x n d) fun ⟨_, _, _, _, _, h⟩ =>
      congrArg (·.1.code) h⟩
  | drain x n =>
    exact ⟨_, fun _ => rfl, fun s => .of_cases (primDrain_cases s x n) fun ⟨_, h⟩ => congrArg (·.1.code) h⟩
  | free x n d =>
    exact ⟨_, fun _ => rfl, fun s => .of_cases (primFree_cases s x n d) fun ⟨_, _, _, _, h⟩ =>
      congrArg (·.1.code) h⟩
  | start x =>
    exact ⟨_, fun _ => rfl, fun s => .of_cases (primStart_cases s x) fun ⟨_, h⟩ => congrArg (·.1.code) h⟩
  | stop x =>
    exact ⟨_, fun _ => rfl, fun s => .of_cases (primStop_cases s x) fun ⟨_, h⟩ => congrArg (·.1.code) h⟩
  | irqEnable => exact ⟨_, fun _ => rfl, fun _ => .inr rfl⟩
  | irqDisable => exact ⟨_, fun _ => rfl, fun _ => .inr rfl⟩
  | irqGet => exact ⟨_, fun _ => rfl, fun _ => .inr rfl⟩
  | irqAck => exact ⟨_, fun _ => rfl, fun _ => .inr rfl⟩
  | reset => exact ⟨_, fun _ => rfl, fun _ => .inr rfl⟩
  | resetDone => exact ⟨_, fun _ => rfl, fun _ => .inr rfl⟩
  | bdSetAddr x d => exact ⟨_, fun _ => rfl, fun s => needReserved_answers s x d fun _ => rfl⟩
  | bdSetLen x d l =>
    exact ⟨_, fun _ => rfl, fun s => .of_cases (primBdSetLen_cases s x d l) fun ⟨_, _, _, _, _, _, _, h⟩ =>
      congrArg (·.1.code) h⟩
  | bdSetCtrl x m d => exact ⟨_, fun _ => rfl, fun s => primBdSetCtrl_answers s x m d⟩
  | bdGetAddr x d => exact ⟨_, fun _ => rfl, fun s => primBdGet_answers s x d ..⟩
  | bdGetLen x d => exact ⟨_, fun _ => rfl, fun s => primBdGet_answers s x d ..⟩
  | bdGetSts x d => exact ⟨_, fun _ => rfl, fun s => primBdGet_answers s x d ..⟩
  | bdNext x d => exact ⟨_, fun _ => rfl, fun s => primBdNext_answers s x d⟩

/-- Settles O33: a primitive that does not succeed refuses. -/
theorem failedPrimitiveChangesNothing : Obligations.FailedPrimitiveChangesNothing := by
  intro i s hi hs
  obtain ⟨p, hp, hanswers⟩ := exec_primitive hi
  rw [hp]
  rcases hanswers s with ⟨c, -, h⟩ | h
  · exact ⟨s, c, [], direct_fails hs h, fun _ => ⟨rfl, rfl⟩⟩
  · have hp : p s = (Reply.ok (p s).1.results, (p s).2) := by rw [Reply.ok, ← h]
    exact ⟨_, .success, _, direct_ok hs hp, fun hne => absurd rfl hne⟩

/-- Settles O34: a primitive not in progress is accepted at base level in `Uninit`, else refused. -/
theorem directPrimitiveNeedsUninit : Obligations.DirectPrimitiveNeedsUninit := by
  intro i s hi _
  obtain ⟨p, hp, -⟩ := exec_primitive hi
  rw [hp]
  exact ⟨fun h => congrArg _ (issueDirect_accepted i p h),
    fun ha hr => congrArg _ (issueDirect_elsewhere i p hr ha)⟩

/-- Settles O36: the guard of each command is `engState` and base level. -/
theorem engineCommandAcceptance : Obligations.EngineCommandAcceptance := by
  have hbase : ∀ {s : State}, ¬s.atBase → s.baseLevel = false := fun {s} h =>
    Bool.eq_false_iff.2 fun hb => h ((baseLevel_iff s).1 hb)
  refine ⟨fun s n _ _ _ _ _ _ _ _ _ _ _ _ => ⟨fun hb he => ?_, fun h => ?_⟩,
    fun s buffer size => ⟨fun hb he => ?_, fun h => ?_⟩⟩
  · refine if_pos ?_
    rw [(baseLevel_iff s).2 hb, Bool.and_true]
    rcases he with he | he <;> rw [he] <;> rfl
  · refine if_neg ?_
    rcases h with h | h | h
    · simp [h]
    · simp [h]
    · simp [hbase h]
  · refine if_pos ?_
    rw [(baseLevel_iff s).2 hb, he]
    rfl
  · refine if_neg ?_
    rcases h with h | h
    · simp [h]
    · simp [hbase h]

/-! ### The ownership cycle: the outcome when the checks pass -/

/-- What `RESERVE` does to a ring's registers when it claims `n` slots (R113). -/
def RingRegs.claimed (r : RingRegs) (n : Half) : RingRegs :=
  { r with preCnt := r.preCnt + n, freeCnt := r.freeCnt - n }

theorem primReserve_succeeds {s : State} {x : Ring} {n : Half} (hc : (s.ring x).created = true) (hn : n ≠ 0)
    (hle : n ≤ (s.ring x).freeCnt) :
    primReserve x n s = (Reply.ok [(s.ring x).slotAddr (s.ring x).freeHead],
      s.setRing x ((s.ring x).claimed n)) := by
  refine (needRing_created _ hc).trans ?_
  rw [if_neg hn, if_neg (BitVec.not_lt.2 hle)]
  rfl

/-- Settles O22. -/
theorem reserveCompletes : Obligations.ReserveCompletes := fun _ _ _ hs hc hn hle =>
  direct_ok hs (primReserve_succeeds hc hn hle)

theorem primUnreserve_succeeds {s : State} {x : Ring} {n : Half} {d : Word}
    (hc : (s.ring x).created = true) (hn : n ≠ 0) (hle : n ≤ (s.ring x).preCnt)
    (hd : (s.ring x).idx d = some (((s.ring x).freeHead + (s.ring x).size - n.toNat) % (s.ring x).size)) :
    primUnreserve x n d s = (Reply.ok [],
      s.setRing x { s.ring x with preCnt := (s.ring x).preCnt - n, freeCnt := (s.ring x).freeCnt + n }) := by
  refine (needRing_created _ hc).trans ?_
  dsimp only
  rw [if_neg hn, needDesc_some _ hd, if_neg (BitVec.not_lt.2 hle), if_neg (not_not_intro rfl)]

theorem primCommit_succeeds {s : State} {x : Ring} {n : Half} {d : Word} (hc : (s.ring x).created = true)
    (hn : n ≠ 0) (hle : n ≤ (s.ring x).preCnt) (hd : (s.ring x).idx d = some (s.ring x).preHead)
    (hlen : ∀ j < n.toNat, s.lengthOk x (batchSlot (s.ring x).size (s.ring x).preHead j) = true) :
    primCommit x n d s = (Reply.ok [],
      ((s.clearStatus x (s.ring x).preHead n.toNat).setRing x
        { s.ring x with
          preCnt := (s.ring x).preCnt - n, hwCnt := (s.ring x).hwCnt + n }).addMarks n.toNat x) := by
  have hall : (List.range n.toNat).all
      (fun j => s.lengthOk x (batchSlot (s.ring x).size (s.ring x).preHead j)) = true :=
    List.all_eq_true.2 fun j hj => hlen j (List.mem_range.1 hj)
  refine (needRing_created _ hc).trans ?_
  dsimp only
  rw [if_neg hn, needDesc_some _ hd, if_neg (BitVec.not_lt.2 hle), if_neg (not_not_intro rfl), hall]
  rfl

theorem primFree_succeeds {s : State} {x : Ring} {n : Half} {d : Word} (hc : (s.ring x).created = true)
    (hn : n ≠ 0) (hle : n ≤ (s.ring x).postCnt) (hd : (s.ring x).idx d = some (s.ring x).postHead.toNat) :
    primFree x n d s = (Reply.ok [],
      s.setRing x
        { s.ring x with
          postHead := BitVec.ofNat 16 (((s.ring x).postHead.toNat + n.toNat) % (s.ring x).size)
          postCnt := (s.ring x).postCnt - n
          freeCnt := (s.ring x).freeCnt + n }) := by
  refine (needRing_created _ hc).trans ?_
  dsimp only
  rw [if_neg hn, needDesc_some _ hd, if_neg (BitVec.not_lt.2 hle), if_neg (not_not_intro rfl)]

/-- Settles O26. -/
theorem freeCompletes : Obligations.FreeCompletes := fun _ _ _ _ hs hc hn hle hd =>
  direct_ok hs (primFree_succeeds hc hn hle hd)

/-- What `DRAIN` does to a ring's registers when it takes `k` slots (R116). -/
def RingRegs.drained (r : RingRegs) (k : Half) : RingRegs :=
  { r with postCnt := r.postCnt + k, hwCnt := r.hwCnt - k, doneCnt := r.doneCnt - k }

theorem primDrain_succeeds {s : State} {x : Ring} {n k : Half} (hc : (s.ring x).created = true)
    (hk : minHalf n (s.ring x).doneCnt = k) :
    primDrain x n s = (Reply.ok [k.zeroExtend 32, if k = 0 then 0 else (s.ring x).slotAddr (s.ring x).hwHead],
      s.setRing x ((s.ring x).drained k)) := by
  subst hk
  exact needRing_created _ hc

theorem minHalf_of_le {a b : Half} (h : a ≤ b) : minHalf a b = a := if_pos h

theorem minHalf_of_lt {a b : Half} (h : b < a) : minHalf a b = b := if_neg (BitVec.not_le.2 h)

theorem minHalf_eq_right {a b : Half} (h : b ≤ a) : minHalf a b = b := by
  unfold minHalf
  split
  · exact BitVec.le_antisymm ‹_› h
  · rfl

/-- Taking no slot changes nothing. -/
theorem RingRegs.drained_zero (r : RingRegs) : r.drained 0 = r := by
  simp [RingRegs.drained]

/-! ### Two primitives in a row -/

/-- The state after a response, as `responded` builds it. -/
def State.ended (t : State) (op : BitVec 8) (c : Code) (rs : List Word) : State :=
  { t with
    out := t.out ++ [.ret op c rs]
    sync := { t.sync with op := .none }
    stack := t.stack.dropLast }

@[simp] theorem State.ended_ring (t : State) (op : BitVec 8) (c : Code) (rs : List Word) (x : Ring) :
    (t.ended op c rs).ring x = t.ring x := by cases x <;> rfl

/-- After the response of an operation at the bottom of the stack the next direct primitive is accepted. -/
theorem State.ended_accepts {t : State} (op : BitVec 8) (c : Code) (rs : List Word) (he : t.engState = .uninit)
    (hr : Agent.rxh ∉ t.stack) (ht : Agent.txh ∉ t.stack) : (t.ended op c rs).acceptsPrimitive :=
  ⟨he, rfl, fun h => hr (List.mem_of_mem_dropLast h), fun h => ht (List.mem_of_mem_dropLast h)⟩

/-- Once accepted, a direct primitive is in progress. -/
theorem State.accept_ready {s : State} (i : Instr) (h : s.acceptsPrimitive) : (s.acceptPrimitive i).directReady :=
  ⟨h.1, rfl, by simp [State.top, State.acceptPrimitive, State.push]⟩

/-- A direct primitive issued right after the response of another one is accepted, and is then in progress on the
rings as the first one left them. -/
theorem direct_after {t u : State} {op : BitVec 8} {c : Code} {rs : List Word} {i : Instr} {p : Prim}
    (he : t.engState = .uninit) (hr : Agent.rxh ∉ t.stack) (ht : Agent.txh ∉ t.stack)
    (hu : Host.Outcome.next ((t.ended op c rs).issueDirect i p) = (.next u : Outcome)) :
    u.directReady ∧ (∀ x, u.ring x = t.ring x) ∧ u.out = t.out ++ [.ret op c rs] := by
  have haccepts : (t.ended op c rs).acceptsPrimitive := State.ended_accepts op c rs he hr ht
  rw [issueDirect_accepted i p haccepts] at hu
  cases hu
  exact ⟨State.accept_ready i haccepts, fun x => by simp, rfl⟩

/-- Settles O25: the minimum, case by case; the second `DRAIN` finds `done_cnt = 0`. -/
theorem drainCompletes : Obligations.DrainCompletes := by
  refine ⟨fun s x n k hs hc hk => direct_ok hs (primDrain_succeeds hc ?_), ?_⟩
  · rcases hk with ⟨h, rfl⟩ | ⟨h, rfl⟩
    · exact minHalf_of_le h
    · exact minHalf_of_lt h
  · intro s t u x m hs hc hok hrxh htxh ht hu
    have hall : minHalf (s.ring x).slotCount (s.ring x).doneCnt = (s.ring x).doneCnt := by
      obtain ⟨hcap, hdone, -, -⟩ := hok.bounds
      refine minHalf_eq_right (BitVec.le_def.2 ?_)
      change _ ≤ (s.ring x).size
      omega
    cases (direct_ok (i := .drain x (s.ring x).slotCount) hs (primDrain_succeeds hc hall)).symm.trans ht
    obtain ⟨hready, hring, -⟩ := direct_after (by simpa using hs.1) (by simpa using hrxh) (by simpa using htxh) hu
    replace hring := (hring x).trans (State.ring_setRing ..)
    have hnone : minHalf m (u.ring x).doneCnt = 0 := by
      rw [hring]
      exact (congrArg _ (BitVec.sub_self _)).trans (minHalf_eq_right (BitVec.le_def.2 (Nat.zero_le _)))
    refine direct_ok hready ((primDrain_succeeds (by rw [hring]; exact hc) hnone).trans ?_)
    rw [RingRegs.drained_zero, State.setRing_self]
    rfl

/-- The head of the free group is `n` slots further when `n` more slots are reserved. -/
theorem freeHead_back {N a p n : Nat} (hN : 0 < N) (hn : n ≤ N) :
    ((a + (p + n)) % N + N - n) % N = (a + p) % N := by
  rw [← Nat.add_assoc, ← Nat.mod_add_mod (a + p) N n]
  have hlt := Nat.mod_lt (a + p) hN
  generalize (a + p) % N = f at *
  rw [mod_of_lt_two_mul (a := f + n) (by omega), mod_of_lt_two_mul (by split <;> omega)]
  split <;> split <;> omega

/-- Settles O23: the slots that `RESERVE` took are the most recently reserved ones. -/
theorem unreserveCompletes : Obligations.UnreserveCompletes := by
  refine ⟨fun s x n first hs hc hn hle hd => direct_ok hs (primUnreserve_succeeds hc hn hle hd), ?_⟩
  intro s x n hs hc hok hn hle hrxh htxh
  obtain ⟨hcap, -, -, hsize⟩ := hok.bounds
  have hpre : ((s.ring x).preCnt + n).toNat = (s.ring x).preCnt.toNat + n.toNat := by bv_omega
  have hnsize : n.toNat ≤ (s.ring x).size := by bv_omega
  obtain ⟨first, hfirst⟩ : ∃ first, (s.ring x).slotAddr (s.ring x).freeHead = first := ⟨_, rfl⟩
  have hidx : (s.ring x).idx first = some (s.ring x).freeHead := by
    rw [← hfirst]
    exact hok.idx_slotAddr (Nat.mod_lt _ hok.nonempty)
  have hreserve := direct_ok (i := .reserve x n) hs (primReserve_succeeds hc hn hle)
  rw [hfirst] at hreserve
  obtain ⟨u, hu⟩ : ∃ u, ((s.setRing x ((s.ring x).claimed n)).ended 0x03 .success [first]).issueDirect
    (.unreserve x n first) (primUnreserve x n first) = u := ⟨_, rfl⟩
  obtain ⟨hready, hring, hout⟩ := direct_after (by simpa using hs.1) (by simpa using hrxh) (by simpa using htxh)
    (congrArg Host.Outcome.next hu)
  replace hring := (hring x).trans (State.ring_setRing ..)
  refine ⟨first, _, u, _, hreserve, by simp [Instr.opcode], congrArg _ hu,
    direct_ok hready (primUnreserve_succeeds ?_ hn ?_ ?_), ?_, ?_⟩
  · rw [hring]
    exact hc
  · rw [hring]
    simp only [RingRegs.claimed]
    bv_omega
  · rw [hring]
    refine (show _ = (s.ring x).idx first from rfl).trans (hidx.trans (congrArg some ?_))
    simp only [RingRegs.freeHead, RingRegs.claimed, hpre]
    exact (freeHead_back hok.nonempty hnsize).symm
  · simp [hout, Instr.opcode]
  · refine (State.ended_ring ..).trans ((State.ring_setRing ..).trans ?_)
    simp [hring, RingRegs.claimed]

end Sys2Proof.Machine
end

section
/-! PROOF. The refusals of the ownership cycle, channel control, and the descriptor accessors
(40_ring_primitives.md R112 to R132). -/

namespace Sys2Proof.Machine

/-! ### The checks of the ownership cycle -/

/-- A word has nothing above its low `k` bits exactly when it is below `2 ^ k`. -/
theorem extractHigh_eq_zero_iff (w : Word) {k : Nat} (hk : k ≤ 32) :
    w.extractLsb' k (32 - k) = 0 ↔ w.toNat < 2 ^ k := by
  rw [← BitVec.toNat_inj, BitVec.extractLsb'_toNat, show (0 : BitVec (32 - k)).toNat = 0 by simp, Nat.shiftRight_eq_div_pow,
    Nat.mod_eq_of_lt, Nat.div_eq_zero_iff]
  · have : 2 ^ k ≠ 0 := by positivity
    tauto
  · rw [Nat.div_lt_iff_lt_mul (by positivity), ← Nat.pow_add, Nat.sub_add_cancel hk]
    exact w.isLt

theorem primInitSlots_succeeds {s : State} {x : Ring} {b l c t : Word} (hc : (s.ring x).created = true)
    (hfree : (s.ring x).freeCnt = (s.ring x).slotCount) (hl : l ≤ (s.ring x).maxLen) (hctrl : c.toNat < 4)
    (hsts : t.toNat < 16) :
    primInitSlots x b l c t s = (Reply.ok [],
      (List.range (s.ring x).size).foldl (fun s i => s.setRecord x b l c t i) s) := by
  refine (needRing_created _ hc).trans ?_
  rw [if_neg (not_not_intro hfree), if_neg]
  rintro (h | h | h)
  · exact BitVec.not_lt.2 hl h
  · exact h ((extractHigh_eq_zero_iff c (k := 2) (by decide)).2 hctrl)
  · exact h ((extractHigh_eq_zero_iff t (k := 4) (by decide)).2 hsts)

theorem primInitSlots_invalid {s : State} {x : Ring} {b l c t : Word} (hc : (s.ring x).created = true)
    (hfree : (s.ring x).freeCnt = (s.ring x).slotCount)
    (h : (s.ring x).maxLen < l ∨ 4 ≤ c.toNat ∨ 16 ≤ t.toNat) :
    primInitSlots x b l c t s = (⟨.invalidParameter, []⟩, s) := by
  refine (needRing_created _ hc).trans ?_
  rw [if_neg (not_not_intro hfree), if_pos]
  · rfl
  · rcases h with h | h | h
    · exact .inl h
    · exact .inr (.inl fun hz =>
        Nat.not_lt.2 h ((extractHigh_eq_zero_iff c (k := 2) (by decide)).1 hz))
    · exact .inr (.inr fun hz =>
        Nat.not_lt.2 h ((extractHigh_eq_zero_iff t (k := 4) (by decide)).1 hz))

/-- The first checks of the three primitives that take a count and a reference. -/
theorem needDesc_count_invalid {s : State} {x : Ring} {n : Half} {d : Word} {p : Nat → Prim}
    (hc : (s.ring x).created = true) (h : n = 0 ∨ (s.ring x).idx d = none) :
    needRing x (fun s => if n = 0 then refuseWith .invalidParameter s else needDesc x d p s) s =
      (⟨.invalidParameter, []⟩, s) := by
  refine (needRing_created _ hc).trans ?_
  by_cases hn : n = 0
  · exact if_pos hn
  · rw [if_neg hn]
    exact needDesc_none p (h.resolve_left hn)

/-- Where those checks pass, the primitive goes on with the slot's index. -/
theorem needDesc_count_passes {s : State} {x : Ring} {n : Half} {d : Word} {p : Nat → Prim} {i : Nat}
    (hc : (s.ring x).created = true) (hn : n ≠ 0) (hd : (s.ring x).idx d = some i) :
    needRing x (fun s => if n = 0 then refuseWith .invalidParameter s else needDesc x d p s) s = p i s := by
  refine (needRing_created _ hc).trans ?_
  rw [if_neg hn]
  exact needDesc_some p hd

/-- Two order checks with the same code. -/
theorem order_violation {P Q : Prop} [Decidable P] [Decidable Q] {s : State} {r : Reply × State} (h : P ∨ Q) :
    (if P then refuseWith .ringOrderViolation s else if Q then refuseWith .ringOrderViolation s else r) =
      (⟨.ringOrderViolation, []⟩, s) := by
  by_cases hp : P
  · exact if_pos hp
  · rw [if_neg hp]
    exact if_pos (h.resolve_left hp)

/-- A length that `COMMIT` rejects (R115). -/
theorem lengthOk_eq_false {s : State} {x : Ring} {i : Nat}
    (h : s.getField x i .length = 0 ∨ (s.ring x).maxLen < s.getField x i .length) : s.lengthOk x i = false := by
  rcases h with h | h
  · simp [State.lengthOk, h]
  · have hult : (s.ring x).maxLen.ult (s.getField x i .length) = true := by simpa [BitVec.ult] using BitVec.lt_def.1 h
    simp [State.lengthOk, hult]

theorem lengthOk_eq_true {s : State} {x : Ring} {i : Nat} (h₀ : s.getField x i .length ≠ 0)
    (h : s.getField x i .length ≤ (s.ring x).maxLen) : s.lengthOk x i = true := by
  have hult : (s.ring x).maxLen.ult (s.getField x i .length) = false := by
    simpa [BitVec.ult] using BitVec.le_def.1 h
  simpa [State.lengthOk, hult] using h₀

theorem primCommit_invalidDescriptor {s : State} {x : Ring} {n : Half} {d : Word} {j : Nat}
    (hc : (s.ring x).created = true) (hn : n ≠ 0) (hle : n ≤ (s.ring x).preCnt)
    (hd : (s.ring x).idx d = some (s.ring x).preHead) (hj : j < n.toNat)
    (hlen : s.lengthOk x (batchSlot (s.ring x).size (s.ring x).preHead j) = false) :
    primCommit x n d s = (⟨.invalidDescriptor, []⟩, s) := by
  have hall : (List.range n.toNat).all
      (fun j => s.lengthOk x (batchSlot (s.ring x).size (s.ring x).preHead j)) = false :=
    List.all_eq_false.2 ⟨j, List.mem_range.2 hj, by simp [hlen]⟩
  refine (needDesc_count_passes hc hn hd).trans ?_
  rw [if_neg (BitVec.not_lt.2 hle), if_neg (not_not_intro rfl), hall]
  rfl

/-- Settles O27: each check by the lemma of its primitive. -/
theorem ownershipRefusals : Obligations.OwnershipRefusals := by
  intro s x hs hc
  refine ⟨fun b l c t h => direct_fails hs ((needRing_created _ hc).trans (if_pos h)),
    fun b l c t hf h => direct_fails hs (primInitSlots_invalid hc hf h),
    direct_fails hs ((needRing_created _ hc).trans (if_pos rfl)),
    fun n hn h => direct_fails hs ((needRing_created _ hc).trans ((if_neg hn).trans (if_pos h))),
    fun n d h => ⟨direct_fails hs (needDesc_count_invalid hc h), direct_fails hs (needDesc_count_invalid hc h),
      direct_fails hs (needDesc_count_invalid hc h)⟩,
    fun n d i hn hd h => direct_fails hs ((needDesc_count_passes hc hn hd).trans (order_violation h)),
    fun n d i hn hd h => direct_fails hs ((needDesc_count_passes hc hn hd).trans (order_violation h)),
    fun n d j hn hd hle hj h =>
      direct_fails hs (primCommit_invalidDescriptor hc hn hle hd hj (lengthOk_eq_false h)),
    fun n d i hn hd h => direct_fails hs ((needDesc_count_passes hc hn hd).trans (order_violation h))⟩

/-! ### Channel control -/

/-- Beginning a sequence of completions touches the framing alone. -/
theorem beginFraming_eq (s : State) (x : Ring) :
    { s.beginFraming x with rxFrameStart := s.rxFrameStart } = s := by
  cases x
  · simp only [State.beginFraming]
    split <;> rfl
  · rfl

theorem primStart_succeeds {s : State} {x : Ring} (hc : (s.ring x).created = true) :
    primStart x s = (Reply.ok [], (s.beginFraming x).setRing x { s.ring x with run := true }) :=
  needRing_created _ hc

/-- Settles O28: one equation for each primitive. -/
theorem channelAndIrqControlComplete : Obligations.ChannelAndIrqControlComplete := by
  intro s x m hs
  refine ⟨fun hc => ⟨_, direct_ok hs (primStart_succeeds hc), ?_⟩, fun hc => direct_ok hs (needRing_created _ hc),
    direct_ok hs rfl, direct_ok hs rfl, ⟨_, direct_ok hs rfl⟩, direct_ok hs rfl⟩
  have hsetRing : ∀ r : RingRegs, { (s.beginFraming x).setRing x r with rxFrameStart := s.rxFrameStart } =
      ({ s.beginFraming x with rxFrameStart := s.rxFrameStart } : State).setRing x r := fun r => by
    cases x <;> rfl
  rw [hsetRing, beginFraming_eq]

/-- Settles O29. -/
theorem controllerResetCompletes : Obligations.ControllerResetCompletes := fun _ hs =>
  ⟨direct_ok hs rfl, direct_ok hs rfl⟩

/-! ### Accessors -/

theorem needReserved_succeeds {s : State} {x : Ring} {d : Word} {i : Nat} (p : Nat → Prim)
    (hc : (s.ring x).created = true) (hd : (s.ring x).idx d = some i) (hr : (s.ring x).slotState i = .reserved) :
    needReserved x d p s = p i s :=
  (needRing_created _ hc).trans ((needDesc_some _ hd).trans (if_neg (not_not_intro hr)))

theorem needReserved_violation {s : State} {x : Ring} {d : Word} {i : Nat} (p : Nat → Prim)
    (hc : (s.ring x).created = true) (hd : (s.ring x).idx d = some i) (hr : (s.ring x).slotState i ≠ .reserved) :
    needReserved x d p s = (⟨.ringOrderViolation, []⟩, s) :=
  (needRing_created _ hc).trans ((needDesc_some _ hd).trans (if_pos hr))

theorem primBdSetLen_succeeds {s : State} {x : Ring} {d len : Word} {i : Nat} (hc : (s.ring x).created = true)
    (hd : (s.ring x).idx d = some i) (hr : (s.ring x).slotState i = .reserved) (hl : len ≤ (s.ring x).maxLen) :
    primBdSetLen x d len s = (Reply.ok [], s.setField x i .length len) :=
  (needReserved_succeeds _ hc hd hr).trans (if_neg (BitVec.not_lt.2 hl))

/-- `BD_SET_CTRL`'s header holds the two flags in its low bits. -/
theorem execBdSetCtrl_flags (x : Ring) (flags : BitVec 2) (d : Word) (s : State) :
    exec (.bdSetCtrl x (flags.zeroExtend 3) d) s =
      .next (s.issueDirect (.bdSetCtrl x (flags.zeroExtend 3) d) (primBdSetCtrl x flags d)) := by
  have hbit : ∀ f : BitVec 2, (f.zeroExtend 3).getLsbD 2 = false ∧ (f.zeroExtend 3).extractLsb' 0 2 = f := by
    decide
  obtain ⟨h₂, hlow⟩ := hbit flags
  simp only [exec, execBdSetCtrl, h₂, hlow, Bool.false_eq_true, if_false]

/-- Byte `k` of a word that was just written. -/
theorem Memory.read_writeWord_byte (m : Memory) (v : View) (a w : Word) {k : Nat} (hk : k < 4) :
    (m.writeWord a w).read v (a + BitVec.ofNat 32 k) = w.extractLsb' (8 * k) 8 := by
  match k, hk with
  | 0, _ => simpa using Memory.read_writeWord_byte0 m v a w
  | 1, _ => exact Memory.read_writeWord_byte1 m v a w
  | 2, _ => exact Memory.read_writeWord_byte2 m v a w
  | 3, _ => exact Memory.read_writeWord_byte3 m v a w

/-- A field write does what a setter promises: both views are written (R53, R62). -/
theorem setField_fieldWritten (s : State) (x : Ring) (i : Nat) (f : BdField) (w : Word) :
    FieldWritten s (s.setField x i f w) x i f w := by
  refine ⟨State.getField_setField .., fun v k hk => ?_, setField_sameButMemory ..,
    setField_bytesKept s x i f w⟩
  have hhw : (s.setField x i f w).memHw.read .hw ((s.ring x).slotAddr i + f.offset + BitVec.ofNat 32 k) =
      w.extractLsb' (8 * k) 8 := Memory.read_writeWord_byte _ _ _ _ hk
  have hsw : (s.setField x i f w).memSw.read .sw ((s.ring x).slotAddr i + f.offset + BitVec.ofNat 32 k) =
      w.extractLsb' (8 * k) 8 := Memory.read_writeWord_byte _ _ _ _ hk
  cases v
  · simp only [State.peek, hhw, hsw, ite_self]
  · exact hhw

/-- Settles O30: each setter writes its field, `BD_SET_LEN` after the comparison with `max_len`. -/
theorem settersComplete : Obligations.SettersComplete := by
  intro s x d i hs hc hd hr
  refine ⟨fun addr => ⟨_, direct_ok hs (needReserved_succeeds _ hc hd hr), setField_fieldWritten ..⟩,
    fun len hl => ⟨_, direct_ok hs (primBdSetLen_succeeds hc hd hr hl), setField_fieldWritten ..⟩,
    fun len hl hp => direct_fails hs ((needReserved_succeeds _ hc hd hr).trans ((if_pos hl).trans ?_)),
    fun len hl hp => ⟨_, direct_ok hs ((needReserved_succeeds _ hc hd hr).trans ((if_pos hl).trans ?_)),
      setField_fieldWritten ..⟩,
    fun flags => ⟨_, (execBdSetCtrl_flags ..).trans (direct_ok hs (needReserved_succeeds _ hc hd hr)),
      setField_fieldWritten ..⟩⟩
  · rw [hp]
    rfl
  · rw [hp]

/-- The primitives that need a ring answer `RingNotCreated` without it (R110). -/
theorem exec_ringNotCreated {s : State} {i : Instr} {x : Ring} (hs : s.directReady) (hw : i.wellFormed = true)
    (hn : neededRing i = some x) (hc : (s.ring x).created = false) :
    exec i s = failed s i.opcode .ringNotCreated := by
  cases i with
  | create => cases hn
  | irqEnable => cases hn
  | irqDisable => cases hn
  | irqGet => cases hn
  | irqAck => cases hn
  | reset => cases hn
  | resetDone => cases hn
  | initEngine => cases hn
  | transmit => cases hn
  | irqRx => cases hn
  | irqTx => cases hn
  | bdSetCtrl y m d =>
    cases hn
    have hm : m.getLsbD 2 = false := by simpa [Instr.wellFormed] using hw
    refine direct_fails hs ?_
    rw [hm]
    exact needRing_absent _ hc
  | _ => cases hn; exact direct_fails hs (needRing_absent _ hc)

/-- The accessors answer `InvalidParameter` for a reference that names no slot (R54, R110). -/
theorem exec_invalidReference {s : State} {i : Instr} {x : Ring} {d : Word} (hs : s.directReady)
    (hw : i.wellFormed = true) (ha : accessorReference i = some (x, d)) (hc : (s.ring x).created = true)
    (hd : (s.ring x).idx d = none) : exec i s = failed s i.opcode .invalidParameter := by
  have hrefused : ∀ p : Nat → Prim, needRing x (needDesc x d p) s = (⟨.invalidParameter, []⟩, s) := fun p =>
    (needRing_created _ hc).trans (needDesc_none p hd)
  cases i with
  | bdSetAddr => cases ha; exact direct_fails hs (hrefused _)
  | bdSetLen => cases ha; exact direct_fails hs (hrefused _)
  | bdGetAddr => cases ha; exact direct_fails hs (hrefused _)
  | bdGetLen => cases ha; exact direct_fails hs (hrefused _)
  | bdGetSts => cases ha; exact direct_fails hs (hrefused _)
  | bdNext => cases ha; exact direct_fails hs (hrefused _)
  | bdSetCtrl y m d =>
    cases ha
    have hm : m.getLsbD 2 = false := by simpa [Instr.wellFormed] using hw
    refine direct_fails hs ?_
    rw [hm]
    exact hrefused _
  | _ => cases ha

/-- Settles O31. -/
theorem accessorChecks : Obligations.AccessorChecks := by
  refine ⟨fun s i x hs hw hn hc => exec_ringNotCreated hs hw hn hc,
    fun s i x d hs hw ha hc hd => exec_invalidReference hs hw ha hc hd,
    fun s x d w flags i hs hc hd hr => ⟨direct_fails hs (needReserved_violation _ hc hd hr),
      direct_fails hs (needReserved_violation _ hc hd hr), (execBdSetCtrl_flags ..).trans
        (direct_fails hs (needReserved_violation _ hc hd hr))⟩⟩

/-- Settles O32: behind the two checks a getter only reads. -/
theorem gettersComplete : Obligations.GettersComplete := fun _ _ _ _ hs hc hd =>
  have hget := fun p : Nat → Prim => (needRing_created _ hc).trans (needDesc_some p hd)
  ⟨direct_ok hs (hget _), direct_ok hs (hget _), direct_ok hs (hget _), direct_ok hs (hget _)⟩

end Sys2Proof.Machine
end

section
/-! PROOF. Lists of descriptor field writes, `INIT_SLOTS` and `COMMIT`, which are such lists, `CREATE`, and the
instructions that store nothing (40_ring_primitives.md R111, R112, R115; 20_memory.md R56, R57, R62). -/

namespace Sys2Proof.Machine

/-! ### Lists of field writes -/

/-- A list of field writes (slot, field, word), in order. -/
def State.setFields (s : State) (x : Ring) (l : List (Nat × BdField × Word)) : State :=
  l.foldl (fun s q => s.setField x q.1 q.2.1 q.2.2) s

theorem setFields_sameButMemory (s : State) (x : Ring) (l : List (Nat × BdField × Word)) :
    SameButMemory s (s.setFields x l) := SameButMemory.foldl (fun _ _ => setField_sameButMemory ..) l s

@[simp] theorem State.setFields_ring (s : State) (x : Ring) (l : List (Nat × BdField × Word)) (y : Ring) :
    (s.setFields x l).ring y = s.ring y := (setFields_sameButMemory s x l).ring y

theorem setField_inField (s : State) (x : Ring) (i j : Nat) (f g : BdField) (w a : Word) :
    (s.setField x i f w).InField x j g a ↔ s.InField x j g a := by
  simp only [State.InField, State.setField_ring]

/-- A list of field writes changes only the bytes of its fields. -/
theorem setFields_bytesKept (s : State) (x : Ring) (l : List (Nat × BdField × Word)) :
    BytesKept s (s.setFields x l) fun a => ∃ q ∈ l, s.InField x q.1 q.2.1 a := by
  induction l generalizing s with
  | nil => exact .refl s _
  | cons q l ih =>
    refine ((setField_bytesKept s x q.1 q.2.1 q.2.2).mono fun a ha => ⟨q, by simp, ha⟩).trans
      ((ih _).mono ?_)
    rintro a ⟨p, hp, ha⟩
    exact ⟨p, .tail _ hp, (setField_inField ..).1 ha⟩

/-- A field that is not in the list keeps its word. -/
theorem getField_setFields_other {s : State} {x : Ring} (h : (s.ring x).Ok) {l : List (Nat × BdField × Word)}
    {j : Nat} {g : BdField} (hl : ∀ q ∈ l, q.1 < (s.ring x).size) (hj : j < (s.ring x).size)
    (hne : ∀ q ∈ l, j ≠ q.1 ∨ g ≠ q.2.1) : (s.setFields x l).getField x j g = s.getField x j g := by
  induction l generalizing s with
  | nil => rfl
  | cons q l ih =>
    have hhead := getField_setField_other h q.2.2 (hl q (by simp)) hj (hne q (by simp))
    have htail := ih (s := s.setField x q.1 q.2.1 q.2.2) (by simpa using h)
      (fun p hp => by simpa using hl p (.tail _ hp)) (by simpa using hj) fun p hp => hne p (.tail _ hp)
    exact htail.trans hhead

/-- A field that the list writes, always with the same word, holds that word. -/
theorem getField_setFields {s : State} {x : Ring} (h : (s.ring x).Ok) {l : List (Nat × BdField × Word)}
    {j : Nat} {g : BdField} {w : Word} (hl : ∀ q ∈ l, q.1 < (s.ring x).size) (hj : j < (s.ring x).size)
    (hmem : ∃ q ∈ l, q.1 = j ∧ q.2.1 = g) (hw : ∀ q ∈ l, q.1 = j → q.2.1 = g → q.2.2 = w) :
    (s.setFields x l).getField x j g = w := by
  induction l generalizing s with
  | nil => obtain ⟨q, hq, -⟩ := hmem; cases hq
  | cons q l ih =>
    have hok : ((s.setField x q.1 q.2.1 q.2.2).ring x).Ok := by simpa using h
    have hbound : ∀ p ∈ l, p.1 < ((s.setField x q.1 q.2.1 q.2.2).ring x).size := fun p hp => by
      simpa using hl p (.tail _ hp)
    have hj' : j < ((s.setField x q.1 q.2.1 q.2.2).ring x).size := by simpa using hj
    by_cases hlater : ∃ p ∈ l, p.1 = j ∧ p.2.1 = g
    · exact ih hok hbound hj' hlater fun p hp => hw p (.tail _ hp)
    · have hlast : ∀ p ∈ l, j ≠ p.1 ∨ g ≠ p.2.1 := fun p hp => by
        by_contra hboth
        rw [not_or, not_not, not_not] at hboth
        exact hlater ⟨p, hp, hboth.1.symm, hboth.2.symm⟩
      obtain ⟨p, hp, rfl, rfl⟩ := hmem
      rcases List.mem_cons.1 hp with rfl | hp
      · rw [← hw p (by simp) rfl rfl]
        exact (getField_setFields_other hok hbound hj' hlast).trans (State.getField_setField ..)
      · exact absurd ⟨p, hp, rfl, rfl⟩ hlater

/-! ### `INIT_SLOTS` (R112) -/

/-- The four field writes of one slot. -/
def recordFields (b l c t : Word) (i : Nat) : List (Nat × BdField × Word) :=
  [(i, .bufAddr, b), (i, .length, l), (i, .ctrl, c), (i, .sts, t)]

/-- The word of a field in the template of `INIT_SLOTS`. -/
def templateWord (b l c t : Word) : BdField → Word
  | .bufAddr => b
  | .length => l
  | .ctrl => c
  | .sts => t

theorem mem_recordFields {b l c t : Word} {i : Nat} {q : Nat × BdField × Word} :
    q ∈ recordFields b l c t i ↔ q.1 = i ∧ q.2.2 = templateWord b l c t q.2.1 := by
  obtain ⟨j, f, w⟩ := q
  cases f <;> simp [recordFields, templateWord]

theorem initSlots_eq_setFields (s : State) (x : Ring) (b l c t : Word) (n : Nat) :
    (List.range n).foldl (fun s i => s.setRecord x b l c t i) s =
      s.setFields x ((List.range n).flatMap (recordFields b l c t)) := by
  rw [State.setFields, List.foldl_flatMap]
  rfl

/-- What `INIT_SLOTS` leaves in the records of an `Ok` ring. -/
theorem getField_initSlots {s : State} {x : Ring} (h : (s.ring x).Ok) (b l c t : Word) {i : Nat}
    (hi : i < (s.ring x).size) (f : BdField) :
    ((List.range (s.ring x).size).foldl (fun s i => s.setRecord x b l c t i) s).getField x i f =
      templateWord b l c t f := by
  rw [initSlots_eq_setFields]
  refine getField_setFields h (fun q hq => ?_) hi ⟨(i, f, templateWord b l c t f), ?_, rfl, rfl⟩ fun q hq hj hf => ?_
  · obtain ⟨k, hk, hq⟩ := List.mem_flatMap.1 hq
    exact (mem_recordFields.1 hq).1 ▸ List.mem_range.1 hk
  · exact List.mem_flatMap.2 ⟨i, List.mem_range.2 hi, mem_recordFields.2 ⟨rfl, rfl⟩⟩
  · obtain ⟨k, -, hq⟩ := List.mem_flatMap.1 hq
    rw [← hf]
    exact (mem_recordFields.1 hq).2

theorem initSlots_bytesKept (s : State) (x : Ring) (b l c t : Word) (n : Nat) :
    BytesKept s ((List.range n).foldl (fun s i => s.setRecord x b l c t i) s)
      fun a => ∃ i < n, ∃ f, s.InField x i f a := by
  rw [initSlots_eq_setFields]
  refine (setFields_bytesKept s x _).mono ?_
  rintro a ⟨q, hq, ha⟩
  obtain ⟨k, hk, hq⟩ := List.mem_flatMap.1 hq
  exact ⟨k, List.mem_range.1 hk, q.2.1, (mem_recordFields.1 hq).1 ▸ ha⟩

theorem initSlots_sameButMemory (s : State) (x : Ring) (b l c t : Word) (n : Nat) :
    SameButMemory s ((List.range n).foldl (fun s i => s.setRecord x b l c t i) s) :=
  SameButMemory.foldl (fun s i => setRecord_sameButMemory s x b l c t i) _ s

/-- Settles O21. -/
theorem initSlotsCompletes : Obligations.InitSlotsCompletes := by
  intro s x b l c t hs hc hok hfree hl hctrl hsts
  have hfield := fun i hi => getField_initSlots hok b l c t (i := i) hi
  exact ⟨_, direct_ok hs (primInitSlots_succeeds hc hfree hl hctrl hsts),
    fun i hi => ⟨hfield i hi .bufAddr, hfield i hi .length, hfield i hi .ctrl, hfield i hi .sts⟩,
    initSlots_sameButMemory .., initSlots_bytesKept s x b l c t _⟩

/-! ### The bytes under changes of the registers -/

/-- The two states hold the same bytes, and the same addresses are descriptor memory. -/
structure KeepsBytes (s t : State) : Prop where
  memSw : t.memSw = s.memSw
  memHw : t.memHw = s.memHw
  cfg : t.cfg = s.cfg
  cfgValid : t.cfgValid = s.cfgValid
  params : t.params = s.params
  covers : ∀ x a, (t.ring x).covers a = (s.ring x).covers a

theorem KeepsBytes.refl (s : State) : KeepsBytes s s := ⟨rfl, rfl, rfl, rfl, rfl, fun _ _ => rfl⟩

theorem KeepsBytes.trans {s t u : State} (h : KeepsBytes s t) (k : KeepsBytes t u) : KeepsBytes s u :=
  ⟨k.memSw.trans h.memSw, k.memHw.trans h.memHw, k.cfg.trans h.cfg, k.cfgValid.trans h.cfgValid,
    k.params.trans h.params, fun x a => (k.covers x a).trans (h.covers x a)⟩

theorem KeepsBytes.peek {s t : State} (h : KeepsBytes s t) (v : View) (a : Word) : t.peek v a = s.peek v a := by
  have hrx : t.rx.covers a = s.rx.covers a := h.covers .rx a
  have htx : t.tx.covers a = s.tx.covers a := h.covers .tx a
  refine State.peek_congr_byte ?_ (by rw [h.memHw]) (fun _ => by rw [h.memSw]) v
  simp only [State.isDescriptorByte, hrx, htx, h.cfg, h.cfgValid, h.params]

theorem KeepsBytes.bytesKept {s t : State} (h : KeepsBytes s t) (P : Word → Prop) : BytesKept s t P :=
  fun v a _ => h.peek v a

theorem KeepsBytes.getField {s t : State} (h : KeepsBytes s t) {x : Ring} {i : Nat}
    (ha : (t.ring x).slotAddr i = (s.ring x).slotAddr i) (f : BdField) : t.getField x i f = s.getField x i f :=
  getField_congr ha fun _ _ => h.peek .hw _

theorem KeepsBytes.setRing (s : State) (x : Ring) (r : RingRegs) (hc : r.created = (s.ring x).created)
    (hb : r.base = (s.ring x).base) (hr : r.regionSize = (s.ring x).regionSize) : KeepsBytes s (s.setRing x r) := by
  refine ⟨by simp, by simp, by simp, by simp, by simp, fun y a => ?_⟩
  by_cases hy : y = x
  · subst hy
    simp only [State.ring_setRing, RingRegs.covers, hc, hb, hr]
  · rw [State.ring_setRing_ne s r hy]

theorem KeepsBytes.addMarks (s : State) (n : Nat) (x : Ring) : KeepsBytes s (s.addMarks n x) := by
  cases x <;> exact ⟨rfl, rfl, rfl, rfl, rfl, fun _ _ => by simp⟩

theorem KeepsBytes.beginFraming (s : State) (x : Ring) : KeepsBytes s (s.beginFraming x) :=
  ⟨by simp, by simp, by simp, by simp, by simp, fun _ _ => by simp⟩

/-! ### `COMMIT` (R115) -/

/-- The `STS` writes of a batch. -/
def statusFields (N h n : Nat) : List (Nat × BdField × Word) :=
  (List.range n).map fun j => (batchSlot N h j, .sts, 0)

theorem clearStatus_eq_setFields (s : State) (x : Ring) (h n : Nat) :
    s.clearStatus x h n = s.setFields x (statusFields (s.ring x).size h n) := by
  rw [State.clearStatus, State.setFields, statusFields, List.foldl_map]
  suffices hsame : ∀ (l : List Nat) (t : State), t.ring x = s.ring x →
      l.foldl (fun s j => s.setField x (batchSlot (s.ring x).size h j) .sts 0) t =
        l.foldl (fun t j => t.setField x (batchSlot (s.ring x).size h j) .sts 0) t from hsame _ s rfl
  intro l
  induction l with
  | nil => exact fun _ _ => rfl
  | cons j l ih =>
    intro t ht
    simp only [List.foldl_cons, ht]
    exact ih _ (by simpa using ht)

theorem mem_statusFields {N h n : Nat} {q : Nat × BdField × Word} :
    q ∈ statusFields N h n ↔ ∃ j < n, q = (batchSlot N h j, .sts, 0) := by
  simp [statusFields, eq_comm]

theorem clearStatus_getField_sts {s : State} {x : Ring} (h : (s.ring x).Ok) {head n j : Nat} (hj : j < n) :
    (s.clearStatus x head n).getField x (batchSlot (s.ring x).size head j) .sts = 0 := by
  rw [clearStatus_eq_setFields]
  refine getField_setFields h (fun q hq => ?_) (Nat.mod_lt _ h.nonempty)
    ⟨_, mem_statusFields.2 ⟨j, hj, rfl⟩, rfl, rfl⟩ fun q hq _ _ => ?_
  · obtain ⟨k, -, rfl⟩ := mem_statusFields.1 hq
    exact Nat.mod_lt _ h.nonempty
  · obtain ⟨k, -, rfl⟩ := mem_statusFields.1 hq
    rfl

theorem clearStatus_getField_other {s : State} {x : Ring} (h : (s.ring x).Ok) (head n : Nat) {i : Nat} {f : BdField}
    (hi : i < (s.ring x).size) (hf : f ≠ .sts) :
    (s.clearStatus x head n).getField x i f = s.getField x i f := by
  rw [clearStatus_eq_setFields]
  refine getField_setFields_other h (fun q hq => ?_) hi fun q hq => ?_
  · obtain ⟨k, -, rfl⟩ := mem_statusFields.1 hq
    exact Nat.mod_lt _ h.nonempty
  · obtain ⟨k, -, rfl⟩ := mem_statusFields.1 hq
    exact .inr hf

theorem clearStatus_bytesKept (s : State) (x : Ring) (head n : Nat) :
    BytesKept s (s.clearStatus x head n) fun a => ∃ j < n, s.InField x (batchSlot (s.ring x).size head j) .sts a := by
  rw [clearStatus_eq_setFields]
  refine (setFields_bytesKept s x _).mono ?_
  rintro a ⟨q, hq, ha⟩
  obtain ⟨j, hj, rfl⟩ := mem_statusFields.1 hq
  exact ⟨j, hj, ha⟩

/-- What `COMMIT` does to a ring's registers (R115). -/
def RingRegs.committed (r : RingRegs) (n : Half) : RingRegs :=
  { r with preCnt := r.preCnt - n, hwCnt := r.hwCnt + n }

/-- What `COMMIT` of the `n` oldest reserved slots does (R115). -/
def State.commitBatch (s : State) (x : Ring) (n : Half) : State :=
  ((s.clearStatus x (s.ring x).preHead n.toNat).setRing x ((s.ring x).committed n)).addMarks n.toNat x

theorem commitBatch_ring (s : State) (x : Ring) (n : Half) :
    (s.commitBatch x n).ring x = (s.ring x).committed n := by simp [State.commitBatch]

theorem commitBatch_ring_ne (s : State) {x y : Ring} (n : Half) (h : y ≠ x) :
    (s.commitBatch x n).ring y = s.ring y := by
  rw [State.commitBatch, State.addMarks_ring, State.ring_setRing_ne _ _ h]
  exact (clearStatus_sameButMemory ..).ring y

theorem commitBatch_same (s : State) (x : Ring) (n : Half) :
    { s.commitBatch x n with
      rx := s.rx, tx := s.tx, memSw := s.memSw, memHw := s.memHw, hwLog := s.hwLog, txMarks := s.txMarks } = s := by
  have hmem := clearStatus_sameButMemory s x (s.ring x).preHead n.toNat
  have h := congrArg (fun z : State => { z with rx := s.rx, tx := s.tx, txMarks := s.txMarks }) hmem
  cases x <;> exact h

/-- Posting keeps the bytes as the clearing of the status words left them. -/
theorem commitBatch_keepsBytes (s : State) (x : Ring) (n : Half) :
    KeepsBytes (s.clearStatus x (s.ring x).preHead n.toNat) (s.commitBatch x n) := by
  have hring := (clearStatus_sameButMemory s x (s.ring x).preHead n.toNat).ring x
  refine (KeepsBytes.setRing _ x _ ?_ ?_ ?_).trans (.addMarks ..) <;> rw [hring] <;> rfl

theorem commitBatch_slotAddr (s : State) (x : Ring) (n : Half) (i : Nat) :
    ((s.commitBatch x n).ring x).slotAddr i =
      ((s.clearStatus x (s.ring x).preHead n.toNat).ring x).slotAddr i := by
  rw [commitBatch_ring, (clearStatus_sameButMemory ..).ring x]
  rfl

theorem commitBatch_getField_sts {s : State} {x : Ring} (h : (s.ring x).Ok) {n : Half} {j : Nat} (hj : j < n.toNat) :
    (s.commitBatch x n).getField x (batchSlot (s.ring x).size (s.ring x).preHead j) .sts = 0 :=
  ((commitBatch_keepsBytes s x n).getField (commitBatch_slotAddr ..) .sts).trans (clearStatus_getField_sts h hj)

theorem commitBatch_getField_other {s : State} {x : Ring} (h : (s.ring x).Ok) (n : Half) {i : Nat} {f : BdField}
    (hi : i < (s.ring x).size) (hf : f ≠ .sts) : (s.commitBatch x n).getField x i f = s.getField x i f :=
  ((commitBatch_keepsBytes s x n).getField (commitBatch_slotAddr ..) f).trans
    (clearStatus_getField_other h _ _ hi hf)

theorem commitBatch_bytesKept (s : State) (x : Ring) (n : Half) :
    BytesKept s (s.commitBatch x n) fun a =>
      ∃ j < n.toNat, s.InField x (batchSlot (s.ring x).size (s.ring x).preHead j) .sts a :=
  (clearStatus_bytesKept s x (s.ring x).preHead n.toNat).trans ((commitBatch_keepsBytes s x n).bytesKept _)

/-- `COMMIT` of a batch whose lengths are legal. -/
theorem primCommit_batch {s : State} {x : Ring} {n : Half} {d : Word} (hc : (s.ring x).created = true)
    (hn : n ≠ 0) (hle : n ≤ (s.ring x).preCnt) (hd : (s.ring x).idx d = some (s.ring x).preHead)
    (hlen : ∀ j < n.toNat, s.getField x (batchSlot (s.ring x).size (s.ring x).preHead j) .length ≠ 0 ∧
      s.getField x (batchSlot (s.ring x).size (s.ring x).preHead j) .length ≤ (s.ring x).maxLen) :
    primCommit x n d s = (Reply.ok [], s.commitBatch x n) :=
  primCommit_succeeds hc hn hle hd fun j hj => lengthOk_eq_true (hlen j hj).1 (hlen j hj).2

/-- Settles O24. -/
theorem commitCompletes : Obligations.CommitCompletes := fun s x n _ hs hc hok hn hle hd hlen =>
  ⟨s.commitBatch x n, direct_ok hs (primCommit_batch hc hn hle hd hlen), commitBatch_ring s x n,
    fun _ hy => commitBatch_ring_ne s n hy, commitBatch_same s x n,
    fun _ hj => commitBatch_getField_sts hok hj, commitBatch_bytesKept s x n⟩

/-! ### `CREATE` (R111) -/

theorem primCreate_succeeds {s : State} {x : Ring} {n : Half} {b z a m : Word} (hrun : (s.ring x).run = false)
    (hn : n ≠ 0) (hm : m ≠ 0) (ha : 4 ≤ a.toNat) (hpow : a &&& (a - 1) = 0) (hb : b.toNat % a.toNat = 0)
    (hz : n.toNat * strideOf a ≤ z.toNat) (hfits : b.toNat + n.toNat * strideOf a ≤ 2 ^ 32) :
    primCreate x n b z a m s =
      (Reply.ok [], (s.setRing x ((s.ring x).recreate n b z a m)).dropMarks x) := by
  rw [primCreate, if_neg (by simp [hrun]), if_neg (by simp only [hn, hm, or_self, not_false_eq_true]),
    if_neg (not_or.2 ⟨Nat.not_lt.2 ha, not_not_intro hpow⟩), if_neg (not_not_intro hb), if_neg (Nat.not_lt.2 hz),
    if_neg (Nat.not_lt.2 hfits)]

/-- Settles O18. -/
theorem createCompletes : Obligations.CreateCompletes := by
  intro s x n b z a m hs hrun hn hm ha hpow hb hz hfits
  refine ⟨_, direct_ok hs (primCreate_succeeds hrun hn hm ha hpow hb hz hfits), ?_, fun y hy => ?_, ?_, fun c => ?_⟩
  · rw [State.dropMarks_ring, State.ring_setRing, ← hrun]
    rfl
  · rw [State.dropMarks_ring, State.ring_setRing_ne _ _ hy]
  · cases x <;> rfl
  · simp [State.peek_hw]

theorem primCreate_invalidParameter {s : State} {x : Ring} {n : Half} {b z a m : Word}
    (hrun : (s.ring x).run = false)
    (h : ¬(n ≠ 0 ∧ m ≠ 0 ∧ 4 ≤ a.toNat ∧ a &&& (a - 1) = 0)) :
    primCreate x n b z a m s = (⟨.invalidParameter, []⟩, s) := by
  rw [primCreate, if_neg (by simp [hrun])]
  by_cases hnm : n = 0 ∨ m = 0
  · exact if_pos hnm
  · obtain ⟨hn, hm⟩ := not_or.1 hnm
    rw [if_neg hnm]
    refine if_pos ?_
    by_contra halign
    obtain ⟨ha, hpow⟩ := not_or.1 halign
    exact h ⟨hn, hm, Nat.not_lt.1 ha, not_not.1 hpow⟩

theorem primCreate_misaligned {s : State} {x : Ring} {n : Half} {b z a m : Word} (hrun : (s.ring x).run = false)
    (h : n ≠ 0 ∧ m ≠ 0 ∧ 4 ≤ a.toNat ∧ a &&& (a - 1) = 0) (hb : b.toNat % a.toNat ≠ 0) :
    primCreate x n b z a m s = (⟨.ringRegionMisaligned, []⟩, s) := by
  obtain ⟨hn, hm, ha, hpow⟩ := h
  rw [primCreate, if_neg (by simp [hrun]), if_neg (by simp only [hn, hm, or_self, not_false_eq_true]),
    if_neg (not_or.2 ⟨Nat.not_lt.2 ha, not_not_intro hpow⟩), if_pos hb]
  rfl

theorem primCreate_tooSmall {s : State} {x : Ring} {n : Half} {b z a m : Word} (hrun : (s.ring x).run = false)
    (h : n ≠ 0 ∧ m ≠ 0 ∧ 4 ≤ a.toNat ∧ a &&& (a - 1) = 0) (hb : b.toNat % a.toNat = 0)
    (hsmall : ¬(n.toNat * strideOf a ≤ z.toNat ∧ b.toNat + n.toNat * strideOf a ≤ 2 ^ 32)) :
    primCreate x n b z a m s = (⟨.ringRegionTooSmall, []⟩, s) := by
  obtain ⟨hn, hm, ha, hpow⟩ := h
  rw [primCreate, if_neg (by simp [hrun]), if_neg (by simp only [hn, hm, or_self, not_false_eq_true]),
    if_neg (not_or.2 ⟨Nat.not_lt.2 ha, not_not_intro hpow⟩), if_neg (not_not_intro hb)]
  by_cases hz : z.toNat < n.toNat * strideOf a
  · exact if_pos hz
  · rw [if_neg hz]
    exact if_pos (Nat.not_le.1 fun hfits => hsmall ⟨Nat.not_lt.1 hz, hfits⟩)

/-- Settles O19. -/
theorem createChecksInOrder : Obligations.CreateChecksInOrder := fun _ _ _ _ _ _ _ hs =>
  ⟨fun hrun => direct_fails hs (if_pos hrun), fun hrun h => direct_fails hs (primCreate_invalidParameter hrun h),
    fun hrun h hb => direct_fails hs (primCreate_misaligned hrun h hb),
    fun hrun h hb hsmall => direct_fails hs (primCreate_tooSmall hrun h hb hsmall)⟩

/-- A response determines its code and the rings. -/
theorem responded_inj {t u : State} {op : BitVec 8} {c e : Code} {rs qs : List Word}
    (h : responded t op c rs = responded u op e qs) : c = e ∧ ∀ x, t.ring x = u.ring x := by
  have hstate : t.ended op c rs = u.ended op e qs := Host.Outcome.next.inj h
  have hlast := congrArg (fun z : State => z.out.getLast?) hstate
  simp only [State.ended, List.getLast?_append, List.getLast?_singleton, Option.some_or, Option.some.injEq,
    Event.ret.injEq] at hlast
  exact ⟨hlast.2.1, fun x => by simpa using congrArg (fun z : State => z.ring x) hstate⟩

/-- The stride of slots that fit in a region is a word. -/
theorem toNat_ofNat_strideOf {n : Half} {z a : Word} (hn : n ≠ 0) (hz : n.toNat * strideOf a ≤ z.toNat) :
    (BitVec.ofNat 32 (strideOf a)).toNat = strideOf a := by
  have hpos : 0 < n.toNat := Nat.pos_of_ne_zero fun h => hn (BitVec.eq_of_toNat_eq h)
  have hfits : strideOf a ≤ n.toNat * strideOf a := Nat.le_mul_of_pos_left _ hpos
  exact (BitVec.toNat_ofNat ..).trans (Nat.mod_eq_of_lt (by have := z.isLt; omega))

/-- A `CREATE` that is answered `Success` passed its checks, and left the ring that they promise. -/
theorem create_answered {s t : State} {x : Ring} {n : Half} {b z a m : Word} (hs : s.directReady)
    (h : exec (.create x n b z a m) s = answered t 0x01 []) :
    t.ring x = (s.ring x).recreate n b z a m ∧ ((s.ring x).recreate n b z a m).Ok ∧ b.toNat % a.toNat = 0 ∧
      ((s.ring x).recreate n b z a m).slotStride.toNat = strideOf a := by
  rcases primCreate_cases s x n b z a m with ⟨c, hc, hp⟩ | ⟨-, hn, hm, ha, -, hb, hz, hfits, hp⟩
  · have hfailed : exec (.create x n b z a m) s = failed s 0x01 c := direct_fails hs hp
    exact absurd (responded_inj (hfailed.symm.trans h)).1 hc
  · have hdone := (direct_ok (i := .create x n b z a m) hs hp).symm.trans h
    refine ⟨?_, recreate_ok _ hn hm ha hz hfits, hb, toNat_ofNat_strideOf hn hz⟩
    rw [← (responded_inj hdone).2 x, State.dropMarks_ring, State.ring_setRing]

/-- Settles O20: base and stride are multiples of the alignment, and the ring is well formed. -/
theorem createAlignsSlots : Obligations.CreateAlignsSlots := by
  intro s t x n b z a m hs h i hi
  obtain ⟨hring, hok, hb, hword⟩ := create_answered hs h
  rw [← hring] at hok hword
  have hsize : (t.ring x).size = n.toNat := by rw [hring]; rfl
  have hbase : (t.ring x).base = b := by rw [hring]; rfl
  have hregion : (t.ring x).regionSize = z := by rw [hring]; rfl
  have hstride : a.toNat ∣ (t.ring x).slotStride.toNat := by
    rw [hword]
    exact Nat.dvd_mul_left ..
  have haddr : ∀ j < n.toNat, ((t.ring x).slotAddr j).toNat = b.toNat + j * (t.ring x).slotStride.toNat :=
    fun j hj => by rw [hok.slotAddr_toNat (hsize ▸ hj), hbase]
  have h16 := hok.stride
  have hslot := (t.ring x).slot_bound (i := i) (k := 15) (hsize ▸ hi) (by omega)
  have hholds := hok.holds
  rw [hregion] at hholds
  refine ⟨?_, by rw [haddr i hi]; omega, by rw [haddr i hi]; omega, fun j hj => ?_⟩
  · rw [haddr i hi]
    exact Nat.mod_eq_zero_of_dvd (Nat.dvd_add (Nat.dvd_of_mod_eq_zero hb) (hstride.mul_left i))
  · have hnext : j * (t.ring x).slotStride.toNat + (t.ring x).slotStride.toNat ≤ i * (t.ring x).slotStride.toNat :=
      (Nat.succ_mul ..).symm.le.trans (Nat.mul_le_mul_right _ hj)
    rw [haddr i hi, haddr j (by omega)]
    omega

/-! ### Instructions that store nothing -/

/-- A primitive keeps the bytes where it is refused, and where its effect does. -/
theorem KeepsBytes.of_cases {s : State} {p : Prim} {Q : Prop} (h : Refuses p s ∨ Q)
    (hQ : Q → KeepsBytes s (p s).2) : KeepsBytes s (p s).2 := by
  rcases h with ⟨c, -, h⟩ | h
  · rw [h]; exact .refl s
  · exact hQ h

theorem primReserve_keepsBytes (s : State) (x : Ring) (n : Half) : KeepsBytes s (primReserve x n s).2 :=
  .of_cases (primReserve_cases s x n) fun ⟨_, _, _, h⟩ => by rw [h]; exact .setRing s x _ rfl rfl rfl

theorem primUnreserve_keepsBytes (s : State) (x : Ring) (n : Half) (d : Word) :
    KeepsBytes s (primUnreserve x n d s).2 :=
  .of_cases (primUnreserve_cases s x n d) fun ⟨_, _, _, _, h⟩ => by rw [h]; exact .setRing s x _ rfl rfl rfl

theorem primDrain_keepsBytes (s : State) (x : Ring) (n : Half) : KeepsBytes s (primDrain x n s).2 :=
  .of_cases (primDrain_cases s x n) fun ⟨_, h⟩ => by rw [h]; exact .setRing s x _ rfl rfl rfl

theorem primFree_keepsBytes (s : State) (x : Ring) (n : Half) (d : Word) : KeepsBytes s (primFree x n d s).2 :=
  .of_cases (primFree_cases s x n d) fun ⟨_, _, _, _, h⟩ => by rw [h]; exact .setRing s x _ rfl rfl rfl

theorem primStart_keepsBytes (s : State) (x : Ring) : KeepsBytes s (primStart x s).2 :=
  .of_cases (primStart_cases s x) fun ⟨_, h⟩ => by
    rw [h]
    exact (KeepsBytes.beginFraming s x).trans (.setRing _ x _ (by simp) (by simp) (by simp))

theorem primStop_keepsBytes (s : State) (x : Ring) : KeepsBytes s (primStop x s).2 :=
  .of_cases (primStop_cases s x) fun ⟨_, h⟩ => by rw [h]; exact .setRing s x _ rfl rfl rfl

theorem primReset_keepsBytes (s : State) : KeepsBytes s (primReset s).2 :=
  ⟨rfl, rfl, rfl, rfl, rfl, fun x _ => by cases x <;> rfl⟩

theorem primIrqGet_keepsBytes (s : State) (x : Ring) : KeepsBytes s (primIrqGet x s).2 :=
  ⟨rfl, rfl, rfl, rfl, rfl, fun x _ => by cases x <;> rfl⟩

theorem primBdGet_keepsBytes (s : State) (x : Ring) (d : Word) (f : BdField) (read : Word → Word) :
    KeepsBytes s (primBdGet x d f read s).2 :=
  .of_cases (needRing_needDesc_cases s x d _) fun ⟨_, _, _, h⟩ => (congrArg (·.2) h) ▸ .refl s

theorem primBdNext_keepsBytes (s : State) (x : Ring) (d : Word) : KeepsBytes s (primBdNext x d s).2 :=
  .of_cases (needRing_needDesc_cases s x d _) fun ⟨_, _, _, h⟩ => (congrArg (·.2) h) ▸ .refl s

/-- Issuing a direct primitive keeps the bytes if the primitive does. -/
theorem issueDirect_keepsBytes {s : State} (i : Instr) {p : Prim} (h : KeepsBytes s (p s).2) :
    KeepsBytes s (s.issueDirect i p) := by
  rcases issueDirect_cases s i p with ⟨-, hp⟩ | ⟨-, hp⟩ | ⟨-, -, hp⟩
  · rw [hp]
    exact h.trans ⟨rfl, rfl, rfl, rfl, rfl, fun _ _ => by simp⟩
  · rw [hp]
    exact ⟨rfl, rfl, rfl, rfl, rfl, fun _ _ => by simp⟩
  · rw [hp]
    exact ⟨rfl, rfl, rfl, rfl, rfl, fun _ _ => by simp⟩

theorem dispatch_keepsBytes (s : State) (x : Ring) : KeepsBytes s (s.dispatch x) := by
  have henter : KeepsBytes s (s.enterHandler x) := by
    cases x
    · obtain ⟨rs, draws, h, -⟩ := enterHandler_rx s
      rw [h]
      exact ⟨rfl, rfl, rfl, rfl, rfl, fun x _ => by cases x <;> rfl⟩
    · exact ⟨rfl, rfl, rfl, rfl, rfl, fun x _ => by cases x <;> rfl⟩
  unfold State.dispatch
  split
  · exact henter
  · exact .refl s

theorem exec_keepsBytes {i : Instr} {s t : State} (hi : storesNothing i = true) (h : exec i s = .next t) :
    KeepsBytes s t := by
  cases i with
  | create => cases hi
  | initSlots => cases hi
  | commit => cases hi
  | bdSetAddr => cases hi
  | bdSetLen => cases hi
  | bdSetCtrl => cases hi
  | reserve => cases h; exact issueDirect_keepsBytes _ (primReserve_keepsBytes ..)
  | unreserve => cases h; exact issueDirect_keepsBytes _ (primUnreserve_keepsBytes ..)
  | drain => cases h; exact issueDirect_keepsBytes _ (primDrain_keepsBytes ..)
  | free => cases h; exact issueDirect_keepsBytes _ (primFree_keepsBytes ..)
  | start => cases h; exact issueDirect_keepsBytes _ (primStart_keepsBytes ..)
  | stop => cases h; exact issueDirect_keepsBytes _ (primStop_keepsBytes ..)
  | irqEnable x => cases h; exact issueDirect_keepsBytes _ (.setRing s x _ rfl rfl rfl)
  | irqDisable x => cases h; exact issueDirect_keepsBytes _ (.setRing s x _ rfl rfl rfl)
  | irqAck x => cases h; exact issueDirect_keepsBytes _ (.setRing s x _ rfl rfl rfl)
  | irqGet => cases h; exact issueDirect_keepsBytes _ (primIrqGet_keepsBytes ..)
  | reset => cases h; exact issueDirect_keepsBytes _ (primReset_keepsBytes ..)
  | resetDone => cases h; exact issueDirect_keepsBytes _ (.refl s)
  | bdGetAddr => cases h; exact issueDirect_keepsBytes _ (primBdGet_keepsBytes ..)
  | bdGetLen => cases h; exact issueDirect_keepsBytes _ (primBdGet_keepsBytes ..)
  | bdGetSts => cases h; exact issueDirect_keepsBytes _ (primBdGet_keepsBytes ..)
  | bdNext => cases h; exact issueDirect_keepsBytes _ (primBdNext_keepsBytes ..)
  | initEngine =>
    simp only [exec, execInitEngine] at h
    split at h <;> cases h <;> exact ⟨rfl, rfl, rfl, rfl, rfl, fun x _ => by cases x <;> rfl⟩
  | transmit =>
    simp only [exec, execTransmit] at h
    split at h <;> cases h <;> exact ⟨rfl, rfl, rfl, rfl, rfl, fun x _ => by cases x <;> rfl⟩
  | irqRx => cases h; exact dispatch_keepsBytes ..
  | irqTx => cases h; exact dispatch_keepsBytes ..

/-- Settles O35. -/
theorem otherInstructionsKeepMemory : Obligations.OtherInstructionsKeepMemory := fun _ _ _ hi h =>
  (exec_keepsBytes hi h).bytesKept _

end Sys2Proof.Machine
end

section
/-! PROOF. The two handlers (42_rx_sequencer.md, 43_tx_sequencer.md): entry, acknowledgement, error recovery, drain
and re-arm, and what stops them. -/

namespace Sys2Proof.Machine

/-! ### Entry (R170, R200, R219) -/

theorem handlerOnStack_iff (s : State) :
    s.handlerOnStack = false ↔ Agent.rxh ∉ s.stack ∧ Agent.txh ∉ s.stack := by
  simp [State.handlerOnStack]

/-- With no handler on the stack every value of `P_NESTING` permits the push. -/
theorem nestingPermits_of_base {s : State} (x : Ring) (h : s.handlerOnStack = false) :
    s.nestingPermits x = true := by
  unfold State.nestingPermits
  split <;> simp [h]

theorem nestingPermits_none {s : State} (x : Ring) (h : s.params.nesting = .none) :
    s.nestingPermits x = true ↔ Agent.rxh ∉ s.stack ∧ Agent.txh ∉ s.stack := by
  rw [← handlerOnStack_iff]
  simp [State.nestingPermits, h]

/-- By priority, a handler on top is overtaken by a strictly higher priority alone. -/
theorem nestingPermits_byPriority {s : State} (x y : Ring) (h : s.params.nesting = .byPriority)
    (ht : s.top = some (handlerOf y)) : s.nestingPermits x = true ↔ s.cfg.prio y < s.cfg.prio x := by
  have hon : s.handlerOnStack = true := by
    have hmem := mem_of_top ht
    cases y <;> simp only [handlerOf] at hmem <;> simp [State.handlerOnStack, hmem]
  cases y <;> simp only [handlerOf] at ht <;>
    simp [State.nestingPermits, h, hon, ht, BitVec.ult, BitVec.lt_def]

/-- Settles O42: the guard is `canDispatch`, and the entry is known. -/
theorem handlerEntry : Obligations.HandlerEntry := by
  refine ⟨fun s hline hoff hcfg hnest => ?_, fun s hline hoff hcfg hnest => ?_, fun s x h => ?_,
    fun s x y => ⟨fun hr ht => nestingPermits_of_base x ((handlerOnStack_iff s).2 ⟨hr, ht⟩),
      fun h => by simp [State.nestingPermits, h], nestingPermits_none x, nestingPermits_byPriority x y⟩⟩
  · obtain ⟨rs, draws, henter, hpersist, hcomplete, hzero⟩ := enterHandler_rx s
    have htaken : s.dispatch .rx = _ :=
      (dispatch_taken ((canDispatch_iff s .rx).2 ⟨hline, hoff, hcfg, hnest⟩)).trans henter
    exact ⟨_, congrArg Host.Outcome.next htaken, rfl, rfl, rfl, hpersist, hcomplete, hzero⟩
  · exact congrArg _ (dispatch_taken ((canDispatch_iff s .tx).2 ⟨hline, hoff, hcfg, hnest⟩))
  · have hguard : s.canDispatch x = false := by
      rw [Bool.eq_false_iff, ne_eq, canDispatch_iff]
      rintro ⟨hline, hoff, hcfg, hnest⟩
      rcases h with h | h | h | h
      · exact hline h
      · exact hoff h
      · cases hcfg.symm.trans h
      · cases hnest.symm.trans h
    cases x <;> exact congrArg _ (dispatch_not_taken hguard)

/-! ### The micro-step that comes next -/

theorem step_rxh {s : State} (h : s.turnOf .rxh) : step s = .next (rxhStep s.popAgenda) :=
  step_turnOf h (.inl (by decide))

theorem step_txh {s : State} (h : s.turnOf .txh) : step s = .next (txhStep s.popAgenda) :=
  step_turnOf h (.inl (by decide))

theorem rxhStep_idle {s : State} (h : s.rxh.state = .idle) : rxhStep s = rxAcknowledge s := by
  simp only [rxhStep, h]

theorem txhStep_idle {s : State} (h : s.txh.state = .idle) : txhStep s = txAcknowledge s := by
  simp only [txhStep, h]

theorem rxhStep_error {s : State} (h : s.rxh.state = .acknowledged) (he : s.rxh.irq.getLsbD 2 = true) :
    rxhStep s = rxTriggerReset s := by simp only [rxhStep, h, hasError, he, if_true]

theorem txhStep_error {s : State} (h : s.txh.state = .acknowledged) (he : s.txh.irq.getLsbD 2 = true) :
    txhStep s = txTriggerReset s := by simp only [txhStep, h, hasError, he, if_true]

theorem txhStep_acknowledged {s : State} (h : s.txh.state = .acknowledged) (he : s.txh.irq.getLsbD 2 = false) :
    txhStep s = txMask s := by simp only [txhStep, h, hasError, he, Bool.false_eq_true, if_false]

theorem rxhStep_poll {s : State} (h : s.rxh.state = .errorRecovery) : rxhStep s = rxPoll s := by
  simp only [rxhStep, h]

theorem txhStep_poll {s : State} (h : s.txh.state = .errorRecovery) : txhStep s = txPoll s := by
  simp only [txhStep, h]

theorem rxhStep_rearmed {s : State} (h : s.rxh.state = .rearmed) : rxhStep s = s.leaveHandler .rx := by
  simp only [rxhStep, h]

theorem txhStep_rearmed {s : State} (h : s.txh.state = .rearmed) : txhStep s = s.leaveHandler .tx := by
  simp only [txhStep, h]

/-- The micro-step of each phase of an RX drain pass. -/
def rxPhaseStep : RxPhase → State → State
  | .drain => rxDrain
  | .walk => rxWalk
  | .free => rxFree
  | .reserve => rxReserve
  | .populate => rxPopulate
  | .commit => rxCommit
  | .enable => rxEnable

theorem rxhStep_draining {s : State} (h : s.rxh.state = .draining) : rxhStep s = rxPhaseStep s.rxh.phase s := by
  simp only [rxhStep, h]
  cases s.rxh.phase <;> rfl

theorem step_rxPhase {s : State} {p : RxPhase} (h : s.turnOf .rxh) (hs : s.rxh.state = .draining)
    (hp : s.rxh.phase = p) : step s = .next (rxPhaseStep p s.popAgenda) := by
  rw [step_rxh h, rxhStep_draining (s := s.popAgenda) hs, ← hp]
  rfl

/-- The micro-step of each phase of a TX drain pass. -/
def txPhaseStep : TxPhase → State → State
  | .drain => txDrain
  | .free => txFree
  | .enable => txEnable

theorem txhStep_draining {s : State} (h : s.txh.state = .draining) : txhStep s = txPhaseStep s.txh.phase s := by
  simp only [txhStep, h]
  cases s.txh.phase <;> rfl

theorem step_txPhase {s : State} {p : TxPhase} (h : s.turnOf .txh) (hs : s.txh.state = .draining)
    (hp : s.txh.phase = p) : step s = .next (txPhaseStep p s.popAgenda) := by
  rw [step_txh h, txhStep_draining (s := s.popAgenda) hs, ← hp]
  rfl

/-! ### Read and acknowledge (R171, R201) -/

theorem primIrqGet_eq (x : Ring) (s : State) :
    primIrqGet x s = (Reply.ok [irqStatusWord (Config.freeStatusBits s.draws) (s.ring x).irqPend],
      { s with draws := s.draws + 1 }) := rfl

/-- Acknowledging every pending bit clears the latch. -/
theorem primIrqAck_pending (x : Ring) (s : State) :
    primIrqAck x (s.ring x).irqPend s = (Reply.ok [], s.setRing x { s.ring x with irqPend := 0 }) := by
  have hclear : ∀ m : BitVec 3, m &&& ~~~m = 0 := by decide
  simp only [primIrqAck, hclear]

theorem rxAcknowledge_spurious {s : State} (h : s.rx.irqPend = 0) :
    rxAcknowledge s = ({ s with draws := s.draws + 1 } : State).leaveHandler .rx :=
  (seqPrim_success _ (.inr rfl) (primIrqGet_eq .rx s)).trans (if_pos h)

theorem rxAcknowledge_latches {s : State} (h : s.rx.irqPend ≠ 0) (he : s.engState ≠ .halted) :
    rxAcknowledge s =
      { s with
        draws := s.draws + 1
        rx := { s.rx with irqPend := 0 }
        rxh := { s.rxh with irq := s.rx.irqPend, state := .acknowledged } } :=
  (seqPrim_success _ (.inr rfl) (primIrqGet_eq .rx s)).trans ((if_neg h).trans
    (seqPrim_success (s := { s with draws := s.draws + 1 }) _ (.inl he) (primIrqAck_pending .rx _)))

theorem txAcknowledge_spurious {s : State} (h : s.tx.irqPend = 0) :
    txAcknowledge s = ({ s with draws := s.draws + 1 } : State).leaveHandler .tx :=
  (seqPrim_success _ (.inr rfl) (primIrqGet_eq .tx s)).trans (if_pos h)

theorem txAcknowledge_latches {s : State} (h : s.tx.irqPend ≠ 0) (he : s.engState ≠ .halted) :
    txAcknowledge s =
      { s with
        draws := s.draws + 1
        tx := { s.tx with irqPend := 0 }
        txh := { s.txh with irq := s.tx.irqPend, state := .acknowledged } } :=
  (seqPrim_success _ (.inr rfl) (primIrqGet_eq .tx s)).trans ((if_neg h).trans
    (seqPrim_success (s := { s with draws := s.draws + 1 }) _ (.inl he) (primIrqAck_pending .tx _)))

/-- A sequencer that is `Idle` stays as it is when it is set to `Idle`. -/
theorem rxh_idle_eq {r : Rxh} (h : r.state = .idle) : { r with state := .idle } = r := by rw [← h]

theorem txh_idle_eq {r : Txh} (h : r.state = .idle) : { r with state := .idle } = r := by rw [← h]

/-- Settles O43. -/
theorem handlersAcknowledge : Obligations.HandlersAcknowledge := by
  refine ⟨fun s hturn hs => ?_, fun s hturn hs => ?_⟩
  · rw [step_rxh hturn, rxhStep_idle (s := s.popAgenda) hs]
    refine ⟨fun h => congrArg _ ?_, fun h he => congrArg _ (rxAcknowledge_latches (s := s.popAgenda) h he)⟩
    rw [rxAcknowledge_spurious (s := s.popAgenda) h, leaveHandler_rx]
    exact congrArg (fun r => { s.popAgenda with draws := s.draws + 1, stack := s.stack.dropLast, rxh := r })
      (rxh_idle_eq hs)
  · rw [step_txh hturn, txhStep_idle (s := s.popAgenda) hs]
    refine ⟨fun h => congrArg _ ?_, fun h he => congrArg _ (txAcknowledge_latches (s := s.popAgenda) h he)⟩
    rw [txAcknowledge_spurious (s := s.popAgenda) h, leaveHandler_tx]
    exact congrArg (fun r => { s.popAgenda with draws := s.draws + 1, stack := s.stack.dropLast, txh := r })
      (txh_idle_eq hs)

/-! ### Error recovery (R172 to R174, R202, R203) -/

theorem primReset_eq (s : State) : primReset s = (Reply.ok [], (primReset s).2) := rfl

theorem primResetDone_eq (s : State) : primResetDone s = (Reply.ok [if s.ctl.resetDone then 1 else 0], s) := rfl

theorem rxTriggerReset_eq (s : State) :
    rxTriggerReset s =
      { (primReset s).2 with rxh := { s.rxh with poll := 0, state := .errorRecovery } } :=
  seqPrim_success _ (.inr rfl) (primReset_eq s)

theorem txTriggerReset_eq (s : State) :
    txTriggerReset s =
      { (primReset s).2 with txh := { s.txh with poll := 0, state := .errorRecovery } } :=
  seqPrim_success _ (.inr rfl) (primReset_eq s)

/-- Settles O44. -/
theorem errorServedFirst : Obligations.ErrorServedFirst := by
  refine ⟨fun s hturn hs he => ?_, fun s hturn hs he => ?_⟩
  · rw [step_rxh hturn, rxhStep_error (s := s.popAgenda) hs he]
    exact congrArg _ (rxTriggerReset_eq _)
  · rw [step_txh hturn, txhStep_error (s := s.popAgenda) hs he]
    exact congrArg _ (txTriggerReset_eq _)

/-- The state of the sequencer of a ring. -/
def State.seqState (s : State) : Ring → SeqState
  | .rx => s.rxh.state
  | .tx => s.txh.state

/-- The polls that the sequencer of a ring has counted. -/
def State.seqPoll (s : State) : Ring → Word
  | .rx => s.rxh.poll
  | .tx => s.txh.poll

/-- One more poll counted. -/
def State.countPoll (s : State) : Ring → State
  | .rx => { s with rxh := { s.rxh with poll := s.rxh.poll + 1 } }
  | .tx => { s with txh := { s.txh with poll := s.txh.poll + 1 } }

/-- One poll: the reset is confirmed, or the budget is exhausted, or the sequencer polls on (R174, R203). -/
def pollOnce (x : Ring) (s : State) : State :=
  if s.ctl.resetDone = true then s.leaveHandler x
  else if s.seqPoll x + 1 = s.params.resetPollBudget then (s.countPoll x).noteTimeout.leaveHandler x
  else s.countPoll x

theorem rxPoll_eq (s : State) : rxPoll s = pollOnce .rx s := by
  refine (seqPrim_success _ (.inr rfl) (primResetDone_eq s)).trans ?_
  cases h : s.ctl.resetDone
  · simp [pollOnce, h, State.seqPoll, State.countPoll]
    rfl
  · simp [pollOnce, h]

theorem txPoll_eq (s : State) : txPoll s = pollOnce .tx s := by
  refine (seqPrim_success _ (.inr rfl) (primResetDone_eq s)).trans ?_
  cases h : s.ctl.resetDone
  · simp [pollOnce, h, State.seqPoll, State.countPoll]
    rfl
  · simp [pollOnce, h]

theorem step_poll {s : State} {x : Ring} (h : s.turnOf (handlerOf x)) (hs : s.seqState x = .errorRecovery) :
    step s = .next (pollOnce x s.popAgenda) := by
  cases x
  · rw [step_rxh h, rxhStep_poll (s := s.popAgenda) hs, rxPoll_eq]
  · rw [step_txh h, txhStep_poll (s := s.popAgenda) hs, txPoll_eq]

/-- What a handler that returns from error recovery leaves as it was, and where the time-out bit ends. -/
structure PollReturns (x : Ring) (s t : State) (timeout : Bool) : Prop where
  stack : t.stack = s.stack.dropLast
  idle : t.seqState x = .idle
  rx : t.rx = s.rx
  tx : t.tx = s.tx
  engState : t.engState = s.engState
  out : t.out = s.out
  ctl : t.ctl = { s.ctl with resetTimeout := s.ctl.resetTimeout || timeout }

theorem noteTimeout_ctl (s : State) :
    s.noteTimeout.ctl = { s.ctl with resetTimeout := s.ctl.resetTimeout || s.params.resetTimeoutFlag } := by
  cases h : s.params.resetTimeoutFlag <;> simp [State.noteTimeout, h]

/-- A confirmed reset: one poll returns. -/
theorem pollOnce_confirmed {s : State} (x : Ring) (h : s.ctl.resetDone = true) :
    PollReturns x s (pollOnce x s) false := by
  have heq : pollOnce x s = s.leaveHandler x := if_pos h
  rw [heq]
  constructor <;> cases x <;> simp [State.leaveHandler, State.seqState, State.pop]

/-- The last poll of the budget returns, and notes the time-out where the parameter says so. -/
theorem pollOnce_exhausted {s : State} (x : Ring) (h : s.ctl.resetDone = false)
    (hp : s.seqPoll x + 1 = s.params.resetPollBudget) :
    PollReturns x s (pollOnce x s) s.params.resetTimeoutFlag := by
  have heq : pollOnce x s = (s.countPoll x).noteTimeout.leaveHandler x :=
    (if_neg (by simp [h])).trans (if_pos hp)
  have hctl : (s.countPoll x).noteTimeout.ctl = _ := noteTimeout_ctl (s.countPoll x)
  rw [heq]
  refine ⟨?_, ?_, ?_, ?_, ?_, ?_, ?_⟩
  · cases x <;> simp [State.countPoll]
  · cases x <;> rfl
  · cases x <;> simp [State.countPoll]
  · cases x <;> simp [State.countPoll]
  · cases x <;> simp [State.countPoll]
  · cases x <;> simp [State.countPoll]
  · rw [State.leaveHandler_ctl, hctl]
    cases x <;> rfl

/-- With the reset not confirmed the handler returns after the polls that are left. -/
theorem poll_run {x : Ring} (k : Nat) {s : State} (h : s.undisturbed (handlerOf x))
    (hs : s.seqState x = .errorRecovery) (hd : s.ctl.resetDone = false)
    (hk : (s.seqPoll x).toNat + (k + 1) = s.params.resetPollBudget.toNat) :
    ∃ t, steps (k + 1) s = .next t ∧ PollReturns x s t s.params.resetTimeoutFlag := by
  have hstep := step_poll h.turnOf hs
  have hpop : s.popAgenda.seqPoll x = s.seqPoll x := by cases x <;> rfl
  induction k generalizing s with
  | zero =>
    have hlast : s.popAgenda.seqPoll x + 1 = s.popAgenda.params.resetPollBudget := by
      rw [hpop]
      have := s.params.resetPollBudget.isLt
      exact BitVec.eq_of_toNat_eq (by simp; omega)
    obtain ⟨h₁, h₂, h₃, h₄, h₅, h₆, h₇⟩ := pollOnce_exhausted (s := s.popAgenda) x hd hlast
    exact ⟨_, (steps_succ_of_next 0 hstep).trans rfl, h₁, h₂, h₃, h₄, h₅, h₆, h₇⟩
  | succ k ih =>
    have hbudget := s.params.resetPollBudget.isLt
    have hcount : (s.seqPoll x + 1).toNat = (s.seqPoll x).toNat + 1 := by simp; omega
    have hmore : s.popAgenda.seqPoll x + 1 ≠ s.popAgenda.params.resetPollBudget := fun heq => by
      have := congrArg BitVec.toNat heq
      rw [hpop, hcount] at this
      simp at this
      omega
    have hnext : step s = .next (s.popAgenda.countPoll x) := by
      rw [hstep]
      exact congrArg _ ((if_neg (by simp [hd])).trans (if_neg hmore))
    have hund : (s.popAgenda.countPoll x).undisturbed (handlerOf x) := by
      obtain ⟨hu, ha, ht⟩ := h
      cases x <;> exact ⟨hu, by simp [State.countPoll, ha], ht⟩
    obtain ⟨t, ht, h₁, h₂, h₃, h₄, h₅, h₆, h₇⟩ := ih (s := s.popAgenda.countPoll x) hund
      (by cases x <;> exact hs) (by cases x <;> exact hd)
      (by cases x <;> simp only [State.seqPoll, State.countPoll] at hcount hk ⊢ <;> simp only [State.popAgenda] <;> omega)
      (step_poll hund.turnOf (by cases x <;> exact hs)) (by cases x <;> rfl)
    refine ⟨t, (steps_succ_of_next _ hnext).trans ht, ?_⟩
    cases x <;> exact ⟨h₁, h₂, h₃, h₄, h₅, h₆, h₇⟩

/-- Either way the handler returns within its budget. -/
theorem poll_bounded {x : Ring} {s : State} (h : s.undisturbed (handlerOf x))
    (hs : s.seqState x = .errorRecovery) (hp : (s.seqPoll x).toNat < s.params.resetPollBudget.toNat) :
    ∃ t, steps (if s.ctl.resetDone then 1 else s.params.resetPollBudget.toNat - (s.seqPoll x).toNat) s = .next t ∧
      PollReturns x s t (!s.ctl.resetDone && s.params.resetTimeoutFlag) := by
  cases hd : s.ctl.resetDone
  · obtain ⟨t, ht, hreturns⟩ := poll_run (s.params.resetPollBudget.toNat - (s.seqPoll x).toNat - 1) h hs hd (by omega)
    rw [show s.params.resetPollBudget.toNat - (s.seqPoll x).toNat - 1 + 1 =
      s.params.resetPollBudget.toNat - (s.seqPoll x).toNat by omega] at ht
    exact ⟨t, ht, hreturns⟩
  · obtain ⟨h₁, h₂, h₃, h₄, h₅, h₆, h₇⟩ := pollOnce_confirmed (s := s.popAgenda) x hd
    exact ⟨_, steps_succ_of_next 0 (step_poll h.turnOf hs), h₁, h₂, h₃, h₄, h₅, h₆, h₇⟩

/-- Settles O46. -/
theorem resetPollIsBounded : Obligations.ResetPollIsBounded := by
  refine ⟨fun s h hs hp => ?_, fun s h hs hp => ?_⟩
  · obtain ⟨t, ht, h₁, h₂, h₃, h₄, h₅, h₆, h₇⟩ := poll_bounded (x := .rx) h hs hp
    exact ⟨t, ht, h₁, h₂, h₃, h₄, h₅, h₆, h₇⟩
  · obtain ⟨t, ht, h₁, h₂, h₃, h₄, h₅, h₆, h₇⟩ := poll_bounded (x := .tx) h hs hp
    exact ⟨t, ht, h₁, h₂, h₃, h₄, h₅, h₆, h₇⟩

end Sys2Proof.Machine
end

section
/-! PROOF. The drain pass of both handlers, its failures, and what the TX handler leaves alone (42_rx_sequencer.md R175
to R183, R187; 43_tx_sequencer.md R204 to R209). -/

namespace Sys2Proof.Machine

/-! ### Drain (R176, R204) -/

/-- A slot's address names the slot again. -/
theorem slotOf_slotAddr {s : State} {x : Ring} {r : RingRegs} (h : r.Ok) {i : Nat} (hi : i < r.size)
    (hidx : (s.ring x).idx (r.slotAddr i) = r.idx (r.slotAddr i)) :
    s.slotOf x (r.slotAddr i) = BitVec.ofNat 16 i := by
  rw [State.slotOf, hidx, h.idx_slotAddr hi]
  rfl

theorem RingRegs.Ok.hwHead_lt {r : RingRegs} (h : r.Ok) : r.hwHead < r.size := Nat.mod_lt _ h.nonempty

theorem RingRegs.Ok.preHead_lt {r : RingRegs} (h : r.Ok) : r.preHead < r.size := Nat.mod_lt _ h.nonempty

theorem RingRegs.Ok.freeHead_lt {r : RingRegs} (h : r.Ok) : r.freeHead < r.size := Nat.mod_lt _ h.nonempty

/-- `DRAIN` of the whole ring takes every completed slot. -/
theorem primDrain_all {s : State} {x : Ring} (hc : (s.ring x).created = true) (h : (s.ring x).Ok) :
    primDrain x (s.ring x).slotCount s =
      (Reply.ok [(s.ring x).doneCnt.zeroExtend 32,
          if (s.ring x).doneCnt = 0 then 0 else (s.ring x).slotAddr (s.ring x).hwHead],
        s.setRing x ((s.ring x).drained (s.ring x).doneCnt)) := by
  obtain ⟨hcap, hdone, -, -⟩ := h.bounds
  refine primDrain_succeeds hc (minHalf_eq_right (BitVec.le_def.2 ?_))
  change _ ≤ (s.ring x).size
  omega

/-- The count that `DRAIN` returns, as the 16-bit count the sequencer keeps. -/
theorem truncate_count (k : Half) (rest : List Word) :
    ((k.zeroExtend 32 :: rest : List Word).headD 0).truncate 16 = k := by
  simp

/-- Every completed slot drained: none is left completed. -/
theorem drained_all (r : RingRegs) :
    r.drained r.doneCnt =
      { r with postCnt := r.postCnt + r.doneCnt, hwCnt := r.hwCnt - r.doneCnt, doneCnt := 0 } := by
  simp [RingRegs.drained]

/-- `DRAIN` of a ring with a completed slot returns the first one's address. -/
theorem primDrain_some {s : State} {x : Ring} (hc : (s.ring x).created = true) (h : (s.ring x).Ok)
    (hk : (s.ring x).doneCnt ≠ 0) :
    primDrain x (s.ring x).slotCount s =
      (Reply.ok [(s.ring x).doneCnt.zeroExtend 32, (s.ring x).slotAddr (s.ring x).hwHead],
        s.setRing x ((s.ring x).drained (s.ring x).doneCnt)) := by
  rw [primDrain_all hc h, if_neg hk]

/-- `DRAIN` of a ring with nothing completed changes nothing. -/
theorem primDrain_none {s : State} {x : Ring} (hc : (s.ring x).created = true) (h : (s.ring x).Ok)
    (hk : (s.ring x).doneCnt = 0) : primDrain x (s.ring x).slotCount s = (Reply.ok [0, 0], s) := by
  rw [primDrain_all hc h, hk, RingRegs.drained_zero, State.setRing_self]
  rfl

theorem rxDrain_takes {s : State} (he : s.engState ≠ .halted) (hc : s.rx.created = true) (h : s.rx.Ok)
    (hk : s.rx.doneCnt ≠ 0) :
    rxDrain s =
      { s with
        rx := s.rx.drained s.rx.doneCnt
        rxh := { s.rxh with
          count := s.rx.doneCnt, i := 0, first := BitVec.ofNat 16 s.rx.hwHead, phase := .walk } } := by
  have hslot := slotOf_slotAddr (s := s.setRing .rx (s.rx.drained s.rx.doneCnt)) (x := .rx) h h.hwHead_lt rfl
  refine (seqPrim_success _ (.inl he) (primDrain_some (x := .rx) hc h hk)).trans ?_
  dsimp only
  rw [truncate_count, State.ring_rx, if_pos hk, List.getD_cons_succ, List.getD_cons_zero, hslot]
  rfl

theorem rxDrain_empty {s : State} (he : s.engState ≠ .halted) (hc : s.rx.created = true) (h : s.rx.Ok)
    (hk : s.rx.doneCnt = 0) :
    rxDrain s =
      if s.params.rearmOnEmpty then { s with rxh := { s.rxh with count := 0, i := 0, phase := .enable } }
      else ({ s with rxh := { s.rxh with count := 0, i := 0 } } : State).leaveHandler .rx :=
  seqPrim_success _ (.inl he) (primDrain_none (x := .rx) hc h hk)

/-- Settles O47. -/
theorem rxDrainStep : Obligations.RxDrainStep := by
  intro s hturn hs hp he hc hok
  rw [step_rxPhase hturn hs hp]
  refine ⟨fun h => congrArg _ ((rxDrain_takes (s := s.popAgenda) he hc hok h).trans ?_),
    fun h hr => congrArg _ ((rxDrain_empty (s := s.popAgenda) he hc hok h).trans (if_neg ?_)),
    fun h hr => congrArg _ ((rxDrain_empty (s := s.popAgenda) he hc hok h).trans (if_pos hr))⟩
  · rw [drained_all]
    rfl
  · exact Bool.eq_false_iff.1 hr

theorem txDrain_takes {s : State} (he : s.engState ≠ .halted) (hc : s.tx.created = true) (h : s.tx.Ok)
    (hk : s.tx.doneCnt ≠ 0) :
    txDrain s =
      { s with
        tx := s.tx.drained s.tx.doneCnt
        txh := { s.txh with count := s.tx.doneCnt, first := BitVec.ofNat 16 s.tx.hwHead, phase := .free } } := by
  have hslot := slotOf_slotAddr (s := s.setRing .tx (s.tx.drained s.tx.doneCnt)) (x := .tx) h h.hwHead_lt rfl
  refine (seqPrim_success _ (.inl he) (primDrain_some (x := .tx) hc h hk)).trans ?_
  dsimp only
  rw [truncate_count, State.ring_tx, if_pos hk, List.getD_cons_succ, List.getD_cons_zero, hslot]
  rfl

theorem txDrain_empty {s : State} (he : s.engState ≠ .halted) (hc : s.tx.created = true) (h : s.tx.Ok)
    (hk : s.tx.doneCnt = 0) : txDrain s = { s with txh := { s.txh with count := 0, phase := .enable } } :=
  seqPrim_success _ (.inl he) (primDrain_none (x := .tx) hc h hk)

/-! ### The mask and the freeing of the TX ring (R204, R205) -/

theorem txMask_overlap {s : State} (h : s.overlapFault .tx = true) :
    txMask s = s.markFault .concurrentRingAccess := if_pos h

theorem txMask_drains {s : State} (h : s.overlapFault .tx = false) (he : s.engState ≠ .halted) :
    txMask s =
      { s with
        tx := { s.tx with irqEn := 0 }
        txh := { s.txh with state := .draining, phase := .drain } } := by
  simp only [txMask, h, Bool.false_eq_true, if_false]
  exact seqPrim_success _ (.inl he) (primIrqDisable_irqAll .tx s)

/-- What `FREE` does to a ring's registers when it frees `n` slots (R117). -/
def RingRegs.freed (r : RingRegs) (n : Half) : RingRegs :=
  { r with
    postHead := BitVec.ofNat 16 ((r.postHead.toNat + n.toNat) % r.size)
    postCnt := r.postCnt - n
    freeCnt := r.freeCnt + n }

/-- `FREE` of the oldest drained slots, named by the address of the first one. -/
theorem primFree_oldest {s : State} {x : Ring} {n i : Half} (hc : (s.ring x).created = true) (h : (s.ring x).Ok)
    (hn : n ≠ 0) (hle : n ≤ (s.ring x).postCnt) (hi : i = (s.ring x).postHead) :
    primFree x n ((s.ring x).slotAddr i.toNat) s = (Reply.ok [], s.setRing x ((s.ring x).freed n)) := by
  rw [hi]
  exact primFree_succeeds hc hn hle (h.idx_slotAddr h.head)

theorem txFree_frees {s : State} (he : s.engState ≠ .halted) (hc : s.tx.created = true) (h : s.tx.Ok)
    (hn : s.txh.count ≠ 0) (hle : s.txh.count ≤ s.tx.postCnt) (hfirst : s.txh.first = s.tx.postHead) :
    txFree s = { s with tx := s.tx.freed s.txh.count, txh := { s.txh with phase := .enable } } :=
  seqPrim_success _ (.inl he) (primFree_oldest (x := .tx) hc h hn hle hfirst)

/-- Settles O51. -/
theorem txMaskDrainFree : Obligations.TxMaskDrainFree := by
  refine ⟨fun s hturn hs he => ?_, fun s hturn hs hp he hc hok => ?_,
    fun s hturn hs hp he hc hok hn hle hfirst => ?_⟩
  · rw [step_txh hturn, txhStep_acknowledged (s := s.popAgenda) hs he]
    obtain ⟨⟨hfault, -⟩, -⟩ := hturn
    refine ⟨fun hbusy hparam => congrArg _ ?_, fun hfree hready => congrArg _ ?_⟩
    · have hoverlap : s.popAgenda.overlapFault .tx = true := (overlapFault_iff ..).2 ⟨hbusy, hparam⟩
      exact (txMask_overlap hoverlap).trans (markFault_of_none _ hfault)
    · exact txMask_drains (s := s.popAgenda) (overlapFault_eq_false hfree) hready
  · rw [step_txPhase hturn hs hp]
    refine ⟨fun h => congrArg _ ((txDrain_takes (s := s.popAgenda) he hc hok h).trans ?_),
      fun h => congrArg _ (txDrain_empty (s := s.popAgenda) he hc hok h)⟩
    rw [drained_all]
    rfl
  · rw [step_txPhase hturn hs hp]
    exact congrArg _ (txFree_frees (s := s.popAgenda) he hc hok hn hle hfirst)

/-! ### Re-arm and return (R183, R206) -/

/-- Enabling every source sets the whole enable register. -/
theorem primIrqEnable_irqAll (x : Ring) (s : State) :
    primIrqEnable x irqAll s = (Reply.ok [], s.setRing x { s.ring x with irqEn := 7 }) := by
  have hmask : ∀ m : BitVec 3, m ||| irqAll = 7 := by decide
  simp only [primIrqEnable, hmask]

theorem txEnable_rearms {s : State} (he : s.engState ≠ .halted) :
    txEnable s = { s with tx := { s.tx with irqEn := 7 }, txh := { s.txh with state := .rearmed } } :=
  seqPrim_success _ (.inl he) (primIrqEnable_irqAll .tx s)

theorem rxEnable_rearms {s : State} (he : s.engState ≠ .halted) :
    rxEnable s = { s with rx := { s.rx with irqEn := 7 }, rxh := { s.rxh with state := .rearmed } } :=
  seqPrim_success _ (.inl he) (primIrqEnable_irqAll .rx s)

/-- Settles O52. -/
theorem handlersRearm : Obligations.HandlersRearm := by
  refine ⟨fun s hturn hs hp he => ?_, fun s hturn hs => ?_, fun s hturn hs hp he => ?_, fun s hturn hs => ?_⟩
  · rw [step_txPhase hturn hs hp]
    exact congrArg _ (txEnable_rearms (s := s.popAgenda) he)
  · rw [step_txh hturn, txhStep_rearmed (s := s.popAgenda) hs]
    rfl
  · rw [step_rxPhase hturn hs hp]
    exact congrArg _ (rxEnable_rearms (s := s.popAgenda) he)
  · rw [step_rxh hturn, rxhStep_rearmed (s := s.popAgenda) hs]
    rfl

/-! ### What the TX handler leaves alone (R208) -/

/-- What no micro-step of the TX handler changes. -/
structure TxFrame (s t : State) : Prop where
  out : t.out = s.out
  rs : t.rs = s.rs
  bytes : KeepsBytes s t
  sync : t.sync = s.sync
  rxh : t.rxh = s.rxh
  preCnt : t.tx.preCnt = s.tx.preCnt
  rx : { t.rx with run := s.rx.run, irqEn := s.rx.irqEn, irqPend := s.rx.irqPend } = s.rx

theorem TxFrame.refl (s : State) : TxFrame s s := ⟨rfl, rfl, .refl s, rfl, rfl, rfl, rfl⟩

theorem TxFrame.trans {s t u : State} (h : TxFrame s t) (k : TxFrame t u) : TxFrame s u := by
  refine ⟨k.out.trans h.out, k.rs.trans h.rs, h.bytes.trans k.bytes, k.sync.trans h.sync, k.rxh.trans h.rxh,
    k.preCnt.trans h.preCnt, ?_⟩
  exact (congrArg (fun r : RingRegs =>
    { r with run := s.rx.run, irqEn := s.rx.irqEn, irqPend := s.rx.irqPend }) k.rx).trans h.rx

/-- A change of the TX ring that keeps its place and reserves nothing. -/
theorem TxFrame.setTx (s : State) (r : RingRegs) (hc : r.created = s.tx.created) (hb : r.base = s.tx.base)
    (hr : r.regionSize = s.tx.regionSize) (hp : r.preCnt = s.tx.preCnt) : TxFrame s (s.setRing .tx r) :=
  ⟨rfl, rfl, .setRing s .tx r hc hb hr, rfl, rfl, hp, rfl⟩

theorem TxFrame.of_cases {s : State} {p : Prim} {Q : Prop} (h : Refuses p s ∨ Q)
    (hQ : Q → TxFrame s (p s).2) : TxFrame s (p s).2 := by
  rcases h with ⟨c, -, h⟩ | h
  · rw [h]; exact .refl s
  · exact hQ h

theorem TxFrame.drain (s : State) (n : Half) : TxFrame s (primDrain .tx n s).2 :=
  .of_cases (primDrain_cases s .tx n) fun ⟨_, h⟩ => by rw [h]; exact .setTx s _ rfl rfl rfl rfl

theorem TxFrame.free (s : State) (n : Half) (d : Word) : TxFrame s (primFree .tx n d s).2 :=
  .of_cases (primFree_cases s .tx n d) fun ⟨_, _, _, _, h⟩ => by rw [h]; exact .setTx s _ rfl rfl rfl rfl

theorem TxFrame.reset (s : State) : TxFrame s (primReset s).2 :=
  ⟨rfl, rfl, primReset_keepsBytes s, rfl, rfl, rfl, rfl⟩

theorem TxFrame.irqGet (s : State) : TxFrame s (primIrqGet .tx s).2 :=
  ⟨rfl, rfl, primIrqGet_keepsBytes s .tx, rfl, rfl, rfl, rfl⟩

/-- Changes of the handler's own registers, of the marks, the controller's bits and the stack. -/
theorem TxFrame.own {s t : State} (h : t = { s with
    txh := t.txh, fault := t.fault, refused := t.refused, ctl := t.ctl, stack := t.stack }) : TxFrame s t := by
  rw [h]
  exact ⟨rfl, rfl, ⟨rfl, rfl, rfl, rfl, rfl, fun x _ => by cases x <;> rfl⟩, rfl, rfl, rfl, rfl⟩

theorem TxFrame.leave (s : State) : TxFrame s (s.leaveHandler .tx) := .own rfl

theorem TxFrame.noteTimeout (s : State) : TxFrame s s.noteTimeout := .own (by
  unfold State.noteTimeout
  split <;> rfl)

/-- A primitive of the TX handler, and what follows it. -/
theorem TxFrame.seqPrim {s : State} {exempt : Bool} {p : Prim} {ok : List Word → State → State}
    (hp : TxFrame s (p s).2) (hok : ∀ rs u, TxFrame u (ok rs u)) : TxFrame s (s.seqPrim exempt p ok) := by
  rcases inFlight_cases s exempt p ok (fun _ s => s.markFault .sequencerPrimitiveError) with
    ⟨-, -, h⟩ | ⟨-, -, h⟩ | ⟨-, -, h⟩
  · rw [State.seqPrim, h]
    exact .own rfl
  · rw [State.seqPrim, h]
    exact hp.trans (hok ..)
  · rw [State.seqPrim, h]
    exact hp.trans (.own rfl)

theorem txPoll_frame (s : State) : TxFrame s (txPoll s) := by
  refine TxFrame.seqPrim (.refl s) fun rs u => ?_
  dsimp only
  split
  · exact .leave u
  · split
    · exact ((TxFrame.own rfl).trans (.noteTimeout _)).trans (.leave _)
    · exact .own rfl

theorem txAcknowledge_frame (s : State) : TxFrame s (txAcknowledge s) := by
  refine TxFrame.seqPrim (.irqGet s) fun _ u => ?_
  dsimp only
  split
  · exact .leave u
  · exact TxFrame.seqPrim (.setTx u _ rfl rfl rfl rfl) fun _ _ => .own rfl

theorem txDrain_frame (s : State) : TxFrame s (txDrain s) := by
  refine TxFrame.seqPrim (.drain s _) fun rs u => ?_
  dsimp only
  split <;> exact .own rfl

theorem txMask_frame (s : State) : TxFrame s (txMask s) := by
  unfold txMask
  split
  · exact .own rfl
  · exact TxFrame.seqPrim (.setTx s _ rfl rfl rfl rfl) fun _ _ => .own rfl

theorem txhStep_frame (s : State) : TxFrame s (txhStep s) := by
  unfold txhStep
  split
  · exact txAcknowledge_frame s
  · split
    · exact TxFrame.seqPrim (.reset s) fun _ _ => .own rfl
    · exact txMask_frame s
  · exact txPoll_frame s
  · split
    · exact txDrain_frame s
    · exact TxFrame.seqPrim (.free s ..) fun _ _ => .own rfl
    · exact TxFrame.seqPrim (.setTx s _ rfl rfl rfl rfl) fun _ _ => .own rfl
  · exact .leave s

/-- Settles O53. -/
theorem txHandlerFrame : Obligations.TxHandlerFrame := by
  intro s t hturn h
  cases (step_txh hturn).symm.trans h
  obtain ⟨hout, hrs, hbytes, hsync, hrxh, hpre, hrx⟩ := txhStep_frame s.popAgenda
  exact ⟨hout, hrs, hbytes.memSw, hbytes.memHw, hbytes.bytesKept _, hsync, hrxh, hbytes.cfg, hpre, hrx⟩

/-! ### Failures (R134, R187, R209, R221) -/

/-- A refused primitive of a sequencer is the sequencer's fault. -/
theorem seqPrim_refused {s : State} {exempt : Bool} {p : Prim} (ok : List Word → State → State)
    (h : s.engState ≠ .halted ∨ exempt = true) (hp : Refuses p s) :
    s.seqPrim exempt p ok = s.markFault .sequencerPrimitiveError := by
  obtain ⟨c, hc, hp⟩ := hp
  exact seqPrim_failure ok h hc hp

/-- `FREE` refuses what is not there to be freed. -/
theorem primFree_refuses {s : State} {x : Ring} {n : Half} (d : Word)
    (h : (s.ring x).created = false ∨ n = 0 ∨ (s.ring x).postCnt < n) : Refuses (primFree x n d) s := by
  rcases primFree_cases s x n d with hr | ⟨hc, hn, hle, -⟩
  · exact hr
  · rcases h with h | h | h
    · cases h.symm.trans hc
    · exact absurd h hn
    · exact absurd hle (BitVec.not_le.2 h)

/-- A drain pass cannot go on where there is nothing to free. -/
theorem rxFree_faults {s : State} (he : s.engState ≠ .halted)
    (h : s.rx.created = false ∨ s.rxh.count = 0 ∨ s.rx.postCnt < s.rxh.count) :
    rxFree s = s.markFault .sequencerPrimitiveError := seqPrim_refused _ (.inl he) (primFree_refuses (x := .rx) _ h)

theorem txFree_faults {s : State} (he : s.engState ≠ .halted)
    (h : s.tx.created = false ∨ s.txh.count = 0 ∨ s.tx.postCnt < s.txh.count) :
    txFree s = s.markFault .sequencerPrimitiveError := seqPrim_refused _ (.inl he) (primFree_refuses (x := .tx) _ h)

theorem transmitStep_seven {s : State} (h : s.sync.step = 7) : transmitStep s = txT7 s := by
  simp [transmitStep, h]

theorem syncStep_initialize {s : State} (h : s.sync.op = .initEngine) : syncStep s = initStep s := by
  simp only [syncStep, h]

theorem step_initialize {s : State} (h : s.turnOf .sync) (hop : s.sync.op = .initEngine) :
    step s = .next (initStep s.popAgenda) :=
  (step_turnOf h (.inr (by simp [hop]))).trans (congrArg _ (syncStep_initialize (s := s.popAgenda) hop))

theorem initStep_seventeen {s : State} (h : s.sync.step = 17) : initStep s = initI17 s := by
  simp [initStep, h]

/-- In `Halted` every phase of an RX drain pass but the walk begins with a refused primitive. -/
theorem rxPhaseStep_halted {s : State} {p : RxPhase} (he : s.engState = .halted) (hp : p ≠ .walk) :
    rxPhaseStep p s = s.markRefused := by
  cases p with
  | walk => exact absurd rfl hp
  | _ =>
    dsimp only [rxPhaseStep]
    exact seqPrim_halted _ _ he

theorem txPhaseStep_halted {s : State} (p : TxPhase) (he : s.engState = .halted) :
    txPhaseStep p s = s.markRefused := by
  cases p <;> dsimp only [txPhaseStep] <;> exact seqPrim_halted _ _ he

/-- A fragment that ends a frame is delivered, and without a callback that is the fault `NoCallback`. -/
theorem reassemble_noCallback {s : State} {i : Nat} (hc : stsComplete (s.getField .rx i .sts) = true)
    (he : stsEof (s.getField .rx i .sts) = true)
    (hs : s.params.bdErrorSkip = false ∨ stsError (s.getField .rx i .sts) = false) (hcb : s.cfg.callback = 0) :
    (s.reassemble i).out = s.out ∧ (s.reassemble i).fault = (s.markFault .noCallback).fault := by
  have hskip : (s.params.bdErrorSkip && stsError (s.getField .rx i .sts)) = false := by
    rcases hs with h | h <;> simp [h]
  have hcomplete : ((s.rs.addFragment (s.getField .rx i .bufAddr) (s.getField .rx i .length)
      (s.getField .rx i .sts))).complete = true := if_pos he
  simp only [State.reassemble, hc, hskip, hcomplete, State.deliver, hcb, Bool.not_true, Bool.false_eq_true,
    if_false, if_true]
  exact ⟨rfl, rfl⟩

/-- Settles O54. -/
theorem inFlightFailuresStop : Obligations.InFlightFailuresStop := by
  refine ⟨fun s hturn he hs hp => ?_, fun s hturn he hs => ?_, fun s hturn he h => ?_, fun s hturn he hs hp h => ?_,
    fun s hturn he hs hp h => ?_, fun s => ?_⟩
  · rw [step_rxPhase hturn hs rfl]
    exact congrArg _ (rxPhaseStep_halted (s := s.popAgenda) he hp)
  · rw [step_txPhase hturn hs rfl]
    exact congrArg _ (txPhaseStep_halted (s := s.popAgenda) _ he)
  · rcases h with ⟨hop, hstep⟩ | ⟨hop, hstep⟩
    · rw [step_transmit hturn hop, transmitStep_seven (s := s.popAgenda) hstep]
      exact congrArg _ (inFlight_halted (s := s.popAgenda) _ _ _ he)
    · rw [step_initialize hturn hop, initStep_seventeen (s := s.popAgenda) hstep]
      exact congrArg _ (if_pos he)
  · rw [step_rxPhase hturn hs hp]
    exact congrArg _ ((rxFree_faults (s := s.popAgenda) he h).trans
      (markFault_of_none _ hturn.1.1))
  · rw [step_txPhase hturn hs hp]
    exact congrArg _ ((txFree_faults (s := s.popAgenda) he h).trans
      (markFault_of_none _ hturn.1.1))
  · intro i sts hturn hs hp hc he hskip hcb
    obtain ⟨hout, hfault⟩ := reassemble_noCallback (s := s.popAgenda) (i := i) hc he hskip hcb
    exact ⟨_, step_rxPhase hturn hs hp, hfault.trans (State.markFault_fault_of_none _ _ hturn.1.1), hout⟩

end Sys2Proof.Machine
end

section
/-! PROOF. The two views under runs of byte writes (20_memory.md R53, R58 to R60), the staging copy
(41_engine_ops.md R156), and packet reassembly with its delivery (42_rx_sequencer.md R177 to R179). -/

namespace Sys2Proof.Machine

/-! ### Ranges -/

theorem inRange_zero (b a : Word) : ¬InRange b 0 a := fun ⟨_, hk, _⟩ => absurd hk (Nat.not_lt_zero _)

theorem inRange_succ (b : Word) (n : Nat) (a : Word) :
    InRange b (n + 1) a ↔ InRange b n a ∨ a = b + BitVec.ofNat 32 n := by
  constructor
  · rintro ⟨k, hk, rfl⟩
    rcases Nat.lt_succ_iff_lt_or_eq.1 hk with h | rfl
    · exact .inl ⟨k, h, rfl⟩
    · exact .inr rfl
  · rintro (⟨k, hk, rfl⟩ | rfl)
    · exact ⟨k, Nat.lt_succ_of_lt hk, rfl⟩
    · exact ⟨n, Nat.lt_succ_self n, rfl⟩

/-- Different offsets below the size of the address space name different addresses. -/
theorem add_ofNat_ne {a : Word} {j k : Nat} (hj : j < 2 ^ 32) (hk : k < 2 ^ 32) (h : j ≠ k) :
    a + BitVec.ofNat 32 j ≠ a + BitVec.ofNat 32 k := by
  intro heq
  have := congrArg BitVec.toNat ((BitVec.add_right_inj a).1 heq)
  simp only [BitVec.toNat_ofNat, Nat.mod_eq_of_lt hj, Nat.mod_eq_of_lt hk] at this
  exact h this

/-- The range one byte further along. -/
theorem inRange_cons (a : Word) (n : Nat) (c : Word) :
    InRange a (n + 1) c ↔ c = a ∨ InRange (a + 1) n c := by
  have hshift : ∀ k, a + BitVec.ofNat 32 (k + 1) = a + 1 + BitVec.ofNat 32 k := fun k => by
    rw [Nat.add_comm k 1, BitVec.ofNat_add, BitVec.add_assoc]
    rfl
  constructor
  · rintro ⟨k, hk, rfl⟩
    cases k with
    | zero => exact .inl (by simp)
    | succ k => exact .inr ⟨k, Nat.lt_of_succ_lt_succ hk, hshift k⟩
  · rintro (rfl | ⟨k, hk, rfl⟩)
    · exact ⟨0, Nat.succ_pos n, by simp⟩
    · exact ⟨k + 1, Nat.succ_lt_succ hk, (hshift k).symm⟩

/-! ### Cache maintenance (R59, R60) -/

/-- A byte written in one view reads there. -/
theorem State.peek_poke_same (s : State) (v : View) (a : Word) (b : Byte) : (s.poke v a b).peek v a = b := by
  cases h : s.isDescriptorByte a
  · rw [State.peek_poke_data s v v b h, if_pos rfl]
  · exact State.peek_poke_descriptor s v v b h

/-- A byte copied from view `u` to the other view `v` reads the same in both, as `u` had it. -/
theorem State.peek_copyByte (s : State) {v u : View} (h : v ≠ u) (a : Word) (w : View) :
    (s.poke v a (s.peek u a)).peek w a = s.peek u a := by
  by_cases hw : w = v
  · rw [hw, State.peek_poke_same]
  · have hwu : w = u := by
      cases w <;> cases v <;> cases u <;> first | rfl | exact absurd rfl hw | exact absurd rfl h
    cases hd : s.isDescriptorByte a
    · rw [State.peek_poke_data s v w _ hd, if_neg (Ne.symm hw), hwu]
    · exact State.peek_poke_descriptor s v w _ hd

/-- Copying a range from view `u` to view `v`: inside it both views read what `u` held, outside nothing changes. -/
theorem peek_overRange_copy {v u : View} (h : v ≠ u) (s : State) (a : Word) (n : Nat) (c : Word) (w : View) :
    (InRange a n c → (overRange (fun s a => s.poke v a (s.peek u a)) a n s).peek w c = s.peek u c) ∧
    (¬InRange a n c → (overRange (fun s a => s.poke v a (s.peek u a)) a n s).peek w c = s.peek w c) := by
  induction n generalizing c w with
  | zero => exact ⟨fun hc => absurd hc (inRange_zero a c), fun _ => rfl⟩
  | succ n ih =>
    obtain ⟨t, ht⟩ : ∃ t, overRange (fun s a => s.poke v a (s.peek u a)) a n s = t := ⟨_, rfl⟩
    have hnext : overRange (fun s a => s.poke v a (s.peek u a)) a (n + 1) s =
        t.poke v (a + BitVec.ofNat 32 n) (t.peek u (a + BitVec.ofNat 32 n)) := by
      rw [overRange, List.range_succ, List.foldl_append, List.foldl_cons, List.foldl_nil, ← ht, overRange]
    rw [ht] at ih
    rw [hnext, inRange_succ, not_or]
    by_cases hc : c = a + BitVec.ofNat 32 n
    · subst hc
      have hread : t.peek u (a + BitVec.ofNat 32 n) = s.peek u (a + BitVec.ofNat 32 n) := by
        by_cases hin : InRange a n (a + BitVec.ofNat 32 n)
        · exact (ih _ u).1 hin
        · exact (ih _ u).2 hin
      exact ⟨fun _ => (State.peek_copyByte t h _ w).trans hread, fun hnot => absurd rfl hnot.2⟩
    · rw [State.peek_poke_ne _ _ _ _ hc]
      exact ⟨fun hin => (ih c w).1 (hin.resolve_right hc), fun hnot => (ih c w).2 hnot.1⟩

theorem flush_peek (s : State) (a len c : Word) (w : View) :
    (InRange a len.toNat c → (s.flush a len).peek w c = s.peek .sw c) ∧
    (¬InRange a len.toNat c → (s.flush a len).peek w c = s.peek w c) :=
  peek_overRange_copy (v := .hw) (u := .sw) (by decide) s a len.toNat c w

theorem invalidate_peek (s : State) (a len c : Word) (w : View) :
    (InRange a len.toNat c → (s.invalidate a len).peek w c = s.peek .hw c) ∧
    (¬InRange a len.toNat c → (s.invalidate a len).peek w c = s.peek w c) :=
  peek_overRange_copy (v := .sw) (u := .hw) (by decide) s a len.toNat c w

theorem flush_peek_sw (s : State) (a len c : Word) : (s.flush a len).peek .sw c = s.peek .sw c := by
  by_cases h : InRange a len.toNat c
  · exact (flush_peek s a len c .sw).1 h
  · exact (flush_peek s a len c .sw).2 h

theorem invalidate_peek_hw (s : State) (a len c : Word) : (s.invalidate a len).peek .hw c = s.peek .hw c := by
  by_cases h : InRange a len.toNat c
  · exact (invalidate_peek s a len c .hw).1 h
  · exact (invalidate_peek s a len c .hw).2 h

/-- Which bytes are descriptor memory does not depend on memory. -/
theorem SameButMemory.isDescriptorByte {s t : State} (h : SameButMemory s t) (a : Word) :
    t.isDescriptorByte a = s.isDescriptorByte a :=
  State.isDescriptorByte_congr (h.same State.rx rfl) (h.same State.tx rfl) (h.same State.cfgValid rfl)
    (h.same State.cfg rfl) (h.same State.params rfl) a

/-- An event is emitted after changes of memory alone. -/
theorem emit_sameButMemory {s t : State} (e : Event) (h : SameButMemory s t) :
    (t.emit e).out = s.out ++ [e] ∧ SameButMemory { s with out := (t.emit e).out } (t.emit e) := by
  have hout : t.out = s.out := h.same State.out rfl
  refine ⟨by rw [State.emit_out, hout], ?_⟩
  exact congrArg (fun z : State => { z with out := t.out ++ [e] }) h

theorem flush_same (s : State) (a len : Word) :
    (s.flush a len).out = s.out ++ [.flush a len] ∧
      SameButMemory { s with out := (s.flush a len).out } (s.flush a len) :=
  emit_sameButMemory _ (overRange_sameButMemory (fun s a => poke_sameButMemory s .hw a _) a len.toNat s)

theorem invalidate_same (s : State) (a len : Word) :
    (s.invalidate a len).out = s.out ++ [.invalidate a len] ∧
      SameButMemory { s with out := (s.invalidate a len).out } (s.invalidate a len) :=
  emit_sameButMemory _ (overRange_refill_same s a len.toNat)

/-- Settles O59. -/
theorem cacheMaintenance : Obligations.CacheMaintenance := fun s a len =>
  ⟨⟨(flush_same s a len).1, fun k hk => (flush_peek s a len _ .hw).1 ⟨k, hk, rfl⟩,
      fun c hc => (flush_peek s a len c .hw).2 hc, flush_peek_sw s a len, (flush_same s a len).2⟩,
    ⟨(invalidate_same s a len).1, fun k hk => (invalidate_peek s a len _ .sw).1 ⟨k, hk, rfl⟩,
      fun c hc => (invalidate_peek s a len c .sw).2 hc, invalidate_peek_hw s a len,
      (invalidate_same s a len).2⟩⟩

/-! ### The staging copy (R156) -/

theorem copyUp_succ (s : State) (dst src : Word) (n : Nat) :
    s.copyUp dst src (n + 1) = (s.copyUp dst src n).poke .sw (dst + BitVec.ofNat 32 n)
      ((s.copyUp dst src n).peek .sw (src + BitVec.ofNat 32 n)) := by
  rw [State.copyUp, List.range_succ, List.foldl_append]
  rfl

theorem copyUp_isDescriptorByte (s : State) (dst src : Word) (n : Nat) (a : Word) :
    (s.copyUp dst src n).isDescriptorByte a = s.isDescriptorByte a :=
  (copyUp_sameButMemory s dst src n).isDescriptorByte a

theorem copyUp_bytesKept (s : State) (dst src : Word) (n : Nat) :
    BytesKept s (s.copyUp dst src n) (InRange dst n) := by
  induction n with
  | zero => exact .refl s _
  | succ n ih =>
    rw [copyUp_succ]
    exact (ih.mono fun a h => (inRange_succ ..).2 (.inl h)).trans
      (BytesKept.mono (poke_bytesKept _ .sw _ _) fun a h => (inRange_succ ..).2 (.inr h))

/-- Outside descriptor memory the copy leaves the `hw` view alone (R58). -/
theorem copyUp_peek_hw (s : State) (dst src : Word) (n : Nat) {a : Word} (h : s.isDescriptorByte a = false) :
    (s.copyUp dst src n).peek .hw a = s.peek .hw a := by
  induction n with
  | zero => rfl
  | succ n ih =>
    rw [copyUp_succ, ← ih]
    by_cases ha : a = dst + BitVec.ofNat 32 n
    · subst ha
      rw [State.peek_poke_data _ _ _ _ ((copyUp_isDescriptorByte ..).trans h)]
      rfl
    · exact State.peek_poke_ne _ _ _ _ ha

/-- The byte that step `k` of the copy wrote stays, as the later steps write further up. -/
theorem copyUp_peek_sw (s : State) (dst src : Word) {n k : Nat} (hn : n ≤ 2 ^ 32) (hk : k < n) :
    (s.copyUp dst src n).peek .sw (dst + BitVec.ofNat 32 k) =
      (s.copyUp dst src k).peek .sw (src + BitVec.ofNat 32 k) := by
  induction n with
  | zero => exact absurd hk (Nat.not_lt_zero k)
  | succ n ih =>
    rw [copyUp_succ]
    rcases Nat.lt_succ_iff_lt_or_eq.1 hk with h | rfl
    · rw [State.peek_poke_ne _ _ _ _ (add_ofNat_ne (by omega) (by omega) (by omega)), ih (by omega) h]
    · exact State.peek_poke_same ..

/-- Settles O60. -/
theorem stagingCopy : Obligations.StagingCopy := fun s dst src n hn =>
  ⟨fun _ hk => copyUp_peek_sw s dst src hn hk, copyUp_bytesKept s dst src n,
    fun _ h => copyUp_peek_hw s dst src n h, copyUp_sameButMemory s dst src n⟩

/-! ### Reassembly (R178) -/

/-- Fragments without a start of frame keep the origin and add their lengths. -/
theorem addFragments_rest (r : Reasm) (rest : List (Word × Word × Word))
    (h : ∀ q ∈ rest, stsSof q.2.2 = false) :
    let t := rest.foldl (fun r q => r.addFragment q.1 q.2.1 q.2.2) r
    t.origin = r.origin ∧ t.acc.toNat = (r.acc.toNat + (rest.map fun q => q.2.1.toNat).sum) % 2 ^ 32 ∧
      (t.complete = true ↔ r.complete = true ∨ ∃ q ∈ rest, stsEof q.2.2 = true) := by
  induction rest generalizing r with
  | nil => simp [Nat.mod_eq_of_lt r.acc.isLt]
  | cons q rest ih =>
    have hq : stsSof q.2.2 = false := h q (by simp)
    obtain ⟨ho, ha, hc⟩ := ih (r.addFragment q.1 q.2.1 q.2.2) fun p hp => h p (.tail _ hp)
    have horigin : (r.addFragment q.1 q.2.1 q.2.2).origin = r.origin := by simp [Reasm.addFragment, hq]
    have hacc : (r.addFragment q.1 q.2.1 q.2.2).acc = r.acc + q.2.1 := by simp [Reasm.addFragment, hq]
    have hcomplete : (r.addFragment q.1 q.2.1 q.2.2).complete = true ↔
        stsEof q.2.2 = true ∨ r.complete = true := by
      cases he : stsEof q.2.2 <;> simp [Reasm.addFragment, he]
    refine ⟨ho.trans horigin, ?_, ?_⟩
    · rw [List.foldl_cons, ha, hacc, BitVec.toNat_add, Nat.mod_add_mod, List.map_cons, List.sum_cons, Nat.add_assoc]
    · rw [List.foldl_cons, hc, hcomplete, List.exists_mem_cons_iff]
      tauto

/-- Settles O49: the first fragment sets origin and length, the others add. -/
theorem reassemblySums : Obligations.ReassemblySums := by
  intro r b l sts rest hsof hrest
  obtain ⟨ho, ha, hc⟩ := addFragments_rest (r.addFragment b l sts) rest hrest
  have hs : stsSof sts = true := hsof
  have horigin : (r.addFragment b l sts).origin = b := by simp [Reasm.addFragment, hs]
  have hacc : (r.addFragment b l sts).acc = l := by simp [Reasm.addFragment, hs]
  have hcomplete : (r.addFragment b l sts).complete = true ↔ stsEof sts = true ∨ r.complete = true := by
    cases he : stsEof sts <;> simp [Reasm.addFragment, he]
  refine ⟨ho.trans horigin, by rw [ha, hacc], ?_⟩
  rw [hc, hcomplete]
  simp only [stsEof]
  tauto

/-! ### The walk (R177, R179) -/

theorem reassemble_skips {s : State} {i : Nat}
    (h : stsComplete (s.getField .rx i .sts) = false ∨
      (s.params.bdErrorSkip = true ∧ stsError (s.getField .rx i .sts) = true)) : s.reassemble i = s := by
  rcases h with h | ⟨hp, he⟩
  · simp [State.reassemble, h]
  · simp [State.reassemble, hp, he]

/-- A fragment that is not skipped goes to the reassembly registers, and a packet it completes is delivered. -/
theorem reassemble_adds {s : State} {i : Nat} (hc : stsComplete (s.getField .rx i .sts) = true)
    (hs : s.params.bdErrorSkip = false ∨ stsError (s.getField .rx i .sts) = false) {r : Reasm}
    (hr : s.rs.addFragment (s.getField .rx i .bufAddr) (s.getField .rx i .length) (s.getField .rx i .sts) = r) :
    s.reassemble i = if r.complete then ({ s with rs := r } : State).deliver else { s with rs := r } := by
  have hskip : (s.params.bdErrorSkip && stsError (s.getField .rx i .sts)) = false := by
    rcases hs with h | h <;> simp [h]
  subst hr
  simp only [State.reassemble, hc, hskip, Bool.not_true, Bool.false_eq_true, if_false]

theorem deliver_eq {s : State} (h : s.cfg.callback ≠ 0) :
    s.deliver =
      { (s.invalidate s.rs.origin s.rs.acc).emit (.callback s.rs.origin s.rs.acc s.cfg.userCtx) with
        rs := { (s.invalidate s.rs.origin s.rs.acc).rs with complete := false } } := if_neg h

/-- A delivery: one invalidation, one callback, and the packet is no longer complete. -/
structure Delivered (s t : State) : Prop where
  out : t.out = s.out ++
    [.invalidate s.rs.origin s.rs.acc, .callback s.rs.origin s.rs.acc s.cfg.userCtx]
  rs : t.rs = { s.rs with complete := false }
  rxh : t.rxh = s.rxh
  rx : t.rx = s.rx
  tx : t.tx = s.tx
  sw : ∀ a, InRange s.rs.origin s.rs.acc.toNat a → t.peek .sw a = s.peek .hw a
  hw : ∀ a, t.peek .hw a = s.peek .hw a
  frame : ∀ a, ¬InRange s.rs.origin s.rs.acc.toNat a → t.peek .sw a = s.peek .sw a

theorem deliver_delivered {s : State} (h : s.cfg.callback ≠ 0) : Delivered s s.deliver := by
  rw [deliver_eq h]
  obtain ⟨hout, hsame⟩ := invalidate_same s s.rs.origin s.rs.acc
  have hinside := fun a => (invalidate_peek s s.rs.origin s.rs.acc a .sw).1
  have houtside := fun a => (invalidate_peek s s.rs.origin s.rs.acc a .sw).2
  have hhw := invalidate_peek_hw s s.rs.origin s.rs.acc
  generalize s.invalidate s.rs.origin s.rs.acc = t at *
  have hrs : t.rs = s.rs := hsame.same State.rs rfl
  refine ⟨?_, by rw [hrs], hsame.same State.rxh rfl, hsame.same State.rx rfl, hsame.same State.tx rfl,
    hinside, hhw, houtside⟩
  rw [State.emit_out, hout, List.append_assoc]
  rfl

/-- The micro-step of the walk, once the reassembly of its slot is known. -/
theorem rxWalk_of_reassemble {s t : State}
    (h : s.reassemble ((s.rxh.first.toNat + s.rxh.i.toNat) % s.rx.size) = t) :
    rxWalk s = { t with rxh := { t.rxh with
      i := s.rxh.i + 1, phase := if s.rxh.i + 1 = s.rxh.count then .free else .walk } } := by
  rw [rxWalk, h]

/-- Settles O48. -/
theorem walkDeliversOnce : Obligations.WalkDeliversOnce := by
  intro s i sts r rxh' hturn hs hp
  rw [step_rxPhase hturn hs hp]
  refine ⟨fun h => congrArg _ (rxWalk_of_reassemble (s := s.popAgenda) (reassemble_skips h)), fun hc hskip => ?_⟩
  have hadds := reassemble_adds (s := s.popAgenda) (i := i) hc hskip (r := r) rfl
  refine ⟨fun hcomplete hcb => ?_, fun hcomplete => ?_⟩
  · rw [if_pos hcomplete] at hadds
    obtain ⟨hout, hrs, hrxh, hrx, htx, hsw, hhw, hframe⟩ := deliver_delivered (s := { s.popAgenda with rs := r }) hcb
    have hwalk := rxWalk_of_reassemble (s := s.popAgenda) hadds
    generalize ({ s.popAgenda with rs := r } : State).deliver = t at *
    exact ⟨_, congrArg _ hwalk, hout, hrs, congrArg (fun q : Rxh => { q with
        i := s.rxh.i + 1, phase := if s.rxh.i + 1 = s.rxh.count then .free else .walk }) hrxh, hrx, htx,
      fun k hk => hsw _ ⟨k, hk, rfl⟩, hhw, hframe⟩
  · rw [if_neg (by simp [hcomplete])] at hadds
    exact congrArg _ (rxWalk_of_reassemble (s := s.popAgenda) hadds)

end Sys2Proof.Machine
end

section
/-! PROOF. TX completions (44_external_agents.md R217): which values of a posted slot's bytes may be sent, and how the
record of them follows every step. -/

namespace Sys2Proof.Machine

open Relation

/-! ### The log of replaced `hw` bytes -/

/-- The log grows at its head, and the old value of every byte that changed is in what was added. -/
def HwGrows (s t : State) : Prop :=
  ∃ l, t.hwLog = l ++ s.hwLog ∧
    ∀ a : Word, t.memHw.read .hw a = s.memHw.read .hw a ∨ (a.toNat, s.memHw.read .hw a) ∈ l

theorem HwGrows.of_same {s t : State} (hlog : t.hwLog = s.hwLog) (hmem : t.memHw = s.memHw) : HwGrows s t :=
  ⟨[], hlog, fun _ => .inl (by rw [hmem])⟩

theorem HwGrows.trans {s t u : State} (h : HwGrows s t) (k : HwGrows t u) : HwGrows s u := by
  obtain ⟨l, hlog, hold⟩ := h
  obtain ⟨m, klog, kold⟩ := k
  refine ⟨m ++ l, by rw [klog, hlog, List.append_assoc], fun a => ?_⟩
  rcases hold a with h | h
  · rw [← h]
    exact (kold a).imp_right (List.mem_append_left l)
  · exact .inr (List.mem_append_right m h)

theorem HwGrows.writeHw (s : State) (a : Word) (b : Byte) : HwGrows s (s.writeHw a b) := by
  refine ⟨[(a.toNat, s.memHw.read .hw a)], rfl, fun c => ?_⟩
  by_cases hc : c = a
  · exact .inr (by simp [hc])
  · exact .inl (by simp [State.writeHw, hc])

theorem HwGrows.poke (s : State) (v : View) (a : Word) (b : Byte) : HwGrows s (s.poke v a b) := by
  unfold State.poke
  split
  · exact (HwGrows.writeHw s a b).trans (.of_same rfl rfl)
  · cases v
    · exact .of_same rfl rfl
    · exact .writeHw s a b

theorem HwGrows.setField (s : State) (x : Ring) (i : Nat) (f : BdField) (w : Word) :
    HwGrows s (s.setField x i f w) := by
  refine ⟨s.replacedHw ((s.ring x).slotAddr i + f.offset), rfl, fun c => ?_⟩
  by_cases hc : s.InField x i f c
  · obtain ⟨k, hk, rfl⟩ := hc
    refine .inr ?_
    match k, hk with
    | 0, _ => simp [State.replacedHw]
    | 1, _ => simp [State.replacedHw]
    | 2, _ => simp [State.replacedHw]
    | 3, _ => simp [State.replacedHw]
  · exact .inl (Memory.read_writeWord_outside _ _ _ hc)

theorem MemoryChange.hwGrows {s t : State} (h : MemoryChange s t) : HwGrows s t := by
  cases h with
  | poke v a b => exact .poke s v a b
  | field x i f w => exact .setField s x i f w

theorem ContextChange.hwGrows {s₀ s t : State} (h : ContextChange s₀ s t) : HwGrows s t :=
  .of_same h.memory.2.2.1 h.memory.2.1

theorem SameContext.hwGrows {s t : State} (h : SameContext s t) : HwGrows s t := .of_same h.hwLog h.memHw

theorem StepEffect.hwGrows {s₀ s t : State} (h : StepEffect s₀ s t) : HwGrows s t :=
  h.keeps (P := HwGrows s) (fun _ _ h hs => hs.trans h.hwGrows) (fun _ _ h hs => hs.trans h.hwGrows)
    (fun _ _ h hs => hs.trans h.sameContext.hwGrows) (fun _ _ h hs => hs.trans h.sameContext.hwGrows)
    (.of_same rfl rfl)

/-- What the log held since a mark it holds after it has grown. -/
theorem take_append_sub {l m : List Host.Cell} {mark : Nat} (h : mark ≤ m.length) :
    (l ++ m).take ((l ++ m).length - mark) = l ++ m.take (m.length - mark) := by
  rw [List.length_append, show l.length + m.length - mark = l.length + (m.length - mark) by omega,
    List.take_length_add_append]

/-- A value that a byte has held since a mark stays one as the log grows. -/
theorem HwGrows.mem_heldSince {s t : State} (h : HwGrows s t) {mark : Nat} (hm : mark ≤ s.hwLog.length) {a : Word}
    {v : Byte} (hv : v ∈ s.heldSince mark a) : v ∈ t.heldSince mark a := by
  obtain ⟨l, hlog, hold⟩ := h
  rw [State.mem_heldSince, hlog, take_append_sub hm]
  rw [State.mem_heldSince] at hv
  rcases hv with rfl | hv
  · rcases hold a with h | h
    · exact .inl h.symm
    · exact .inr (List.mem_append_left _ h)
  · exact .inr (List.mem_append_right _ hv)

theorem HwGrows.length_le {s t : State} (h : HwGrows s t) : s.hwLog.length ≤ t.hwLog.length := by
  obtain ⟨l, hlog, -⟩ := h
  simp [hlog]

/-! ### The marks of the posted slots -/

theorem slotState_posted_iff (r : RingRegs) (i : Nat) :
    r.slotState i = .posted ↔ r.postCnt.toNat + r.doneCnt.toNat ≤ slotOffset r.size r.postHead.toNat i ∧
      slotOffset r.size r.postHead.toNat i < r.postCnt.toNat + r.hwCnt.toNat := by
  rw [slotState_eq, groupAt]
  split_ifs <;> simp <;> omega

theorem slotState_reserved_iff {r : RingRegs} (h : r.Ok) (i : Nat) :
    r.slotState i = .reserved ↔ r.postCnt.toNat + r.hwCnt.toNat ≤ slotOffset r.size r.postHead.toNat i ∧
      slotOffset r.size r.postHead.toNat i < r.postCnt.toNat + r.hwCnt.toNat + r.preCnt.toNat := by
  have hdone := h.done
  rw [slotState_eq, groupAt]
  split_ifs <;> simp <;> omega

theorem oldestPosted_eq (r : RingRegs) :
    r.oldestPosted = (r.postHead.toNat + (r.postCnt.toNat + r.doneCnt.toNat)) % r.size := by
  simp only [RingRegs.oldestPosted, RingRegs.hwHead, Nat.mod_add_mod, Nat.add_assoc]

/-- Draining completed slots does not move the oldest posted one. -/
theorem drained_oldestPosted {r : RingRegs} (h : r.Ok) {n : Half} (hn : n ≤ r.doneCnt) :
    (r.drained n).oldestPosted = r.oldestPosted := by
  obtain ⟨hcap, hdone, -, hlt⟩ := h.bounds
  have hsum : (r.postCnt + n).toNat + (r.doneCnt - n).toNat = r.postCnt.toNat + r.doneCnt.toNat := by bv_omega
  rw [oldestPosted_eq, oldestPosted_eq, ← hsum]
  rfl

/-- Freeing drained slots does not move the oldest posted one. -/
theorem freed_oldestPosted {r : RingRegs} (h : r.Ok) {n : Half} (hn : n ≤ r.postCnt) :
    (r.freed n).oldestPosted = r.oldestPosted := by
  have hle : n.toNat ≤ r.postCnt.toNat := hn
  have hsub : (r.postCnt - n).toNat = r.postCnt.toNat - n.toNat := BitVec.toNat_sub_of_le hn
  have hnew : (r.freed n).oldestPosted =
      ((BitVec.ofNat 16 ((r.postHead.toNat + n.toNat) % r.size)).toNat + ((r.postCnt - n).toNat + r.doneCnt.toNat)) %
        r.size := oldestPosted_eq _
  rw [hnew, oldestPosted_eq, toNat_ofNat_mod_size _ _ h.nonempty, Nat.mod_add_mod, hsub]
  congr 1
  omega

/-- The distance of a slot from the oldest posted one. -/
theorem offset_oldestPosted {r : RingRegs} (h : r.Ok) {i : Nat} (hi : i < r.size)
    (hp : r.postCnt.toNat + r.doneCnt.toNat ≤ slotOffset r.size r.postHead.toNat i) :
    (i + r.size - r.oldestPosted) % r.size =
      slotOffset r.size r.postHead.toNat i - (r.postCnt.toNat + r.doneCnt.toNat) := by
  have hlt : slotOffset r.size r.postHead.toNat i < r.size := slotOffset_lt h.nonempty
  have hmove := slotOffset_advance (n := r.postCnt.toNat + r.doneCnt.toNat) h.head hi (by omega)
  rw [if_pos hp] at hmove
  rw [oldestPosted_eq]
  exact hmove

theorem txMarkOf_eq {s : State} (h : s.tx.Ok) {i : Nat} (hi : i < s.tx.size)
    (hp : s.tx.postCnt.toNat + s.tx.doneCnt.toNat ≤ slotOffset s.tx.size s.tx.postHead.toNat i) :
    s.txMarkOf i = s.txMarks.getD
      (slotOffset s.tx.size s.tx.postHead.toNat i - (s.tx.postCnt.toNat + s.tx.doneCnt.toNat)) 0 := by
  rw [State.txMarkOf, offset_oldestPosted h hi hp]

/-- The mark of a posted slot does not lie beyond the log. -/
theorem txMarkOf_le {s : State} (h : s.tx.Ok) (hc : s.tx.created = true) (hm : s.MarksOk) {i : Nat}
    (hi : i < s.tx.size) (hp : s.tx.slotState i = .posted) : s.txMarkOf i ≤ s.hwLog.length := by
  obtain ⟨hlow, hhigh⟩ := (slotState_posted_iff ..).1 hp
  obtain ⟨hlen, hle⟩ := hm hc
  have hdone := h.done
  have hindex : slotOffset s.tx.size s.tx.postHead.toNat i - (s.tx.postCnt.toNat + s.tx.doneCnt.toNat) <
      s.txMarks.length := by
    rw [hlen, RingRegs.postedCnt]
    omega
  rw [txMarkOf_eq h hi hlow, List.getD_eq_getElem _ _ hindex]
  exact hle _ (List.getElem_mem hindex)

/-- The mark of a slot depends on the marks, and on where the slot lies from the oldest posted one. -/
theorem txMarkOf_congr {s t : State} (hm : t.txMarks = s.txMarks) (hs : t.tx.size = s.tx.size)
    (ho : t.tx.oldestPosted = s.tx.oldestPosted) (i : Nat) : t.txMarkOf i = s.txMarkOf i := by
  rw [State.txMarkOf, State.txMarkOf, hm, hs, ho]

/-- `COMMIT` on the TX ring. -/
theorem commit_txMarkOf {s : State} {n : Half} (hok : s.tx.Ok) (hc : s.tx.created = true) (hm : s.MarksOk)
    (hn : n ≤ s.tx.preCnt) {i : Nat} (hi : i < s.tx.size)
    (hp : (s.tx.committed n).slotState i = .posted) :
    ((s.setRing .tx (s.tx.committed n)).addMarks n.toNat .tx).txMarkOf i =
      if s.tx.slotState i = .posted then s.txMarkOf i else s.hwLog.length := by
  obtain ⟨hcap, hdone, hhead, hlt⟩ := hok.bounds
  obtain ⟨hlen, -⟩ := hm hc
  have hhw : (s.tx.hwCnt + n).toNat = s.tx.hwCnt.toNat + n.toNat := by bv_omega
  obtain ⟨hlow, hhigh⟩ := (slotState_posted_iff ..).1 hp
  change s.tx.postCnt.toNat + s.tx.doneCnt.toNat ≤ slotOffset s.tx.size s.tx.postHead.toNat i at hlow
  change slotOffset s.tx.size s.tx.postHead.toNat i < s.tx.postCnt.toNat + (s.tx.hwCnt + n).toNat at hhigh
  rw [hhw] at hhigh
  rw [RingRegs.postedCnt] at hlen
  have hnew : ((s.setRing .tx (s.tx.committed n)).addMarks n.toNat .tx).txMarkOf i =
      (s.txMarks ++ List.replicate n.toNat s.hwLog.length).getD
        ((i + s.tx.size - s.tx.oldestPosted) % s.tx.size) 0 := rfl
  rw [hnew, offset_oldestPosted hok hi hlow, txMarkOf_eq hok hi hlow]
  by_cases hposted : s.tx.slotState i = .posted
  · have hbound := ((slotState_posted_iff ..).1 hposted).2
    rw [if_pos hposted]
    exact List.getD_append _ _ _ _ (by omega)
  · have hbound : s.txMarks.length ≤
        slotOffset s.tx.size s.tx.postHead.toNat i - (s.tx.postCnt.toNat + s.tx.doneCnt.toNat) := by
      rw [slotState_posted_iff] at hposted
      omega
    rw [if_neg hposted, List.getD_append_right _ _ _ _ hbound,
      List.getD_eq_getElem _ _ (by rw [List.length_replicate]; omega), List.getElem_replicate]

/-- A slot that was posted before and after a count change keeps its mark; one that the change posts gets the log's
present length. -/
theorem CountChange.txMarkOf {s t : State} (h : CountChange s t) (hr : s.RingsOk) (hm : s.MarksOk)
    (hc : s.tx.created = true) {i : Nat} (hi : i < s.tx.size)
    (hs : s.tx.slotState i = .posted ∨ s.tx.slotState i = .reserved) (ht : t.tx.slotState i = .posted) :
    t.txMarkOf i = if s.tx.slotState i = .posted then s.txMarkOf i else s.hwLog.length := by
  have hok : s.tx.Ok := hr .tx hc
  obtain ⟨hcap, hdone, hhead, hlt⟩ := hok.bounds
  have hsame : t.tx.slotState i = s.tx.slotState i → t.txMarkOf i = s.txMarkOf i →
      t.txMarkOf i = if s.tx.slotState i = .posted then s.txMarkOf i else s.hwLog.length := fun hstate hmark => by
    rw [if_pos (hstate ▸ ht), hmark]
  have hkept : s.tx.slotState i = .posted → t.txMarkOf i = s.txMarkOf i →
      t.txMarkOf i = if s.tx.slotState i = .posted then s.txMarkOf i else s.hwLog.length := fun hp hmark => by
    rw [if_pos hp, hmark]
  obtain ⟨hlow, hhigh⟩ := (slotState_posted_iff ..).1 ht
  rw [slotState_posted_iff, slotState_reserved_iff hok] at hs
  cases h with
  | create x n =>
    cases x with
    | rx => exact hsame rfl rfl
    | tx => simp [State.dropMarks, State.setRing, RingRegs.recreate] at hhigh
  | reserve x n =>
    cases x with
    | rx => exact hsame rfl rfl
    | tx =>
      change _ < s.tx.postCnt.toNat + s.tx.hwCnt.toNat at hhigh
      exact hkept ((slotState_posted_iff ..).2 ⟨hlow, hhigh⟩) rfl
  | unreserve x n =>
    cases x with
    | rx => exact hsame rfl rfl
    | tx =>
      change _ < s.tx.postCnt.toNat + s.tx.hwCnt.toNat at hhigh
      exact hkept ((slotState_posted_iff ..).2 ⟨hlow, hhigh⟩) rfl
  | commit x n hc' hn =>
    cases x with
    | rx => exact hsame rfl rfl
    | tx => exact commit_txMarkOf hok hc hm hn hi ht
  | drain x n hc' hn =>
    cases x with
    | rx => exact hsame rfl rfl
    | tx =>
      have hsum : (s.tx.postCnt + n).toNat + (s.tx.doneCnt - n).toNat = s.tx.postCnt.toNat + s.tx.doneCnt.toNat ∧
          (s.tx.postCnt + n).toNat + (s.tx.hwCnt - n).toNat = s.tx.postCnt.toNat + s.tx.hwCnt.toNat := by
        simp only [State.ring_tx] at hn
        bv_omega
      change (s.tx.postCnt + n).toNat + (s.tx.doneCnt - n).toNat ≤ _ at hlow
      change _ < (s.tx.postCnt + n).toNat + (s.tx.hwCnt - n).toNat at hhigh
      rw [hsum.1] at hlow
      rw [hsum.2] at hhigh
      exact hkept ((slotState_posted_iff ..).2 ⟨hlow, hhigh⟩)
        (txMarkOf_congr (s := s) (t := s.setRing .tx (s.tx.drained n)) rfl rfl (drained_oldestPosted hok hn) i)
  | free x n hc' hn =>
    cases x with
    | rx => exact hsame rfl rfl
    | tx =>
      rw [State.ring_tx] at hn
      have hle : n.toNat ≤ s.tx.postCnt.toNat := hn
      have hmove := slotOffset_advance (n := n.toNat) hhead hi (by omega)
      rw [← toNat_ofNat_mod_size s.tx _ hok.nonempty] at hmove
      change slotOffset s.tx.size (BitVec.ofNat 16 ((s.tx.postHead.toNat + n.toNat) % s.tx.size)).toNat i <
        (s.tx.postCnt - n).toNat + s.tx.hwCnt.toNat at hhigh
      rw [hmove, if_pos (by omega), BitVec.toNat_sub_of_le hn] at hhigh
      have hposted : s.tx.slotState i = .posted := (slotState_posted_iff ..).2 ⟨by omega, by omega⟩
      exact hkept hposted (txMarkOf_congr (s := s) (t := s.setRing .tx (s.tx.freed n)) rfl rfl (freed_oldestPosted hok hn) i)
  | rxDone => exact hsame rfl rfl
  | txDone hc' hp =>
    have hokt := (CountChange.txDone s hc' hp).ring_ok hr .tx hc
    have hnext : (s.tx.doneCnt + 1).toNat = s.tx.doneCnt.toNat + 1 := by
      simp only [RingRegs.postedCnt] at hp
      bv_omega
    have hmark := txMarkOf_eq hokt hi hlow
    change s.tx.postCnt.toNat + (s.tx.doneCnt + 1).toNat ≤ slotOffset s.tx.size s.tx.postHead.toNat i at hlow
    change _ = s.txMarks.tail.getD (slotOffset s.tx.size s.tx.postHead.toNat i -
      (s.tx.postCnt.toNat + (s.tx.doneCnt + 1).toNat)) 0 at hmark
    rw [hnext] at hlow hmark
    have hlow' : s.tx.postCnt.toNat + s.tx.doneCnt.toNat ≤ slotOffset s.tx.size s.tx.postHead.toNat i := by omega
    refine hkept ((slotState_posted_iff ..).2 ⟨hlow', hhigh⟩) ?_
    rw [hmark, txMarkOf_eq hok hi hlow', List.getD_eq_getElem?_getD, List.getD_eq_getElem?_getD, List.getElem?_tail]
    congr 2
    omega

/-! ### The step -/

/-- A run that moves no slot leaves the marks alone. -/
theorem QuietRun.txMarks {s₀ s t : State} (h : QuietRun s₀ s t) : t.txMarks = s.txMarks := by
  induction h with
  | refl => rfl
  | tail _ h ih =>
    refine Eq.trans ?_ ih
    rcases h with h | h | h
    · exact h.memory.2.2.2
    · exact h.txMarks
    · exact h.txMarks

theorem ContextRun.hwLog {s₀ s t : State} (h : ContextRun s₀ s t) : t.hwLog = s.hwLog := by
  induction h with
  | refl => rfl
  | tail _ h ih => exact h.memory.2.2.1.trans ih

/-- The mark of a slot that is posted after a step: the one it had, or the log's length if the step posted it. -/
theorem StepEffect.txMarkOf {s₀ s t : State} (h : StepEffect s₀ s t) (hr : s.RingsOk) (hm : s.MarksOk)
    (hc : s.tx.created = true) {i : Nat} (hi : i < s.tx.size)
    (hs : s.tx.slotState i = .posted ∨ s.tx.slotState i = .reserved) (ht : t.tx.slotState i = .posted) :
    if s.tx.slotState i = .posted then t.txMarkOf i = s.txMarkOf i else t.txMarkOf i = t.hwLog.length := by
  cases h with
  | quiet h =>
    obtain ⟨run, en, pend, htx⟩ := h.ring .tx
    change t.tx = _ at htx
    have hstate : s.tx.slotState i = .posted := by rw [← ht, htx]; rfl
    rw [if_pos hstate]
    exact txMarkOf_congr h.txMarks (by rw [htx]; rfl) (by rw [htx]; rfl) i
  | @counted u v hb hcount ha =>
    have hu : u.tx = s.tx := hb.ring .tx
    have hv : t.tx = v.tx := ha.toStore.ring .tx
    have humarks : u.txMarks = s.txMarks := hb.toQuiet.txMarks
    have hlog := hb.effect.hwGrows.length_le
    have hmark := hcount.txMarkOf (i := i) (fun x => by rw [hb.ring x]; exact hr x)
      (hm.congr (by rw [hu]) (by rw [hu]) humarks hlog) (by rw [hu]; exact hc) (by rw [hu]; exact hi)
      (by rw [hu]; exact hs) (by rw [← hv]; exact ht)
    have htv : t.txMarkOf i = v.txMarkOf i := txMarkOf_congr ha.toQuiet.txMarks (by rw [hv]) (by rw [hv]) i
    rw [hu] at hmark
    rw [htv, hmark, ha.hwLog, hcount.sameContext.hwLog]
    split
    · exact txMarkOf_congr humarks (by rw [hu]) (by rw [hu]) i
    · rfl

/-- Since the log's present length a byte has held its present value alone. -/
theorem mem_heldSince_now (s : State) (a : Word) (v : Byte) :
    v ∈ s.heldSince s.hwLog.length a ↔ v = s.peek .hw a := by
  simp [State.mem_heldSince]

/-! ### A flush under a posted slot -/

/-- Writing a range back adds to the log only what the bytes held before it or hold after it. -/
theorem writeBack_log (s : State) (a : Word) (n : Nat) :
    ∃ l, (overRange State.writeBack a n s).hwLog = l ++ s.hwLog ∧
      ∀ (c : Word) (v : Byte), (c.toNat, v) ∈ l →
        v = s.peek .hw c ∨ v = (overRange State.writeBack a n s).peek .hw c := by
  induction n with
  | zero => exact ⟨[], rfl, fun _ _ h => nomatch h⟩
  | succ n ih =>
    have hread := peek_overRange_copy (v := .hw) (u := .sw) (by decide) s a
    obtain ⟨l, hlog, hl⟩ := ih
    have hnext : overRange State.writeBack a (n + 1) s =
        (overRange State.writeBack a n s).writeBack (a + BitVec.ofNat 32 n) := by
      rw [overRange, List.range_succ, List.foldl_append]
      rfl
    have hlogs : (overRange State.writeBack a (n + 1) s).hwLog =
        ((a + BitVec.ofNat 32 n).toNat, (overRange State.writeBack a n s).peek .hw (a + BitVec.ofNat 32 n)) ::
          (overRange State.writeBack a n s).hwLog := by
      rw [hnext, State.writeBack, State.poke]
      split <;> rfl
    refine ⟨_ :: l, by rw [hlogs, hlog]; rfl, fun c v hv => ?_⟩
    have hcases : v = s.peek .hw c ∨ v = (overRange State.writeBack a n s).peek .hw c := by
      rcases List.mem_cons.1 hv with h | h
      · obtain ⟨hc, rfl⟩ := Prod.mk.inj h
        rw [BitVec.eq_of_toNat_eq hc]
        exact .inr rfl
      · exact hl c v h
    rcases hcases with h | h
    · exact .inl h
    · by_cases hc : InRange a n c
      · exact .inr (h.trans (((hread n c .hw).1 hc).trans
          ((hread (n + 1) c .hw).1 ((inRange_succ ..).2 (.inl hc))).symm))
      · exact .inl (h.trans ((hread n c .hw).2 hc))

/-- A flush adds to the values of a byte exactly the one it puts there. -/
theorem flush_mem_heldSince {s : State} {mark : Nat} (hm : mark ≤ s.hwLog.length) (b len a : Word) (v : Byte) :
    v ∈ (s.flush b len).heldSince mark a ↔ v ∈ s.heldSince mark a ∨ v = (s.flush b len).peek .hw a := by
  constructor
  · intro hv
    obtain ⟨l, hlog, hl⟩ := writeBack_log s b len.toNat
    have hlog' : (s.flush b len).hwLog = l ++ s.hwLog := hlog
    rw [State.mem_heldSince, hlog', take_append_sub hm] at hv
    rw [State.mem_heldSince]
    rcases hv with h | h
    · exact .inr h
    · rcases List.mem_append.1 h with h | h
      · exact (hl a v h).imp_left .inl
      · exact .inl (.inr h)
  · rintro (hv | rfl)
    · exact HwGrows.mem_heldSince ((flush_run s s b len).effect.hwGrows) hm hv
    · exact (State.mem_heldSince ..).2 (.inl rfl)

theorem flush_txMarkOf (s : State) (b len : Word) (i : Nat) : (s.flush b len).txMarkOf i = s.txMarkOf i := by
  have hsame := (flush_same s b len).2
  have htx : (s.flush b len).tx = s.tx := hsame.same State.tx rfl
  exact txMarkOf_congr (hsame.same State.txMarks rfl) (by rw [htx]) (by rw [htx]) i

/-! ### One completion -/

/-- The oldest posted slot's mark is the first one. -/
theorem txMarkOf_oldestPosted (s : State) : s.txMarkOf s.tx.oldestPosted = s.txMark := by
  rw [State.txMarkOf, Nat.add_sub_cancel_left, Nat.mod_self, State.txMark]
  cases s.txMarks <;> rfl

/-- The draws of a TX completion that R217 allows. -/
def State.TxLegal (s : State) (bytes : List Byte) : Prop :=
  bytes.length = (s.getField .tx s.tx.oldestPosted .length).toNat ∧
    ∀ (k : Nat) (h : k < bytes.length),
      s.Sendable s.tx.oldestPosted (s.getField .tx s.tx.oldestPosted .bufAddr + BitVec.ofNat 32 k) bytes[k]

theorem canTxComplete_iff {s : State} (he : s.channelEnabled .tx = true) (hp : s.tx.doneCnt < s.tx.hwCnt)
    (bytes : List Byte) : s.canTxComplete bytes = true ↔ s.TxLegal bytes := by
  have hposted : 0 < s.tx.postedCnt := Nat.sub_pos_of_lt hp
  simp only [State.canTxComplete, he, hposted, Bool.and_eq_true, decide_eq_true_eq, true_and, List.all_eq_true,
    State.TxLegal, State.Sendable, txMarkOf_oldestPosted, List.contains_iff_mem]
  refine and_congr_right fun _ => ⟨fun h k hk => h (bytes[k], k) ?_, fun h p hp => ?_⟩
  · exact List.mem_zipIdx_iff_getElem?.2 (List.getElem?_eq_getElem hk)
  · obtain ⟨hk, hb⟩ := List.getElem?_eq_some_iff.1 (List.mem_zipIdx_iff_getElem?.1 hp)
    rw [← hb]
    exact h p.2 hk

/-- The `STS` word that the data mover writes, bit by bit (R86). -/
theorem stsWord_eq (sof eof err : Bool) :
    stsWord sof eof err = (BitVec.ofBool err ++ BitVec.ofBool eof ++ BitVec.ofBool sof ++ 1#1).zeroExtend 32 := by
  cases sof <;> cases eof <;> cases err <;> rfl

theorem stsWord_tx (err : Bool) : stsWord false false err = (BitVec.ofBool err ++ 0#2 ++ 1#1).zeroExtend 32 := by
  cases err <;> rfl

/-- The registers after a TX completion whose status word has been written. -/
def State.txDone (s : State) (bytes : List Byte) (marks : List Nat) : State :=
  { (s.countDone .tx).emit (.txWire bytes) with txMarks := marks }

theorem txDone_keepsBytes (s : State) (bytes : List Byte) (marks : List Nat) :
    KeepsBytes s (s.txDone bytes marks) :=
  (KeepsBytes.setRing s .tx { s.tx with doneCnt := s.tx.doneCnt + 1 } rfl rfl rfl).trans
    ⟨rfl, rfl, rfl, rfl, rfl, fun x _ => by cases x <;> rfl⟩

theorem txComplete_legal {s : State} (err : Bool) {bytes : List Byte} (h : s.canTxComplete bytes = true) :
    txComplete err bytes s =
      (s.setField .tx s.tx.oldestPosted .sts (stsWord false false err)).txDone bytes s.txMarks.tail := if_pos h

theorem txComplete_illegal {s : State} (err : Bool) {bytes : List Byte} (h : s.canTxComplete bytes = false) :
    txComplete err bytes s = s := if_neg (by simp [h])

/-- What a legal TX completion does. -/
theorem txComplete_outcome {s : State} (err : Bool) {bytes : List Byte} (h : s.canTxComplete bytes = true) :
    (txComplete err bytes s).tx = { s.tx with doneCnt := s.tx.doneCnt + 1 } ∧
    (txComplete err bytes s).getField .tx s.tx.oldestPosted .sts =
      (BitVec.ofBool err ++ 0#2 ++ 1#1).zeroExtend 32 ∧
    (txComplete err bytes s).out = s.out ++ [.txWire bytes] ∧
    { txComplete err bytes s with
      tx := s.tx, memSw := s.memSw, memHw := s.memHw, hwLog := s.hwLog, out := s.out, txMarks := s.txMarks } = s ∧
    BytesKept s (txComplete err bytes s) (s.InField .tx s.tx.oldestPosted .sts) := by
  rw [txComplete_legal err h]
  have hsame := setField_sameButMemory s .tx s.tx.oldestPosted .sts (stsWord false false err)
  have hfield := State.getField_setField s .tx s.tx.oldestPosted .sts (stsWord false false err)
  have hkept := setField_bytesKept s .tx s.tx.oldestPosted .sts (stsWord false false err)
  generalize s.setField .tx s.tx.oldestPosted .sts (stsWord false false err) = u at *
  have hbytes := txDone_keepsBytes u bytes s.txMarks.tail
  have htx : (u.txDone bytes s.txMarks.tail).tx = { u.tx with doneCnt := u.tx.doneCnt + 1 } := rfl
  have hout : (u.txDone bytes s.txMarks.tail).out = u.out ++ [.txWire bytes] := rfl
  refine ⟨by rw [htx, hsame.same State.tx rfl], ?_, by rw [hout, hsame.same State.out rfl], ?_,
    hkept.trans (hbytes.bytesKept _)⟩
  · exact (hbytes.getField rfl .sts).trans (hfield.trans (stsWord_tx err))
  · exact (congrArg (fun z : State => { z with
      tx := s.tx, out := s.out, txMarks := s.txMarks }) hsame)

/-- Settles O56. -/
theorem txCompletion : Obligations.TxCompletion := by
  refine ⟨fun s err bytes => ?_, fun s t i hr hm h hc hi hs ht a v => ?_, fun s t i hr hm h hc hi hs ht a v hv => ?_,
    fun s i b len hc hok hm hi hp a v => ?_, fun s i a h v => ?_⟩
  · intro i buf hu hmove hc hrun hreset hposted legal
    rw [step_move hu hmove (by simp) (by simp) (by simp)]
    have henabled : s.popAgenda.channelEnabled .tx = true := (channelEnabled_iff ..).2 ⟨hc, hrun, hreset⟩
    have hlegal : s.popAgenda.canTxComplete bytes = true ↔ legal := canTxComplete_iff henabled hposted bytes
    refine ⟨fun hnot => congrArg _ (txComplete_illegal err (Bool.eq_false_iff.2 fun h => hnot (hlegal.1 h))),
      fun hl => ?_⟩
    obtain ⟨htx, hfield, hout, hrest, hkept⟩ := txComplete_outcome (s := s.popAgenda) err (hlegal.2 hl)
    exact ⟨_, rfl, htx, hfield, hout, hrest, hkept⟩
  · have hmark := (step_effect h).txMarkOf hr hm hc hi (.inr hs) ht
    rw [if_neg (by rw [hs]; decide)] at hmark
    rw [State.Sendable, hmark]
    exact mem_heldSince_now t a v
  · have hmark := (step_effect h).txMarkOf hr hm hc hi (.inl hs) ht
    rw [if_pos hs] at hmark
    rw [State.Sendable, hmark]
    rcases hv with hv | rfl
    · exact (step_effect h).hwGrows.mem_heldSince (txMarkOf_le (hr .tx hc) hc hm hi hs) hv
    · exact (State.mem_heldSince ..).2 (.inl rfl)
  · rw [State.Sendable, flush_txMarkOf]
    exact flush_mem_heldSince (txMarkOf_le hok hc hm hi hp) b len a v
  · rw [State.Sendable, State.mem_heldSince]
    exact or_iff_left fun hmem => h _ hmem rfl

end Sys2Proof.Machine
end

section
/-! PROOF. RX completions (44_external_agents.md R216), and the failures of `INITIALIZE` and `TRANSMIT`
(41_engine_ops.md R154, R155, R157). -/

namespace Sys2Proof.Machine

/-! ### Writing a list of bytes -/

theorem pokeList_bytesKept (s : State) (v : View) (a : Word) (l : List Byte) :
    BytesKept s (s.pokeList v a l) (InRange a l.length) := by
  induction l generalizing s a with
  | nil => exact .refl s _
  | cons b l ih =>
    exact (BytesKept.mono (poke_bytesKept s v a b) fun c h => (inRange_cons ..).2 (.inl h)).trans
      ((ih (s.poke v a b) (a + 1)).mono fun c h => (inRange_cons ..).2 (.inr h))

/-- A list that does not wrap around the address space is read back byte by byte. -/
theorem pokeList_peek (s : State) (v : View) (a : Word) (l : List Byte) (hl : l.length ≤ 2 ^ 32) {k : Nat}
    (hk : k < l.length) : (s.pokeList v a l).peek v (a + BitVec.ofNat 32 k) = l[k] := by
  induction l generalizing s a k with
  | nil => exact absurd hk (Nat.not_lt_zero k)
  | cons b l ih =>
    have hlen : l.length + 1 ≤ 2 ^ 32 := hl
    have hshift : ∀ j, a + 1 + BitVec.ofNat 32 j = a + BitVec.ofNat 32 (j + 1) := fun j => by
      rw [Nat.add_comm j 1, BitVec.ofNat_add, BitVec.add_assoc]
      rfl
    cases k with
    | zero =>
      have hout : ¬InRange (a + 1) l.length (a + BitVec.ofNat 32 0) := by
        rintro ⟨j, hj, heq⟩
        rw [hshift] at heq
        exact add_ofNat_ne (by omega) (by omega) (by omega) heq
      refine ((pokeList_bytesKept (s.poke v a b) v (a + 1) l) v _ hout).trans ?_
      rw [show a + BitVec.ofNat 32 0 = a by simp]
      exact State.peek_poke_same s v a b
    | succ k =>
      rw [← hshift]
      exact ih (s.poke v a b) (a + 1) (by omega) (Nat.lt_of_succ_lt_succ hk)

/-- The data mover's bytes outside descriptor memory leave the `sw` view alone (R58). -/
theorem pokeList_peek_sw (s : State) (a : Word) (l : List Byte)
    (h : ∀ k < l.length, s.isDescriptorByte (a + BitVec.ofNat 32 k) = false) (c : Word) :
    (s.pokeList .hw a l).peek .sw c = s.peek .sw c := by
  induction l generalizing s a with
  | nil => rfl
  | cons b l ih =>
    have hhead : s.isDescriptorByte a = false := by simpa using h 0 (by simp)
    have hpoke : (s.poke .hw a b).peek .sw c = s.peek .sw c := by
      by_cases hc : c = a
      · rw [hc, State.peek_poke_data s .hw .sw b hhead]
        rfl
      · exact State.peek_poke_ne s .hw .sw b hc
    refine (ih (s.poke .hw a b) (a + 1) fun k hk => ?_).trans hpoke
    rw [State.poke_isDescriptorByte, show a + 1 + BitVec.ofNat 32 k = a + BitVec.ofNat 32 (k + 1) by
      rw [Nat.add_comm k 1, BitVec.ofNat_add, BitVec.add_assoc]; rfl]
    exact h (k + 1) (Nat.succ_lt_succ hk)

/-! ### One RX completion (R216) -/

theorem canRxComplete_of_legal {s : State} {sof : Bool} {data : List Byte} (he : s.channelEnabled .rx = true)
    (hp : s.rx.doneCnt < s.rx.hwCnt)
    (hl : data.length ≤ (s.getField .rx s.rx.oldestPosted .length).toNat)
    (hf : s.params.rxFraming = .free ∨ sof = s.rxFrameStart) : s.canRxComplete sof data = true := by
  have hposted : 0 < s.rx.postedCnt := Nat.sub_pos_of_lt hp
  rcases hf with hf | hf <;> simp [State.canRxComplete, he, hposted, hl, hf]

/-- The registers after an RX completion whose bytes have been written. -/
def State.rxDone (s : State) (e : Event) (eof : Bool) : State :=
  { (s.countDone .rx).emit e with rxFrameStart := eof }

theorem rxDone_keepsBytes (s : State) (e : Event) (eof : Bool) : KeepsBytes s (s.rxDone e eof) :=
  (KeepsBytes.setRing s .rx { s.rx with doneCnt := s.rx.doneCnt + 1 } rfl rfl rfl).trans
    ⟨rfl, rfl, rfl, rfl, rfl, fun x _ => by cases x <;> rfl⟩

/-- The memory after an RX completion: the data in the buffer, then the record's length and status. -/
def State.rxStore (s : State) (i : Nat) (data : List Byte) (sts : Word) : State :=
  ((s.pokeList .hw (s.getField .rx i .bufAddr) data).setField .rx i .length (BitVec.ofNat 32 data.length)).setField
    .rx i .sts sts

theorem rxComplete_legal {s : State} {sof : Bool} (eof err : Bool) {data : List Byte}
    (h : s.canRxComplete sof data = true) :
    rxComplete sof eof err data s =
      (s.rxStore s.rx.oldestPosted data (stsWord sof eof err)).rxDone
        (.rxData (BitVec.ofNat 16 s.rx.oldestPosted) data) eof := if_pos h

theorem rxStore_sameButMemory (s : State) (i : Nat) (data : List Byte) (sts : Word) :
    SameButMemory s (s.rxStore i data sts) :=
  ((pokeList_sameButMemory ..).trans (setField_sameButMemory ..)).trans (setField_sameButMemory ..)

/-- What the stores of an RX completion leave, when the buffer does not lie in descriptor memory. -/
structure RxStored (s t : State) (i : Nat) (data : List Byte) (sts : Word) : Prop where
  length : t.getField .rx i .length = BitVec.ofNat 32 data.length
  sts : t.getField .rx i .sts = sts
  bufAddr : t.getField .rx i .bufAddr = s.getField .rx i .bufAddr
  ctrl : t.getField .rx i .ctrl = s.getField .rx i .ctrl
  hw : ∀ (k : Nat) (h : k < data.length),
    t.peek .hw (s.getField .rx i .bufAddr + BitVec.ofNat 32 k) = data[k]
  sw : ∀ k < data.length, t.peek .sw (s.getField .rx i .bufAddr + BitVec.ofNat 32 k) =
    s.peek .sw (s.getField .rx i .bufAddr + BitVec.ofNat 32 k)
  frame : BytesKept s t fun a =>
    InRange (s.getField .rx i .bufAddr) data.length a ∨ s.InField .rx i .length a ∨ s.InField .rx i .sts a

theorem rxStore_stored {s : State} (hok : s.rx.Ok) (hc : s.rx.created = true) {i : Nat} (hi : i < s.rx.size)
    {data : List Byte} (hlen : data.length ≤ 2 ^ 32) (sts : Word)
    (hbuf : ∀ k < data.length, s.isDescriptorByte (s.getField .rx i .bufAddr + BitVec.ofNat 32 k) = false) :
    RxStored s (s.rxStore i data sts) i data sts := by
  have hfield : ∀ (f : BdField), ∀ k < 4, s.isDescriptorByte (s.rx.slotAddr i + f.offset + BitVec.ofNat 32 k) = true :=
    fun f k hk => RingRegs.Ok.isDescriptorByte_field (x := .rx) hok hc hi f hk
  have hapart : ∀ (f : BdField), ∀ k < 4, ¬InRange (s.getField .rx i .bufAddr) data.length
      (s.rx.slotAddr i + f.offset + BitVec.ofNat 32 k) := by
    rintro f k hk ⟨j, hj, heq⟩
    have := hfield f k hk
    rw [heq, hbuf j hj] at this
    cases this
  have houtside : ∀ f, ∀ k < data.length, ¬s.InField .rx i f (s.getField .rx i .bufAddr + BitVec.ofNat 32 k) := by
    rintro f k hk ⟨j, hj, heq⟩
    exact hapart f j hj ⟨k, hk, heq.symm⟩
  have hkept := pokeList_bytesKept s .hw (s.getField .rx i .bufAddr) data
  have hdata := fun k hk => pokeList_peek s .hw (s.getField .rx i .bufAddr) data hlen (k := k) hk
  have hsw := pokeList_peek_sw s (s.getField .rx i .bufAddr) data hbuf
  have hring : (s.pokeList .hw (s.getField .rx i .bufAddr) data).rx = s.rx :=
    (pokeList_sameButMemory ..).same State.rx rfl
  have hstored : s.rxStore i data sts =
    ((s.pokeList .hw (s.getField .rx i .bufAddr) data).setField .rx i .length
      (BitVec.ofNat 32 data.length)).setField .rx i .sts sts := rfl
  rw [hstored]
  generalize s.pokeList .hw (s.getField .rx i .bufAddr) data = u at *
  have hget : ∀ f, u.getField .rx i f = s.getField .rx i f := fun f =>
    hkept.getField (by rw [State.ring_rx, hring, State.ring_rx]) (hapart f)
  have hin : ∀ f a, u.InField .rx i f a ↔ s.InField .rx i f a := fun f a => by
    rw [State.InField, State.ring_rx, hring]
    rfl
  have hfields : BytesKept u ((u.setField .rx i .length (BitVec.ofNat 32 data.length)).setField .rx i .sts sts)
      fun a => s.InField .rx i .length a ∨ s.InField .rx i .sts a :=
    ((setField_bytesKept u .rx i .length _).mono fun a h => .inl ((hin ..).1 h)).trans
      ((setField_bytesKept _ .rx i .sts _).mono fun a h => .inr ((hin ..).1 ((setField_inField ..).1 h)))
  refine ⟨?_, State.getField_setField .., ?_, ?_, fun k hk => ?_, fun k hk => ?_, ?_⟩
  · rw [State.getField_setField_ne _ _ _ _ (by decide), State.getField_setField]
  · rw [State.getField_setField_ne _ _ _ _ (by decide), State.getField_setField_ne _ _ _ _ (by decide), hget]
  · rw [State.getField_setField_ne _ _ _ _ (by decide), State.getField_setField_ne _ _ _ _ (by decide), hget]
  · rw [hfields .hw _ (not_or.2 ⟨houtside _ k hk, houtside _ k hk⟩), hdata k hk]
  · rw [hfields .sw _ (not_or.2 ⟨houtside _ k hk, houtside _ k hk⟩), hsw]
  · exact (hkept.mono fun a h => .inl h).trans (hfields.mono fun a h => .inr h)

/-- Settles O55. -/
theorem rxCompletion : Obligations.RxCompletion := by
  intro s sof eof err data i buf hu hmove hc hok hrun hreset hposted hlen hframing hbuf
  rw [step_move hu hmove (by simp) (by simp) (by simp)]
  have henabled : s.popAgenda.channelEnabled .rx = true := (channelEnabled_iff ..).2 ⟨hc, hrun, hreset⟩
  have hlegal := canRxComplete_of_legal (s := s.popAgenda) henabled hposted hlen hframing
  have hi : i < s.rx.size := Nat.mod_lt _ hok.nonempty
  obtain ⟨hlength, hsts, haddr, hctrl, hhw, hsw, hframe⟩ := rxStore_stored (s := s.popAgenda) hok hc (i := i) hi
    (hlen.trans (BitVec.isLt _).le) (stsWord sof eof err) hbuf
  have hsame := rxStore_sameButMemory s.popAgenda i data (stsWord sof eof err)
  refine ⟨_, congrArg _ (rxComplete_legal (s := s.popAgenda) eof err hlegal), ?_⟩
  have hi' : s.popAgenda.rx.oldestPosted = i := rfl
  rw [hi']
  generalize s.popAgenda.rxStore i data (stsWord sof eof err) = u at *
  have hbytes := rxDone_keepsBytes u (.rxData (BitVec.ofNat 16 i) data) eof
  have hrx : u.rx = s.rx := hsame.same State.rx rfl
  have hout : u.out = s.out := hsame.same State.out rfl
  refine ⟨?_, (hbytes.getField rfl _).trans hlength, (hbytes.getField rfl _).trans (hsts.trans (stsWord_eq ..)),
    (hbytes.getField rfl _).trans haddr, (hbytes.getField rfl _).trans hctrl,
    fun k hk => (hbytes.peek ..).trans (hhw k hk), fun k hk => (hbytes.peek ..).trans (hsw k hk), ?_, ?_,
    hframe.trans (hbytes.bytesKept _)⟩
  · rw [← hrx]
    rfl
  · rw [← hout]
    rfl
  · exact congrArg (fun z : State => { z with
      rx := s.rx, out := s.out, rxFrameStart := s.rxFrameStart }) hsame

/-! ### Failures of `INITIALIZE` (R154) -/

theorem failInit_eq (c : Code) (s : State) :
    failInit c s =
      { s with
        out := s.out ++ [.ret 0x20 c []]
        engState := .uninit
        stack := s.stack.dropLast
        sync := { s.sync with busyRing := none, op := .none } } := rfl

/-- The three lookup answers are checked one after the other. -/
theorem initStep_lookupFails {s : State} {c : Code}
    (h : s.sync.step = 1 ∧ s.sync.lookup.cfgFound = false ∧ c = .configurationMissing ∨
      s.sync.step = 2 ∧ s.sync.lookup.cfgBindOk = false ∧ c = .configMismatch ∨
      s.sync.step = 3 ∧ s.sync.lookup.hasSg = false ∧ c = .unsupportedMode) : initStep s = failInit c s := by
  rcases h with ⟨hk, hl, rfl⟩ | ⟨hk, hl, rfl⟩ | ⟨hk, hl, rfl⟩
  · simp [initStep, hk, initI1, hl]
  · simp [initStep, hk, initI2, hl]
  · simp [initStep, hk, initI3, hl]

/-- Settles O37. -/
theorem lookupFailuresReported : Obligations.LookupFailuresReported := by
  intro s c hturn hop h
  rw [step_initialize hturn hop]
  exact congrArg _ ((initStep_lookupFails (s := s.popAgenda) h).trans (failInit_eq ..))

/-! ### Failures of `TRANSMIT` (R155, R157) -/

theorem transmitStep_one {s : State} (h : s.sync.step = 1) : transmitStep s = txT1 s := by
  simp [transmitStep, h]

theorem transmitStep_eight {s : State} (h : s.sync.step = 8) : transmitStep s = txT8 s := by
  simp [transmitStep, h]

/-- A full ring has no slot to claim. -/
theorem primReserve_full {s : State} {x : Ring} {n : Half} (hc : (s.ring x).created = true) (hn : n ≠ 0)
    (hfull : (s.ring x).freeCnt < n) : primReserve x n s = (⟨.noSlotsAvailable, []⟩, s) :=
  (needRing_created _ hc).trans ((if_neg hn).trans (if_pos hfull))

theorem txT1_full {s : State} (he : s.engState ≠ .halted) (hc : s.tx.created = true) (hf : s.tx.freeCnt = 0) :
    txT1 s = endTransmit .noSlotsAvailable (s.setBusy (some .tx)) :=
  inFlight_failure (s := s.setBusy (some .tx)) _ _ (.inl he) (by decide)
    (primReserve_full (x := .tx) hc (by decide) (by
      change s.tx.freeCnt < 1
      rw [hf]
      decide))

/-- A length of 0 fails `COMMIT` at T7, and its code is carried to T8. -/
theorem txT7_fails {s : State} (he : s.engState ≠ .halted) (hc : s.tx.created = true) (hok : s.tx.Ok)
    (hpre : s.tx.preCnt = 1) (hd : s.sync.d.toNat = s.tx.preHead) (hlen : s.getField .tx s.tx.preHead .length = 0) :
    txT7 s = txFail .invalidDescriptor s := by
  have hidx : s.tx.idx (txDesc s) = some s.tx.preHead := by
    rw [txDesc, hd]
    exact hok.idx_slotAddr hok.preHead_lt
  refine inFlight_failure _ _ (.inl he) (by decide)
    (primCommit_invalidDescriptor (x := .tx) (j := 0) hc (by decide) ?_ hidx (by decide) ?_)
  · change 1 ≤ s.tx.preCnt
    rw [hpre]
    decide
  · have hslot : batchSlot s.tx.size s.tx.preHead 0 = s.tx.preHead := Nat.mod_eq_of_lt hok.preHead_lt
    exact lengthOk_eq_false (.inl (by rw [State.ring_tx, hslot]; exact hlen))

/-- T8 releases the reserved slot and answers the carried code. -/
theorem txT8_releases {s : State} (he : s.engState ≠ .halted) (hc : s.tx.created = true) (hok : s.tx.Ok)
    (hpre : s.tx.preCnt = 1) (hd : s.sync.d.toNat = s.tx.preHead) :
    txT8 s = endTransmit s.sync.err
      { s with tx := { s.tx with preCnt := s.tx.preCnt - 1, freeCnt := s.tx.freeCnt + 1 } } := by
  have hhead : (s.tx.freeHead + s.tx.size - 1) % s.tx.size = s.tx.preHead := by
    have hback := freeHead_back (a := s.tx.preHead) (p := 0) (n := 1) hok.nonempty hok.nonempty
    simp only [Nat.zero_add, Nat.add_zero, Nat.mod_eq_of_lt hok.preHead_lt] at hback
    have hone : s.tx.preCnt.toNat = 0 + 1 := by rw [hpre]; rfl
    rw [RingRegs.freeHead, hone]
    exact hback
  have hidx : s.tx.idx (txDesc s) = some ((s.tx.freeHead + s.tx.size - 1) % s.tx.size) := by
    rw [hhead, txDesc, hd]
    exact hok.idx_slotAddr hok.preHead_lt
  refine inFlight_success _ _ (.inl he) (primUnreserve_succeeds (x := .tx) hc (by decide) ?_ hidx)
  change 1 ≤ s.tx.preCnt
  rw [hpre]
  decide

/-- The micro-step T8 of an undisturbed `TRANSMIT`. -/
theorem step_txT8 {s : State} (hund : s.undisturbed .sync) (hop : s.sync.op = .transmit) (hstep : s.sync.step = 8)
    (he : s.engState ≠ .halted) (hc : s.tx.created = true) (hok : s.tx.Ok) (hpre : s.tx.preCnt = 1)
    (hd : s.sync.d.toNat = s.tx.preHead) :
    step s = .next (endTransmit s.sync.err
      { s.popAgenda with tx := { s.tx with preCnt := s.tx.preCnt - 1, freeCnt := s.tx.freeCnt + 1 } }) := by
  rw [step_transmit hund.turnOf hop, transmitStep_eight (s := s.popAgenda) hstep]
  exact congrArg _ (txT8_releases (s := s.popAgenda) he hc hok hpre hd)

/-- Settles O40. -/
theorem transmitErrorPaths : Obligations.TransmitErrorPaths := by
  refine ⟨fun s hturn hop hstep he hc hf => ?_, fun s hund hop hstep he hc hok hpre hd hlen => ?_⟩
  · rw [step_transmit hturn hop, transmitStep_one (s := s.popAgenda) hstep]
    exact congrArg _ ((txT1_full (s := s.popAgenda) he hc hf).trans (endTransmit_eq ..))
  · have h7 : step s = .next (txFail .invalidDescriptor s.popAgenda) := by
      rw [step_transmit hund.turnOf hop, transmitStep_seven (s := s.popAgenda) hstep]
      exact congrArg _ (txT7_fails (s := s.popAgenda) he hc hok hpre hd hlen)
    have hund' : (txFail .invalidDescriptor s.popAgenda).undisturbed .sync := by
      obtain ⟨hu, ha, ht⟩ := hund
      exact ⟨hu, by simp [txFail, ha], ht⟩
    obtain ⟨u, hu⟩ : ∃ u, txFail .invalidDescriptor s.popAgenda = u := ⟨_, rfl⟩
    rw [hu] at h7 hund'
    have htx : u.tx = s.tx := by subst hu; rfl
    have herr : u.sync.err = .invalidDescriptor := by subst hu; rfl
    have hsd : u.sync.d = s.sync.d := by subst hu; rfl
    have h8 := step_txT8 hund' (by subst hu; exact hop) (by subst hu; rfl) (by subst hu; exact he)
      (by rw [htx]; exact hc) (by rw [htx]; exact hok) (by rw [htx]; exact hpre) (by rw [htx, hsd]; exact hd)
    rw [herr, htx, endTransmit_eq] at h8
    refine ⟨_, (steps_succ_of_next 1 h7).trans (steps_succ_of_next 0 h8), ?_, rfl, ?_, ?_, ?_, ?_⟩
    · subst hu
      rfl
    · subst hu
      rfl
    · have hzero : s.tx.preCnt - 1 = 0 := by rw [hpre]; rfl
      exact congrArg (fun n => { s.tx with preCnt := n, freeCnt := s.tx.freeCnt + 1 }) hzero
    · subst hu
      rfl
    · subst hu
      refine KeepsBytes.bytesKept ⟨rfl, rfl, rfl, rfl, rfl, fun x _ => ?_⟩ _
      cases x <;> rfl

end Sys2Proof.Machine
end

section
/-! PROOF. `TRANSMIT` that nothing disturbs (41_engine_ops.md R155, R156): the slots that `RESERVE` claims, and the
eight micro-steps one after the other. -/

namespace Sys2Proof.Machine

/-! ### Steps that nothing disturbs -/

theorem popAgenda_of_nil {s : State} (h : s.agenda = []) : s.popAgenda = s := by
  have htail : s.agenda.tail = s.agenda := by rw [h]; rfl
  exact congrArg (fun l => { s with agenda := l }) htail

theorem step_transmit_undisturbed {s : State} (h : s.undisturbed .sync) (hop : s.sync.op = .transmit) :
    step s = .next (transmitStep s) :=
  (step_transmit h.turnOf hop).trans (congrArg (fun t => Host.Outcome.next (transmitStep t)) (popAgenda_of_nil h.2.1))

/-! ### Claimed slots -/

/-- Counting `k` slots on from the head gives the slot at distance `k`. -/
theorem slotOffset_add {N h k : Nat} (hh : h < N) (hk : k < N) : slotOffset N h ((h + k) % N) = k := by
  have hm := mod_of_lt_two_mul (a := h + k) (N := N) (by omega)
  rw [slotOffset_eq hh (Nat.mod_lt _ (by omega)), hm]
  split <;> split <;> omega

theorem RingRegs.Ok.claimed {r : RingRegs} (h : r.Ok) {n : Half} (hle : n ≤ r.freeCnt) : (r.claimed n).Ok := by
  obtain ⟨hcap, hdone, hhead, hsize⟩ := h.bounds
  have hfree : (r.freeCnt - n).toNat = r.freeCnt.toNat - n.toNat := BitVec.toNat_sub_of_le hle
  have hn : n.toNat ≤ r.freeCnt.toNat := BitVec.le_def.1 hle
  have hpre : (r.preCnt + n).toNat = r.preCnt.toNat + n.toNat := by
    rw [BitVec.toNat_add, Nat.mod_eq_of_lt (by omega)]
  refine h.recount rfl rfl rfl rfl rfl hhead ?_ hdone
  change r.postCnt.toNat + r.hwCnt.toNat + (r.preCnt + n).toNat + (r.freeCnt - n).toNat = r.size
  omega

/-- The slots from `pre_head` on, as many as `pre_cnt` says, are `RESERVED`. -/
theorem RingRegs.Ok.slotState_reserved {r : RingRegs} (h : r.Ok) {j : Nat} (hj : j < r.preCnt.toNat) :
    r.slotState ((r.preHead + j) % r.size) = .reserved := by
  obtain ⟨hcap, hdone, hhead, -⟩ := h.bounds
  have hslot : (r.preHead + j) % r.size = (r.postHead.toNat + (r.postCnt.toNat + r.hwCnt.toNat + j)) % r.size := by
    simp only [RingRegs.preHead, RingRegs.hwHead, Nat.mod_add_mod, Nat.add_assoc]
  rw [slotState_reserved_iff h, hslot, slotOffset_add hhead (by omega)]
  omega

/-- With nothing reserved, the next slot to claim is at `pre_head`. -/
theorem RingRegs.Ok.freeHead_of_preCnt {r : RingRegs} (h : r.Ok) (hpre : r.preCnt = 0) : r.freeHead = r.preHead := by
  have hzero : r.preCnt.toNat = 0 := by rw [hpre]; rfl
  rw [RingRegs.freeHead, hzero, Nat.add_zero, Nat.mod_eq_of_lt h.preHead_lt]

theorem RingRegs.Ok.toNat_ofNat_freeHead {r : RingRegs} (h : r.Ok) :
    (BitVec.ofNat 16 r.freeHead).toNat = r.freeHead := by
  obtain ⟨-, -, -, hsize⟩ := h.bounds
  rw [BitVec.toNat_ofNat, Nat.mod_eq_of_lt (h.freeHead_lt.trans hsize)]

theorem primBdSetAddr_succeeds {s : State} {x : Ring} {d a : Word} {i : Nat} (hc : (s.ring x).created = true)
    (hd : (s.ring x).idx d = some i) (hr : (s.ring x).slotState i = .reserved) :
    primBdSetAddr x d a s = (Reply.ok [], s.setField x i .bufAddr a) := needReserved_succeeds _ hc hd hr

theorem primBdSetCtrl_succeeds {s : State} {x : Ring} {m : BitVec 2} {d : Word} {i : Nat}
    (hc : (s.ring x).created = true) (hd : (s.ring x).idx d = some i) (hr : (s.ring x).slotState i = .reserved) :
    primBdSetCtrl x m d s = (Reply.ok [], s.setField x i .ctrl (ctrlWord m)) := needReserved_succeeds _ hc hd hr

/-- What posting leaves alone: all but the rings, the memory and the marks. -/
theorem commitBatch_keeps {β : Type} (s : State) (x : Ring) (n : Half) (g : State → β)
    (hg : g { s.commitBatch x n with
      rx := s.rx, tx := s.tx, memSw := s.memSw, memHw := s.memHw, hwLog := s.hwLog, txMarks := s.txMarks } =
        g (s.commitBatch x n)) : g (s.commitBatch x n) = g s :=
  hg.symm.trans (congrArg g (commitBatch_same s x n))

/-! ### The micro-steps T1 to T7 -/

/-- What every `TRANSMIT` that claims a slot needs: a ready engine and a free slot on a ring without reserved ones. -/
structure State.CanClaim (s : State) : Prop where
  undisturbed : s.undisturbed .sync
  op : s.sync.op = .transmit
  ready : s.engState = .ready
  created : s.tx.created = true
  ok : s.tx.Ok
  preCnt : s.tx.preCnt = 0
  freeCnt : s.tx.freeCnt ≠ 0

/-- The registers within a `TRANSMIT` that has claimed its slot: the step `k` comes next, the trace is `o`. -/
def State.txSpan (s : State) (k : BitVec 8) (o : List Event) : State :=
  { s with
    tx := s.tx.claimed 1
    out := o
    sync := { s.sync with step := k, busyRing := some .tx, d := BitVec.ofNat 16 s.tx.freeHead } }

theorem one_le_of_ne_zero {n : Half} (h : n ≠ 0) : (1 : Half) ≤ n := by
  have := mt (BitVec.eq_of_toNat_eq (x := n) (y := 0)) h
  rw [BitVec.le_def]
  change n.toNat ≠ 0 at this
  exact Nat.one_le_iff_ne_zero.2 this

theorem txT1_claims {s : State} (h : s.CanClaim) : txT1 s = s.txSpan 2 s.out := by
  have hslot : (s.setRing .tx (s.tx.claimed 1)).slotOf .tx (s.tx.slotAddr s.tx.freeHead) =
      BitVec.ofNat 16 s.tx.freeHead := slotOf_slotAddr h.ok h.ok.freeHead_lt rfl
  refine (inFlight_success (s := s.setBusy (some .tx)) _ _ (.inl (by rw [State.setBusy, h.ready]; decide))
    (primReserve_succeeds (x := .tx) h.created (by decide) (one_le_of_ne_zero h.freeCnt))).trans ?_
  exact congrArg (fun d => { s with
    tx := s.tx.claimed 1, sync := { s.sync with step := 2, busyRing := some .tx, d := d } }) hslot

/-- Within the span of its slot, `TRANSMIT` has changed no register but those of the span. -/
abbrev TxStage (s u : State) (k : BitVec 8) (o : List Event) : Prop := SameButMemory (s.txSpan k o) u

section
variable {s u : State} {k : BitVec 8} {o : List Event}

theorem TxStage.goStep (h : TxStage s u k o) (k' : BitVec 8) : TxStage s (u.goStep k') k' o :=
  congrArg (State.goStep · k') h

theorem TxStage.store {v : State} (h : TxStage s u k o) (hv : SameButMemory u v) (k' : BitVec 8) :
    TxStage s (v.goStep k') k' o :=
  TxStage.goStep (k := k) (SameButMemory.trans h hv) k'

theorem TxStage.flush (h : TxStage s u k o) (a n : Word) : TxStage s (u.flush a n) k (o ++ [.flush a n]) :=
  congrArg (State.emit · (.flush a n)) (SameButMemory.trans h
    (overRange_sameButMemory (fun s a => poke_sameButMemory s .hw a _) a n.toNat u))

theorem TxStage.tx (h : TxStage s u k o) : u.tx = s.tx.claimed 1 := h.same State.tx rfl

theorem TxStage.inField (h : TxStage s u k o) (i : Nat) (f : BdField) (a : Word) :
    u.InField .tx i f a ↔ s.InField .tx i f a := by
  rw [State.InField, State.ring_tx, h.tx]
  rfl

theorem TxStage.undisturbed (h : TxStage s u k o) (hs : s.CanClaim) : u.undisturbed .sync := by
  obtain ⟨⟨hfault, hrefused⟩, hagenda, htop⟩ := hs.undisturbed
  have hstack : u.stack = s.stack := h.same State.stack rfl
  exact ⟨⟨(h.same State.fault rfl).trans hfault, (h.same State.refused rfl).trans hrefused⟩,
    (h.same State.agenda rfl).trans hagenda, by rw [State.top, hstack]; exact htop⟩

theorem TxStage.step_eq (h : TxStage s u k o) (hs : s.CanClaim) : step u = .next (transmitStep u) :=
  step_transmit_undisturbed (h.undisturbed hs) ((h.same (fun z => z.sync.op) rfl).trans hs.op)

theorem TxStage.at_step (h : TxStage s u k o) : u.sync.step = k := h.same (fun z => z.sync.step) rfl

theorem TxStage.not_halted (h : TxStage s u k o) (hs : s.CanClaim) : u.engState ≠ .halted := by
  rw [show u.engState = s.engState from h.same State.engState rfl, hs.ready]
  decide

theorem TxStage.tx_created (h : TxStage s u k o) (hs : s.CanClaim) : u.tx.created = true := by
  rw [h.tx]
  exact hs.created

theorem TxStage.tx_ok (h : TxStage s u k o) (hs : s.CanClaim) : u.tx.Ok := by
  rw [h.tx]
  exact hs.ok.claimed (one_le_of_ne_zero hs.freeCnt)

/-- The claimed slot is the one reserved slot, and `d` names it. -/
theorem TxStage.tx_preHead (h : TxStage s u k o) (hs : s.CanClaim) : u.tx.preHead = s.tx.freeHead := by
  rw [h.tx]
  exact (hs.ok.freeHead_of_preCnt hs.preCnt).symm

theorem TxStage.idx_desc (h : TxStage s u k o) (hs : s.CanClaim) :
    u.tx.idx (txDesc u) = some s.tx.freeHead := by
  have hd : u.sync.d = BitVec.ofNat 16 s.tx.freeHead := h.same (fun z => z.sync.d) rfl
  rw [txDesc, hd, hs.ok.toNat_ofNat_freeHead, h.tx]
  exact hs.ok.idx_slotAddr hs.ok.freeHead_lt

theorem TxStage.preCnt_eq (h : TxStage s u k o) (hs : s.CanClaim) : u.tx.preCnt = 1 := by
  rw [h.tx]
  change s.tx.preCnt + 1 = 1
  rw [hs.preCnt]
  rfl

theorem TxStage.reserved (h : TxStage s u k o) (hs : s.CanClaim) : u.tx.slotState s.tx.freeHead = .reserved := by
  have hfirst := (h.tx_ok hs).slotState_reserved (j := 0) (by rw [h.preCnt_eq hs]; decide)
  rwa [Nat.add_zero, Nat.mod_eq_of_lt (h.tx_ok hs).preHead_lt, h.tx_preHead hs] at hfirst

/-- The batch that T7 posts is the claimed slot. -/
theorem TxStage.commit_slot (h : TxStage s u k o) (hs : s.CanClaim) {j : Nat} (hj : j < (1 : Half).toNat) :
    batchSlot (u.ring .tx).size (u.ring .tx).preHead j = s.tx.freeHead := by
  obtain rfl : j = 0 := Nat.lt_one_iff.1 hj
  rw [State.ring_tx, ← h.tx_preHead hs]
  exact Nat.mod_eq_of_lt (h.tx_ok hs).preHead_lt

/-- T2: the staging copy. -/
theorem TxStage.copies (h : TxStage s u 2 o) (hs : s.CanClaim)
    (hsource : sourceOk s.params s.cfg s.sync.buffer s.sync.size = true) :
    step u = .next ((u.copyUp s.cfg.txBufBase s.sync.buffer s.sync.size.toNat).goStep 3) := by
  have hcfg : u.cfg = s.cfg := h.same State.cfg rfl
  have hparams : u.params = s.params := h.same State.params rfl
  have hbuffer : u.sync.buffer = s.sync.buffer := h.same (fun z => z.sync.buffer) rfl
  have hsize : u.sync.size = s.sync.size := h.same (fun z => z.sync.size) rfl
  have hT2 : transmitStep u = txT2 u := by simp [transmitStep, h.at_step]
  rw [h.step_eq hs, hT2, txT2, hcfg, hparams, hbuffer, hsize, if_pos hsource]

/-- T3: the flush of the staging copy. -/
theorem TxStage.flushes (h : TxStage s u 3 o) (hs : s.CanClaim) :
    step u = .next ((u.flush s.cfg.txBufBase s.sync.size).goStep 4) := by
  have hcfg : u.cfg = s.cfg := h.same State.cfg rfl
  have hsize : u.sync.size = s.sync.size := h.same (fun z => z.sync.size) rfl
  have hT3 : transmitStep u = txT3 u := by simp [transmitStep, h.at_step]
  rw [h.step_eq hs, hT3, txT3, hcfg, hsize]

/-- T4: the slot's buffer is the staging region. -/
theorem TxStage.setsAddr (h : TxStage s u 4 o) (hs : s.CanClaim) :
    step u = .next ((u.setField .tx s.tx.freeHead .bufAddr s.cfg.txBufBase).goStep 5) := by
  have hcfg : u.cfg = s.cfg := h.same State.cfg rfl
  have hT4 : transmitStep u = txT4 u := by simp [transmitStep, h.at_step]
  rw [h.step_eq hs, hT4, ← hcfg]
  exact congrArg _ (inFlight_success _ _ (.inl (h.not_halted hs))
    (primBdSetAddr_succeeds (x := .tx) (h.tx_created hs) (h.idx_desc hs) (h.reserved hs)))

/-- T5: the slot's length is the frame's. -/
theorem TxStage.setsLen (h : TxStage s u 5 o) (hs : s.CanClaim) (hmax : s.sync.size ≤ s.tx.maxLen) :
    step u = .next ((u.setField .tx s.tx.freeHead .length s.sync.size).goStep 6) := by
  have hsize : u.sync.size = s.sync.size := h.same (fun z => z.sync.size) rfl
  have hT5 : transmitStep u = txT5 u := by simp [transmitStep, h.at_step]
  rw [h.step_eq hs, hT5, ← hsize]
  exact congrArg _ (inFlight_success _ _ (.inl (h.not_halted hs))
    (primBdSetLen_succeeds (x := .tx) (h.tx_created hs) (h.idx_desc hs) (h.reserved hs)
      (by rw [State.ring_tx, h.tx, hsize]; exact hmax)))

/-- T6: the slot holds a whole frame. -/
theorem TxStage.setsCtrl (h : TxStage s u 6 o) (hs : s.CanClaim) :
    step u = .next ((u.setField .tx s.tx.freeHead .ctrl 3).goStep 7) := by
  have hT6 : transmitStep u = txT6 u := by simp [transmitStep, h.at_step]
  rw [h.step_eq hs, hT6]
  exact congrArg _ (inFlight_success _ _ (.inl (h.not_halted hs))
    (primBdSetCtrl_succeeds (x := .tx) (h.tx_created hs) (h.idx_desc hs) (h.reserved hs)))

/-- T7: the slot is posted, and `TRANSMIT` ends. -/
theorem TxStage.commits (h : TxStage s u 7 o) (hs : s.CanClaim)
    (hlen : u.getField .tx s.tx.freeHead .length = s.sync.size) (hpos : s.sync.size ≠ 0)
    (hmax : s.sync.size ≤ s.tx.maxLen) : step u = .next (endTransmit .success (u.commitBatch .tx 1)) := by
  have hT7 : transmitStep u = txT7 u := transmitStep_seven h.at_step
  have hfirst : (u.ring .tx).idx (txDesc u) = some (u.ring .tx).preHead := by
    rw [State.ring_tx, h.tx_preHead hs]
    exact h.idx_desc hs
  rw [h.step_eq hs, hT7]
  refine congrArg _ (inFlight_success _ _ (.inl (h.not_halted hs))
    (primCommit_batch (x := .tx) (h.tx_created hs) (by decide) ?_ hfirst fun j hj => ?_))
  · change 1 ≤ u.tx.preCnt
    rw [h.preCnt_eq hs]
    decide
  · rw [h.commit_slot hs hj, hlen, State.ring_tx, h.tx]
    exact ⟨hpos, hmax⟩

end

/-! ### The bytes of an undisturbed `TRANSMIT` -/

section
variable (s : State) (dst src n : Word)

/-- The staging region after T2 and T3. -/
def State.staged : State := (((s.copyUp dst src n.toNat).goStep 3).flush dst n).goStep 4

theorem staged_bytesKept : BytesKept s (s.staged dst src n) (InRange dst n.toNat) :=
  (copyUp_bytesKept s dst src n.toNat).trans fun v a ha =>
    (flush_peek ((s.copyUp dst src n.toNat).goStep 3) dst n a v).2 ha

/-- Where the source does not overlap the staging region, the `hw` view of the staging region is the caller's
bytes. -/
theorem staged_peek_hw (h : ∀ k < n.toNat, ¬InRange dst n.toNat (src + BitVec.ofNat 32 k)) {k : Nat}
    (hk : k < n.toNat) :
    (s.staged dst src n).peek .hw (dst + BitVec.ofNat 32 k) = s.peek .sw (src + BitVec.ofNat 32 k) := by
  have hflushed := (flush_peek ((s.copyUp dst src n.toNat).goStep 3) dst n (dst + BitVec.ofNat 32 k) .hw).1
    ⟨k, hk, rfl⟩
  refine hflushed.trans ((copyUp_peek_sw s dst src n.isLt.le hk).trans ?_)
  exact copyUp_bytesKept s dst src k .sw _ fun ⟨j, hj, heq⟩ => h k hk ⟨j, hj.trans hk, heq⟩

end

/-- The record of a frame after T4 to T6. -/
def State.described (s : State) (i : Nat) (a l c : Word) : State :=
  (((((s.setField .tx i .bufAddr a).goStep 5).setField .tx i .length l).goStep 6).setField .tx i .ctrl c).goStep 7

section
variable (s : State) (i : Nat) (a l c : Word)

theorem described_bytesKept : BytesKept s (s.described i a l c) fun b => ∃ f, s.InField .tx i f b := by
  have haddr := setField_bytesKept s .tx i .bufAddr a
  have hlen := setField_bytesKept ((s.setField .tx i .bufAddr a).goStep 5) .tx i .length l
  have hctrl := setField_bytesKept
    ((((s.setField .tx i .bufAddr a).goStep 5).setField .tx i .length l).goStep 6) .tx i .ctrl c
  exact (haddr.mono fun b hb => ⟨_, hb⟩).trans ((hlen.mono fun b hb => ⟨_, hb⟩).trans
    (hctrl.mono fun b hb => ⟨_, hb⟩))

theorem described_bufAddr : (s.described i a l c).getField .tx i .bufAddr = a := by
  have hctrl := State.getField_setField_ne
    ((((s.setField .tx i .bufAddr a).goStep 5).setField .tx i .length l).goStep 6) .tx i c
    (f := .ctrl) (g := .bufAddr) (by decide)
  have hlen := State.getField_setField_ne ((s.setField .tx i .bufAddr a).goStep 5) .tx i l
    (f := .length) (g := .bufAddr) (by decide)
  exact hctrl.trans (hlen.trans (State.getField_setField ..))

theorem described_length : (s.described i a l c).getField .tx i .length = l := by
  have hctrl := State.getField_setField_ne
    ((((s.setField .tx i .bufAddr a).goStep 5).setField .tx i .length l).goStep 6) .tx i c
    (f := .ctrl) (g := .length) (by decide)
  exact hctrl.trans (State.getField_setField ((s.setField .tx i .bufAddr a).goStep 5) .tx i .length l)

theorem described_ctrl : (s.described i a l c).getField .tx i .ctrl = c :=
  State.getField_setField ((((s.setField .tx i .bufAddr a).goStep 5).setField .tx i .length l).goStep 6) .tx i .ctrl c

end

/-! ### The whole operation -/

theorem txSpan_keepsBytes (s : State) (k : BitVec 8) (o : List Event) : KeepsBytes s (s.txSpan k o) :=
  ⟨rfl, rfl, rfl, rfl, rfl, fun x _ => by cases x <;> rfl⟩

theorem endTransmit_keepsBytes (c : Code) (s : State) : KeepsBytes s (endTransmit c s) :=
  ⟨rfl, rfl, rfl, rfl, rfl, fun x _ => by cases x <;> rfl⟩

/-- The state before T7. -/
def State.framed (s : State) : State :=
  ((s.txSpan 2 s.out).staged s.cfg.txBufBase s.sync.buffer s.sync.size).described s.tx.freeHead s.cfg.txBufBase
    s.sync.size 3

theorem txSpan_copied (s : State) :
    TxStage s (((s.txSpan 2 s.out).copyUp s.cfg.txBufBase s.sync.buffer s.sync.size.toNat).goStep 3) 3 s.out :=
  TxStage.store (k := 2) (.refl _) (copyUp_sameButMemory ..) 3

theorem txSpan_staged (s : State) :
    TxStage s ((s.txSpan 2 s.out).staged s.cfg.txBufBase s.sync.buffer s.sync.size) 4
      (s.out ++ [.flush s.cfg.txBufBase s.sync.size]) :=
  ((txSpan_copied s).flush _ _).goStep 4

theorem step_goStep_one {s : State} (hs : s.CanClaim) : step (s.goStep 1) = .next (s.txSpan 2 s.out) := by
  have hs' : (s.goStep 1).CanClaim :=
    ⟨hs.undisturbed, hs.op, hs.ready, hs.created, hs.ok, hs.preCnt, hs.freeCnt⟩
  rw [step_transmit_undisturbed hs'.undisturbed hs'.op, transmitStep_one (s := s.goStep 1) rfl]
  exact congrArg _ (txT1_claims hs')

/-- The micro-steps T0 to T6. -/
theorem steps_framed {s : State} (hs : s.CanClaim) (hstep : s.sync.step = 0) (hfits : s.sync.size ≤ s.cfg.bufSize)
    (hmax : s.sync.size ≤ s.tx.maxLen) (hsource : sourceOk s.params s.cfg s.sync.buffer s.sync.size = true) :
    steps 7 s = .next s.framed ∧ TxStage s s.framed 7 (s.out ++ [.flush s.cfg.txBufBase s.sync.size]) := by
  have h0 : step s = .next (s.goStep 1) := by
    rw [step_transmit_undisturbed hs.undisturbed hs.op, transmitStep_zero hstep, txT0_fits hfits]
  have h2 := TxStage.copies (o := s.out) (.refl (s.txSpan 2 s.out)) hs hsource
  have h3 := (txSpan_copied s).flushes hs
  have hstaged := txSpan_staged s
  have h4 := hstaged.setsAddr hs
  have haddr := hstaged.store (setField_sameButMemory _ .tx s.tx.freeHead .bufAddr s.cfg.txBufBase) 5
  have h5 := haddr.setsLen hs hmax
  have hlength := haddr.store (setField_sameButMemory _ .tx s.tx.freeHead .length s.sync.size) 6
  have h6 := hlength.setsCtrl hs
  refine ⟨?_, hlength.store (setField_sameButMemory _ .tx s.tx.freeHead .ctrl 3) 7⟩
  exact (steps_succ_of_next 6 h0).trans <| (steps_succ_of_next 5 (step_goStep_one hs)).trans <|
    (steps_succ_of_next 4 h2).trans <| (steps_succ_of_next 3 h3).trans <| (steps_succ_of_next 2 h4).trans <|
      (steps_succ_of_next 1 h5).trans (steps_succ_of_next 0 h6)

/-- A record's bytes are descriptor memory, so no byte outside descriptor memory lies in one of its fields. -/
theorem not_inField {s : State} {x : Ring} (hok : (s.ring x).Ok) (hc : (s.ring x).created = true) {i : Nat}
    (hi : i < (s.ring x).size) {a : Word} (ha : s.isDescriptorByte a = false) : ¬∃ f, s.InField x i f a := by
  rintro ⟨f, k, hk, rfl⟩
  rw [hok.isDescriptorByte_field hc hi f hk] at ha
  cases ha

section
variable {s : State}

theorem framed_inField (i : Nat) (f : BdField) (a : Word) :
    ((s.txSpan 2 s.out).staged s.cfg.txBufBase s.sync.buffer s.sync.size).InField .tx i f a ↔ s.InField .tx i f a :=
  (txSpan_staged s).inField i f a

theorem framed_bytesKept : BytesKept s s.framed fun a =>
    InRange s.cfg.txBufBase s.sync.size.toNat a ∨ ∃ f, s.InField .tx s.tx.freeHead f a := by
  have hspan := (txSpan_keepsBytes s 2 s.out).bytesKept (InRange s.cfg.txBufBase s.sync.size.toNat)
  have hstaged := staged_bytesKept (s.txSpan 2 s.out) s.cfg.txBufBase s.sync.buffer s.sync.size
  have hrecord := described_bytesKept ((s.txSpan 2 s.out).staged s.cfg.txBufBase s.sync.buffer s.sync.size)
    s.tx.freeHead s.cfg.txBufBase s.sync.size 3
  exact ((hspan.trans hstaged).mono fun a h => .inl h).trans
    (hrecord.mono fun a h => .inr (h.imp fun f hf => (framed_inField ..).1 hf))

/-- A byte outside descriptor memory that the flush of the staging region has put into the `hw` view stays there. -/
theorem framed_peek_hw (hok : s.tx.Ok) (hc : s.tx.created = true)
    (hdata : ∀ k < s.sync.size.toNat, s.isDescriptorByte (s.cfg.txBufBase + BitVec.ofNat 32 k) = false)
    (hapart : ∀ k < s.sync.size.toNat,
      ¬InRange s.cfg.txBufBase s.sync.size.toNat (s.sync.buffer + BitVec.ofNat 32 k))
    {k : Nat} (hk : k < s.sync.size.toNat) :
    s.framed.peek .hw (s.cfg.txBufBase + BitVec.ofNat 32 k) = s.peek .sw (s.sync.buffer + BitVec.ofNat 32 k) := by
  have hstaged := staged_peek_hw (s.txSpan 2 s.out) s.cfg.txBufBase s.sync.buffer s.sync.size hapart hk
  have hrecord := described_bytesKept ((s.txSpan 2 s.out).staged s.cfg.txBufBase s.sync.buffer s.sync.size)
    s.tx.freeHead s.cfg.txBufBase s.sync.size 3
  refine (hrecord .hw _ ?_).trans (hstaged.trans ((txSpan_keepsBytes s 2 s.out).peek ..))
  rintro ⟨f, hf⟩
  exact not_inField (x := .tx) hok hc hok.freeHead_lt (hdata k hk) ⟨f, (framed_inField ..).1 hf⟩

/-- The bytes after T7 are those of the record and the status word. -/
theorem TxStage.commits_bytesKept {u : State} {o : List Event} (h : TxStage s u 7 o) (hs : s.CanClaim) (c : Code) :
    BytesKept u (endTransmit c (u.commitBatch .tx 1)) fun a => ∃ f, s.InField .tx s.tx.freeHead f a := by
  refine BytesKept.trans (BytesKept.mono (commitBatch_bytesKept u .tx 1) ?_)
    ((endTransmit_keepsBytes c _).bytesKept _)
  rintro a ⟨j, hj, ha⟩
  rw [h.commit_slot hs hj] at ha
  exact ⟨.sts, (h.inField ..).1 ha⟩

end

/-- Settles O41. -/
theorem transmitPostsFrame : Obligations.TransmitPostsFrame := by
  intro s staging size i hund hstack hop hstep hready hc hok hpre hfree hpos hfits hmax hsource hdata hapart
  have hs : s.CanClaim := ⟨hund, hop, hready, hc, hok, hpre, hfree⟩
  obtain ⟨hsteps, hstage⟩ := steps_framed hs hstep hfits hmax hsource
  have haddr : s.framed.getField .tx i .bufAddr = staging := described_bufAddr ..
  have hlength : s.framed.getField .tx i .length = size := described_length ..
  have hctrl : s.framed.getField .tx i .ctrl = 3 := described_ctrl ..
  have hframe : BytesKept s s.framed fun a => InRange staging size.toNat a ∨ ∃ f, s.InField .tx i f a :=
    framed_bytesKept
  have hhw : ∀ k < size.toNat, s.framed.peek .hw (staging + BitVec.ofNat 32 k) =
      s.peek .sw (s.sync.buffer + BitVec.ofNat 32 k) := fun k hk => framed_peek_hw hok hc hdata hapart hk
  generalize s.framed = u at *
  have h7 := hstage.commits hs hlength hpos hmax
  have hlast := hstage.commits_bytesKept hs .success
  have hring : (u.commitBatch .tx 1).tx = u.tx.committed 1 := commitBatch_ring u .tx 1
  have hother : (u.commitBatch .tx 1).rx = u.rx := commitBatch_ring_ne u (x := .tx) (y := .rx) 1 (by decide)
  have hfield : ∀ {f}, f ≠ .sts → (u.commitBatch .tx 1).getField .tx i f = u.getField .tx i f := fun hf =>
    commitBatch_getField_other (x := .tx) (hstage.tx_ok hs) 1
      (by rw [State.ring_tx, hstage.tx]; exact hok.freeHead_lt) hf
  have hsts := commitBatch_getField_sts (s := u) (x := .tx) (n := 1) (j := 0) (hstage.tx_ok hs) (by decide)
  rw [hstage.commit_slot hs (by decide)] at hsts
  have hnotRecord : ∀ k < size.toNat, ¬∃ f, s.InField .tx i f (staging + BitVec.ofNat 32 k) := fun k hk =>
    not_inField (x := .tx) hok hc hok.freeHead_lt (hdata k hk)
  have hout : (u.commitBatch .tx 1).out = u.out :=
    commitBatch_keeps u .tx 1 State.out rfl
  have hengine : (u.commitBatch .tx 1).engState = u.engState :=
    commitBatch_keeps u .tx 1 State.engState rfl
  have hwstack : (u.commitBatch .tx 1).stack = u.stack :=
    commitBatch_keeps u .tx 1 State.stack rfl
  generalize u.commitBatch .tx 1 = w at *
  have hend := endTransmit_keepsBytes .success w
  refine ⟨endTransmit .success w, (steps_add 7 1 hsteps).trans (steps_succ_of_next 0 h7), ?_, ?_, rfl, rfl, ?_, ?_, ?_,
    (hend.getField rfl _).trans ((hfield (by decide)).trans haddr),
    (hend.getField rfl _).trans ((hfield (by decide)).trans hlength),
    (hend.getField rfl _).trans ((hfield (by decide)).trans hctrl), (hend.getField rfl _).trans hsts,
    fun k hk => (hlast .hw _ (hnotRecord k hk)).trans (hhw k hk), hframe.trans (hlast.mono fun a h => .inr h)⟩
  · exact hengine.trans ((hstage.same State.engState rfl).trans hready)
  · change w.stack.dropLast = []
    rw [hwstack, show u.stack = s.stack from hstage.same State.stack rfl, hstack]
    rfl
  · change w.out ++ [.ret 0x21 .success []] = _
    rw [hout, show u.out = s.out ++ [.flush staging size] from hstage.same State.out rfl, List.append_assoc]
    rfl
  · refine hring.trans ?_
    have hback : s.tx.preCnt + 1 - 1 = s.tx.preCnt := BitVec.add_sub_cancel ..
    rw [hstage.tx]
    exact congrArg (fun p => { s.tx with hwCnt := s.tx.hwCnt + 1, freeCnt := s.tx.freeCnt - 1, preCnt := p }) hback
  · exact hother.trans (hstage.same State.rx rfl)

end Sys2Proof.Machine
end

section
/-! PROOF. Re-provisioning of the RX ring that nothing disturbs (42_rx_sequencer.md R180 to R182, R188): the phases
`FREE`, `RESERVE`, `POPULATE` and `COMMIT`, and the loop of the third. -/

namespace Sys2Proof.Machine

theorem step_rxPhase_undisturbed {s : State} {p : RxPhase} (h : s.undisturbed .rxh) (hs : s.rxh.state = .draining)
    (hp : s.rxh.phase = p) : step s = .next (rxPhaseStep p s) :=
  (step_rxPhase h.turnOf hs hp).trans
    (congrArg (fun t => Host.Outcome.next (rxPhaseStep p t)) (popAgenda_of_nil h.2.1))

/-! ### The ring -/

/-- The registers of a ring that was drained of `n` slots once these are freed and claimed again. -/
def RingRegs.reclaimed (r : RingRegs) (n : Half) : RingRegs := (r.freed n).claimed n

section
variable {r : RingRegs} {n : Half}

theorem RingRegs.Ok.freed (h : r.Ok) (hpost : r.postCnt = n) : (r.freed n).Ok := by
  obtain ⟨hcap, hdone, hhead, hsize⟩ := h.bounds
  have hpost' : (r.postCnt - n).toNat = 0 := by rw [hpost, BitVec.sub_self]; rfl
  have hfree : (r.freeCnt + n).toNat = r.freeCnt.toNat + n.toNat := by
    rw [← hpost, BitVec.toNat_add, Nat.mod_eq_of_lt (by omega)]
  refine h.recount rfl rfl rfl rfl rfl ?_ ?_ hdone
  · exact (toNat_ofNat_mod_size _ _ h.nonempty).trans_lt (Nat.mod_lt _ h.nonempty)
  · change (r.postCnt - n).toNat + r.hwCnt.toNat + r.preCnt.toNat + (r.freeCnt + n).toNat = r.size
    rw [hpost', hfree, ← hpost]
    omega

/-- Where every slot but the drained ones is outstanding, the freed slots are the next to be claimed. -/
theorem RingRegs.Ok.freeHead_freed (h : r.Ok) (hpost : r.postCnt = n) (hpre : r.preCnt = 0) (hfree : r.freeCnt = 0) :
    (r.freed n).freeHead = r.postHead.toNat := by
  obtain ⟨hcap, -, hhead, -⟩ := h.bounds
  have hpost' : (r.postCnt - n).toNat = 0 := by rw [hpost, BitVec.sub_self]; rfl
  have hpre' : r.preCnt.toNat = 0 := by rw [hpre]; rfl
  have hfree' : r.freeCnt.toNat = 0 := by rw [hfree]; rfl
  have hround : r.postHead.toNat + n.toNat + (r.postCnt - n).toNat + r.hwCnt.toNat + r.preCnt.toNat =
      r.postHead.toNat + r.size := by
    rw [hpost', ← hpost]
    omega
  calc (r.freed n).freeHead
      = (r.postHead.toNat + n.toNat + (r.postCnt - n).toNat + r.hwCnt.toNat + r.preCnt.toNat) % r.size := by
        rw [RingRegs.freeHead, RingRegs.preHead, RingRegs.hwHead]
        change ((((BitVec.ofNat 16 ((r.postHead.toNat + n.toNat) % r.size)).toNat + (r.postCnt - n).toNat) % r.size +
          r.hwCnt.toNat) % r.size + r.preCnt.toNat) % r.size = _
        rw [toNat_ofNat_mod_size r _ h.nonempty]
        simp only [Nat.mod_add_mod]
    _ = r.postHead.toNat := by rw [hround, Nat.add_mod_right, Nat.mod_eq_of_lt hhead]

theorem RingRegs.Ok.reclaimed (h : r.Ok) (hpost : r.postCnt = n) (hfree : r.freeCnt = 0) : (r.reclaimed n).Ok := by
  refine (h.freed hpost).claimed ?_
  change n ≤ r.freeCnt + n
  simp [hfree]

theorem RingRegs.Ok.preHead_reclaimed (h : r.Ok) (hpost : r.postCnt = n) (hpre : r.preCnt = 0)
    (hfree : r.freeCnt = 0) : (r.reclaimed n).preHead = r.postHead.toNat :=
  ((h.freed hpost).freeHead_of_preCnt hpre).symm.trans (h.freeHead_freed hpost hpre hfree)

end

/-! ### The phases `FREE` and `RESERVE` -/

/-- A drain pass that is to re-provision the slots it drained, all the others being outstanding. -/
structure State.CanRepost (s : State) : Prop where
  undisturbed : s.undisturbed .rxh
  draining : s.rxh.state = .draining
  not_halted : s.engState ≠ .halted
  created : s.rx.created = true
  ok : s.rx.Ok
  count : s.rxh.count ≠ 0
  postCnt : s.rx.postCnt = s.rxh.count
  first : s.rxh.first = s.rx.postHead
  preCnt : s.rx.preCnt = 0
  freeCnt : s.rx.freeCnt = 0

/-- The registers within a re-provisioning that has populated `k` slots. -/
def State.repostSpan (s : State) (k : Nat) : State :=
  { s with
    rx := s.rx.reclaimed s.rxh.count
    rxh := { s.rxh with
      first2 := s.rxh.first
      i := BitVec.ofNat 16 k
      phase := if k = s.rxh.count.toNat then .commit else .populate } }

/-- The state between the phases `FREE` and `RESERVE`. -/
def State.repostFreed (s : State) : State :=
  { s with rx := s.rx.freed s.rxh.count, rxh := { s.rxh with phase := .reserve } }

section
variable {s : State}

theorem State.CanRepost.ring_ok (hs : s.CanRepost) : (s.rx.reclaimed s.rxh.count).Ok :=
  hs.ok.reclaimed hs.postCnt hs.freeCnt

theorem step_rxFree (hs : s.CanRepost) (hphase : s.rxh.phase = .free) : step s = .next s.repostFreed := by
  rw [step_rxPhase_undisturbed hs.undisturbed hs.draining hphase]
  dsimp only [rxPhaseStep]
  exact congrArg _ (seqPrim_success _ (.inl hs.not_halted)
    (primFree_oldest (x := .rx) hs.created hs.ok hs.count (by rw [← hs.postCnt]; exact BitVec.le_refl _) hs.first))

theorem rxReserve_reclaims (hs : s.CanRepost) : rxReserve s.repostFreed = s.repostSpan 0 := by
  have hle : s.rxh.count ≤ s.rx.freeCnt + s.rxh.count := by simp [hs.freeCnt]
  have hslot : (s.repostFreed.setRing .rx (s.rx.reclaimed s.rxh.count)).slotOf .rx
      ((s.rx.freed s.rxh.count).slotAddr (s.rx.freed s.rxh.count).freeHead) = s.rxh.first := by
    rw [slotOf_slotAddr (hs.ok.freed hs.postCnt) (hs.ok.freed hs.postCnt).freeHead_lt rfl,
      hs.ok.freeHead_freed hs.postCnt hs.preCnt hs.freeCnt, hs.first]
    simp
  have hpopulate : RxPhase.populate = if 0 = s.rxh.count.toNat then .commit else .populate :=
    (if_neg fun h => hs.count (BitVec.eq_of_toNat_eq h.symm)).symm
  refine (seqPrim_success (s := s.repostFreed) _ (.inl hs.not_halted)
    (primReserve_succeeds (x := .rx) hs.created hs.count hle)).trans ?_
  exact congrArg₂ (fun d p => { s with
    rx := s.rx.reclaimed s.rxh.count, rxh := { s.rxh with first2 := d, i := 0, phase := p } }) hslot hpopulate

theorem step_rxReserve (hs : s.CanRepost) : step s.repostFreed = .next (s.repostSpan 0) := by
  rw [step_rxPhase_undisturbed (s := s.repostFreed) (p := .reserve) hs.undisturbed hs.draining rfl]
  exact congrArg _ (rxReserve_reclaims hs)

end

/-! ### The phase `POPULATE` -/

/-- The slot of iteration `j`. -/
def State.repostSlot (s : State) (j : Nat) : Nat := (s.rxh.first.toNat + j) % s.rx.size

/-- After `k` iterations: the registers, and the fields of the slots. -/
structure Reposting (s u : State) (k : Nat) : Prop where
  same : SameButMemory (s.repostSpan k) u
  length : ∀ j < k, u.getField .rx (s.repostSlot j) .length = s.cfg.bufSize
  ctrl : ∀ j < k, u.getField .rx (s.repostSlot j) .ctrl = 0
  bufAddr : ∀ i < s.rx.size, u.getField .rx i .bufAddr = s.getField .rx i .bufAddr

section
variable {s u : State} {k : Nat}

theorem repostSpan_keepsBytes (s : State) (k : Nat) : KeepsBytes s (s.repostSpan k) :=
  ⟨rfl, rfl, rfl, rfl, rfl, fun x _ => by cases x <;> rfl⟩

theorem Reposting.start (s : State) : Reposting s (s.repostSpan 0) 0 :=
  ⟨.refl _, fun _ h => absurd h (Nat.not_lt_zero _), fun _ h => absurd h (Nat.not_lt_zero _),
    fun _ _ => (repostSpan_keepsBytes s 0).getField rfl .bufAddr⟩

theorem State.CanRepost.repostSlot_lt (hs : s.CanRepost) (j : Nat) : s.repostSlot j < s.rx.size :=
  Nat.mod_lt _ hs.ok.nonempty

theorem Reposting.rx (h : Reposting s u k) : u.rx = s.rx.reclaimed s.rxh.count := h.same.same State.rx rfl

theorem Reposting.rx_ok (h : Reposting s u k) (hs : s.CanRepost) : u.rx.Ok := by
  rw [h.rx]
  exact hs.ring_ok

theorem Reposting.rx_created (h : Reposting s u k) (hs : s.CanRepost) : u.rx.created = true := by
  rw [h.rx]
  exact hs.created

theorem Reposting.not_halted (h : Reposting s u k) (hs : s.CanRepost) : u.engState ≠ .halted := by
  rw [show u.engState = s.engState from h.same.same State.engState rfl]
  exact hs.not_halted

theorem Reposting.step_eq (h : Reposting s u k) (hs : s.CanRepost) :
    step u = .next (rxPhaseStep (if k = s.rxh.count.toNat then .commit else .populate) u) := by
  obtain ⟨⟨hfault, hrefused⟩, hagenda, htop⟩ := hs.undisturbed
  have hstack : u.stack = s.stack := h.same.same State.stack rfl
  exact step_rxPhase_undisturbed
    ⟨⟨(h.same.same State.fault rfl).trans hfault, (h.same.same State.refused rfl).trans hrefused⟩,
      (h.same.same State.agenda rfl).trans hagenda, by rw [State.top, hstack]; exact htop⟩
    ((h.same.same (fun z => z.rxh.state) rfl).trans hs.draining) (h.same.same (fun z => z.rxh.phase) rfl)

theorem Reposting.preCnt (h : Reposting s u k) (hs : s.CanRepost) : u.rx.preCnt = s.rxh.count := by
  rw [h.rx]
  change s.rx.preCnt + s.rxh.count = s.rxh.count
  simp [hs.preCnt]

/-- The slots to populate are those that the batch holds. -/
theorem Reposting.batch_slot (h : Reposting s u k) (hs : s.CanRepost) (j : Nat) :
    batchSlot (u.ring .rx).size (u.ring .rx).preHead j = s.repostSlot j := by
  rw [State.ring_rx, h.rx, hs.ok.preHead_reclaimed hs.postCnt hs.preCnt hs.freeCnt, ← hs.first]
  rfl

theorem Reposting.reserved (h : Reposting s u k) (hs : s.CanRepost) {j : Nat} (hj : j < s.rxh.count.toNat) :
    u.rx.slotState (s.repostSlot j) = .reserved := by
  rw [← h.batch_slot hs j]
  exact (h.rx_ok hs).slotState_reserved (by rw [h.preCnt hs]; exact hj)

theorem Reposting.populateSlot (h : Reposting s u k) (hk : k < s.rxh.count.toNat) :
    rxPopulateSlot u = s.repostSlot k := by
  have hfirst : u.rxh.first2 = s.rxh.first := h.same.same (fun z => z.rxh.first2) rfl
  have hi : u.rxh.i = BitVec.ofNat 16 k := h.same.same (fun z => z.rxh.i) rfl
  rw [rxPopulateSlot, hfirst, hi, h.rx, BitVec.toNat_ofNat, Nat.mod_eq_of_lt (hk.trans (BitVec.isLt _))]
  rfl

/-- A field after the two writes of an iteration. -/
def State.populate (u : State) (i : Nat) (size : Word) : State :=
  (u.setField .rx i .length size).setField .rx i .ctrl 0

theorem populate_sameButMemory (u : State) (i : Nat) (size : Word) : SameButMemory u (u.populate i size) :=
  SameButMemory.trans (setField_sameButMemory u .rx i .length size) (setField_sameButMemory ..)

theorem getField_populate_other (hok : u.rx.Ok) {i j : Nat} (hi : i < u.rx.size) (hj : j < u.rx.size) {f : BdField}
    (size : Word) (hne : j ≠ i ∨ f = .bufAddr) : (u.populate i size).getField .rx j f = u.getField .rx j f := by
  have hother : ∀ {g : BdField}, g ≠ .bufAddr → j ≠ i ∨ f ≠ g := fun hg =>
    hne.imp_right fun hf => by rw [hf]; exact hg.symm
  have hctrl := getField_setField_other (s := u.setField .rx i .length size) (x := .rx) (f := .ctrl) (g := f)
    (by simpa using hok) 0 (by simpa using hi) (by simpa using hj) (hother (by decide))
  exact hctrl.trans (getField_setField_other (x := .rx) hok size hi hj (hother (by decide)))

theorem getField_populate_length (u : State) (i : Nat) (size : Word) :
    (u.populate i size).getField .rx i .length = size := by
  rw [State.populate, State.getField_setField_ne _ _ _ _ (by decide), State.getField_setField]

theorem getField_populate_ctrl (u : State) (i : Nat) (size : Word) :
    (u.populate i size).getField .rx i .ctrl = 0 := State.getField_setField ..

/-- The registers after an iteration. -/
def State.nextPopulate (u : State) : State :=
  { u with rxh := { u.rxh with
    i := u.rxh.i + 1, phase := if u.rxh.i + 1 = u.rxh.count then .commit else .populate } }

theorem Reposting.populates (h : Reposting s u k) (hs : s.CanRepost) (hk : k < s.rxh.count.toNat)
    (hmax : s.cfg.bufSize ≤ s.rx.maxLen) :
    rxPopulate u = (u.populate (s.repostSlot k) s.cfg.bufSize).nextPopulate := by
  have hcfg : u.cfg = s.cfg := h.same.same State.cfg rfl
  have hslot := h.populateSlot hk
  have hsize : u.rx.size = s.rx.size := by rw [h.rx]; rfl
  have hidx : u.rx.idx (u.rx.slotAddr (s.repostSlot k)) = some (s.repostSlot k) :=
    (h.rx_ok hs).idx_slotAddr (by rw [hsize]; exact hs.repostSlot_lt k)
  have hlen := primBdSetLen_succeeds (s := u) (x := .rx) (len := u.cfg.bufSize) (h.rx_created hs) hidx (h.reserved hs hk)
    (by rw [State.ring_rx, h.rx, hcfg]; exact hmax)
  have hctrl := primBdSetCtrl_succeeds (s := u.setField .rx (s.repostSlot k) .length u.cfg.bufSize) (x := .rx) (m := 0)
    (d := u.rx.slotAddr (s.repostSlot k)) (h.rx_created hs) hidx (h.reserved hs hk)
  rw [rxPopulate, hslot, seqPrim_success _ (.inl (h.not_halted hs)) hlen, ← hcfg]
  change State.seqPrim (u.setField .rx (s.repostSlot k) .length u.cfg.bufSize) false
    (primBdSetCtrl .rx 0 (u.rx.slotAddr (rxPopulateSlot u))) (fun _ s => s.nextPopulate) = _
  rw [hslot]
  exact seqPrim_success (fun _ s => s.nextPopulate) (.inl (h.not_halted hs)) hctrl

theorem repostSpan_next (s : State) {k : Nat} (hk : k < s.rxh.count.toNat) :
    (s.repostSpan k).nextPopulate = s.repostSpan (k + 1) := by
  have hi : BitVec.ofNat 16 k + 1 = BitVec.ofNat 16 (k + 1) := (BitVec.ofNat_add ..).symm
  have hlast : BitVec.ofNat 16 (k + 1) = s.rxh.count ↔ k + 1 = s.rxh.count.toNat := by
    rw [← BitVec.toNat_inj, BitVec.toNat_ofNat, Nat.mod_eq_of_lt (lt_of_le_of_lt hk (BitVec.isLt _))]
  have hnext : (s.repostSpan k).nextPopulate = { s with
      rx := s.rx.reclaimed s.rxh.count
      rxh := { s.rxh with
        first2 := s.rxh.first
        i := BitVec.ofNat 16 k + 1
        phase := if BitVec.ofNat 16 k + 1 = s.rxh.count then .commit else .populate } } := rfl
  rw [hnext, hi, State.repostSpan]
  simp only [hlast]

theorem Reposting.next (h : Reposting s u k) (hs : s.CanRepost) (hk : k < s.rxh.count.toNat) :
    Reposting s (u.populate (s.repostSlot k) s.cfg.bufSize).nextPopulate (k + 1) := by
  have hsize : u.rx.size = s.rx.size := by rw [h.rx]; rfl
  have hlt : ∀ j, s.repostSlot j < u.rx.size := fun j => by rw [hsize]; exact hs.repostSlot_lt j
  have hkeep : ∀ i f, (u.populate (s.repostSlot k) s.cfg.bufSize).nextPopulate.getField .rx i f =
      (u.populate (s.repostSlot k) s.cfg.bufSize).getField .rx i f := fun _ _ => rfl
  refine ⟨?_, fun j hj => ?_, fun j hj => ?_, fun i hi => ?_⟩
  · rw [← repostSpan_next s hk]
    exact congrArg State.nextPopulate (h.same.trans (populate_sameButMemory ..))
  · by_cases hslot : s.repostSlot j = s.repostSlot k
    · rw [hkeep, hslot, getField_populate_length]
    · rw [hkeep, getField_populate_other (h.rx_ok hs) (hlt k) (hlt j) _ (.inl hslot)]
      exact h.length j (Nat.lt_of_le_of_ne (Nat.le_of_lt_succ hj) fun heq => hslot (heq ▸ rfl))
  · by_cases hslot : s.repostSlot j = s.repostSlot k
    · rw [hkeep, hslot, getField_populate_ctrl]
    · rw [hkeep, getField_populate_other (h.rx_ok hs) (hlt k) (hlt j) _ (.inl hslot)]
      exact h.ctrl j (Nat.lt_of_le_of_ne (Nat.le_of_lt_succ hj) fun heq => hslot (heq ▸ rfl))
  · rw [hkeep, getField_populate_other (h.rx_ok hs) (hlt k) (by rw [hsize]; exact hi) _ (.inr rfl)]
    exact h.bufAddr i hi

/-- The loop of the phase `POPULATE`. -/
theorem steps_populate (hs : s.CanRepost) (hmax : s.cfg.bufSize ≤ s.rx.maxLen) :
    ∀ k ≤ s.rxh.count.toNat, ∃ u, steps k (s.repostSpan 0) = .next u ∧ Reposting s u k := by
  intro k hk
  induction k with
  | zero => exact ⟨_, rfl, .start s⟩
  | succ k ih =>
    obtain ⟨u, hsteps, hu⟩ := ih (Nat.le_of_succ_le hk)
    have hstep := hu.step_eq hs
    rw [if_neg (Nat.ne_of_lt hk)] at hstep
    dsimp only [rxPhaseStep] at hstep
    rw [hu.populates hs hk hmax] at hstep
    exact ⟨_, (steps_add k 1 hsteps).trans (steps_succ_of_next 0 hstep), hu.next hs hk⟩

/-! ### The phase `COMMIT` -/

theorem Reposting.commits (h : Reposting s u s.rxh.count.toNat) (hs : s.CanRepost) (hpos : s.cfg.bufSize ≠ 0)
    (hmax : s.cfg.bufSize ≤ s.rx.maxLen) :
    step u = .next ((u.commitBatch .rx s.rxh.count).rxPhase .enable) := by
  have hcount : u.rxh.count = s.rxh.count := h.same.same (fun z => z.rxh.count) rfl
  have hfirst : u.rxh.first2 = s.rxh.first := h.same.same (fun z => z.rxh.first2) rfl
  have hpre : u.rx.preHead = s.rxh.first.toNat := by
    rw [h.rx, hs.ok.preHead_reclaimed hs.postCnt hs.preCnt hs.freeCnt, hs.first]
  have hidx : u.rx.idx (u.rx.slotAddr u.rxh.first2.toNat) = some u.rx.preHead := by
    rw [hfirst, ← hpre]
    exact (h.rx_ok hs).idx_slotAddr (h.rx_ok hs).preHead_lt
  have hstep := h.step_eq hs
  rw [if_pos rfl] at hstep
  dsimp only [rxPhaseStep] at hstep
  rw [hstep, rxCommit, hcount]
  refine congrArg _ (seqPrim_success _ (.inl (h.not_halted hs))
    (primCommit_batch (x := .rx) (h.rx_created hs) hs.count ?_ hidx fun j hj => ?_))
  · rw [State.ring_rx, h.preCnt hs]
    exact BitVec.le_refl _
  · rw [h.batch_slot hs j, h.length j hj, State.ring_rx, h.rx]
    exact ⟨hpos, hmax⟩

end

/-- Freeing, claiming and posting the `n` drained slots moves the head past them; no other count changes. -/
theorem reclaimed_committed {r : RingRegs} {n : Half} (hpost : r.postCnt = n) :
    (r.reclaimed n).committed n = { r with
      postHead := BitVec.ofNat 16 ((r.postHead.toNat + n.toNat) % r.size), postCnt := 0, hwCnt := r.hwCnt + n } := by
  have hzero : r.postCnt - n = 0 := by rw [hpost]; exact BitVec.sub_self n
  have hpre : r.preCnt + n - n = r.preCnt := BitVec.add_sub_cancel ..
  have hfree : r.freeCnt + n - n = r.freeCnt := BitVec.add_sub_cancel ..
  simp only [RingRegs.reclaimed, RingRegs.claimed, RingRegs.freed, RingRegs.committed, hzero, hpre, hfree]

/-- Settles O50. -/
theorem repostKeepsBuffers : Obligations.RepostKeepsBuffers := by
  intro s hund hstate hphase he hc hok hcount hpost hfirst hpre hfree hpos hmax
  have hs : s.CanRepost := ⟨hund, hstate, he, hc, hok, hcount, hpost, hfirst, hpre, hfree⟩
  obtain ⟨u, hsteps, hu⟩ := steps_populate hs hmax _ (Nat.le_refl _)
  have hlast := hu.commits hs hpos hmax
  have hall : steps (s.rxh.count.toNat + 3) s = .next ((u.commitBatch .rx s.rxh.count).rxPhase .enable) :=
    (steps_succ_of_next _ (step_rxFree hs hphase)).trans <| (steps_succ_of_next _ (step_rxReserve hs)).trans <|
      (steps_add _ 1 hsteps).trans (steps_succ_of_next 0 hlast)
  have hsize : u.rx.size = s.rx.size := by rw [hu.rx]; rfl
  have hfield : ∀ {i f}, i < s.rx.size → f ≠ .sts →
      ((u.commitBatch .rx s.rxh.count).rxPhase .enable).getField .rx i f = u.getField .rx i f := fun hi hf =>
    commitBatch_getField_other (x := .rx) (hu.rx_ok hs) s.rxh.count (by rw [State.ring_rx, hsize]; exact hi) hf
  refine ⟨_, hall, ?_, rfl, ?_, ?_, ?_, ?_, fun i hi => (hfield hi (by decide)).trans (hu.bufAddr i hi), fun j hj =>
    ⟨(hfield (hs.repostSlot_lt j) (by decide)).trans (hu.length j hj),
      (hfield (hs.repostSlot_lt j) (by decide)).trans (hu.ctrl j hj), ?_⟩⟩
  · exact (commitBatch_keeps u .rx s.rxh.count (fun z => z.rxh.state) rfl).trans
      ((hu.same.same (fun z => z.rxh.state) rfl).trans hstate)
  · exact (commitBatch_keeps u .rx s.rxh.count (fun z => z.rxh.first2) rfl).trans
      (hu.same.same (fun z => z.rxh.first2) rfl)
  · refine (commitBatch_ring u .rx s.rxh.count).trans ?_
    rw [State.ring_rx, hu.rx, reclaimed_committed hpost]
  · exact (commitBatch_keeps u .rx s.rxh.count State.out rfl).trans (hu.same.same State.out rfl)
  · exact (commitBatch_keeps u .rx s.rxh.count State.stack rfl).trans (hu.same.same State.stack rfl)
  · have hsts := commitBatch_getField_sts (s := u) (x := .rx) (hu.rx_ok hs) hj
    rw [hu.batch_slot hs j] at hsts
    exact hsts

end Sys2Proof.Machine
end

section
/-! PROOF. `INITIALIZE` that nothing disturbs (41_engine_ops.md R151 to R154): what every micro-step keeps, the
micro-steps I0 to I17 with the loop of I8, and what the two rings' records hold in the end. -/

namespace Sys2Proof.Machine

/-! ### What the micro-steps keep -/

/-- The registers that no primitive of `INITIALIZE` touches. -/
structure Upkeep (u v : State) : Prop where
  fault : v.fault = u.fault
  refused : v.refused = u.refused
  agenda : v.agenda = u.agenda
  stack : v.stack = u.stack
  op : v.sync.op = u.sync.op
  lookup : v.sync.lookup = u.sync.lookup
  engState : v.engState = u.engState
  cfg : v.cfg = u.cfg
  cfgValid : v.cfgValid = u.cfgValid
  params : v.params = u.params
  out : v.out = u.out

namespace Upkeep

theorem refl (u : State) : Upkeep u u := ⟨rfl, rfl, rfl, rfl, rfl, rfl, rfl, rfl, rfl, rfl, rfl⟩

theorem trans {u v w : State} (h : Upkeep u v) (k : Upkeep v w) : Upkeep u w :=
  ⟨k.fault.trans h.fault, k.refused.trans h.refused, k.agenda.trans h.agenda, k.stack.trans h.stack,
    k.op.trans h.op, k.lookup.trans h.lookup, k.engState.trans h.engState, k.cfg.trans h.cfg,
    k.cfgValid.trans h.cfgValid, k.params.trans h.params, k.out.trans h.out⟩

theorem setRing (u : State) (x : Ring) (r : RingRegs) : Upkeep u (u.setRing x r) := by constructor <;> simp

theorem dropMarks (u : State) (x : Ring) : Upkeep u (u.dropMarks x) := by constructor <;> simp

theorem beginFraming (u : State) (x : Ring) : Upkeep u (u.beginFraming x) := by constructor <;> simp

theorem setBusy (u : State) (b : Option Ring) : Upkeep u (u.setBusy b) := by constructor <;> rfl

theorem goStep (u : State) (k : BitVec 8) : Upkeep u (u.goStep k) := by constructor <;> rfl

theorem of_same {u v : State} (h : SameButMemory u v) : Upkeep u v :=
  ⟨h.same State.fault rfl, h.same State.refused rfl, h.same State.agenda rfl, h.same State.stack rfl,
    h.same (fun z => z.sync.op) rfl, h.same (fun z => z.sync.lookup) rfl, h.same State.engState rfl,
    h.same State.cfg rfl, h.same State.cfgValid rfl, h.same State.params rfl, h.same State.out rfl⟩

theorem commitBatch (u : State) (x : Ring) (n : Half) : Upkeep u (u.commitBatch x n) :=
  have h {β : Type} (g : State → β) := commitBatch_keeps u x n g
  ⟨h State.fault rfl, h State.refused rfl, h State.agenda rfl, h State.stack rfl,
    h (fun z => z.sync.op) rfl, h (fun z => z.sync.lookup) rfl, h State.engState rfl,
    h State.cfg rfl, h State.cfgValid rfl, h State.params rfl, h State.out rfl⟩

end Upkeep

/-! ### The states between the micro-steps -/

/-- The configuration is legal, and nothing disturbs the operation. -/
structure State.CanInit (s : State) : Prop where
  undisturbed : s.undisturbed .sync
  stack : s.stack = [.sync]
  op : s.sync.op = .initEngine
  step : s.sync.step = 0
  cfgFound : s.sync.lookup.cfgFound = true
  cfgBindOk : s.sync.lookup.cfgBindOk = true
  hasSg : s.sync.lookup.hasSg = true
  rxRun : s.rx.run = false
  txRun : s.tx.run = false
  rxSlots : rxSlots s.params s.sync.cfg ≠ 0
  txSlots : txSlots s.params s.sync.cfg ≠ 0
  maxLenRx : s.sync.lookup.maxLenRx ≠ 0
  maxLenTx : s.sync.lookup.maxLenTx ≠ 0
  align : 4 ≤ s.params.bdAlign.toNat
  power : s.params.bdAlign &&& (s.params.bdAlign - 1) = 0
  rxAligned : s.sync.cfg.rxBdBase.toNat % s.params.bdAlign.toNat = 0
  txAligned : s.sync.cfg.txBdBase.toNat % s.params.bdAlign.toNat = 0
  rxHolds : (Machine.rxSlots s.params s.sync.cfg).toNat * strideOf s.params.bdAlign ≤ s.params.rxBdRegionSize.toNat
  txHolds : (Machine.txSlots s.params s.sync.cfg).toNat * strideOf s.params.bdAlign ≤ s.params.txBdRegionSize.toNat
  bufSize : s.sync.cfg.bufSize ≠ 0
  bufFits : s.sync.cfg.bufSize ≤ s.sync.lookup.maxLenRx
  regions : regionsOk s.params s.sync.cfg = true

/-- The micro-step `k` comes next, and the rings' registers are `rx` and `tx`. -/
structure InitStage (s u : State) (k : BitVec 8) (rx tx : RingRegs) : Prop where
  unmarked : u.unmarked
  agenda : u.agenda = []
  stack : u.stack = [.sync]
  op : u.sync.op = .initEngine
  at_step : u.sync.step = k
  lookup : u.sync.lookup = s.sync.lookup
  engine : u.engState = .initializing
  cfg : u.cfg = s.sync.cfg
  cfgValid : u.cfgValid = true
  params : u.params = s.params
  out : u.out = s.out
  rx_eq : u.rx = rx
  tx_eq : u.tx = tx

theorem step_initialize_undisturbed {u : State} (h : u.undisturbed .sync) (hop : u.sync.op = .initEngine) :
    step u = .next (initStep u) :=
  (step_initialize h.turnOf hop).trans (congrArg (fun t => Host.Outcome.next (initStep t)) (popAgenda_of_nil h.2.1))

theorem initPrim_success {u v : State} {p : Prim} {rs : List Word} (k : BitVec 8) (he : u.engState = .initializing)
    (hp : p u = (Reply.ok rs, v)) : initPrim p k u = v.goStep k :=
  inFlight_success _ _ (.inl (by rw [he]; decide)) hp

namespace InitStage
variable {s u v w : State} {k : BitVec 8} {rx tx rx' tx' : RingRegs}

theorem undisturbed (h : InitStage s u k rx tx) : u.undisturbed .sync :=
  ⟨h.unmarked, h.agenda, by rw [State.top, h.stack]; rfl⟩

theorem step_eq (h : InitStage s u k rx tx) : step u = .next (initStep u) :=
  step_initialize_undisturbed h.undisturbed h.op

theorem not_halted (h : InitStage s u k rx tx) : u.engState ≠ .halted := by
  rw [h.engine]
  decide

theorem next (h : InitStage s u k rx tx) (hv : Upkeep u v) {k' : BitVec 8} (hk : v.sync.step = k') (hrx : v.rx = rx')
    (htx : v.tx = tx') : InitStage s v k' rx' tx' :=
  ⟨⟨hv.fault.trans h.unmarked.1, hv.refused.trans h.unmarked.2⟩, hv.agenda.trans h.agenda, hv.stack.trans h.stack,
    hv.op.trans h.op, hk, hv.lookup.trans h.lookup, hv.engState.trans h.engine, hv.cfg.trans h.cfg,
    hv.cfgValid.trans h.cfgValid, hv.params.trans h.params, hv.out.trans h.out, hrx, htx⟩

/-- A micro-step that goes on to `k'`. -/
theorem goes (h : InitStage s u k rx tx) {k' : BitVec 8} (hI : initStep u = v.goStep k') (hv : Upkeep u v)
    (hrx : v.rx = rx') (htx : v.tx = tx') :
    step u = .next (v.goStep k') ∧ InitStage s (v.goStep k') k' rx' tx' :=
  ⟨h.step_eq.trans (congrArg _ hI), h.next (hv.trans (.goStep v k')) rfl hrx htx⟩

/-- A micro-step that is one primitive, issued in `w`. -/
theorem prim (h : InitStage s u k rx tx) {p : Prim} {rs : List Word} {k' : BitVec 8}
    (hI : initStep u = initPrim p k' w) (hw : Upkeep u w) (hp : p w = (Reply.ok rs, v)) (hv : Upkeep w v)
    (hrx : v.rx = rx') (htx : v.tx = tx') :
    step u = .next (v.goStep k') ∧ InitStage s (v.goStep k') k' rx' tx' :=
  h.goes (hI.trans (initPrim_success k' (hw.engState.trans h.engine) hp)) (hw.trans hv) hrx htx

end InitStage

/-! ### The rings -/

/-- The RX ring's registers right after its `CREATE`. -/
def State.rxFresh (s : State) : RingRegs :=
  { s.rx with irqEn := 0 }.recreate (rxSlots s.params s.sync.cfg) s.sync.cfg.rxBdBase s.params.rxBdRegionSize
    s.params.bdAlign s.sync.lookup.maxLenRx

/-- The TX ring's registers right after its `CREATE`. -/
def State.txFresh (s : State) : RingRegs :=
  { s.tx with irqEn := 0 }.recreate (txSlots s.params s.sync.cfg) s.sync.cfg.txBdBase s.params.txBdRegionSize
    s.params.bdAlign s.sync.lookup.maxLenTx

/-- The RX ring's registers with every slot claimed. -/
def State.rxClaimed (s : State) : RingRegs := s.rxFresh.claimed (rxSlots s.params s.sync.cfg)

/-- The RX ring's registers with every slot posted. -/
def State.rxPosted (s : State) : RingRegs := s.rxClaimed.committed (rxSlots s.params s.sync.cfg)

theorem regionsOk_disjoint {p : Params} {c : EngCfg} (h : regionsOk p c = true) :
    c.rxBdBase.toNat + p.rxBdRegionSize.toNat ≤ 2 ^ 32 ∧ c.txBdBase.toNat + p.txBdRegionSize.toNat ≤ 2 ^ 32 ∧
      (p.rxBdRegionSize.toNat = 0 ∨ p.txBdRegionSize.toNat = 0 ∨
        c.txBdBase.toNat + p.txBdRegionSize.toNat ≤ c.rxBdBase.toNat ∨
        c.rxBdBase.toNat + p.rxBdRegionSize.toNat ≤ c.txBdBase.toNat) := by
  simp only [regionsOk, Bool.and_eq_true, Bool.not_eq_true', Region.fits, Region.overlaps,
    decide_eq_true_eq, Bool.and_eq_false_iff, decide_eq_false_iff_not] at h
  simp only [rxBdRegion, txBdRegion] at h
  obtain ⟨⟨⟨⟨⟨⟨⟨⟨⟨hrx, htx⟩, -⟩, -⟩, hapart⟩, -⟩, -⟩, -⟩, -⟩, -⟩ := h
  exact ⟨hrx, htx, by omega⟩

namespace State.CanInit
variable {s : State}

theorem rxFresh_ok (hs : s.CanInit) : s.rxFresh.Ok :=
  recreate_ok _ hs.rxSlots hs.maxLenRx hs.align hs.rxHolds
    ((Nat.add_le_add_left hs.rxHolds _).trans (regionsOk_disjoint hs.regions).1)

theorem txFresh_ok (hs : s.CanInit) : s.txFresh.Ok :=
  recreate_ok _ hs.txSlots hs.maxLenTx hs.align hs.txHolds
    ((Nat.add_le_add_left hs.txHolds _).trans (regionsOk_disjoint hs.regions).2.1)

theorem rxClaimed_ok (hs : s.CanInit) : s.rxClaimed.Ok := hs.rxFresh_ok.claimed (BitVec.le_refl _)

end State.CanInit

theorem freeHead_recreate (r : RingRegs) (n : Half) (b z a m : Word) : (r.recreate n b z a m).freeHead = 0 := by
  simp [RingRegs.freeHead, RingRegs.preHead, RingRegs.hwHead, RingRegs.recreate]

theorem preHead_rxClaimed (s : State) : s.rxClaimed.preHead = 0 := by
  simp [State.rxClaimed, State.rxFresh, RingRegs.claimed, RingRegs.preHead, RingRegs.hwHead, RingRegs.recreate]

end Sys2Proof.Machine
end

section
/-! PROOF. The micro-steps I0 to I8 of an undisturbed `INITIALIZE` (41_engine_ops.md R151, R152). -/

namespace Sys2Proof.Machine

/-! ### I0 to I4: the parameter block and the lookup answers -/

section
variable {s u : State}

theorem step_initI0 (hs : s.CanInit) : ∃ u, step s = .next u ∧ InitStage s u 1 s.rx s.tx := by
  have hI : initStep s = initI0 s := by simp [initStep, hs.step]
  exact ⟨_, (step_initialize_undisturbed hs.undisturbed hs.op).trans (congrArg _ hI),
    hs.undisturbed.1, hs.undisturbed.2.1, hs.stack, hs.op, rfl, rfl, rfl, rfl, rfl, rfl, rfl, rfl, rfl⟩

/-- The lookup answers are all there. -/
theorem steps_lookup (hs : s.CanInit) : ∃ u, steps 4 s = .next u ∧ InitStage s u 4 s.rx s.tx := by
  obtain ⟨u, h0, hu⟩ := step_initI0 hs
  have hI1 : initStep u = u.goStep 2 := by simp [initStep, hu.at_step, initI1, hu.lookup, hs.cfgFound]
  obtain ⟨h1, hu⟩ := hu.goes hI1 (.refl u) hu.rx_eq hu.tx_eq
  generalize u.goStep 2 = u₁ at *
  have hI2 : initStep u₁ = u₁.goStep 3 := by simp [initStep, hu.at_step, initI2, hu.lookup, hs.cfgBindOk]
  obtain ⟨h2, hu⟩ := hu.goes hI2 (.refl u₁) hu.rx_eq hu.tx_eq
  generalize u₁.goStep 3 = u₂ at *
  have hI3 : initStep u₂ = u₂.goStep 4 := by simp [initStep, hu.at_step, initI3, hu.lookup, hs.hasSg]
  obtain ⟨h3, hu⟩ := hu.goes hI3 (.refl u₂) hu.rx_eq hu.tx_eq
  exact ⟨_, (steps_succ_of_next 3 h0).trans <| (steps_succ_of_next 2 h1).trans <|
    (steps_succ_of_next 1 h2).trans (steps_succ_of_next 0 h3), hu⟩

theorem InitStage.masksRx (h : InitStage s u 4 s.rx s.tx) (hs : s.CanInit) :
    ∃ v, step u = .next v ∧ InitStage s v 5 { s.rx with irqEn := 0 } s.tx := by
  have hI : initStep u = initPrim (primIrqDisable .rx irqAll) 5 (u.setBusy (some .rx)) := by
    simp [initStep, h.at_step, initI4, h.params, h.cfg, hs.regions]
  exact ⟨_, h.prim hI (.setBusy u _) (primIrqDisable_irqAll .rx _) (.setRing ..)
    (congrArg (fun r : RingRegs => { r with irqEn := 0 }) h.rx_eq) h.tx_eq⟩

/-! ### I5 to I7: the RX ring created, its records cleared and its slots claimed -/

theorem InitStage.createsRx (h : InitStage s u 5 { s.rx with irqEn := 0 } s.tx) (hs : s.CanInit) :
    ∃ v, step u = .next v ∧ InitStage s v 6 s.rxFresh s.tx := by
  have hI : initStep u = initPrim (primCreate .rx (rxSlots s.params s.sync.cfg) s.sync.cfg.rxBdBase
      s.params.rxBdRegionSize s.params.bdAlign s.sync.lookup.maxLenRx) 6 u := by
    simp [initStep, h.at_step, initI5, h.params, h.cfg, h.lookup]
  have hrun : (u.ring .rx).run = false := by
    rw [State.ring_rx, h.rx_eq]
    exact hs.rxRun
  exact ⟨_, h.prim hI (.refl u)
    (primCreate_succeeds hrun hs.rxSlots hs.maxLenRx hs.align hs.power hs.rxAligned hs.rxHolds
      ((Nat.add_le_add_left hs.rxHolds _).trans (regionsOk_disjoint hs.regions).1))
    ((Upkeep.setRing ..).trans (.dropMarks ..))
    (congrArg (fun r : RingRegs => r.recreate (rxSlots s.params s.sync.cfg) s.sync.cfg.rxBdBase
      s.params.rxBdRegionSize s.params.bdAlign s.sync.lookup.maxLenRx) h.rx_eq) h.tx_eq⟩

theorem InitStage.clearsRx (h : InitStage s u 6 s.rxFresh s.tx) (hs : s.CanInit) :
    ∃ v, step u = .next v ∧ InitStage s v 7 s.rxFresh s.tx ∧
      ∀ i < (rxSlots s.params s.sync.cfg).toNat, ∀ f, v.getField .rx i f = 0 := by
  have hI : initStep u = initPrim (primInitSlots .rx 0 0 0 0) 7 u := by simp [initStep, h.at_step, initI6]
  have hp := primInitSlots_succeeds (s := u) (x := .rx) (b := 0) (l := 0) (c := 0) (t := 0)
    (by rw [State.ring_rx, h.rx_eq]; rfl) (by rw [State.ring_rx, h.rx_eq]; rfl) (BitVec.le_def.2 (Nat.zero_le _)) (by decide)
    (by decide)
  have hok : (u.ring .rx).Ok := by
    rw [State.ring_rx, h.rx_eq]
    exact hs.rxFresh_ok
  have hsize : (u.ring .rx).size = (rxSlots s.params s.sync.cfg).toNat := by
    rw [State.ring_rx, h.rx_eq]
    rfl
  have hfield := fun i hi f => getField_initSlots (i := i) hok 0 0 0 0 hi f
  have hsame := initSlots_sameButMemory u .rx 0 0 0 0 (u.ring .rx).size
  generalize (List.range (u.ring .rx).size).foldl (fun s i => s.setRecord .rx 0 0 0 0 i) u = v at *
  obtain ⟨hstep, hstage⟩ := h.prim hI (.refl u) hp (.of_same hsame) ((hsame.same State.rx rfl).trans h.rx_eq)
    ((hsame.same State.tx rfl).trans h.tx_eq)
  refine ⟨_, hstep, hstage, fun i hi f => ?_⟩
  have hzero : templateWord 0 0 0 0 f = 0 := by cases f <;> rfl
  exact (hfield i (by rw [hsize]; exact hi) f).trans hzero

/-- The state after I7. -/
def State.initReserved (u : State) (r : RingRegs) : State :=
  { u with rx := r, sync := { u.sync with d := 0, i := 0, step := 8 } }

theorem InitStage.reservesRx (h : InitStage s u 7 s.rxFresh s.tx) (hs : s.CanInit) :
    step u = .next (u.initReserved s.rxClaimed) ∧ InitStage s (u.initReserved s.rxClaimed) 8 s.rxClaimed s.tx := by
  have hI : initStep u = initI7 u := by simp [initStep, h.at_step]
  have hp := primReserve_succeeds (s := u) (x := .rx) (n := rxSlots s.params s.sync.cfg)
    (by rw [State.ring_rx, h.rx_eq]; rfl) hs.rxSlots (by rw [State.ring_rx, h.rx_eq]; exact BitVec.le_refl _)
  have hclaimed : u.rx.claimed (rxSlots s.params s.sync.cfg) = s.rxClaimed := by rw [h.rx_eq]; rfl
  have hslot : (u.setRing .rx s.rxClaimed).slotOf .rx (u.rx.slotAddr u.rx.freeHead) = 0 := by
    rw [h.rx_eq, slotOf_slotAddr hs.rxFresh_ok hs.rxFresh_ok.freeHead_lt rfl, State.rxFresh, freeHead_recreate]
    rfl
  rw [State.ring_rx, hclaimed] at hp
  have hdone : initI7 u = u.initReserved s.rxClaimed := by
    rw [initI7, h.params, h.cfg, inFlight_success _ _ (.inl h.not_halted) hp]
    exact congrArg (fun d => { u with rx := s.rxClaimed, sync := { u.sync with d := d, i := 0, step := 8 } }) hslot
  refine ⟨h.step_eq.trans (congrArg _ (hI.trans hdone)), h.next ?_ rfl rfl h.tx_eq⟩
  constructor <;> rfl

end

end Sys2Proof.Machine
end

section
/-! PROOF. The loop of I8 in an undisturbed `INITIALIZE` (41_engine_ops.md R71, R152): one slot per micro-step. -/

namespace Sys2Proof.Machine

/-- The buffer address of slot `i` (R71). -/
def State.bufferAt (s : State) (i : Nat) : Word := s.sync.cfg.rxBufBase + BitVec.ofNat 32 i * s.sync.cfg.bufSize

/-- After `k` iterations of I8: the registers, and the fields of the slots. -/
structure Provisioning (s u : State) (k : Nat) : Prop where
  stage : InitStage s u (if k < (rxSlots s.params s.sync.cfg).toNat then 8 else 9) s.rxClaimed s.tx
  d : u.sync.d = 0
  i : u.sync.i = BitVec.ofNat 16 k
  bufAddr : ∀ j < k, u.getField .rx j .bufAddr = s.bufferAt j
  length : ∀ j < k, u.getField .rx j .length = s.sync.cfg.bufSize
  ctrl : ∀ j < (rxSlots s.params s.sync.cfg).toNat, u.getField .rx j .ctrl = 0

/-- The two field writes of an iteration. -/
def State.provide (u : State) (i : Nat) (a l : Word) : State :=
  (u.setField .rx i .bufAddr a).setField .rx i .length l

section
variable (u : State) (i : Nat) (a l : Word)

theorem provide_sameButMemory : SameButMemory u (u.provide i a l) :=
  SameButMemory.trans (setField_sameButMemory u .rx i .bufAddr a) (setField_sameButMemory ..)

theorem getField_provide_bufAddr : (u.provide i a l).getField .rx i .bufAddr = a := by
  rw [State.provide, State.getField_setField_ne _ _ _ _ (by decide), State.getField_setField]

theorem getField_provide_length : (u.provide i a l).getField .rx i .length = l := State.getField_setField ..

variable {u i}

theorem getField_provide_other (hok : u.rx.Ok) {j : Nat} (hi : i < u.rx.size) (hj : j < u.rx.size) {f : BdField}
    (hne : j ≠ i ∨ f = .ctrl) : (u.provide i a l).getField .rx j f = u.getField .rx j f := by
  have hother : ∀ {g : BdField}, g ≠ .ctrl → j ≠ i ∨ f ≠ g := fun hg =>
    hne.imp_right fun hf => by rw [hf]; exact hg.symm
  have hlength := getField_setField_other (s := u.setField .rx i .bufAddr a) (x := .rx) (f := .length) (g := f)
    (by simpa using hok) l (by simpa using hi) (by simpa using hj) (hother (by decide))
  exact hlength.trans (getField_setField_other (x := .rx) hok a hi hj (hother (by decide)))

end

section
variable {s u : State} {k : Nat}

theorem Provisioning.rx_ok (h : Provisioning s u k) (hs : s.CanInit) : u.rx.Ok := by
  rw [h.stage.rx_eq]
  exact hs.rxClaimed_ok

theorem Provisioning.size_eq (h : Provisioning s u k) : u.rx.size = (rxSlots s.params s.sync.cfg).toNat := by
  rw [h.stage.rx_eq]
  rfl

theorem Provisioning.slots_eq (h : Provisioning s u k) : rxSlots u.params u.cfg = rxSlots s.params s.sync.cfg := by
  rw [h.stage.params, h.stage.cfg]

theorem Provisioning.slotIndex (h : Provisioning s u k) (hk : k < (rxSlots s.params s.sync.cfg).toNat) :
    initSlotIndex u = k := by
  have hlt := hk.trans (BitVec.isLt _)
  rw [initSlotIndex, h.d, h.i, h.slots_eq, BitVec.toNat_ofNat, Nat.mod_eq_of_lt hlt]
  exact (congrArg (· % _) (Nat.zero_add k)).trans (Nat.mod_eq_of_lt hk)

theorem Provisioning.bufAddr_eq (h : Provisioning s u k) (hk : k < (rxSlots s.params s.sync.cfg).toNat) :
    initBufAddr u = s.bufferAt k := by
  have hlt : k < 2 ^ 16 := hk.trans (BitVec.isLt _)
  have hwide : (BitVec.ofNat 16 k).zeroExtend 32 = BitVec.ofNat 32 k := by
    apply BitVec.eq_of_toNat_eq
    simp only [BitVec.toNat_setWidth, BitVec.toNat_ofNat]
    omega
  rw [initBufAddr, h.i, hwide, h.stage.cfg]
  rfl

/-- Every slot of the ring is reserved. -/
theorem Provisioning.reserved (h : Provisioning s u k) (hs : s.CanInit) {j : Nat}
    (hj : j < (rxSlots s.params s.sync.cfg).toNat) : u.rx.slotState j = .reserved := by
  have hpre : s.rxClaimed.preCnt.toNat = (rxSlots s.params s.sync.cfg).toNat :=
    congrArg BitVec.toNat (show (0 : Half) + rxSlots s.params s.sync.cfg = _ by simp)
  have hslot : (s.rxClaimed.preHead + j) % s.rxClaimed.size = j := by
    rw [preHead_rxClaimed, Nat.zero_add]
    exact Nat.mod_eq_of_lt hj
  rw [h.stage.rx_eq, ← hslot]
  exact hs.rxClaimed_ok.slotState_reserved (by rw [hpre]; exact hj)

theorem Provisioning.index_lt (h : Provisioning s u k) (hk : k < (rxSlots s.params s.sync.cfg).toNat) :
    u.sync.i < rxSlots u.params u.cfg := by
  rw [h.slots_eq, h.i, BitVec.lt_def, BitVec.toNat_ofNat, Nat.mod_eq_of_lt (hk.trans (BitVec.isLt _))]
  exact hk

/-- One iteration of I8. -/
theorem Provisioning.provides (h : Provisioning s u k) (hs : s.CanInit)
    (hk : k < (rxSlots s.params s.sync.cfg).toNat) :
    initI8 u = initNextSlot (u.provide k (s.bufferAt k) s.sync.cfg.bufSize) := by
  have hslot := h.slotIndex hk
  have hcreated : u.rx.created = true := by rw [h.stage.rx_eq]; rfl
  have hidx : u.rx.idx (u.rx.slotAddr k) = some k :=
    (h.rx_ok hs).idx_slotAddr (by rw [h.size_eq]; exact hk)
  have haddr := primBdSetAddr_succeeds (s := u) (x := .rx) (a := s.bufferAt k) hcreated hidx (h.reserved hs hk)
  have hlen := primBdSetLen_succeeds (s := u.setField .rx k .bufAddr (s.bufferAt k)) (x := .rx)
    (d := u.rx.slotAddr k) (len := u.cfg.bufSize) hcreated hidx (h.reserved hs hk)
    (by rw [State.setField_ring, State.ring_rx, h.stage.rx_eq, h.stage.cfg]; exact hs.bufFits)
  rw [initI8, if_pos (h.index_lt hk), hslot, h.bufAddr_eq hk, inFlight_success _ _ (.inl h.stage.not_halted) haddr]
  change State.inFlight (u.setField .rx k .bufAddr (s.bufferAt k)) false
    (primBdSetLen .rx (u.rx.slotAddr (initSlotIndex u)) u.cfg.bufSize) (fun _ s => initNextSlot s) failInit = _
  rw [hslot, State.provide, ← h.stage.cfg]
  exact inFlight_success (fun _ s => initNextSlot s) _ (.inl h.stage.not_halted) hlen

theorem Provisioning.next (h : Provisioning s u k) (hs : s.CanInit) (hk : k < (rxSlots s.params s.sync.cfg).toNat) :
    Provisioning s (initNextSlot (u.provide k (s.bufferAt k) s.sync.cfg.bufSize)) (k + 1) := by
  have hsame := provide_sameButMemory u k (s.bufferAt k) s.sync.cfg.bufSize
  have hlt : ∀ {j}, j < (rxSlots s.params s.sync.cfg).toNat → j < u.rx.size := fun hj => by
    rw [h.size_eq]; exact hj
  have hi : BitVec.ofNat 16 k + 1 = BitVec.ofNat 16 (k + 1) := (BitVec.ofNat_add ..).symm
  have hmore : BitVec.ofNat 16 (k + 1) < rxSlots s.params s.sync.cfg ↔ k + 1 < (rxSlots s.params s.sync.cfg).toNat := by
    rw [BitVec.lt_def, BitVec.toNat_ofNat, Nat.mod_eq_of_lt (lt_of_le_of_lt hk (BitVec.isLt _))]
  have hcount : (u.provide k (s.bufferAt k) s.sync.cfg.bufSize).sync.i + 1 = BitVec.ofNat 16 (k + 1) := by
    rw [← hi, ← h.i]
    rfl
  have hslots : rxSlots (u.provide k (s.bufferAt k) s.sync.cfg.bufSize).params
      (u.provide k (s.bufferAt k) s.sync.cfg.bufSize).cfg = rxSlots s.params s.sync.cfg := h.slots_eq
  have hkeep : ∀ j f, (initNextSlot (u.provide k (s.bufferAt k) s.sync.cfg.bufSize)).getField .rx j f =
      (u.provide k (s.bufferAt k) s.sync.cfg.bufSize).getField .rx j f := fun _ _ => rfl
  have hnext : Upkeep u (initNextSlot (u.provide k (s.bufferAt k) s.sync.cfg.bufSize)) := by
    refine (Upkeep.of_same hsame).trans ?_
    constructor <;> rfl
  refine ⟨h.stage.next hnext ?_ h.stage.rx_eq h.stage.tx_eq, h.d, hcount, fun j hj => ?_, fun j hj => ?_, fun j hj => ?_⟩
  · simp only [initNextSlot, hcount, hslots, hmore]
  · by_cases hjk : j = k
    · rw [hkeep, hjk, getField_provide_bufAddr]
    · rw [hkeep, getField_provide_other _ _ (h.rx_ok hs) (hlt hk) (hlt (by omega)) (.inl hjk)]
      exact h.bufAddr j (by omega)
  · by_cases hjk : j = k
    · rw [hkeep, hjk, getField_provide_length]
    · rw [hkeep, getField_provide_other _ _ (h.rx_ok hs) (hlt hk) (hlt (by omega)) (.inl hjk)]
      exact h.length j (by omega)
  · rw [hkeep, getField_provide_other _ _ (h.rx_ok hs) (hlt hk) (hlt hj) (.inr rfl)]
    exact h.ctrl j hj

/-- The loop of I8. -/
theorem steps_provide (hs : s.CanInit) (h : Provisioning s u 0) :
    ∀ k ≤ (rxSlots s.params s.sync.cfg).toNat, ∃ v, steps k u = .next v ∧ Provisioning s v k := by
  intro k hk
  induction k with
  | zero => exact ⟨u, rfl, h⟩
  | succ k ih =>
    obtain ⟨v, hsteps, hv⟩ := ih (Nat.le_of_succ_le hk)
    have hI : initStep v = initI8 v := by simp [initStep, hv.stage.at_step, if_pos (Nat.lt_of_succ_le hk)]
    have hstep := hv.stage.step_eq
    rw [hI, hv.provides hs hk] at hstep
    exact ⟨_, (steps_add k 1 hsteps).trans (steps_succ_of_next 0 hstep), hv.next hs hk⟩

end

end Sys2Proof.Machine
end

section
/-! PROOF. The micro-steps I9 to I17 of an undisturbed `INITIALIZE`, and the whole operation (41_engine_ops.md R152 to
R154). -/

namespace Sys2Proof.Machine

/-! ### The records of the two rings -/

theorem getField_of_memHw {s t : State} {x : Ring} {i : Nat} (ha : (t.ring x).slotAddr i = (s.ring x).slotAddr i)
    (hm : t.memHw = s.memHw) (f : BdField) : t.getField x i f = s.getField x i f :=
  getField_congr ha fun _ _ => by rw [State.peek_hw, State.peek_hw, hm]

/-- Every RX slot describes its buffer. -/
def RxBuilt (s u : State) : Prop :=
  ∀ i < (rxSlots s.params s.sync.cfg).toNat, u.getField .rx i .bufAddr = s.bufferAt i ∧
    u.getField .rx i .length = s.sync.cfg.bufSize ∧ u.getField .rx i .ctrl = 0 ∧ u.getField .rx i .sts = 0

/-- Every TX record is clear. -/
def TxBuilt (s u : State) : Prop := ∀ i < (txSlots s.params s.sync.cfg).toNat, ∀ f, u.getField .tx i f = 0

theorem RxBuilt.of_memHw {s u v : State} (h : RxBuilt s u) (ha : ∀ i, v.rx.slotAddr i = u.rx.slotAddr i)
    (hm : v.memHw = u.memHw) : RxBuilt s v := fun i hi => by
  have hfield := getField_of_memHw (x := .rx) (ha i) hm
  simp only [hfield]
  exact h i hi

theorem TxBuilt.of_memHw {s u v : State} (h : TxBuilt s u) (ha : ∀ i, v.tx.slotAddr i = u.tx.slotAddr i)
    (hm : v.memHw = u.memHw) : TxBuilt s v := fun i hi f =>
  (getField_of_memHw (x := .tx) (ha i) hm f).trans (h i hi f)

/-- The bytes of a record lie in the ring's region. -/
theorem RingRegs.Ok.inBytes_field {r : RingRegs} (h : r.Ok) (hc : r.created = true) {i k : Nat} (hi : i < r.size)
    (f : BdField) (hk : k < 4) :
    inBytes r.base r.regionSize (r.slotAddr i + f.offset + BitVec.ofNat 32 k) = true := by
  have hplace := f.place_le
  have hstride := h.stride
  have hcovers := h.covers hc hi (k := f.place + k) (by omega)
  rw [fieldByte_eq]
  simpa only [RingRegs.covers, hc, Bool.true_and] using hcovers

/-- A range that does not wrap is an interval of addresses. -/
theorem InRange.bounds {b a : Word} {n : Nat} (h : InRange b n a) (hfits : b.toNat + n ≤ 2 ^ 32) :
    b.toNat ≤ a.toNat ∧ a.toNat < b.toNat + n := by
  obtain ⟨k, hk, rfl⟩ := h
  rw [BitVec.toNat_add, BitVec.toNat_ofNat, Nat.mod_eq_of_lt (a := k) (by omega), Nat.mod_eq_of_lt (by omega)]
  omega

/-- R52: the two descriptor regions have no byte in common. -/
theorem regionsOk_apart {p : Params} {c : EngCfg} (h : regionsOk p c = true) {a : Word}
    (hrx : inBytes c.rxBdBase p.rxBdRegionSize a = true) : ¬inBytes c.txBdBase p.txBdRegionSize a = true := by
  intro htx
  obtain ⟨hrxFits, htxFits, hapart⟩ := regionsOk_disjoint h
  have hr := ((inBytes_iff ..).1 hrx).bounds hrxFits
  have ht := ((inBytes_iff ..).1 htx).bounds htxFits
  omega

/-! ### I9 to I11: the RX ring posted and running -/

section
variable {s u : State}

theorem Provisioning.start (h : InitStage s u 7 s.rxFresh s.tx) (hs : s.CanInit)
    (hzero : ∀ i < (rxSlots s.params s.sync.cfg).toNat, ∀ f, u.getField .rx i f = 0) :
    Provisioning s (u.initReserved s.rxClaimed) 0 := by
  obtain ⟨-, hstage⟩ := h.reservesRx hs
  have hpos : 0 < (rxSlots s.params s.sync.cfg).toNat := hs.rxClaimed_ok.nonempty
  have hfield : ∀ i f, (u.initReserved s.rxClaimed).getField .rx i f = u.getField .rx i f := fun i f =>
    getField_of_memHw (s := u) (t := u.initReserved s.rxClaimed) (x := .rx)
      (by rw [State.ring_rx, State.ring_rx, h.rx_eq]; rfl) rfl f
  refine ⟨?_, rfl, rfl, fun j hj => absurd hj (Nat.not_lt_zero j), fun j hj => absurd hj (Nat.not_lt_zero j),
    fun j hj => (hfield ..).trans (hzero j hj _)⟩
  rw [if_pos hpos]
  exact hstage

theorem Provisioning.commits (h : Provisioning s u (rxSlots s.params s.sync.cfg).toNat) (hs : s.CanInit) :
    ∃ v, step u = .next v ∧ InitStage s v 10 s.rxPosted s.tx ∧ RxBuilt s v := by
  have hstage := h.stage
  rw [if_neg (Nat.lt_irrefl _)] at hstage
  have hok : (u.ring .rx).Ok := h.rx_ok hs
  have hI : initStep u = initPrim (primCommit .rx (rxSlots s.params s.sync.cfg) (u.rx.slotAddr 0)) 10 u := by
    simp [initStep, hstage.at_step, initI9, h.slots_eq, h.d]
  have hpre : (u.ring .rx).preHead = 0 := by
    rw [State.ring_rx, hstage.rx_eq]
    exact preHead_rxClaimed s
  have hslot : ∀ j < (rxSlots s.params s.sync.cfg).toNat,
      batchSlot (u.ring .rx).size (u.ring .rx).preHead j = j := fun j hj => by
    rw [hpre, State.ring_rx, h.size_eq, batchSlot, Nat.zero_add, Nat.mod_eq_of_lt hj]
  have hp : primCommit .rx (rxSlots s.params s.sync.cfg) (u.rx.slotAddr 0) u =
      (Reply.ok [], u.commitBatch .rx (rxSlots s.params s.sync.cfg)) := by
    refine primCommit_batch (x := .rx) ?_ hs.rxSlots ?_ ?_ fun j hj => ?_
    · rw [State.ring_rx, hstage.rx_eq]
      rfl
    · rw [State.ring_rx, hstage.rx_eq]
      change _ ≤ (0 : Half) + rxSlots s.params s.sync.cfg
      simp
    · rw [hpre]
      exact hok.idx_slotAddr hok.nonempty
    · rw [hslot j hj, h.length j hj, State.ring_rx, hstage.rx_eq]
      exact ⟨hs.bufSize, hs.bufFits⟩
  obtain ⟨hstep, hnext⟩ := hstage.prim hI (.refl u) hp (.commitBatch ..) (rx' := s.rxPosted) (tx' := s.tx)
    ((commitBatch_ring u .rx _).trans (by rw [State.ring_rx, hstage.rx_eq]; rfl))
    ((commitBatch_ring_ne u (x := .rx) (y := .tx) _ (by decide)).trans hstage.tx_eq)
  have hfield : ∀ i < (rxSlots s.params s.sync.cfg).toNat, ∀ f ≠ BdField.sts,
      (u.commitBatch .rx (rxSlots s.params s.sync.cfg)).getField .rx i f = u.getField .rx i f := fun i hi f hf =>
    commitBatch_getField_other hok _ (by rw [State.ring_rx, h.size_eq]; exact hi) hf
  refine ⟨_, hstep, hnext, fun i hi => ⟨(hfield i hi _ (by decide)).trans (h.bufAddr i hi),
    (hfield i hi _ (by decide)).trans (h.length i hi), (hfield i hi _ (by decide)).trans (h.ctrl i hi), ?_⟩⟩
  have hsts := commitBatch_getField_sts hok hi
  rw [hslot i hi] at hsts
  exact hsts

/-- The RX ring's registers once it runs. -/
def State.rxRunning (s : State) : RingRegs := { s.rxPosted with irqEn := 7, run := true }

/-- The TX ring's registers once it runs. -/
def State.txRunning (s : State) : RingRegs := { s.txFresh with irqEn := 7, run := true }

theorem InitStage.enablesRx (h : InitStage s u 10 s.rxPosted s.tx) (hb : RxBuilt s u) :
    ∃ v, step u = .next v ∧ InitStage s v 11 { s.rxPosted with irqEn := 7 } s.tx ∧ RxBuilt s v := by
  have hI : initStep u = initPrim (primIrqEnable .rx irqAll) 11 u := by simp [initStep, h.at_step, initI10]
  obtain ⟨hstep, hnext⟩ := h.prim hI (.refl u) (primIrqEnable_irqAll .rx u) (.setRing ..)
    (congrArg (fun r : RingRegs => { r with irqEn := 7 }) h.rx_eq) h.tx_eq
  exact ⟨_, hstep, hnext, hb.of_memHw (fun _ => rfl) rfl⟩

theorem InitStage.startsRx (h : InitStage s u 11 { s.rxPosted with irqEn := 7 } s.tx) (hb : RxBuilt s u) :
    ∃ v, step u = .next v ∧ InitStage s v 12 s.rxRunning s.tx ∧ RxBuilt s v := by
  have hp := primStart_succeeds (s := u) (x := .rx) (by rw [State.ring_rx, h.rx_eq]; rfl)
  have hI : initStep u =
      (((u.beginFraming .rx).setRing .rx { u.ring .rx with run := true }).setBusy none).goStep 12 := by
    have h11 : initStep u = initI11 u := by simp [initStep, h.at_step]
    exact h11.trans (inFlight_success _ _ (.inl h.not_halted) hp)
  obtain ⟨hstep, hnext⟩ := h.goes hI
    (((Upkeep.beginFraming ..).trans (.setRing ..)).trans (.setBusy ..)) (rx' := s.rxRunning) (tx' := s.tx)
    (congrArg (fun r : RingRegs => { r with run := true }) h.rx_eq) ((State.beginFraming_tx u .rx).trans h.tx_eq)
  exact ⟨_, hstep, hnext, hb.of_memHw (fun _ => rfl) (State.beginFraming_memHw u .rx)⟩

/-! ### I12 to I16: the TX ring created, cleared and running -/

theorem InitStage.masksTx (h : InitStage s u 12 s.rxRunning s.tx) (hb : RxBuilt s u) :
    ∃ v, step u = .next v ∧ InitStage s v 13 s.rxRunning { s.tx with irqEn := 0 } ∧ RxBuilt s v := by
  have hI : initStep u = initPrim (primIrqDisable .tx irqAll) 13 (u.setBusy (some .tx)) := by
    simp [initStep, h.at_step, initI12]
  obtain ⟨hstep, hnext⟩ := h.prim hI (.setBusy u _) (primIrqDisable_irqAll .tx _) (.setRing ..) h.rx_eq
    (congrArg (fun r : RingRegs => { r with irqEn := 0 }) h.tx_eq)
  exact ⟨_, hstep, hnext, hb.of_memHw (fun _ => rfl) rfl⟩

theorem InitStage.createsTx (h : InitStage s u 13 s.rxRunning { s.tx with irqEn := 0 }) (hs : s.CanInit)
    (hb : RxBuilt s u) : ∃ v, step u = .next v ∧ InitStage s v 14 s.rxRunning s.txFresh ∧ RxBuilt s v := by
  have hI : initStep u = initPrim (primCreate .tx (txSlots s.params s.sync.cfg) s.sync.cfg.txBdBase
      s.params.txBdRegionSize s.params.bdAlign s.sync.lookup.maxLenTx) 14 u := by
    simp [initStep, h.at_step, initI13, h.params, h.cfg, h.lookup]
  have hrun : (u.ring .tx).run = false := by
    rw [State.ring_tx, h.tx_eq]
    exact hs.txRun
  obtain ⟨hstep, hnext⟩ := h.prim hI (.refl u)
    (primCreate_succeeds hrun hs.txSlots hs.maxLenTx hs.align hs.power hs.txAligned hs.txHolds
      ((Nat.add_le_add_left hs.txHolds _).trans (regionsOk_disjoint hs.regions).2.1))
    ((Upkeep.setRing ..).trans (.dropMarks ..)) h.rx_eq
    (congrArg (fun r : RingRegs => r.recreate (txSlots s.params s.sync.cfg) s.sync.cfg.txBdBase
      s.params.txBdRegionSize s.params.bdAlign s.sync.lookup.maxLenTx) h.tx_eq)
  exact ⟨_, hstep, hnext, hb.of_memHw (fun _ => rfl) rfl⟩

/-- Clearing the TX records leaves the RX records alone, which lie in another region (R52). -/
theorem InitStage.clearsTx (h : InitStage s u 14 s.rxRunning s.txFresh) (hs : s.CanInit) (hb : RxBuilt s u) :
    ∃ v, step u = .next v ∧ InitStage s v 15 s.rxRunning s.txFresh ∧ RxBuilt s v ∧ TxBuilt s v := by
  have hI : initStep u = initPrim (primInitSlots .tx 0 0 0 0) 15 u := by simp [initStep, h.at_step, initI14]
  have hp := primInitSlots_succeeds (s := u) (x := .tx) (b := 0) (l := 0) (c := 0) (t := 0)
    (by rw [State.ring_tx, h.tx_eq]; rfl) (by rw [State.ring_tx, h.tx_eq]; rfl) (BitVec.le_def.2 (Nat.zero_le _))
    (by decide) (by decide)
  have hok : (u.ring .tx).Ok := by
    rw [State.ring_tx, h.tx_eq]
    exact hs.txFresh_ok
  have hsize : (u.ring .tx).size = (txSlots s.params s.sync.cfg).toNat := by
    rw [State.ring_tx, h.tx_eq]
    rfl
  have hfield := fun i hi f => getField_initSlots (i := i) hok 0 0 0 0 hi f
  have hsame := initSlots_sameButMemory u .tx 0 0 0 0 (u.ring .tx).size
  have hkept := initSlots_bytesKept u .tx 0 0 0 0 (u.ring .tx).size
  generalize (List.range (u.ring .tx).size).foldl (fun s i => s.setRecord .tx 0 0 0 0 i) u = v at *
  have hrx : v.rx = u.rx := hsame.same State.rx rfl
  have hother : ∀ i < (rxSlots s.params s.sync.cfg).toNat, ∀ f, v.getField .rx i f = u.getField .rx i f := by
    refine fun i hi f => hkept.getField (by rw [State.ring_rx, State.ring_rx, hrx]) ?_
    rintro k hk ⟨j, hj, g, n, hn, heq⟩
    have hin := RingRegs.Ok.inBytes_field (r := s.rxClaimed) hs.rxClaimed_ok rfl (i := i) hi f hk
    have hout := RingRegs.Ok.inBytes_field hok (by rw [State.ring_tx, h.tx_eq]; rfl) hj g hn
    rw [State.ring_rx, h.rx_eq] at heq
    rw [← heq, State.ring_tx, h.tx_eq] at hout
    exact regionsOk_apart hs.regions hin hout
  obtain ⟨hstep, hstage⟩ := h.prim hI (.refl u) hp (.of_same hsame) (hrx.trans h.rx_eq)
    ((hsame.same State.tx rfl).trans h.tx_eq)
  refine ⟨_, hstep, hstage, RxBuilt.of_memHw (u := v) (fun i hi => ?_) (fun _ => rfl) rfl, fun i hi f => ?_⟩
  · simp only [hother i hi]
    exact hb i hi
  · have hzero : templateWord 0 0 0 0 f = 0 := by cases f <;> rfl
    exact (hfield i (by rw [hsize]; exact hi) f).trans hzero

theorem InitStage.enablesTx (h : InitStage s u 15 s.rxRunning s.txFresh) (hb : RxBuilt s u) (ht : TxBuilt s u) :
    ∃ v, step u = .next v ∧ InitStage s v 16 s.rxRunning { s.txFresh with irqEn := 7 } ∧ RxBuilt s v ∧ TxBuilt s v := by
  have hI : initStep u = initPrim (primIrqEnable .tx irqAll) 16 u := by simp [initStep, h.at_step, initI15]
  obtain ⟨hstep, hnext⟩ := h.prim hI (.refl u) (primIrqEnable_irqAll .tx u) (.setRing ..) h.rx_eq
    (congrArg (fun r : RingRegs => { r with irqEn := 7 }) h.tx_eq)
  exact ⟨_, hstep, hnext, hb.of_memHw (fun _ => rfl) rfl, ht.of_memHw (fun _ => rfl) rfl⟩

theorem InitStage.startsTx (h : InitStage s u 16 s.rxRunning { s.txFresh with irqEn := 7 }) (hb : RxBuilt s u)
    (ht : TxBuilt s u) : ∃ v, step u = .next v ∧ InitStage s v 17 s.rxRunning s.txRunning ∧ RxBuilt s v ∧
      TxBuilt s v ∧ v.sync.busyRing = none := by
  have hp := primStart_succeeds (s := u) (x := .tx) (by rw [State.ring_tx, h.tx_eq]; rfl)
  have hI : initStep u =
      (((u.beginFraming .tx).setRing .tx { u.ring .tx with run := true }).setBusy none).goStep 17 := by
    have h16 : initStep u = initI16 u := by simp [initStep, h.at_step]
    exact h16.trans (inFlight_success _ _ (.inl h.not_halted) hp)
  obtain ⟨hstep, hnext⟩ := h.goes hI
    (((Upkeep.beginFraming ..).trans (.setRing ..)).trans (.setBusy ..)) (rx' := s.rxRunning) (tx' := s.txRunning)
    h.rx_eq (congrArg (fun r : RingRegs => { r with run := true }) h.tx_eq)
  exact ⟨_, hstep, hnext, hb.of_memHw (fun _ => rfl) rfl, ht.of_memHw (fun _ => rfl) rfl, rfl⟩

/-! ### I17, and the whole operation -/

/-- The end of an `INITIALIZE` that succeeds. -/
def State.initialized (u : State) : State :=
  ({ u with engState := .ready }.emit (.ret 0x20 .success [])).endSync

theorem InitStage.ends (h : InitStage s u 17 s.rxRunning s.txRunning) : step u = .next u.initialized := by
  have hI : initStep u = initI17 u := initStep_seventeen h.at_step
  exact h.step_eq.trans (congrArg _ (hI.trans (if_neg h.not_halted)))

/-- I0 to I9: the RX ring is built. -/
theorem steps_rxBuilt (hs : s.CanInit) : ∃ v, steps (9 + (rxSlots s.params s.sync.cfg).toNat) s = .next v ∧
    InitStage s v 10 s.rxPosted s.tx ∧ RxBuilt s v := by
  obtain ⟨u₄, h₃, hu₄⟩ := steps_lookup hs
  obtain ⟨u₅, h₄, hu₅⟩ := hu₄.masksRx hs
  obtain ⟨u₆, h₅, hu₆⟩ := hu₅.createsRx hs
  obtain ⟨u₇, h₆, hu₇, hzero⟩ := hu₆.clearsRx hs
  obtain ⟨h₇, -⟩ := hu₇.reservesRx hs
  obtain ⟨u₉, h₈, hu₉⟩ := steps_provide hs (.start hu₇ hs hzero) _ (Nat.le_refl _)
  obtain ⟨v, h₉, hv, hb⟩ := hu₉.commits hs
  refine ⟨v, ?_, hv, hb⟩
  have hclaimed : steps 8 s = .next (u₇.initReserved s.rxClaimed) :=
    (steps_add 4 4 h₃).trans <| (steps_succ_of_next 3 h₄).trans <| (steps_succ_of_next 2 h₅).trans <|
      (steps_succ_of_next 1 h₆).trans (steps_succ_of_next 0 h₇)
  have hloop := (steps_add 8 _ hclaimed).trans h₈
  rw [show 9 + (rxSlots s.params s.sync.cfg).toNat = 8 + (rxSlots s.params s.sync.cfg).toNat + 1 by omega]
  exact (steps_add _ 1 hloop).trans (steps_succ_of_next 0 h₉)

/-- I10 to I16: both rings run. -/
theorem steps_bothRunning (hs : s.CanInit) (h : InitStage s u 10 s.rxPosted s.tx) (hb : RxBuilt s u) :
    ∃ v, steps 7 u = .next v ∧ InitStage s v 17 s.rxRunning s.txRunning ∧ RxBuilt s v ∧ TxBuilt s v ∧
      v.sync.busyRing = none := by
  obtain ⟨u₁₁, h₁₀, hu, hb⟩ := h.enablesRx hb
  obtain ⟨u₁₂, h₁₁, hu, hb⟩ := hu.startsRx hb
  obtain ⟨u₁₃, h₁₂, hu, hb⟩ := hu.masksTx hb
  obtain ⟨u₁₄, h₁₃, hu, hb⟩ := hu.createsTx hs hb
  obtain ⟨u₁₅, h₁₄, hu, hb, ht⟩ := hu.clearsTx hs hb
  obtain ⟨u₁₆, h₁₅, hu, hb, ht⟩ := hu.enablesTx hb ht
  obtain ⟨v, h₁₆, hu, hb, ht, hbusy⟩ := hu.startsTx hb ht
  exact ⟨v, (steps_succ_of_next 6 h₁₀).trans <| (steps_succ_of_next 5 h₁₁).trans <|
    (steps_succ_of_next 4 h₁₂).trans <| (steps_succ_of_next 3 h₁₃).trans <| (steps_succ_of_next 2 h₁₄).trans <|
      (steps_succ_of_next 1 h₁₅).trans (steps_succ_of_next 0 h₁₆), hu, hb, ht, hbusy⟩

end

theorem rxRunning_eq (s : State) : s.rxRunning =
    { created := true, base := s.sync.cfg.rxBdBase, slotCount := rxSlots s.params s.sync.cfg,
      slotStride := BitVec.ofNat 32 (strideOf s.params.bdAlign), maxLen := s.sync.lookup.maxLenRx,
      regionSize := s.params.rxBdRegionSize, postHead := 0, postCnt := 0, hwCnt := rxSlots s.params s.sync.cfg,
      doneCnt := 0, preCnt := 0, freeCnt := 0, run := true, irqEn := 7, irqPend := s.rx.irqPend } := by
  simp [State.rxRunning, State.rxPosted, State.rxClaimed, State.rxFresh, RingRegs.committed, RingRegs.claimed,
    RingRegs.recreate]

/-- Settles O38. -/
theorem initializeBuildsBothRings : Obligations.InitializeBuildsBothRings := by
  intro s c l p stride hund hstack hop hstep hfound hbind hsg hrxRun htxRun hrxSlots htxSlots hmaxRx hmaxTx halign
    hpower hrxAligned htxAligned hrxHolds htxHolds hbuf hfits hregions
  have hs : s.CanInit := ⟨hund, hstack, hop, hstep, hfound, hbind, hsg, hrxRun, htxRun, hrxSlots, htxSlots, hmaxRx,
    hmaxTx, halign, hpower, hrxAligned, htxAligned, hrxHolds, htxHolds, hbuf, hfits, hregions⟩
  obtain ⟨u, hfirst, hu, hb⟩ := steps_rxBuilt hs
  obtain ⟨v, hsecond, hv, hb, ht, hbusy⟩ := steps_bothRunning hs hu hb
  refine ⟨v.initialized, ?_, rfl, hv.cfg, hv.cfgValid, ?_, rfl, hbusy, ?_, hv.rx_eq.trans (rxRunning_eq s), hv.tx_eq,
    hb.of_memHw (fun _ => rfl) rfl, ht.of_memHw (fun _ => rfl) rfl⟩
  · rw [show 17 + (rxSlots p c).toNat = 9 + (rxSlots p c).toNat + 8 by omega]
    exact (steps_add _ 8 hfirst).trans ((steps_add 7 1 hsecond).trans (steps_succ_of_next 0 hv.ends))
  · change v.stack.dropLast = []
    rw [hv.stack]
    rfl
  · change v.out ++ [.ret 0x20 .success []] = _
    rw [hv.out]

end Sys2Proof.Machine
end
